-- ==== Sys2Proof/Word.lean ====
section
/-!
DEFINITION. The widths of the machine (spec/00_scope.md rule R14: bits numbered from 0 at the least significant end;
all register values are 32 bits wide).
-/

namespace Sys2Proof

/-- One payload, FIFO or flash byte. -/
abbrev Byte := BitVec 8

/-- One LUT16 instruction half (R111). -/
abbrev Half := BitVec 16

/-- A register value, a LUT word, a request word (R14, R114, R130). -/
abbrev Word := BitVec 32

end Sys2Proof
end

