-- ==== Sys2Proof/Config.lean ====
section
/-!
DEFINITION. What is fixed when the engine is instantiated (spec/00_scope.md rules R11, R12): the parameters, and the
free values (R15 `draw`): constants without a body, of which nothing can be proved.
-/

namespace Sys2Proof

/-- The Mode/Execution Tag (R324): the two implemented combinations. -/
inductive ModeTag where
  | ramBlocking
  | xipBlocking
deriving DecidableEq, Repr

/-- "transfer-mode" of a Logical Command (R121): single or double data rate. -/
inductive Rate where
  | sdr
  | ddr
deriving DecidableEq, Repr

/-- "direction" of a Logical Command (R121). -/
inductive Dir where
  | read
  | write
deriving DecidableEq, Repr

/-- The sixteen command kinds (R122). -/
inductive Kind where
  | writeEnable
  | readStatus
  | eraseSector
  | pageProgram
  | readId
  | fastRead
  | resetEnable
  | resetDevice
  | readCfg1
  | readCfg2
  | readCfg3
  | writeCfg1
  | writeCfg2
  | writeCfg3
  | powerUp
  | powerDown
deriving DecidableEq, Repr

/-- A Logical Command (R121). `aw` is the address width in bytes and `width` the number of pads; R124 says which
values are well formed. -/
structure LogicalCommand where
  oplo : Byte
  ophi : Byte
  aw : Option Nat
  mode : Rate
  dummy : Option Byte
  dir : Dir
  width : Nat
deriving DecidableEq, Repr

/-- The two bus ports (R10). -/
inductive Port where
  | a
  | b
deriving DecidableEq, Repr

/-- `BINDING`, the Port/Device Binding (R262). `inst` is the device instance; the numbers carry the ranges R262 gives,
which DEVCFG checks. -/
structure Binding where
  port : Port
  inst : Fin 2
  busWidth : Nat
  flashSizeKb : Nat
  csIntervalUnit : Nat
  csInterval : Nat
  csHold : Nat
  csSetup : Nat
  wordAddressing : Nat
  writeMask : Nat
  ardSeqId : Nat
  ardSeqCount : Nat
  awrSeqId : Nat
  awrSeqCount : Nat
  cas : Nat
  awrWaitUnit : Nat
deriving DecidableEq, Repr

/-- The parameters of one instance (R11, R12): immutable, read by every step, written by none. `wm` is
`WATERMARK_BYTES / 8 - 1` (R210), so that every value is a legal watermark. `slotOf` and `cmdTable` are indexed by the
kind's code (R122). `flashModel` says whether BACKEND has a flash model for window accesses (R83). -/
structure Params where
  regBase : Word
  winBase : Nat
  winSize : Nat
  pollLimit : Option Nat
  settleCycles : Nat
  modeTag : ModeTag
  cmdTable : Vector (Option LogicalCommand) 16
  slotOf : Vector (Fin 30) 16
  wm : Fin 16
  binding : Binding
  statusLen : BitVec 16
  idLen : BitVec 16
  cfgLen : BitVec 16
  wipBit : Fin 8
  lutKey : Word
  flashModel : Bool
deriving DecidableEq, Repr

/-- The default slot assignment (R123): slot = kind code. -/
def defaultSlots : Vector (Fin 30) 16 :=
  #v[0, 1, 2, 3, 4, 5, 6, 7, 8, 9, 10, 11, 12, 13, 14, 15]

/-- A one-pad SDR command with opcode byte `op` and no address phase, as several rows of the illustrative table are. -/
def plainCommand (op : Byte) (dummy : Option Byte) (dir : Dir) : LogicalCommand :=
  ⟨op, 0, none, .sdr, dummy, dir, 1⟩

/-- An eight-pad DDR command with a four-byte address, as the other rows of the illustrative table are. -/
def octalCommand (lo hi : Byte) (dummy : Option Byte) (dir : Dir) : LogicalCommand :=
  ⟨lo, hi, some 4, .ddr, dummy, dir, 8⟩

/-- The illustrative command table T of spec/95_test_vectors.md section 5.1. The command table "must be given" (R12) and
the spec gives no default: it stands in `State.reset` by the model's choice (log entry 4). -/
def illustrativeTable : Vector (Option LogicalCommand) 16 :=
  #v[some (plainCommand 0x06 none .write),
     some (octalCommand 0x05 0xFA (some 4) .read),
     some (octalCommand 0x21 0xDE none .write),
     some (octalCommand 0x12 0xED none .write),
     some (octalCommand 0x9F 0x60 (some 4) .read),
     some (octalCommand 0xEE 0x11 (some 20) .read),
     some (plainCommand 0x66 none .write),
     some (plainCommand 0x99 none .write),
     some (plainCommand 0x15 none .read),
     some (octalCommand 0x71 0x8E (some 4) .read),
     none,
     some (plainCommand 0x01 none .write),
     some (octalCommand 0x72 0x8D none .write),
     none,
     some (plainCommand 0xAB none .write),
     some (plainCommand 0xB9 (some 0) .write)]

/-- The binding of the worked example R278; it "must be given" (R12), and stands in `State.reset` by the model's choice
(log entry 4). -/
def illustrativeBinding : Binding where
  port := .a
  inst := 0
  busWidth := 8
  flashSizeKb := 0x10000
  csIntervalUnit := 0
  csInterval := 2
  csHold := 3
  csSetup := 3
  wordAddressing := 0
  writeMask := 1
  ardSeqId := 5
  ardSeqCount := 1
  awrSeqId := 3
  awrSeqCount := 1
  cas := 0
  awrWaitUnit := 2

/-- The parameters `State.reset` carries: the defaults of R11 and R12, and for those the spec leaves open or gives no
default for, the model's choice (log entry 4). No statement rests on these values. -/
def defaultParams : Params where
  regBase := 0x40000000
  winBase := 0x10000000
  winSize := 0x04000000
  pollLimit := none
  settleCycles := 100
  modeTag := .ramBlocking
  cmdTable := illustrativeTable
  slotOf := defaultSlots
  wm := 0
  binding := illustrativeBinding
  statusLen := 1
  idLen := 3
  cfgLen := 1
  wipBit := 0
  lutKey := 0x5AF05AF0
  flashModel := false

/-- The `n`-th drawn register word: a read under `FAULT` (R58), a read of RFDR beyond the fill level (R48), the words of
a slot that does not exist (R37, R140), AHBSPNDSTS (R69), the LUT store after RESET (R72). A free value. -/
opaque Config.freeWord : Nat → Word

/-- The `n`-th drawn byte: a byte a window read returns (R92), a byte BACKEND delivers (R63). A free value. -/
opaque Config.freeByte : Nat → Byte

/-- The `n`-th drawn choice: whether BACKEND makes a move it may make (R69), `LUT_UNLOCKED` after RESET (R72), whether a
buffered write outlasts RESET (log entry 6). A free value. -/
opaque Config.freeBool : Nat → Bool

/-- The interrupt output under `FAULT` (R58, R358) where `n` draws have been taken (log entry 28). A free value, apart from
every other draw. -/
opaque Config.freeIrq : Nat → Bool

/-- Whether BACKEND goes on to the halves of the program `halves` behind its first STOP, or behind its first opcode outside
R112 (R113, R119: "a model must assume neither"; log entry 27). A free value. -/
opaque Config.playsBeyond : List Half → Bool

/-- Whether BACKEND acknowledges a window write at once while the BUFFERABLEEN it uses is open: after a raw write of AHBCR with
MDIS = 0 (R408) or under `FAULT` (R58), where `draws` draws have been taken and `pending` buffered writes are pending (log
entry 31). A free value. -/
opaque Config.freeBuffering (draws pending : Nat) : Bool

/-- Whether BACKEND takes every bank's size and sequences from bank 0 while the SAMEDEVICEEN it uses is open: after a raw write
of MCR2 with MDIS = 0 (R408) or under `FAULT` (R58), where `draws` draws have been taken (log entry 31). A free value. -/
opaque Config.freeSameDevice (draws : Nat) : Bool

/-- The `n`-th drawn sequence position (R53: moved by BACKEND, freely). A free value. -/
opaque Config.freePtr : Nat → Fin 8

end Sys2Proof
end

