-- ==== Sys2Proof/Syntax.lean ====
section
/-!
DEFINITION. The instructions: one constructor for each row of spec/opcode_table.json (R4: the 11 LUT instructions the
builder encodes, R112; the 28 host operations the engine accepts, R132), and the form in which each reaches the machine
(R111, R130).
-/

namespace Sys2Proof

/-- The instructions. A LUT instruction carries its PADS code and its OPERAND byte (R111). A host operation carries its
operands (R131): `kind` is the 5-bit KIND field as it stands in the request, sizes and lengths are the REQ2 word,
`data` a payload of bytes, `record` a payload of record words (R134). -/
inductive Instr where
  | stop (pads : BitVec 2) (operand : Byte)
  | cmdSdr (pads : BitVec 2) (operand : Byte)
  | cmdDdr (pads : BitVec 2) (operand : Byte)
  | raddrSdr (pads : BitVec 2) (operand : Byte)
  | raddrDdr (pads : BitVec 2) (operand : Byte)
  | writeSdr (pads : BitVec 2) (operand : Byte)
  | writeDdr (pads : BitVec 2) (operand : Byte)
  | readSdr (pads : BitVec 2) (operand : Byte)
  | readDdr (pads : BitVec 2) (operand : Byte)
  | dummySdr (pads : BitVec 2) (operand : Byte)
  | dummyDdr (pads : BitVec 2) (operand : Byte)
  | lutb (kind : BitVec 5)
  | ipx (kind : BitVec 5) (addr : Option Word) (size : Word) (data : List Byte)
  | wren
  | wrdi
  | rdsr
  | rdid
  | erase (addr : Word)
  | rsten
  | rst
  | rdcfg1
  | rdcfg2
  | rdcfg3
  | wrcfg1 (len : Word) (data : List Byte)
  | wrcfg2 (len : Word) (data : List Byte)
  | wrcfg3 (len : Word) (data : List Byte)
  | pwrup
  | pwrdn
  | lock
  | unlock
  | xwrite (addr : Word) (data : List Byte)
  | ahbcfg (record : List Word)
  | devcfg (record : List Word)
  | dllcalc (record : List Word)
  | regrd (off : Word)
  | regwr (off : Word) (val : Word)
  | errcls
  | winrd (addr : Word) (n : Word)
  | winwr (addr : Word) (len : Word) (data : List Byte)
deriving DecidableEq, Repr

/-- The payload of a request: bytes, or record words (R130, R131). -/
inductive Payload where
  | bytes (b : List Byte)
  | words (w : List Word)
deriving DecidableEq, Repr

/-- Format HOSTOP (R130): a header word, two operand words and a payload. -/
structure Request where
  req0 : Word
  req1 : Word
  req2 : Word
  payload : Payload
deriving DecidableEq, Repr

/-- An encoded instruction: a LUT16 half (R111), or a host request (R130). -/
inductive Encoded where
  | half (h : Half)
  | request (r : Request)
deriving DecidableEq, Repr

end Sys2Proof
end

