-- ==== Sys2Proof/WellFormed.lean ====
section
/-!
DEFINITION. Which instructions are well formed: the operand column of R112 for the LUT instructions the builder emits,
the operand ranges of R131 and R134 that no parameter decides for the host operations.
-/

namespace Sys2Proof

/-- The largest value of each word of the AHB record (R134): per buffer `master_id`, `size`, `priority`, `prefetch`, then
the ten bus-level words. -/
def ahbRecordBounds : List Nat :=
  (List.replicate 8 [15, 255, 7, 1]).flatten ++ [255, 65535, 255, 1, 1, 1, 1, 1, 1, 1]

/-- The largest value of each word of the controller record (R134). -/
def controllerRecordBounds : List Nat :=
  [3, 4294967295, 4294967295, 1]

/-- A record has one word for each bound, none above its bound (R134). -/
def recordWithin (bounds : List Nat) (record : List Word) : Bool :=
  record.length == bounds.length && (record.zip bounds).all fun wb => decide (wb.1.toNat ≤ wb.2)

/-- The operand R117 lets an address phase have: 8, 16, 24 or 32 bits. -/
def addressBits (x : Byte) : Bool :=
  x == 8 || x == 16 || x == 24 || x == 32

/-- Well-formedness: LUT instructions as R112 and R117 let the builder emit them; host operations with their operands in
the ranges of R131, R134, R170, R196, R247, R248, R250 that no parameter decides. -/
def Instr.wellFormed : Instr → Bool
  | .stop pads x => pads == 0 && x == 0
  | .cmdSdr _ _ => true
  | .cmdDdr _ _ => true
  | .raddrSdr _ x => addressBits x
  | .raddrDdr _ x => addressBits x
  | .writeSdr _ x => x == 0
  | .writeDdr _ x => x == 0
  | .readSdr _ x => x == 0
  | .readDdr _ x => x == 0
  | .dummySdr _ _ => true
  | .dummyDdr _ _ => true
  | .lutb kind => decide (kind.toNat < 16)
  | .ipx kind _ size _ => decide (kind.toNat < 16) && decide (size.toNat < 65536)
  | .wren => true
  | .wrdi => true
  | .rdsr => true
  | .rdid => true
  | .erase _ => true
  | .rsten => true
  | .rst => true
  | .rdcfg1 => true
  | .rdcfg2 => true
  | .rdcfg3 => true
  | .wrcfg1 len data => decide (1 ≤ data.length) && decide (data.length ≤ 4) && decide (len.toNat = data.length)
  | .wrcfg2 len data => decide (1 ≤ data.length) && decide (data.length ≤ 4) && decide (len.toNat = data.length)
  | .wrcfg3 len data => decide (1 ≤ data.length) && decide (data.length ≤ 4) && decide (len.toNat = data.length)
  | .pwrup => true
  | .pwrdn => true
  | .lock => true
  | .unlock => true
  | .xwrite _ data => decide (data.length = 1)
  | .ahbcfg record => recordWithin ahbRecordBounds record
  | .devcfg record => recordWithin controllerRecordBounds record
  | .dllcalc record => recordWithin controllerRecordBounds record
  | .regrd _ => true
  | .regwr _ _ => true
  | .errcls => true
  | .winrd _ n => decide (n.toNat ≠ 0)
  | .winwr _ len data => decide (len.toNat ≠ 0) && decide (len.toNat = data.length)

end Sys2Proof
end

