-- ==== Sys2Proof/Decode.lean ====
section
/-!
DEFINITION. Decoding and encoding: LUT16 halves (R111, R112), host requests (R130 to R132), the packed descriptor DESC32
(R121). Decoding is total: a half with an OPCODE outside R112 decodes to nothing (R142), a request outside R132 or with a
must-be-0 field set is rejected by name (R141).
-/

namespace Sys2Proof

/-! ## LUT16 -/

/-- `I(op, p, x)` of R111: OPCODE 15:10, PADS 9:8, OPERAND 7:0. -/
def lutHalf (op : BitVec 6) (pads : BitVec 2) (x : Byte) : Half :=
  op ++ pads ++ x

/-- The instruction a LUT16 half is, by its OPCODE (R112); none for the reserved opcodes (R113, R142). -/
def decodeLut16 (h : Half) : Option Instr :=
  let pads := h.extractLsb' 8 2
  let x := h.extractLsb' 0 8
  match (h.extractLsb' 10 6).toNat with
  | 0x00 => some (.stop pads x)
  | 0x01 => some (.cmdSdr pads x)
  | 0x21 => some (.cmdDdr pads x)
  | 0x02 => some (.raddrSdr pads x)
  | 0x22 => some (.raddrDdr pads x)
  | 0x08 => some (.writeSdr pads x)
  | 0x28 => some (.writeDdr pads x)
  | 0x09 => some (.readSdr pads x)
  | 0x29 => some (.readDdr pads x)
  | 0x0C => some (.dummySdr pads x)
  | 0x2C => some (.dummyDdr pads x)
  | _ => none

/-! ## Host requests -/

/-- Why a request is not an operation with operands (R141, R320 steps 1 and 3), by name. `badOp` results: the OP names
no operation, a reserved header field is not 0, an operand word the operation does not have is not 0. `strayPayload`:
the operation does not take the payload that came (log entry 16); it carries the operation without it. -/
inductive Reject where
  | unknownOp (op : BitVec 6)
  | reservedField
  | operandNotZero
  | strayPayload (i : Instr)
deriving DecidableEq, Repr

/-- Which payload an operation takes (R131). -/
inductive PayloadForm where
  | none
  | bytes
  | words
deriving DecidableEq, Repr

/-- Which fields of a request an operation uses (R130 to R132); every other field must be 0. REQ1 is an operand of IPX
only when AP = 1 (R131). -/
structure OpShape where
  kind : Bool := false
  ap : Bool := false
  req1 : Bool := false
  req2 : Bool := false
  payload : PayloadForm := .none
deriving DecidableEq, Repr

/-- The shape of each operation code of R132; none for the codes that name no operation. -/
def opShape (op : BitVec 6) : Option OpShape :=
  match op.toNat with
  | 0x01 => some { kind := true }
  | 0x02 => some { kind := true, ap := true, req1 := true, req2 := true, payload := .bytes }
  | 0x03 => some {}
  | 0x04 => some {}
  | 0x05 => some {}
  | 0x06 => some {}
  | 0x07 => some { req1 := true }
  | 0x08 => some {}
  | 0x09 => some {}
  | 0x0A => some {}
  | 0x0B => some {}
  | 0x0C => some {}
  | 0x0D => some { req2 := true, payload := .bytes }
  | 0x0E => some { req2 := true, payload := .bytes }
  | 0x0F => some { req2 := true, payload := .bytes }
  | 0x10 => some {}
  | 0x11 => some {}
  | 0x12 => some {}
  | 0x13 => some {}
  | 0x14 => some { req1 := true, payload := .bytes }
  | 0x18 => some { payload := .words }
  | 0x19 => some { payload := .words }
  | 0x1A => some { payload := .words }
  | 0x1C => some { req1 := true }
  | 0x1D => some { req1 := true, req2 := true }
  | 0x1E => some {}
  | 0x20 => some { req1 := true, req2 := true }
  | 0x21 => some { req1 := true, req2 := true, payload := .bytes }
  | _ => none

/-- The fields of the header word REQ0 (R130). -/
def reqOp (r : Request) : BitVec 6 := r.req0.extractLsb' 0 6

/-- The KIND field, REQ0[12:8] (R130). -/
def reqKind (r : Request) : BitVec 5 := r.req0.extractLsb' 8 5

/-- The AP bit, REQ0[16] (R130). -/
def reqAp (r : Request) : Bool := r.req0.getLsbD 16

/-- REQ0[7:6], REQ0[15:13] and REQ0[31:17] are 0 (R130). -/
def reservedZero (r : Request) : Bool :=
  r.req0.extractLsb' 6 2 == 0 && r.req0.extractLsb' 13 3 == 0 && r.req0.extractLsb' 17 15 == 0

/-- The header fields the operation does not use are 0 (R130, R141). -/
def headerZero (sh : OpShape) (r : Request) : Bool :=
  reservedZero r && (sh.kind || reqKind r == 0) && (sh.ap || !reqAp r)

/-- The operand words the operation does not use are 0 (R131, R141); REQ1 of an operation with AP is used when AP = 1. -/
def operandsZero (sh : OpShape) (r : Request) : Bool :=
  ((sh.req1 && (!sh.ap || reqAp r)) || r.req1 == 0) && (sh.req2 || r.req2 == 0)

/-- The bytes of a payload, for an operation that takes bytes: record words are not bytes, but an empty payload is
either. -/
def Payload.asBytes : Payload → Option (List Byte)
  | .bytes b => some b
  | .words [] => some []
  | .words (_ :: _) => none

/-- The record words of a payload, for an operation that takes a record. -/
def Payload.asWords : Payload → Option (List Word)
  | .words w => some w
  | .bytes [] => some []
  | .bytes (_ :: _) => none

/-- The operation with operation code `op` (R132) and these operands. -/
def makeOp (op : BitVec 6) (kind : BitVec 5) (ap : Bool) (r1 r2 : Word) (data : List Byte) (record : List Word) :
    Option Instr :=
  match op.toNat with
  | 0x01 => some (.lutb kind)
  | 0x02 => some (.ipx kind (if ap then some r1 else none) r2 data)
  | 0x03 => some .wren
  | 0x04 => some .wrdi
  | 0x05 => some .rdsr
  | 0x06 => some .rdid
  | 0x07 => some (.erase r1)
  | 0x08 => some .rsten
  | 0x09 => some .rst
  | 0x0A => some .rdcfg1
  | 0x0B => some .rdcfg2
  | 0x0C => some .rdcfg3
  | 0x0D => some (.wrcfg1 r2 data)
  | 0x0E => some (.wrcfg2 r2 data)
  | 0x0F => some (.wrcfg3 r2 data)
  | 0x10 => some .pwrup
  | 0x11 => some .pwrdn
  | 0x12 => some .lock
  | 0x13 => some .unlock
  | 0x14 => some (.xwrite r1 data)
  | 0x18 => some (.ahbcfg record)
  | 0x19 => some (.devcfg record)
  | 0x1A => some (.dllcalc record)
  | 0x1C => some (.regrd r1)
  | 0x1D => some (.regwr r1 r2)
  | 0x1E => some .errcls
  | 0x20 => some (.winrd r1 r2)
  | 0x21 => some (.winwr r1 r2 data)
  | _ => none

/-- The payload split as the operation takes it: its bytes and its record words, none where the operation does not take
the payload that came. -/
def payloadFor (form : PayloadForm) (p : Payload) : Option (List Byte × List Word) :=
  match form with
  | .none => if p.asBytes = some [] then some ([], []) else none
  | .bytes => p.asBytes.map fun b => (b, [])
  | .words => p.asWords.map fun w => ([], w)

/-- The host operation a request is (R130 to R132), or why it is none (R141). -/
def decodeRequest (r : Request) : Except Reject Instr :=
  match opShape (reqOp r) with
  | none => .error (.unknownOp (reqOp r))
  | some sh =>
    if !headerZero sh r then .error .reservedField
    else if !operandsZero sh r then .error .operandNotZero
    else
      match payloadFor sh.payload r.payload with
      | some (data, record) =>
        match makeOp (reqOp r) (reqKind r) (reqAp r) r.req1 r.req2 data record with
        | some i => .ok i
        | none => .error (.unknownOp (reqOp r))
      | none =>
        match makeOp (reqOp r) (reqKind r) (reqAp r) r.req1 r.req2 [] [] with
        | some i => .error (.strayPayload i)
        | none => .error (.unknownOp (reqOp r))

/-- The instruction an encoded form is. -/
def decode (e : Encoded) : Except Reject Instr :=
  match e with
  | .half h =>
    match decodeLut16 h with
    | some i => .ok i
    | none => .error (.unknownOp (h.extractLsb' 10 6))
  | .request r => decodeRequest r

/-! ## Encoding -/

/-- REQ0 (R130): AP at bit 16, KIND at 12:8, OP at 5:0, every other bit 0. -/
def header (op : BitVec 6) (kind : BitVec 5) (ap : Bool) : Word :=
  (0 : BitVec 15) ++ BitVec.ofBool ap ++ (0 : BitVec 3) ++ kind ++ (0 : BitVec 2) ++ op

/-- A request without operands. -/
def plainRequest (op : BitVec 6) : Request :=
  ⟨header op 0 false, 0, 0, .bytes []⟩

/-- The encoding of an instruction (R111, R112, R130 to R132). -/
def encode : Instr → Encoded
  | .stop p x => .half (lutHalf 0x00 p x)
  | .cmdSdr p x => .half (lutHalf 0x01 p x)
  | .cmdDdr p x => .half (lutHalf 0x21 p x)
  | .raddrSdr p x => .half (lutHalf 0x02 p x)
  | .raddrDdr p x => .half (lutHalf 0x22 p x)
  | .writeSdr p x => .half (lutHalf 0x08 p x)
  | .writeDdr p x => .half (lutHalf 0x28 p x)
  | .readSdr p x => .half (lutHalf 0x09 p x)
  | .readDdr p x => .half (lutHalf 0x29 p x)
  | .dummySdr p x => .half (lutHalf 0x0C p x)
  | .dummyDdr p x => .half (lutHalf 0x2C p x)
  | .lutb kind => .request ⟨header 0x01 kind false, 0, 0, .bytes []⟩
  | .ipx kind addr size data => .request ⟨header 0x02 kind addr.isSome, addr.getD 0, size, .bytes data⟩
  | .wren => .request (plainRequest 0x03)
  | .wrdi => .request (plainRequest 0x04)
  | .rdsr => .request (plainRequest 0x05)
  | .rdid => .request (plainRequest 0x06)
  | .erase addr => .request ⟨header 0x07 0 false, addr, 0, .bytes []⟩
  | .rsten => .request (plainRequest 0x08)
  | .rst => .request (plainRequest 0x09)
  | .rdcfg1 => .request (plainRequest 0x0A)
  | .rdcfg2 => .request (plainRequest 0x0B)
  | .rdcfg3 => .request (plainRequest 0x0C)
  | .wrcfg1 len data => .request ⟨header 0x0D 0 false, 0, len, .bytes data⟩
  | .wrcfg2 len data => .request ⟨header 0x0E 0 false, 0, len, .bytes data⟩
  | .wrcfg3 len data => .request ⟨header 0x0F 0 false, 0, len, .bytes data⟩
  | .pwrup => .request (plainRequest 0x10)
  | .pwrdn => .request (plainRequest 0x11)
  | .lock => .request (plainRequest 0x12)
  | .unlock => .request (plainRequest 0x13)
  | .xwrite addr data => .request ⟨header 0x14 0 false, addr, 0, .bytes data⟩
  | .ahbcfg record => .request ⟨header 0x18 0 false, 0, 0, .words record⟩
  | .devcfg record => .request ⟨header 0x19 0 false, 0, 0, .words record⟩
  | .dllcalc record => .request ⟨header 0x1A 0 false, 0, 0, .words record⟩
  | .regrd off => .request ⟨header 0x1C 0 false, off, 0, .bytes []⟩
  | .regwr off val => .request ⟨header 0x1D 0 false, off, val, .bytes []⟩
  | .errcls => .request (plainRequest 0x1E)
  | .winrd addr n => .request ⟨header 0x20 0 false, addr, n, .bytes []⟩
  | .winwr addr len data => .request ⟨header 0x21 0 false, addr, len, .bytes data⟩

/-! ## The opcode table's words -/

/-- The request whose words are the bits of `w`, first word in the low 32 bits, with no payload. -/
def requestOfNat (w : Nat) : Request :=
  ⟨BitVec.ofNat 32 w, BitVec.ofNat 32 (w / 2 ^ 32), BitVec.ofNat 32 (w / 2 ^ 64), .bytes []⟩

/-- The encoded form whose bits are `w`: a LUT16 half where the table gives 16 bits, a host request otherwise (R144). -/
def encodedOfNat (nbits w : Nat) : Encoded :=
  if nbits = 16 then .half (BitVec.ofNat 16 w) else .request (requestOfNat w)

/-- The instruction the decoder reads from the bits `w` of an opcode-table row. -/
def decodeTableWord (nbits w : Nat) : Option Instr :=
  match decode (encodedOfNat nbits w) with
  | .ok i => some i
  | .error _ => none

/-! ## DESC32, the packed descriptor -/

/-- `pads_code` of R116: 1, 2, 4, 8 pads are 0, 1, 2, 3; no other width is legal. -/
def padsCode (width : Nat) : BitVec 2 :=
  match width with
  | 2 => 1
  | 4 => 2
  | 8 => 3
  | _ => 0

/-- A descriptor is well formed iff `aw` is none or 1..4 and `width` is 1, 2, 4 or 8 (R124). -/
def LogicalCommand.wellFormed (c : LogicalCommand) : Bool :=
  (match c.aw with
    | none => true
    | some n => decide (1 ≤ n) && decide (n ≤ 4)) &&
  (c.width == 1 || c.width == 2 || c.width == 4 || c.width == 8)

/-- DESC32 (R121): DUMMY 31:24, PADS 23:22, DIR 21, DDR 20, DUMP 19, AW 18:16, OPHI 15:8, OPLO 7:0. -/
def packDescriptor (c : LogicalCommand) : Word :=
  (c.dummy.getD 0 : BitVec 8) ++ padsCode c.width ++ BitVec.ofBool (c.dir == .write) ++ BitVec.ofBool (c.mode == .ddr) ++
    BitVec.ofBool c.dummy.isSome ++ BitVec.ofNat 3 (c.aw.getD 0) ++ c.ophi ++ c.oplo

/-- The descriptor a DESC32 word is; none for the reserved values of R143 (AW 5..7; DUMMY not 0 with DUMP = 0). -/
def unpackDescriptor (w : Word) : Option LogicalCommand :=
  let aw := (w.extractLsb' 16 3).toNat
  let dump := w.getLsbD 19
  let count := w.extractLsb' 24 8
  if 4 < aw || (!dump && count != 0) then none
  else some {
    oplo := w.extractLsb' 0 8
    ophi := w.extractLsb' 8 8
    aw := if aw = 0 then none else some aw
    mode := if w.getLsbD 20 then .ddr else .sdr
    dummy := if dump then some count else none
    dir := if w.getLsbD 21 then .write else .read
    width := 2 ^ (w.extractLsb' 22 2).toNat }

/-- `CMD_TABLE` given as data, one DESC32 word for each kind code (R121): an ill-formed entry makes its kind undefined
(R124). -/
def tableOfDescriptors (words : Vector (Option Word) 16) : Vector (Option LogicalCommand) 16 :=
  words.map fun w => w.bind unpackDescriptor

end Sys2Proof
end

