-- ==== Sys2Proof/Machine/State.lean ====
section
/-!
DEFINITION. The state of the machine as plain data (spec/10_state.md): the Register Surface (R21), the state behind it
(R52 to R54, R59), the engine's own state (R55 to R58), what BACKEND keeps of window accesses (R92, R100), the parameters
(R11, R12), and the model's own fields: the schedule of the agents, the count of draws taken, the optional flash model.
-/

namespace Sys2Proof.Machine

/-! ## Registers by name -/

/-- The registers of the Register Surface (R21), each array with its index. -/
inductive Reg where
  | mcr0
  | mcr1
  | mcr2
  | ahbcr
  | inten
  | intr
  | lutkey
  | lutcr
  | ahbrxbufcr0 (i : Fin 8)
  | flshcr0 (k : Fin 4)
  | flshcr1 (k : Fin 4)
  | flshcr2 (k : Fin 4)
  | flshcr4
  | ipcr0
  | ipcr1
  | ipcmd
  | dlpr
  | iprxfcr
  | iptxfcr
  | dllcr (p : Fin 2)
  | sts0
  | sts1
  | sts2
  | ahbspndsts
  | iprxfsts
  | iptxfsts
  | rfdr (i : Fin 32)
  | tfdr (i : Fin 32)
  | lut (i : Fin 120)
deriving DecidableEq, Repr

/-- The stored words of the Register Surface (R21). LUTCR, IPCMD, IPRXFSTS, IPTXFSTS and RFDR store nothing: their reads
are computed (R29, R37, R46 to R48). `intr` holds the sticky bits of INTR (R27). -/
structure Regs where
  mcr0 : Word
  mcr1 : Word
  mcr2 : Word
  ahbcr : Word
  inten : Word
  intr : Word
  lutkey : Word
  ahbrxbufcr0 : Vector Word 8
  flshcr0 : Vector Word 4
  flshcr1 : Vector Word 4
  flshcr2 : Vector Word 4
  flshcr4 : Word
  ipcr0 : Word
  ipcr1 : Word
  dlpr : Word
  iprxfcr : Word
  iptxfcr : Word
  dllcr : Vector Word 2
  sts0 : Word
  sts1 : Word
  sts2 : Word
  ahbspndsts : Word
  tfdr : Vector Word 32
  lut : Vector Word 120
deriving DecidableEq, Repr

/-! ## FIFOs and the command in flight -/

/-- A FIFO entry: 8 bytes, `b0` the first (R54, R85). -/
structure Entry where
  b0 : Byte
  b1 : Byte
  b2 : Byte
  b3 : Byte
  b4 : Byte
  b5 : Byte
  b6 : Byte
  b7 : Byte
deriving DecidableEq, Repr

/-- The four words of a LUT slot (R50, R114). -/
structure SlotWords where
  w0 : Word
  w1 : Word
  w2 : Word
  w3 : Word
deriving DecidableEq, Repr

/-- `INFLIGHT`'s record (R37, R59). `dir` is `dir_of(words)` (R118), `none` where the data word is neither READ nor
WRITE. `later` is the model's own: the words of the `seqnum` slots behind the first (R36), read at the trigger like the
first slot's (R101, log entry 29). -/
structure Inflight where
  slot : BitVec 5
  seqnum : BitVec 3
  addr : Word
  datsz : BitVec 16
  words : SlotWords
  later : List SlotWords
  dir : Option Dir
  delivered : Nat
deriving DecidableEq, Repr

/-! ## The engine -/

/-- `ENG.phase` (R55), the engine's program counter. -/
inductive Phase where
  | idle
  | programSequence
  | triggered
  | pollingCompletion
  | drainOrFill
  | configuring
deriving DecidableEq, Repr

/-- The Transfer Session (R56, R172). -/
structure Session where
  addr : Option Word
  count : BitVec 16
  wm : Nat
  remaining : Int
  out : List Byte
  inp : List Byte
deriving DecidableEq, Repr

/-- `ENG.result` (R57, R133, R360): the result word, the value word and the payload. Every operation has it, those of the
window port too (R331, R361). -/
structure Result where
  rsp0 : Word
  rsp1 : Word
  payload : List Byte
deriving DecidableEq, Repr

/-- What a `Poll` waits for in the value it reads (R362): every bit of a mask set, or a FIFO fill level of at least so
many bytes (R222). -/
inductive PollCond where
  | bits (mask : Word)
  | fill (size : Nat)
deriving DecidableEq, Repr

/-- One micro-step of the engine (R15, R299): a register write, a field update, one read of a poll, a read whose value
the operation keeps, a read of the RX window, the two FIFO pops with the bookkeeping their procedures do after them
(R222, R223), the window store of XWRITE (R250), the settle delay (R276). -/
inductive Act where
  | write (r : Reg) (v : Word)
  | field (r : Reg) (mask bits : Word)
  | poll (r : Reg) (c : PollCond)
  | readValue (r : Reg)
  | readModuleDisable
  | readRx (i : Fin 32)
  | popShort (size : Nat)
  | popLong
  | store (addr : Word) (b : Byte)
  | delay (cycles : Nat)
deriving DecidableEq, Repr

/-- A micro-step with the phase it belongs to. -/
structure Micro where
  phase : Phase
  act : Act
deriving DecidableEq, Repr

/-- What the engine does after the last micro-step of its list: end the operation with `Ok` and the bytes collected, end
it with the value read, test write-in-progress (ERASE, R190), classify the error bits read (ERRCLS, R350), end it with
that classification. -/
inductive Ending where
  | done
  | value
  | eraseStatus
  | classify
  | classified
deriving DecidableEq, Repr

/-- The engine's own state (R55 to R57). `cont` is the list of micro-steps still to take: with `phase` it is the control
state (R55). `vals` are the values the operation has read, `count` the status commands an ERASE has issued (R190),
`polls` the reads the present poll has made (R362). -/
structure Engine where
  phase : Phase
  session : Option Session
  op : Option Instr
  result : Option Result
  cont : List Micro
  ending : Ending
  vals : List Word
  count : Nat
  polls : Nat
deriving DecidableEq, Repr

/-- `FAULT`'s values but `none` (R58). -/
inductive FaultState where
  | overlap
deriving DecidableEq, Repr

/-! ## The window port -/

/-- An admitted window access (R92, R93), with the bytes already served or the number already landed: each byte is served
separately, in ascending order (R90). -/
inductive WinAccess where
  | read (addr : Word) (n : Nat) (got : List Byte)
  | write (addr : Word) (data : List Byte) (landed : Nat)
deriving DecidableEq, Repr

/-- A window write acknowledged before it landed (R100), with the number of its bytes that have landed (R90). -/
structure BufferedWrite where
  addr : Word
  data : List Byte
  landed : Nat
deriving DecidableEq, Repr

/-- What BACKEND keeps of window accesses: those admitted and not yet served (R92), the buffered writes that have not
landed (R100), and the flash bytes of the optional flash model (R83), a canonical list of (address, byte) pairs. -/
structure Window where
  waiting : List WinAccess
  buffered : List BufferedWrite
  flash : List Host.Cell
deriving DecidableEq, Repr

/-! ## BACKEND's sequence engine and the schedule -/

/-- Where BACKEND takes the LUT program it plays: the words of the command in flight (R36, R37), or the slot the window
uses for reads or writes (R92, R93), each `j` slots after the first. -/
inductive SeqSource where
  | ip (j : Fin 8)
  | ahbRead (j : Fin 8)
  | ahbWrite (j : Fin 8)
deriving DecidableEq, Repr

/-- The LUT program BACKEND is playing: its bank, whose `SEQPTR` it moves (R53), and its source. -/
structure Player where
  bank : Fin 4
  source : SeqSource
deriving DecidableEq, Repr

/-- The seven error bits of INTR that `be_error` can set (R66). -/
inductive ErrBit where
  | ipCmdGe
  | ahbCmdGe
  | ipCmdErr
  | ahbCmdErr
  | dataLearnFail
  | ahbBusTimeout
  | seqTimeout
deriving DecidableEq, Repr

/-- One turn of the schedule (R9): `engine` lets ENGINE take its next micro-step; `request` is a request submitted by
HOST or AHBM, `access` a window request of AHBM that BACKEND leaves waiting; the next six are BACKEND's moves R63 to R68
with the values they draw; `ahbServe` and `ahbByte` are `be_ahb` (R69) serving the `i`-th waiting access, or one byte of it
(R90), `ahbLand` and `ahbLandByte` landing the `i`-th buffered write (R100), or one byte of it; `play` is BACKEND playing the LUT
instruction at `SEQPTR[k]`; `dmaPop` and `dmaPush` are the DMA agent outside the model
(spec/93_implementation_defined.md U9); `reset` is RESET (R390). -/
inductive Event where
  | engine
  | request (r : Request)
  | access (r : Request)
  | rxPush (e : Entry)
  | txPop
  | complete (device : List Host.Cell)
  | error (b : ErrBit) (code : BitVec 4) (id : BitVec 5) (onAhb : Bool)
  | arb (seqIdle arbIdle : Bool) (src : BitVec 2)
  | lock (p : Fin 2) (slave reference : Bool)
  | ahbServe (i : Nat)
  | ahbByte (i : Nat)
  | ahbLand (i : Nat)
  | ahbLandByte (i : Nat)
  | play (k : Fin 4) (src : SeqSource)
  | dmaPop (n : Nat)
  | dmaPush (es : List Entry)
  | reset
deriving DecidableEq, Repr

/-! ## The state -/

/-- The state. From the spec: the parameters (R11, R12), the registers (R21), `LUT_UNLOCKED` (R52), `SEQPTR` (R53), the
queues and their counters (R46, R47, R54), `INFLIGHT` (R59), the engine (R55 to R57), `FAULT` (R58), the window port
(R92, R100). The model's own: `player`; `unsettledMcr2` and `unsettledAhbcr`, that the last write of MCR2 or AHBCR came with
MDIS = 0, so that BACKEND's use of it is open (R408, log entry 31); the count of draws taken `draws`; the coming turns of the
agents `sched`. -/
structure State where
  params : Params
  regs : Regs
  lutUnlocked : Bool
  seqptr : Vector (Fin 8) 4
  rxq : List Entry
  txq : List Entry
  rdcntr : BitVec 16
  wrcntr : BitVec 16
  inflight : Option Inflight
  eng : Engine
  fault : Option FaultState
  win : Window
  player : Player
  unsettledMcr2 : Bool
  unsettledAhbcr : Bool
  draws : Nat
  sched : List Event
deriving DecidableEq, Repr

/-- Reasons for the machine to stop with a fault. There are none: every wrong request has a result (R361), an overlap is
the sticky state `FAULT` (R58, R366), a wait that never ends keeps the engine in its phase (R362). Nobody raises one,
which is safe: no claim rests on a stop. -/
inductive Fault where
deriving DecidableEq, Repr

/-- Reasons for an instruction to have no meaning. `notModelled` is for an arm of `exec` that has no meaning yet; every
arm has one, so nobody raises it (safe: it would only stop a run). -/
inductive Refusal where
  | notModelled (mnemonic : String)
deriving DecidableEq, Repr

/-- The registers after reset (R21, R71). The LUT words, unspecified there, are 0 (log entry 5). -/
def Regs.reset : Regs where
  mcr0 := 0x00000002
  mcr1 := 0
  mcr2 := 0
  ahbcr := 0
  inten := 0
  intr := 0
  lutkey := 0
  ahbrxbufcr0 := Vector.replicate 8 0
  flshcr0 := Vector.replicate 4 0
  flshcr1 := Vector.replicate 4 0
  flshcr2 := Vector.replicate 4 0
  flshcr4 := 0
  ipcr0 := 0
  ipcr1 := 0
  dlpr := 0
  iprxfcr := 0
  iptxfcr := 0
  dllcr := Vector.replicate 2 0
  sts0 := 0x00000003
  sts1 := 0
  sts2 := 0
  ahbspndsts := 0
  tfdr := Vector.replicate 32 0
  lut := Vector.replicate 120 0

/-- The engine after reset (R72), with the result it holds: `Idle`, no session, no operation. -/
def Engine.idle (result : Option Result) : Engine where
  phase := .idle
  session := none
  op := none
  result := result
  cont := []
  ending := .done
  vals := []
  count := 0
  polls := 0

/-- The machine right after reset (R71, R72). `LUT_UNLOCKED` and the LUT words, unspecified there, are false and 0 (log
entry 5); the parameters are those of log entry 4; no write of MCR2 or AHBCR is open (log entry 31); nothing is submitted and
no agent has a turn (log entry 1). -/
def State.reset : State where
  params := defaultParams
  regs := Regs.reset
  lutUnlocked := false
  seqptr := Vector.replicate 4 0
  rxq := []
  txq := []
  rdcntr := 0
  wrcntr := 0
  inflight := none
  eng := Engine.idle none
  fault := none
  win := ⟨[], [], []⟩
  player := ⟨0, .ip 0⟩
  unsettledMcr2 := false
  unsettledAhbcr := false
  draws := 0
  sched := []

end Sys2Proof.Machine
end

