-- ==== Sys2Proof/Machine/Operands.lean ====
section
/-!
DEFINITION. The operand forms: bit fields and bytes (R14, R85), command kinds and slots (R122, R123), register offsets
(R292), banks and ports (R300), records and the binding (R134, R262), LUT halves (R114), window addresses (R88, R95), the
bytes of the optional flash model (R83).
-/

namespace Sys2Proof.Machine

/-! ## Bits, bytes and words -/

/-- The slice of `len` bits of `w` from bit `lo` up, as a number (R14). -/
def slice (w : Word) (lo len : Nat) : Nat :=
  (w.extractLsb' lo len).toNat

/-- `old` with the bits of `mask` replaced by those of `bits` (R298). -/
def setBits (old mask bits : Word) : Word :=
  (old &&& ~~~mask) ||| bits

/-- The number `n` placed at bit `lo` of a word. -/
def place (n lo : Nat) : Word :=
  BitVec.ofNat 32 n <<< lo

/-- A mask of `len` ones from bit `lo` up. -/
def fieldMask (lo len : Nat) : Word :=
  BitVec.ofNat 32 (2 ^ len - 1) <<< lo

/-- The word made of four bytes, the first the lowest (R85). -/
def wordOfBytes (b0 b1 b2 b3 : Byte) : Word :=
  b3 ++ b2 ++ b1 ++ b0

/-- `bytes_le` of R222: the four bytes of a word, lowest first (R85). -/
def bytesLe (w : Word) : List Byte :=
  [w.extractLsb' 0 8, w.extractLsb' 8 8, w.extractLsb' 16 8, w.extractLsb' 24 8]

/-- `word_le` of R224: up to four bytes as one word, missing bytes 0. -/
def wordLe (data : List Byte) : Word :=
  wordOfBytes (data.getD 0 0) (data.getD 1 0) (data.getD 2 0) (data.getD 3 0)

/-- The low four bytes of an entry (R48, R85). -/
def Entry.lowWord (e : Entry) : Word :=
  wordOfBytes e.b0 e.b1 e.b2 e.b3

/-- The high four bytes of an entry (R48, R85). -/
def Entry.highWord (e : Entry) : Word :=
  wordOfBytes e.b4 e.b5 e.b6 e.b7

/-- The eight bytes of an entry, in order (R54). -/
def Entry.bytes (e : Entry) : List Byte :=
  [e.b0, e.b1, e.b2, e.b3, e.b4, e.b5, e.b6, e.b7]

/-- The entry made of two words, each split by R85 (R216). -/
def entryOfWords (lo hi : Word) : Entry where
  b0 := lo.extractLsb' 0 8
  b1 := lo.extractLsb' 8 8
  b2 := lo.extractLsb' 16 8
  b3 := lo.extractLsb' 24 8
  b4 := hi.extractLsb' 0 8
  b5 := hi.extractLsb' 8 8
  b6 := hi.extractLsb' 16 8
  b7 := hi.extractLsb' 24 8

/-- `ceil_div(a, b)` of R14. -/
def ceilDiv (a b : Nat) : Nat :=
  (a + b - 1) / b

/-! ## Kinds, commands and slots -/

/-- The code of a command kind (R122). -/
def kindCode : Kind → Fin 16
  | .writeEnable => 0
  | .readStatus => 1
  | .eraseSector => 2
  | .pageProgram => 3
  | .readId => 4
  | .fastRead => 5
  | .resetEnable => 6
  | .resetDevice => 7
  | .readCfg1 => 8
  | .readCfg2 => 9
  | .readCfg3 => 10
  | .writeCfg1 => 11
  | .writeCfg2 => 12
  | .writeCfg3 => 13
  | .powerUp => 14
  | .powerDown => 15

/-- The kinds in the order of their codes (R122). -/
def kindList : List Kind :=
  [.writeEnable, .readStatus, .eraseSector, .pageProgram, .readId, .fastRead, .resetEnable, .resetDevice,
   .readCfg1, .readCfg2, .readCfg3, .writeCfg1, .writeCfg2, .writeCfg3, .powerUp, .powerDown]

/-- The kind a KIND field names; codes 16 to 31 name none (R122). -/
def kindOfCode (c : BitVec 5) : Option Kind :=
  kindList[c.toNat]?

/-- `CMD_TABLE(kind)`, none where the entry is absent or ill formed (R122, R124). -/
def commandOf (p : Params) (k : Kind) : Option LogicalCommand :=
  match p.cmdTable[kindCode k] with
  | none => none
  | some c => if c.wellFormed then some c else none

/-- `SLOT_OF(kind)` (R12, R123). -/
def slotOfKind (p : Params) (k : Kind) : Fin 30 :=
  p.slotOf[kindCode k]

/-- `SLOT_OF` is injective, as R12 and R123 demand of the parameter. -/
def slotsInjective (p : Params) : Prop :=
  ∀ k k' : Kind, slotOfKind p k = slotOfKind p k' → k = k'

/-- `WATERMARK_BYTES` (R12, R210). -/
def watermarkBytes (p : Params) : Nat :=
  8 * (p.wm.val + 1)

/-- LUT word `j` of slot `s` (R50). -/
def lutIndex (s : Fin 30) (j : Fin 4) : Fin 120 :=
  ⟨4 * s.val + j.val, by omega⟩

/-- The four words of slot `s` of a LUT store (R50). -/
def slotOf (lut : Vector Word 120) (s : Fin 30) : SlotWords :=
  ⟨lut[lutIndex s 0], lut[lutIndex s 1], lut[lutIndex s 2], lut[lutIndex s 3]⟩

/-- The LUT store with the four words of slot `s` replaced. -/
def setSlot (lut : Vector Word 120) (s : Fin 30) (w : SlotWords) : Vector Word 120 :=
  (((lut.set (lutIndex s 0) w.w0).set (lutIndex s 1) w.w1).set (lutIndex s 2) w.w2).set (lutIndex s 3) w.w3

/-- Word `j` of a slot's four. -/
def SlotWords.word (w : SlotWords) (j : Nat) : Word :=
  match j with
  | 0 => w.w0
  | 1 => w.w1
  | 2 => w.w2
  | _ => w.w3

/-- Instruction half `h` of a slot (R114): the low half of word `h/2` where `h` is even, the high half where odd. -/
def SlotWords.half (w : SlotWords) (h : Fin 8) : Half :=
  (w.word (h.val / 2)).extractLsb' (16 * (h.val % 2)) 16

/-- `dir_of(words)` (R118). -/
def dirOf (w : SlotWords) : Option Dir :=
  let op := slice w.w3 10 6
  if op = 0x09 ∨ op = 0x29 then some .read
  else if op = 0x08 ∨ op = 0x28 then some .write
  else none

/-- The instruction halves of a program's slots, in their order (R36, R114). -/
def programHalves (prog : List SlotWords) : List Half :=
  prog.flatMap fun w => (List.finRange 8).map w.half

/-- RADDR_SDR or RADDR_DDR (R112). -/
def isAddress (h : Half) : Bool :=
  h.extractLsb' 10 6 == 0x02#6 || h.extractLsb' 10 6 == 0x22#6

/-- The OPCODEs of R112 but STOP: BACKEND surely goes on to the next half. -/
def goesOn (h : Half) : Bool :=
  [0x01#6, 0x21#6, 0x02#6, 0x22#6, 0x08#6, 0x28#6, 0x09#6, 0x29#6, 0x0C#6, 0x2C#6].contains (h.extractLsb' 10 6)

/-- A program has an address phase: BACKEND reaches a RADDR of it (R112, R174). It surely reaches the first half that is a
STOP or no instruction of R112, and all before it; whether it goes on from there is not in the source and a free value
(R113, R119, log entry 27). -/
def addressPhase (prog : List SlotWords) : Bool :=
  let halves := programHalves prog
  (halves.takeWhile goesOn).any isAddress || (halves.any isAddress && Config.playsBeyond halves)

/-! ## Register offsets -/

/-- The byte offset of a register from `REG_BASE` (R21). -/
def regOffset : Reg → Nat
  | .mcr0 => 0x000
  | .mcr1 => 0x004
  | .mcr2 => 0x008
  | .ahbcr => 0x00C
  | .inten => 0x010
  | .intr => 0x014
  | .lutkey => 0x018
  | .lutcr => 0x01C
  | .ahbrxbufcr0 i => 0x020 + 4 * i.val
  | .flshcr0 k => 0x060 + 4 * k.val
  | .flshcr1 k => 0x070 + 4 * k.val
  | .flshcr2 k => 0x080 + 4 * k.val
  | .flshcr4 => 0x094
  | .ipcr0 => 0x0A0
  | .ipcr1 => 0x0A4
  | .ipcmd => 0x0B0
  | .dlpr => 0x0B4
  | .iprxfcr => 0x0B8
  | .iptxfcr => 0x0BC
  | .dllcr p => 0x0C0 + 4 * p.val
  | .sts0 => 0x0E0
  | .sts1 => 0x0E4
  | .sts2 => 0x0E8
  | .ahbspndsts => 0x0EC
  | .iprxfsts => 0x0F0
  | .iptxfsts => 0x0F4
  | .rfdr i => 0x100 + 4 * i.val
  | .tfdr i => 0x180 + 4 * i.val
  | .lut i => 0x200 + 4 * i.val

/-- The physical address of a register, `REG_BASE + off` (R294). -/
def regAddress (p : Params) (r : Reg) : Word :=
  p.regBase + BitVec.ofNat 32 (regOffset r)

/-- Every register of the surface once, in the order of R21. -/
def allRegs : List Reg :=
  [.mcr0, .mcr1, .mcr2, .ahbcr, .inten, .intr, .lutkey, .lutcr] ++ (List.finRange 8).map .ahbrxbufcr0 ++
  (List.finRange 4).map .flshcr0 ++ (List.finRange 4).map .flshcr1 ++ (List.finRange 4).map .flshcr2 ++
  [.flshcr4, .ipcr0, .ipcr1, .ipcmd, .dlpr, .iprxfcr, .iptxfcr] ++ (List.finRange 2).map .dllcr ++
  [.sts0, .sts1, .sts2, .ahbspndsts, .iprxfsts, .iptxfsts] ++ (List.finRange 32).map .rfdr ++
  (List.finRange 32).map .tfdr ++ (List.finRange 120).map .lut

/-- The index of `off` in an array of `n` words from offset `base` up, with its stride of 4 (R292). -/
def arrayIndex (off base n : Nat) : Option (Fin n) :=
  if h : base ≤ off ∧ (off - base) / 4 < n then some ⟨(off - base) / 4, h.2⟩ else none

/-- `decode(off)` of R292 for an offset that is a multiple of 4; none at the holes of R295. -/
def decodeAligned (off : Nat) : Option Reg :=
  match off with
  | 0x000 => some .mcr0
  | 0x004 => some .mcr1
  | 0x008 => some .mcr2
  | 0x00C => some .ahbcr
  | 0x010 => some .inten
  | 0x014 => some .intr
  | 0x018 => some .lutkey
  | 0x01C => some .lutcr
  | 0x094 => some .flshcr4
  | 0x0A0 => some .ipcr0
  | 0x0A4 => some .ipcr1
  | 0x0B0 => some .ipcmd
  | 0x0B4 => some .dlpr
  | 0x0B8 => some .iprxfcr
  | 0x0BC => some .iptxfcr
  | 0x0E0 => some .sts0
  | 0x0E4 => some .sts1
  | 0x0E8 => some .sts2
  | 0x0EC => some .ahbspndsts
  | 0x0F0 => some .iprxfsts
  | 0x0F4 => some .iptxfsts
  | _ =>
    ((arrayIndex off 0x020 8).map .ahbrxbufcr0).orElse fun _ =>
    ((arrayIndex off 0x060 4).map .flshcr0).orElse fun _ =>
    ((arrayIndex off 0x070 4).map .flshcr1).orElse fun _ =>
    ((arrayIndex off 0x080 4).map .flshcr2).orElse fun _ =>
    ((arrayIndex off 0x0C0 2).map .dllcr).orElse fun _ =>
    ((arrayIndex off 0x100 32).map .rfdr).orElse fun _ =>
    ((arrayIndex off 0x180 32).map .tfdr).orElse fun _ =>
    (arrayIndex off 0x200 120).map .lut

/-- The register an access at byte offset `off` lands on; none where the offset is misaligned or unmapped (R87, R295). -/
def decodeReg (off : Word) : Option Reg :=
  if off.toNat % 4 = 0 then decodeAligned off.toNat else none

/-! ## Banks, ports, records, the binding -/

/-- A port's index: A = 0, B = 1 (R300). -/
def portIndex : Port → Fin 2
  | .a => 0
  | .b => 1

/-- The bank index `2 * port + instance` (R300). -/
def bankIndex (b : Binding) : Fin 4 :=
  ⟨2 * (portIndex b.port).val + b.inst.val, by omega⟩

/-- The binding is inside the ranges of R262, the two sequence rows also by `id + count ≤ 30`. -/
def bindingWithin (b : Binding) : Bool :=
  (b.busWidth == 1 || b.busWidth == 2 || b.busWidth == 4 || b.busWidth == 8) &&
  decide (b.flashSizeKb < 2 ^ 23) && decide (b.csIntervalUnit ≤ 1) && decide (b.csInterval ≤ 65535) &&
  decide (b.csHold ≤ 31) && decide (b.csSetup ≤ 31) && decide (b.wordAddressing ≤ 1) && decide (b.writeMask ≤ 1) &&
  decide (b.ardSeqId ≤ 29) && decide (b.ardSeqCount ≤ 8) && decide (b.ardSeqId + b.ardSeqCount ≤ 30) &&
  decide (b.awrSeqId ≤ 29) && decide (b.awrSeqCount ≤ 8) && decide (b.awrSeqId + b.awrSeqCount ≤ 30) &&
  decide (b.cas ≤ 15) && decide (b.awrWaitUnit ≤ 7)

/-- The controller record of R134 and R260. -/
structure ControllerRecord where
  sampleMode : Nat
  rootClockHz : Nat
  dataValidTimeNs : Nat
  secondaryClockEn : Nat
deriving DecidableEq, Repr

/-- Word `i` of a record (R134). -/
def recordWord (record : List Word) (i : Nat) : Nat :=
  (record.getD i 0).toNat

/-- The controller record of a payload, in the order of R134. -/
def controllerRecord (record : List Word) : ControllerRecord :=
  ⟨recordWord record 0, recordWord record 1, recordWord record 2, recordWord record 3⟩

/-- `dll_value(c)` of R263, with the arithmetic of R264. -/
def dllValue (c : ControllerRecord) : Word :=
  if c.sampleMode ≤ 2 ∨ (c.sampleMode = 3 ∧ c.secondaryClockEn = 0) then 0x00000100
  else if 100000000 ≤ c.rootClockHz then 0x00000079
  else BitVec.ofNat 32 (0x100 ||| ((ceilDiv (c.dataValidTimeNs * 1000) 75 &&& 0x78) <<< 9))

/-! ## The flash model -/

/-- The byte a flash address holds that nothing has written: erased (log entry 15). -/
def Memory.unlisted : Byte := 0xFF

/-- One byte of the flash model. -/
def Memory.read : List Host.Cell → Nat → Byte
  | [], _ => Memory.unlisted
  | c :: rest, a => if c.1 = a then c.2 else Memory.read rest a

/-- One byte written, in canonical form: addresses strictly rising, no entry equal to `Memory.unlisted`. -/
def Memory.write : List Host.Cell → Nat → Byte → List Host.Cell
  | [], a, b => if b = Memory.unlisted then [] else [(a, b)]
  | c :: rest, a, b =>
    if a < c.1 then (if b = Memory.unlisted then c :: rest else (a, b) :: c :: rest)
    else if a = c.1 then (if b = Memory.unlisted then rest else (a, b) :: rest)
    else c :: Memory.write rest a b

/-- Several bytes written one after the other. -/
def Memory.writeCells (m : List Host.Cell) (cells : List Host.Cell) : List Host.Cell :=
  cells.foldl (fun m c => Memory.write m c.1 c.2) m

/-- The canonical form. -/
def Memory.wf : List Host.Cell → Bool
  | [] => true
  | [c] => c.2 != Memory.unlisted
  | c :: d :: rest => c.2 != Memory.unlisted && decide (c.1 < d.1) && Memory.wf (d :: rest)

/-- The key of byte `a` of the device of bank `k` in the flash model. -/
def flashKey (k : Fin 4) (a : Nat) : Nat :=
  k.val * 2 ^ 40 + a

/-- The bank a key of the flash model belongs to. -/
def keyBank (key : Nat) : Nat :=
  key / 2 ^ 40

/-- FLASH byte `off` of the stack of devices with sizes `size 0 .. size 3`: the first bank `k` with
`off < size 0 + .. + size k`, and the byte of that device (R95). -/
def locate (size : Fin 4 → Nat) (off : Nat) : Option (Fin 4 × Nat) :=
  if off < size 0 then some (0, off)
  else if off < size 0 + size 1 then some (1, off - size 0)
  else if off < size 0 + size 1 + size 2 then some (2, off - (size 0 + size 1))
  else if off < size 0 + size 1 + size 2 + size 3 then some (3, off - (size 0 + size 1 + size 2))
  else none

end Sys2Proof.Machine
end

