-- ==== Sys2Proof/Machine/Flags.lean ====
section
/-!
DEFINITION. The bits an operation tests (R61), as the spec computes each: the watermark bits of INTR (R213, R215), the
fill fields (R218), the error bits and their classification (R351 to R357, R367), the idle and lock bits (R42, R44),
write-in-progress (R188), the result words (R133).
-/

namespace Sys2Proof.Machine

/-! ## FIFO flags -/

/-- The stored bits of INTR: 0 to 4, 7, 10, 11 (R27). -/
def intrSticky : Word := 0x00000C9F

/-- `IPRXFCR.RXWMRK + 1` and `IPTXFCR.TXWMRK + 1`: the watermark of a FIFO control word, in entries (R39, R40). -/
def watermarkEntries (fcr : Word) : Nat :=
  slice fcr 2 4 + 1

/-- INTR.IPRXWA, the "watermark-reached status bit" (R213). -/
def rxWatermarkReached (s : State) : Bool :=
  decide (watermarkEntries s.regs.iprxfcr ≤ s.rxq.length)

/-- INTR.IPTXWE, the "TX-FIFO-writable status bit" (R215). -/
def txWritable (s : State) : Bool :=
  decide (watermarkEntries s.regs.iptxfcr ≤ 16 - s.txq.length)

/-- What INTR reads: the stored bits, and bits 5 and 6 computed at that moment (R27, R296). -/
def intrRead (s : State) : Word :=
  (s.regs.intr &&& intrSticky) ||| (if rxWatermarkReached s then 0x20 else 0) ||| (if txWritable s then 0x40 else 0)

/-- IPRXFSTS: FILL 7:0, RDCNTR 31:16 (R46). -/
def rxStatus (s : State) : Word :=
  BitVec.zeroExtend 32 s.rdcntr <<< 16 ||| (BitVec.ofNat 32 s.rxq.length &&& 0xFF)

/-- IPTXFSTS: FILL 7:0, WRCNTR 31:16 (R47). -/
def txStatus (s : State) : Word :=
  BitVec.zeroExtend 32 s.wrcntr <<< 16 ||| (BitVec.ofNat 32 s.txq.length &&& 0xFF)

/-! ## Module, idle and lock bits -/

/-- MCR0.MDIS, bit 1 (R22). -/
def moduleDisabled (s : State) : Bool :=
  s.regs.mcr0.getLsbD 1

/-- AHBCR.BUFFERABLEEN, bit 4 (R25), as BACKEND uses it: a free value under `FAULT` (R58) and after a raw write of AHBCR with
MDIS = 0, of whose use R408 claims nothing (log entry 31). -/
def bufferable (s : State) : Bool :=
  if s.fault.isSome || s.unsettledAhbcr then Config.freeBuffering s.draws s.win.buffered.length
  else s.regs.ahbcr.getLsbD 4

/-- MCR2.SAMEDEVICEEN, bit 15 (R24), as BACKEND uses it: a free value under `FAULT` (R58) and after a raw write of MCR2 with
MDIS = 0, of whose use R408 claims nothing (log entry 31). -/
def sameDevice (s : State) : Bool :=
  if s.fault.isSome || s.unsettledMcr2 then Config.freeSameDevice s.draws else s.regs.mcr2.getLsbD 15

/-- STS0 with SEQIDLE, ARBIDLE and ARBCMDSRC at these values (R42). -/
def arbiterStatus (seqIdle arbIdle : Bool) (src : BitVec 2) : Word :=
  BitVec.zeroExtend 32 (src ++ BitVec.ofBool arbIdle ++ BitVec.ofBool seqIdle)

/-- STS0.SEQIDLE and STS0.ARBIDLE (R42). -/
def idleMask : Word := 0x00000003

/-- The lock bits of port `p` in STS2: `16p` and `16p + 1` (R44, R300). -/
def lockMask (p : Fin 2) : Word :=
  0x00000003 <<< (16 * p.val)

/-- All four lock bits of STS2 (R44). -/
def allLockMask : Word := 0x00030003

/-- STS2's lock bits of port `p` at these values, in place (R44). -/
def lockBits (p : Fin 2) (slave reference : Bool) : Word :=
  BitVec.zeroExtend 32 (BitVec.ofBool reference ++ BitVec.ofBool slave) <<< (16 * p.val)

/-- The write-in-progress bit of a status byte (R188). -/
def writeInProgress (p : Params) (st : Byte) : Bool :=
  st.getLsbD p.wipBit.val

/-- A poll's condition holds of the value read (R222, R269, R276, R362). -/
def PollCond.holds (c : PollCond) (v : Word) : Bool :=
  match c with
  | .bits mask => v &&& mask == mask
  | .fill size => decide (size ≤ 8 * slice v 0 8)

/-! ## Results -/

/-- The result codes of R133. -/
inductive Code where
  | ok
  | badOp
  | illegalInMode
  | unsupported
  | badOperand
  | badAccess
  | moduleEnabled
  | timeout
  | commandGrant
  | commandCheck
  | commandExecution
  | ahbBusTimeout
  | dataLearningFailed
deriving DecidableEq, Repr

/-- The CODE byte of RSP0 (R133). -/
def codeByte : Code → Byte
  | .ok => 0x00
  | .badOp => 0x01
  | .illegalInMode => 0x02
  | .unsupported => 0x03
  | .badOperand => 0x04
  | .badAccess => 0x05
  | .moduleEnabled => 0x06
  | .timeout => 0x07
  | .commandGrant => 0x10
  | .commandCheck => 0x11
  | .commandExecution => 0x12
  | .ahbBusTimeout => 0x13
  | .dataLearningFailed => 0x14

/-- PATH codes (R133, R356). -/
inductive Path where
  | ahbRead
  | ahbWrite
  | ipCommand
  | noPath
deriving DecidableEq, Repr

/-- The PATH field of RSP0 (R133). -/
def pathCode : Path → BitVec 2
  | .ahbRead => 0
  | .ahbWrite => 1
  | .ipCommand => 2
  | .noPath => 3

/-- RSP0: PATH 17:16, CAUSE 15:8, CODE 7:0, others 0 (R133). -/
def rsp0 (c : Code) (path : Path) (cause : Byte) : Word :=
  (0 : BitVec 14) ++ pathCode path ++ cause ++ codeByte c

/-- A result that is no hardware error: CAUSE 0, PATH 3 (R133). -/
def resultOf (c : Code) (rsp1 : Word) (payload : List Byte) : Result :=
  ⟨rsp0 c .noPath 0, rsp1, payload⟩

/-! ## The Error Taxonomy -/

/-- The position of an error bit in INTR (R27). -/
def errPos : ErrBit → Nat
  | .ipCmdGe => 1
  | .ahbCmdGe => 2
  | .ipCmdErr => 3
  | .ahbCmdErr => 4
  | .dataLearnFail => 7
  | .ahbBusTimeout => 10
  | .seqTimeout => 11

/-- An error bit in place. -/
def errMask (b : ErrBit) : Word :=
  1 <<< errPos b

/-- The error bits in the order ERRCLS reports them: lowest position first (R350, R367). -/
def errBits : List ErrBit :=
  [.ipCmdGe, .ahbCmdGe, .ipCmdErr, .ahbCmdErr, .dataLearnFail, .ahbBusTimeout, .seqTimeout]

/-- The lowest error bit set in a value of INTR (R350, R367). -/
def lowestError (intr : Word) : Option ErrBit :=
  errBits.find? fun b => intr.getLsbD (errPos b)

/-- STS0.ARBCMDSRC, bits 3:2 (R42). -/
def arbSource (sts0 : Word) : Nat :=
  slice sts0 2 2

/-- The path of an error bit, from the bit or from STS0.ARBCMDSRC (R356). -/
def errPath (b : ErrBit) (sts0 : Word) : Path :=
  match b with
  | .ipCmdGe => .ipCommand
  | .ipCmdErr => .ipCommand
  | .ahbCmdGe => if arbSource sts0 = 1 then .ahbWrite else .ahbRead
  | .ahbCmdErr => if arbSource sts0 = 1 then .ahbWrite else .ahbRead
  | .ahbBusTimeout => if arbSource sts0 = 1 then .ahbWrite else .ahbRead
  | .dataLearnFail =>
    if arbSource sts0 = 1 then .ahbWrite else if arbSource sts0 = 2 then .ipCommand else .ahbRead
  | .seqTimeout =>
    if arbSource sts0 = 1 then .ahbWrite else if arbSource sts0 = 2 then .ipCommand else .ahbRead

/-- The error kind of an error bit (R351 to R355). -/
def errCode : ErrBit → Code
  | .ipCmdGe => .commandGrant
  | .ahbCmdGe => .commandGrant
  | .ipCmdErr => .commandCheck
  | .ahbCmdErr => .commandCheck
  | .seqTimeout => .commandExecution
  | .ahbBusTimeout => .ahbBusTimeout
  | .dataLearnFail => .dataLearningFailed

/-- The cause code of an error bit: IPCMDERRCODE (STS1[27:24]) or AHBCMDERRCODE (STS1[11:8]) for CommandCheck, 0xE for
CommandExecution, 0 otherwise (R43, R351 to R355). -/
def errCause (b : ErrBit) (sts1 : Word) : Byte :=
  match b with
  | .ipCmdErr => BitVec.zeroExtend 8 (sts1.extractLsb' 24 4)
  | .ahbCmdErr => BitVec.zeroExtend 8 (sts1.extractLsb' 8 4)
  | .seqTimeout => 0x0E
  | .ipCmdGe => 0
  | .ahbCmdGe => 0
  | .ahbBusTimeout => 0
  | .dataLearnFail => 0

/-- `classify(b, s0, s1)` of R350 as a result: kind, path and cause (R351 to R357). -/
def classify (b : ErrBit) (sts0 sts1 : Word) : Result :=
  ⟨rsp0 (errCode b) (errPath b sts0) (errCause b sts1), 0, []⟩

/-- The "descriptive cause string" of a cause code (R357). -/
def causeString (cause : Byte) : String :=
  match cause.toNat with
  | 0x0 => "no error code recorded"
  | 0x2 => "IP command sequence contains a jump-on-chip-select instruction (disallowed opcode)"
  | 0x3 => "unknown instruction opcode in the sequence (disallowed opcode)"
  | 0x4 => "SDR dummy instruction in a DDR sequence (dummy-phase/rate mismatch)"
  | 0x5 => "DDR dummy instruction in an SDR sequence (dummy-phase/rate mismatch)"
  | 0x6 => "start address beyond the flash address range (flash-boundary crossing)"
  | 0xE => "sequence execution timeout"
  | 0xF => "access crosses the flash boundary (flash-boundary crossing)"
  | _ => "unknown cause"

/-- The interrupt sources that drive `irq` (R358). -/
def irqMask : Word := 0x00000CFF

end Sys2Proof.Machine
end

