-- ==== Sys2Proof/Machine/Ops.lean ====
section
/-!
DEFINITION. The named operations: the register-access primitives RegRead, RegWrite and RegField (R296 to R298) with the
FIFO actions and the trigger behind them (R37, R214, R216, R217), the interrupt output (R358), and the engine's three ways
to end or stop an operation. R368: there is no trap entry, no handler and no return; what stands where taking an exception
stands is `raise` (R364: end the operation with an error result, roll nothing back) and the sticky `FAULT` (R366).
-/

namespace Sys2Proof.Machine

/-! ## Reading a register -/

/-- RFDR[i] where it shows data: word `i` counted from the head of RXQ (R48). -/
def rxWord (q : List Entry) (i : Fin 32) : Option Word :=
  (q[i.val / 2]?).map fun e => if i.val % 2 = 0 then e.lowWord else e.highWord

/-- What a read of a register shows, none where the spec makes it a draw (R296): RFDR beyond the fill level. -/
def regShows (r : Reg) (s : State) : Option Word :=
  match r with
  | .mcr0 => some s.regs.mcr0
  | .mcr1 => some s.regs.mcr1
  | .mcr2 => some s.regs.mcr2
  | .ahbcr => some s.regs.ahbcr
  | .inten => some s.regs.inten
  | .intr => some (intrRead s)
  | .lutkey => some s.regs.lutkey
  | .lutcr => some (if s.lutUnlocked then 2 else 1)
  | .ahbrxbufcr0 i => some s.regs.ahbrxbufcr0[i]
  | .flshcr0 k => some s.regs.flshcr0[k]
  | .flshcr1 k => some s.regs.flshcr1[k]
  | .flshcr2 k => some s.regs.flshcr2[k]
  | .flshcr4 => some s.regs.flshcr4
  | .ipcr0 => some s.regs.ipcr0
  | .ipcr1 => some s.regs.ipcr1
  | .ipcmd => some 0
  | .dlpr => some s.regs.dlpr
  | .iprxfcr => some s.regs.iprxfcr
  | .iptxfcr => some s.regs.iptxfcr
  | .dllcr p => some s.regs.dllcr[p]
  | .sts0 => some s.regs.sts0
  | .sts1 => some s.regs.sts1
  | .sts2 => some s.regs.sts2
  | .ahbspndsts => some s.regs.ahbspndsts
  | .iprxfsts => some (rxStatus s)
  | .iptxfsts => some (txStatus s)
  | .rfdr i => rxWord s.rxq i
  | .tfdr _ => some 0
  | .lut i => some s.regs.lut[i]

/-- The value a read of a register returns now: what it shows, a draw where it shows nothing or while `FAULT` is set
(R58, R296). -/
def regPeek (r : Reg) (s : State) : Word :=
  if s.fault.isSome then Config.freeWord s.draws
  else
    match regShows r s with
    | some v => v
    | none => Config.freeWord s.draws

/-- A read of the register takes a draw. -/
def readDraws (r : Reg) (s : State) : Bool :=
  s.fault.isSome || (regShows r s).isNone

/-- `RegRead(NAME)` (R296): the value, and the state, in which nothing changed but the count of draws taken. -/
def regRead (r : Reg) (s : State) : Word × State :=
  (regPeek r s, if readDraws r s then { s with draws := s.draws + 1 } else s)

/-- The interrupt output (R358). While `FAULT` is set the two registers it is made of are unspecified (R58), and it is a free
value; that it is one value for as long as no draw is taken is the model's choice (log entry 28). -/
def irq (s : State) : Bool :=
  if s.fault.isSome then Config.freeIrq s.draws else intrRead s &&& s.regs.inten &&& irqMask != 0

/-! ## Writing a register -/

/-- The pop of INTR.IPRXWA (R214). -/
def rxPop (s : State) : State :=
  let n := min (watermarkEntries s.regs.iprxfcr) s.rxq.length
  { s with rxq := s.rxq.drop n, rdcntr := s.rdcntr + BitVec.ofNat 16 n }

/-- The entries TFDR holds for a push: entry `j` is TFDR[2j], TFDR[2j+1] (R216). -/
def stagedEntries (tfdr : Vector Word 32) (n : Nat) : List Entry :=
  (List.range n).map fun j => entryOfWords (tfdr.toList.getD (2 * j) 0) (tfdr.toList.getD (2 * j + 1) 0)

/-- The push of INTR.IPTXWE (R216). -/
def txPush (s : State) : State :=
  let n := watermarkEntries s.regs.iptxfcr
  if 16 - s.txq.length < n then s
  else { s with txq := s.txq ++ stagedEntries s.regs.tfdr n, wrcntr := s.wrcntr + BitVec.ofNat 16 n }

/-- A write to INTR, bit by bit in ascending order: stored bits are cleared, bit 5 pops, bit 6 pushes (R27, R297). -/
def intrWrite (v : Word) (s : State) : State :=
  let s1 := { s with regs.intr := s.regs.intr &&& ~~~v }
  let s2 := if v.getLsbD 5 then rxPop s1 else s1
  if v.getLsbD 6 then txPush s2 else s2

/-- A write to LUTCR: lock or unlock, only under the key (R29). -/
def lutcrWrite (v : Word) (s : State) : State :=
  if s.regs.lutkey ≠ s.params.lutKey then s
  else if slice v 0 2 = 2 then { s with lutUnlocked := true }
  else if slice v 0 2 = 1 then { s with lutUnlocked := false }
  else s

/-- The words of slot number `slot` as BACKEND fetches them: the LUT's, or four draws where there is no such slot or the
Register Surface is unspecified (R37, R58, R140), fresh ones at every fetch (log entry 34). -/
def fetchSlot (slot : Nat) (s : State) : SlotWords × State :=
  if h : slot < 30 ∧ s.fault.isNone then (slotOf s.regs.lut ⟨slot, h.1⟩, s)
  else
    (⟨Config.freeWord s.draws, Config.freeWord (s.draws + 1), Config.freeWord (s.draws + 2),
      Config.freeWord (s.draws + 3)⟩, { s with draws := s.draws + 4 })

/-- The words of the `n` slots behind slot number `slot`, fetched in ascending order (R36, R101): a slot number above 29,
reached by the count or not, names no slot and gives four draws (R140, log entry 29). -/
def fetchLater (slot : Nat) : Nat → State → List SlotWords × State
  | 0, s => ([], s)
  | n + 1, s =>
    let f := fetchSlot (slot + 1) s
    let r := fetchLater (slot + 1) n f.2
    (f.1 :: r.1, r.2)

/-- The overlap of a second command or request (R37, R322): `FAULT <- Overlap`. -/
def overlap (s : State) : State :=
  { s with fault := some .overlap }

/-- The trigger, a write of IPCMD with TRG = 1 (R37). The words of the slots that `ISEQNUM` adds (R36) are read here too, by
the model's choice (log entry 29). -/
def trigger (s : State) : State :=
  match s.inflight with
  | some _ => overlap s
  | none =>
    let f := fetchSlot (slice s.regs.ipcr1 16 5) s
    let l := fetchLater (slice s.regs.ipcr1 16 5) (slice s.regs.ipcr1 24 3) f.2
    { l.2 with
      inflight := some {
        slot := s.regs.ipcr1.extractLsb' 16 5
        seqnum := s.regs.ipcr1.extractLsb' 24 3
        addr := s.regs.ipcr0
        datsz := s.regs.ipcr1.extractLsb' 0 16
        words := f.1
        later := l.1
        dir := dirOf f.1
        delivered := 0 }
      regs.sts0 := arbiterStatus false false 2 }

/-- `RegWrite(NAME, v)` (R297). A write of MCR2 or AHBCR with MDIS = 0 is stored like any, and leaves BACKEND's use of its
bits open; one with MDIS = 1 settles it (R408, log entry 31). -/
def regWrite (r : Reg) (v : Word) (s : State) : State :=
  match r with
  | .mcr0 =>
    { s with
      regs.mcr0 := v
      regs.sts2 := if v.getLsbD 1 then s.regs.sts2 &&& ~~~allLockMask else s.regs.sts2 }
  | .mcr1 => { s with regs.mcr1 := v }
  | .mcr2 => { s with regs.mcr2 := v, unsettledMcr2 := !moduleDisabled s }
  | .ahbcr => { s with regs.ahbcr := v, unsettledAhbcr := !moduleDisabled s }
  | .inten => { s with regs.inten := v }
  | .intr => intrWrite v s
  | .lutkey => { s with regs.lutkey := v }
  | .lutcr => lutcrWrite v s
  | .ahbrxbufcr0 i => { s with regs.ahbrxbufcr0 := s.regs.ahbrxbufcr0.set i v }
  | .flshcr0 k => { s with regs.flshcr0 := s.regs.flshcr0.set k v }
  | .flshcr1 k => { s with regs.flshcr1 := s.regs.flshcr1.set k v }
  | .flshcr2 k =>
    { s with
      regs.flshcr2 := s.regs.flshcr2.set k (v &&& 0x7FFFFFFF)
      seqptr := if v.getLsbD 31 then s.seqptr.set k 0 else s.seqptr }
  | .flshcr4 => { s with regs.flshcr4 := v }
  | .ipcr0 => { s with regs.ipcr0 := v }
  | .ipcr1 => { s with regs.ipcr1 := v }
  | .ipcmd => if v.getLsbD 0 then trigger s else s
  | .dlpr => { s with regs.dlpr := v }
  | .iprxfcr =>
    let s1 := { s with regs.iprxfcr := v &&& ~~~1 }
    if v.getLsbD 0 then { s1 with rxq := [], rdcntr := 0 } else s1
  | .iptxfcr =>
    let s1 := { s with regs.iptxfcr := v &&& ~~~1 }
    if v.getLsbD 0 then { s1 with txq := [], wrcntr := 0, regs.tfdr := Vector.replicate 32 0 } else s1
  | .dllcr p =>
    { s with regs.dllcr := s.regs.dllcr.set p v, regs.sts2 := s.regs.sts2 &&& ~~~lockMask p }
  | .sts0 => s
  | .sts1 => s
  | .sts2 => s
  | .ahbspndsts => s
  | .iprxfsts => s
  | .iptxfsts => s
  | .rfdr _ => s
  | .tfdr i => { s with regs.tfdr := s.regs.tfdr.set i v }
  | .lut i => if s.lutUnlocked then { s with regs.lut := s.regs.lut.set i v } else s

/-- The stored word of a register, which a field update reads (R298); 0 where the register stores nothing. -/
def regStored (r : Reg) (s : State) : Word :=
  match r with
  | .intr => s.regs.intr
  | .lutcr => 0
  | .iprxfsts => 0
  | .iptxfsts => 0
  | .rfdr _ => 0
  | .tfdr i => s.regs.tfdr[i]
  | _ => (regShows r s).getD 0

/-- `RegField(NAME.F) <- x` (R298): one write of the stored word with the named fields replaced. -/
def regField (r : Reg) (mask bits : Word) (s : State) : State :=
  regWrite r (setBits (regStored r s) mask bits) s

/-! ## Ending an operation -/

/-- An accepted operation ends (R360): its result is set, the session is destroyed, the engine is `Idle`. -/
def finish (r : Result) (s : State) : State :=
  { s with eng := Engine.idle (some r) }

/-- `raise E` (R364): the operation ends at that micro-step with an error result; nothing is rolled back and `INFLIGHT`
is not touched. -/
def raise (c : Code) (rsp1 : Word) (s : State) : State :=
  finish (resultOf c rsp1 []) s

/-- An operation that occupies no engine, a refused one or a window access, has its result (R325, R331, R360, R361): the
rest of the engine stays as it is. -/
def answer (r : Result) (s : State) : State :=
  { s with eng.result := some r }

/-- A request refused before its first register access (R325, R361): the state before plus `ENG.result`. -/
def refuse (c : Code) (s : State) : State :=
  answer (resultOf c 0 []) s

end Sys2Proof.Machine
end

