-- ==== Sys2Proof/Machine/Backend.lean ====
section
/-!
DEFINITION. The environment agent BACKEND (R62 to R70): its moves, each with its guard; the service of window accesses
(R92, R93, R95, R98, R100); the playing of a LUT instruction (R53, R112, R113); the DMA agent outside the model
(spec/93_implementation_defined.md U9); the event RESET (R390). A move whose guard does not hold changes nothing.
-/

namespace Sys2Proof.Machine

/-! ## Where an address leads -/

/-- The size in bytes of the device of bank `k` (R31, R95): bank 0's for every bank with SAMEDEVICEEN, a free value where its
write is open (R408); a draw while the Register Surface is unspecified (R58). -/
def bankSize (s : State) (k : Fin 4) : Nat :=
  if s.fault.isSome then 1024 * slice (Config.freeWord (s.draws + k.val)) 0 23
  else 1024 * slice (s.regs.flshcr0[if sameDevice s then 0 else k]) 0 23

/-- The state after the four sizes have been looked at: while they are draws, they are taken. -/
def sizesDrawn (s : State) : State :=
  if s.fault.isSome then { s with draws := s.draws + 4 } else s

/-- Where the address of an IP command leads (R95, R174): the program uses none; a byte of a device; outside every
device. -/
inductive FlashTarget where
  | noAddress
  | device (k : Fin 4) (a : Nat)
  | noDevice
deriving DecidableEq, Repr

/-- The slots of a command's program: ISEQID's and the ISEQNUM slots behind it (R36, R37). -/
def commandProgram (c : Inflight) : List SlotWords :=
  c.words :: c.later.take c.seqnum.toNat

/-- `IPCR0.SFAR` of a command translated as a window offset is (R95); a program without an address phase does not use it
(R174). That the slots behind the first belong to the program (log entry 29), and that the sizes are those of the moment
BACKEND looks (log entry 27), are the model's choices. -/
def commandTarget (c : Inflight) (s : State) : FlashTarget :=
  if addressPhase (commandProgram c) then
    match locate (bankSize s) c.addr.toNat with
    | some (k, a) => .device k a
    | none => .noDevice
  else .noAddress

/-- BACKEND plays the command on bank `k`: the bank its address lies in; on any, where its address names none (log
entry 27). -/
def playsOn (t : FlashTarget) (k : Fin 4) : Bool :=
  match t with
  | .noAddress => true
  | .device k' _ => k == k'
  | .noDevice => true

/-- What a command can have done to the devices: to the one its address lies in; to none, where it lies in none; to any,
where the program uses no address (R95, log entry 27). -/
def commandCells (t : FlashTarget) (cells : List Host.Cell) : List Host.Cell :=
  match t with
  | .noAddress => cells
  | .device k _ => cells.filter fun c => keyBank c.1 == k.val
  | .noDevice => []

/-! ## The moves R63 to R68 -/

/-- The guard of be_rx_push (R63). -/
def rxPushEnabled (s : State) : Bool :=
  match s.inflight with
  | none => false
  | some c =>
    c.dir == some .read && decide (c.delivered < c.datsz.toNat) && decide (s.rxq.length < 16) && !moduleDisabled s

/-- Move be_rx_push (R63): the entry `e` arrives. -/
def beRxPush (e : Entry) (s : State) : State :=
  match s.inflight with
  | none => s
  | some c =>
    if rxPushEnabled s then
      { s with
        rxq := s.rxq ++ [e]
        inflight := some { c with delivered := min (c.delivered + 8) c.datsz.toNat } }
    else s

/-- Move be_tx_pop (R64): the head entry leaves TXQ. -/
def beTxPop (s : State) : State :=
  if moduleDisabled s then s else { s with txq := s.txq.drop 1 }

/-- The guard of be_complete (R65). -/
def completeEnabled (s : State) : Bool :=
  match s.inflight with
  | none => false
  | some c => !moduleDisabled s && (c.dir != some .read || decide (c.datsz.toNat ≤ c.delivered))

/-- Move be_complete (R65). `device` is what the command did to the flash devices, which matters only to a flash model
(R83). -/
def beComplete (device : List Host.Cell) (s : State) : State :=
  match s.inflight with
  | none => s
  | some c =>
    if completeEnabled s then
      sizesDrawn { s with
        regs.intr := s.regs.intr ||| 1
        regs.sts0 := s.regs.sts0 ||| idleMask
        inflight := none
        win.flash :=
          if s.params.flashModel then Memory.writeCells s.win.flash (commandCells (commandTarget c s) device)
          else s.win.flash }
    else s

/-- STS1 with the IP command's error code (27:24) replaced (R43). -/
def setIpCode (sts1 : Word) (code : BitVec 4) : Word :=
  setBits sts1 (fieldMask 24 4) (place code.toNat 24)

/-- STS1 with the AHB command's error code (11:8) replaced (R43). -/
def setAhbCode (sts1 : Word) (code : BitVec 4) : Word :=
  setBits sts1 (fieldMask 8 4) (place code.toNat 8)

/-- STS1 after be_error (R66): code and slot of the failing command for bits 3 and 4, code 0xE in the field the draw
`onAhb` picks for bit 11. -/
def errStatus (b : ErrBit) (code : BitVec 4) (id : BitVec 5) (onAhb : Bool) (sts1 : Word) : Word :=
  match b with
  | .ipCmdErr => setBits (setIpCode sts1 code) (fieldMask 16 5) (place id.toNat 16)
  | .ahbCmdErr => setBits (setAhbCode sts1 code) (fieldMask 0 5) (place id.toNat 0)
  | .seqTimeout => if onAhb then setAhbCode sts1 0xE else setIpCode sts1 0xE
  | .ipCmdGe => sts1
  | .ahbCmdGe => sts1
  | .dataLearnFail => sts1
  | .ahbBusTimeout => sts1

/-- Move be_error (R66). -/
def beError (b : ErrBit) (code : BitVec 4) (id : BitVec 5) (onAhb : Bool) (s : State) : State :=
  { s with
    regs.intr := s.regs.intr ||| errMask b
    regs.sts1 := errStatus b code id onAhb s.regs.sts1 }

/-- Move be_arb (R67). -/
def beArb (seqIdle arbIdle : Bool) (src : BitVec 2) (s : State) : State :=
  if s.inflight.isNone then { s with regs.sts0 := arbiterStatus seqIdle arbIdle src } else s

/-- Move be_lock (R68). -/
def beLock (p : Fin 2) (slave reference : Bool) (s : State) : State :=
  if moduleDisabled s then s
  else { s with regs.sts2 := setBits s.regs.sts2 (lockMask p) (lockBits p slave reference) }

/-! ## The window -/

/-- A window access of `n` bytes at `addr` is admitted: inside the window (R88), every byte in a device (R92, R95). -/
def windowAdmits (addr : Word) (n : Nat) (s : State) : Bool :=
  decide (s.params.winBase ≤ addr.toNat) && decide (addr.toNat + n ≤ s.params.winBase + s.params.winSize) &&
  decide (addr.toNat - s.params.winBase + n ≤ bankSize s 0 + bankSize s 1 + bankSize s 2 + bankSize s 3)

/-- The flash model's key of the byte a window address names (R82, R95); below the window there is none (R88). -/
def windowKey (s : State) (a : Nat) : Option Nat :=
  if a < s.params.winBase then none
  else (locate (bankSize s) (a - s.params.winBase)).map fun kb => flashKey kb.1 kb.2

/-- A byte of a window read served now comes from the flash model: there is one, no IP command is in flight, no buffered
write is pending (R92, R98; for each byte at its own moment, log entry 32). Under `FAULT` every byte is a draw, by the
model's choice (log entry 15). That no byte comes stale from a read buffer is its choice too: R92 lets BACKEND answer from one,
and R103 gives no rule for when its contents go stale (log entry 35). -/
def flashReadable (s : State) : Bool :=
  s.params.flashModel && s.inflight.isNone && s.win.buffered.isEmpty && s.fault.isNone

/-- Byte `j` of a window read at `addr`: the flash model's current byte, never a stale byte of a read buffer, by the model's
choice (R92, R103, log entry 35), or the draw number `d` (R92); a draw too where the byte lies in no device any more (log
entry 14). -/
def windowByte (addr : Word) (s : State) (j d : Nat) : Byte :=
  if flashReadable s then
    match windowKey s (addr.toNat + j) with
    | some key => Memory.read s.win.flash key
    | none => Config.freeByte d
  else Config.freeByte d

/-- What be_ahb may do besides the access (R69): write AHBSPNDSTS with a draw, move each `SEQPTR[k]` to a draw. Whether it
does is a draw. -/
def ahbMoves (s : State) : State :=
  { s with
    regs.ahbspndsts := if Config.freeBool s.draws then Config.freeWord s.draws else s.regs.ahbspndsts
    seqptr := Vector.ofFn fun k : Fin 4 =>
      if Config.freeBool (s.draws + 1 + k.val) then Config.freePtr (s.draws + 1 + k.val) else s.seqptr[k]
    draws := s.draws + 5 }

/-- `MemRead(addr, n)` served by be_ahb (R92), `got` being the bytes already served: the other bytes in ascending order,
and the state. -/
def memRead (addr : Word) (n : Nat) (got : List Byte) (s : State) : List Byte × State :=
  (got ++ (List.range (n - got.length)).map fun j => windowByte addr s (got.length + j) (s.draws + j),
    ahbMoves { s with draws := s.draws + (n - got.length) })

/-- The cells a window write of `data` at `addr` stores in the flash model from byte `landed` on: byte `j` at the key of
`addr + j`. Where the sizes have changed since the access was admitted and the byte lies in no device any more, it is
dropped, by the model's choice (log entry 14). -/
def windowCells (addr : Word) (data : List Byte) (landed : Nat) (s : State) : List Host.Cell :=
  (data.zipIdx.drop landed).filterMap fun bj => (windowKey s (addr.toNat + bj.2)).map fun key => (key, bj.1)

/-- The flash model after the bytes of `data` from byte `landed` on have landed (R83, R93), whatever is in flight (log entry
33); without one, nothing. -/
def landBytes (addr : Word) (data : List Byte) (landed : Nat) (s : State) : List Host.Cell :=
  if s.params.flashModel then Memory.writeCells s.win.flash (windowCells addr data landed s) else s.win.flash

/-- A window write lands at the device, or what is left of it (R93, R100), while an IP command is in flight too: R98 speaks of
reads only, and that its bytes are stored all the same is the model's choice (log entry 33). -/
def landWrite (addr : Word) (data : List Byte) (landed : Nat) (s : State) : State :=
  ahbMoves (sizesDrawn { s with win.flash := landBytes addr data landed s })

/-- `MemWrite(addr, n, data)` (R93), its first `landed` bytes already landed: with BUFFERABLEEN a write is acknowledged at
once and kept pending (R100), else it lands; a free value decides where the bit is open (R58, R408, `bufferable`). -/
def memWrite (addr : Word) (data : List Byte) (landed : Nat) (s : State) : State :=
  if bufferable s && landed == 0 then { s with win.buffered := s.win.buffered ++ [⟨addr, data, 0⟩] }
  else landWrite addr data landed s

/-- An admitted access is served and has its result (R247, R248, R360). -/
def serveAccess (a : WinAccess) (s : State) : State :=
  match a with
  | .read addr n got =>
    let r := memRead addr n got s
    answer (resultOf .ok 0 r.1) r.2
  | .write addr data landed => answer (resultOf .ok 0 []) (memWrite addr data landed s)

/-- An access joins those that wait for BACKEND (R92); it has no result yet, and `ENG.result` stays (R360). -/
def queueAccess (a : WinAccess) (s : State) : State :=
  { s with win.waiting := s.win.waiting ++ [a] }

/-- An admitted access comes to BACKEND: it waits while the module is disabled (R92), else it is served (log entry 13). -/
def admitAccess (a : WinAccess) (s : State) : State :=
  if moduleDisabled s then queueAccess a s else serveAccess a s

/-- The waiting access be_ahb takes: any of them, for no rule orders them (R62, R69, R98); none while the module is
disabled (R92). -/
def servable (i : Nat) (s : State) : Option WinAccess :=
  if moduleDisabled s then none else s.win.waiting[i]?

/-- be_ahb serving the `i`-th waiting access, or what is left of it (R69, R92); with none to serve, only what be_ahb may
do besides. -/
def beAhbServe (i : Nat) (s : State) : State :=
  match servable i s with
  | none => ahbMoves s
  | some a => serveAccess a { s with win.waiting := s.win.waiting.eraseIdx i }

/-- be_ahb serving the next byte of the `i`-th waiting access (R69, R90): the access ends with its last byte, or where
BUFFERABLEEN acknowledges it at once. Whether a byte of a read is a draw (R98) is decided when it is served, so the bytes
served before a trigger or a buffered write keep the flash model's value, by the model's choice (log entry 32). -/
def beAhbByte (i : Nat) (s : State) : State :=
  match servable i s with
  | none => ahbMoves s
  | some (.read addr n got) =>
    if n ≤ got.length + 1 then beAhbServe i s
    else
      ahbMoves { s with
        win.waiting := s.win.waiting.set i (.read addr n (got ++ [windowByte addr s got.length s.draws]))
        draws := s.draws + 1 }
  | some (.write addr data landed) =>
    if data.length ≤ landed + 1 || (bufferable s && landed == 0) then beAhbServe i s
    else
      ahbMoves (sizesDrawn { s with
        win.waiting := s.win.waiting.set i (.write addr data (landed + 1))
        win.flash := landBytes addr (data.take (landed + 1)) landed s })

/-- be_ahb landing the `i`-th buffered write, or what is left of it (R69, R100). -/
def beAhbLand (i : Nat) (s : State) : State :=
  match s.win.buffered[i]? with
  | none => ahbMoves s
  | some w => landWrite w.addr w.data w.landed { s with win.buffered := s.win.buffered.eraseIdx i }

/-- be_ahb landing the next byte of the `i`-th buffered write (R69, R90, R100). -/
def beAhbLandByte (i : Nat) (s : State) : State :=
  match s.win.buffered[i]? with
  | none => ahbMoves s
  | some w =>
    if w.data.length ≤ w.landed + 1 then beAhbLand i s
    else
      ahbMoves (sizesDrawn { s with
        win.buffered := s.win.buffered.set i { w with landed := w.landed + 1 }
        win.flash := landBytes w.addr (w.data.take (w.landed + 1)) w.landed s })

/-! ## Playing LUT instructions -/

/-- The phase of a command a LUT instruction belongs to (R112's last column). -/
inductive LutPhase where
  | nothing
  | command
  | address
  | dataWrite
  | dataRead
  | dummy
deriving DecidableEq, Repr

/-- BACKEND moves the position of the program it plays, freely (R53). -/
def moveSeqPtr (s : State) : State :=
  { s with seqptr := s.seqptr.set s.player.bank (Config.freePtr s.draws), draws := s.draws + 1 }

/-- An entry of eight drawn bytes (R62: every byte BACKEND produces is a draw). -/
def drawnEntry (n : Nat) : Entry :=
  ⟨Config.freeByte n, Config.freeByte (n + 1), Config.freeByte (n + 2), Config.freeByte (n + 3),
   Config.freeByte (n + 4), Config.freeByte (n + 5), Config.freeByte (n + 6), Config.freeByte (n + 7)⟩

/-- be_rx_push with a drawn entry (R63). -/
def beRxPushDrawn (s : State) : State :=
  if rxPushEnabled s then { beRxPush (drawnEntry s.draws) s with draws := s.draws + 8 } else s

/-- The program played is that of the command in flight. -/
def playsCommand (src : SeqSource) : Bool :=
  match src with
  | .ip _ => true
  | .ahbRead _ => false
  | .ahbWrite _ => false

/-- BACKEND plays one LUT instruction of the program it is playing (log entry 9): the position moves, freely; the data
phase of an IP command moves data through the FIFOs, by be_rx_push or be_tx_pop under their guards. What the instruction
makes the serial bus do is not in the source (R112). -/
def playPhase (ph : LutPhase) (s : State) : State :=
  match ph with
  | .dataRead => if playsCommand s.player.source then beRxPushDrawn (moveSeqPtr s) else moveSeqPtr s
  | .dataWrite => if playsCommand s.player.source then beTxPop (moveSeqPtr s) else moveSeqPtr s
  | .nothing => moveSeqPtr s
  | .command => moveSeqPtr s
  | .address => moveSeqPtr s
  | .dummy => moveSeqPtr s

/-- BACKEND meets an OPCODE outside R112 (R113): the position moves, freely, and it may raise CommandCheck for the path it
plays, with a drawn code. -/
def playUnknown (slot : BitVec 5) (s : State) : State :=
  let s1 := moveSeqPtr s
  let b := if playsCommand s.player.source then ErrBit.ipCmdErr else ErrBit.ahbCmdErr
  let s2 := if Config.freeBool s1.draws then beError b ((Config.freeByte s1.draws).extractLsb' 0 4) slot false s1 else s1
  { s2 with draws := s1.draws + 1 }

/-- The phase of each LUT instruction (R112); a host operation is not played. -/
def lutPhase : Instr → Option LutPhase
  | .stop _ _ => some .nothing
  | .cmdSdr _ _ => some .command
  | .cmdDdr _ _ => some .command
  | .raddrSdr _ _ => some .address
  | .raddrDdr _ _ => some .address
  | .writeSdr _ _ => some .dataWrite
  | .writeDdr _ _ => some .dataWrite
  | .readSdr _ _ => some .dataRead
  | .readDdr _ _ => some .dataRead
  | .dummySdr _ _ => some .dummy
  | .dummyDdr _ _ => some .dummy
  | .lutb _ => none
  | .ipx _ _ _ _ => none
  | .wren => none
  | .wrdi => none
  | .rdsr => none
  | .rdid => none
  | .erase _ => none
  | .rsten => none
  | .rst => none
  | .rdcfg1 => none
  | .rdcfg2 => none
  | .rdcfg3 => none
  | .wrcfg1 _ _ => none
  | .wrcfg2 _ _ => none
  | .wrcfg3 _ _ => none
  | .pwrup => none
  | .pwrdn => none
  | .lock => none
  | .unlock => none
  | .xwrite _ _ => none
  | .ahbcfg _ => none
  | .devcfg _ => none
  | .dllcalc _ => none
  | .regrd _ => none
  | .regwr _ _ => none
  | .errcls => none
  | .winrd _ _ => none
  | .winwr _ _ _ => none

/-- The FLSHCR2 word whose sequences the window uses for bank `k` (R33, R95): bank 0's with SAMEDEVICEEN, a free value where
that bit is open (R58, R408, `sameDevice`). -/
def windowSequences (k : Fin 4) (s : State) : Word :=
  s.regs.flshcr2[if sameDevice s then 0 else k]

/-- The LUT half BACKEND fetches when it plays for bank `k` from `src`: the half at `SEQPTR[k]` of a slot of the command in
flight (R36, R37), or of a window sequence (R92, R93, R101); with the slot's number and the state. None while the module is
disabled (R22), with no command in flight or one whose address lies in another bank (R95), or beyond the sequence count.
Under `FAULT` the window's slots and counts are those a word of FLSHCR2 stores (log entry 8). That the slots behind the first may be
played in any order, and that a sequence which runs past slot 29 by its count goes on with draws, under its slot number
modulo 32, are the model's choices (log entry 29); so is that the draws of a window slot are fresh for every half played (log
entry 34). -/
def fetchHalf (k : Fin 4) (src : SeqSource) (s : State) : Option (Half × BitVec 5 × State) :=
  if moduleDisabled s then none
  else
    match src with
    | .ip j =>
      match s.inflight with
      | none => none
      | some c =>
        match (commandProgram c)[j.val]? with
        | none => none
        | some w =>
          if playsOn (commandTarget c s) k then
            some (w.half s.seqptr[k], c.slot + BitVec.ofNat 5 j.val, sizesDrawn s)
          else none
    | .ahbRead j =>
      let slot := slice (windowSequences k s) 0 5 + j.val
      if j.val ≤ slice (windowSequences k s) 5 3 then
        let f := fetchSlot slot s
        some (f.1.half s.seqptr[k], BitVec.ofNat 5 slot, f.2)
      else none
    | .ahbWrite j =>
      let slot := slice (windowSequences k s) 8 5 + j.val
      if j.val ≤ slice (windowSequences k s) 13 3 then
        let f := fetchSlot slot s
        some (f.1.half s.seqptr[k], BitVec.ofNat 5 slot, f.2)
      else none

/-- BACKEND plays the LUT half it fetches, between two micro-steps of the engine. -/
def bePlay (k : Fin 4) (src : SeqSource) (s : State) : State :=
  match fetchHalf k src s with
  | none => s
  | some (h, slot, s1) =>
    match (decodeLut16 h).bind lutPhase with
    | some ph => playPhase ph { s1 with player := ⟨k, src⟩ }
    | none => playUnknown slot { s1 with player := ⟨k, src⟩ }

/-! ## DMA and RESET -/

/-- An agent outside the model pops RXQ while RXDMAEN = 1 (R39, U9); under `FAULT` while the stored bit is 1 (log
entry 8). -/
def dmaPop (n : Nat) (s : State) : State :=
  if s.regs.iprxfcr.getLsbD 1 then
    { s with rxq := s.rxq.drop n, rdcntr := s.rdcntr + BitVec.ofNat 16 (min n s.rxq.length) }
  else s

/-- An agent outside the model pushes TXQ while TXDMAEN = 1 (R40, U9), up to its capacity (R211); under `FAULT` while the
stored bit is 1 (log entry 8). -/
def dmaPush (es : List Entry) (s : State) : State :=
  if s.regs.iptxfcr.getLsbD 1 then
    let fit := es.take (16 - s.txq.length)
    { s with txq := s.txq ++ fit, wrcntr := s.wrcntr + BitVec.ofNat 16 fit.length }
  else s

/-- The buffered writes that outlast RESET: each does or does not, freely (log entry 6). -/
def keptWrites : Nat → List BufferedWrite → List BufferedWrite
  | _, [] => []
  | n, w :: rest => if Config.freeBool n then w :: keptWrites (n + 1) rest else keptWrites (n + 1) rest

/-- RESET (R390, R71, R72): the reset column, with 120 draws in the LUT store and a drawn lock state; every operation in
progress is abandoned without a result, the waiting window accesses too. The parameters and the flash device stay (R392),
the schedule goes on. What the flash device does with a command in flight that RESET forgets is outside the model (R390): that
it then changes no byte of the flash model is the model's choice (log entry 6). -/
def resetEvent (s : State) : State :=
  { State.reset with
    params := s.params
    regs.lut := Vector.ofFn fun i : Fin 120 => Config.freeWord (s.draws + i.val)
    lutUnlocked := Config.freeBool s.draws
    win := {
      waiting := []
      buffered := keptWrites (s.draws + 1) s.win.buffered
      flash := s.win.flash }
    player := s.player
    draws := s.draws + 120 + s.win.buffered.length
    sched := s.sched }

/-- A turn of an agent other than ENGINE, but for the submission of a request. -/
def envStep (ev : Event) (s : State) : State :=
  match ev with
  | .engine => s
  | .request _ => s
  | .access _ => s
  | .rxPush e => beRxPush e s
  | .txPop => beTxPop s
  | .complete device => beComplete device s
  | .error b code id onAhb => beError b code id onAhb s
  | .arb seqIdle arbIdle src => beArb seqIdle arbIdle src s
  | .lock p slave reference => beLock p slave reference s
  | .ahbServe i => beAhbServe i s
  | .ahbByte i => beAhbByte i s
  | .ahbLand i => beAhbLand i s
  | .ahbLandByte i => beAhbLandByte i s
  | .play k src => bePlay k src s
  | .dmaPop n => dmaPop n s
  | .dmaPush es => dmaPush es s
  | .reset => resetEvent s

end Sys2Proof.Machine
end

