-- ==== Sys2Proof/Machine/Gate.lean ====
section
/-!
DEFINITION. The Mode/Execution Gate and the checks every request passes before the first register access (R320 to R328),
in the order of R320: step 2 the capability matrix, step 3 the operands, step 4 the command kind, step 5 the addresses.
Step 1 is decoding (R141), step 0 is acceptance (Machine/Engine.lean).
-/

namespace Sys2Proof.Machine

/-! ## Step 2: the capability matrix -/

/-- The operations R324 allows in `RamBlocking` only. -/
def ramOnly : Instr → Bool
  | .stop _ _ => false
  | .cmdSdr _ _ => false
  | .cmdDdr _ _ => false
  | .raddrSdr _ _ => false
  | .raddrDdr _ _ => false
  | .writeSdr _ _ => false
  | .writeDdr _ _ => false
  | .readSdr _ _ => false
  | .readDdr _ _ => false
  | .dummySdr _ _ => false
  | .dummyDdr _ _ => false
  | .lutb _ => false
  | .ipx _ _ _ _ => true
  | .wren => true
  | .wrdi => true
  | .rdsr => true
  | .rdid => true
  | .erase _ => true
  | .rsten => true
  | .rst => true
  | .rdcfg1 => true
  | .rdcfg2 => true
  | .rdcfg3 => true
  | .wrcfg1 _ _ => true
  | .wrcfg2 _ _ => true
  | .wrcfg3 _ _ => true
  | .pwrup => true
  | .pwrdn => true
  | .lock => true
  | .unlock => true
  | .xwrite _ _ => false
  | .ahbcfg _ => false
  | .devcfg _ => false
  | .dllcalc _ => false
  | .regrd _ => false
  | .regwr _ _ => false
  | .errcls => false
  | .winrd _ _ => false
  | .winwr _ _ _ => true

/-- IPX of kind page-program, "command-path bulk write", is illegal under both tags (R328). -/
def bulkWrite : Instr → Bool
  | .ipx kind _ _ _ => kindOfCode kind == some .pageProgram
  | _ => false

/-- The gate allows the operation under `MODE_TAG` (R320 step 2, R324, R328). -/
def modeAllows (i : Instr) (p : Params) : Bool :=
  (p.modeTag == .ramBlocking || !ramOnly i) && !bulkWrite i

/-! ## Step 3: operands -/

/-- Words of a record inside their ranges (R134). -/
def recordOk (bounds : List Nat) (record : List Word) : Bool :=
  record.length == bounds.length && (record.zip bounds).all fun wb => decide (wb.1.toNat ≤ wb.2)

/-- The AHB record's ranges (R134): per buffer `master_id`, `size`, `priority`, `prefetch`; then `grant_timeout`,
`bus_timeout`, `resume_wait` and the seven flags. -/
def ahbBounds : List Nat :=
  (List.replicate 8 [15, 255, 7, 1]).flatten ++ [255, 65535, 255, 1, 1, 1, 1, 1, 1, 1]

/-- The controller record's ranges (R134): `sample_mode`, `root_clock_hz`, `data_valid_time_ns`, `secondary_clock_en`. -/
def controllerBounds : List Nat :=
  [3, 2 ^ 32 - 1, 2 ^ 32 - 1, 1]

/-- IPX's data fits its direction (R170): none with a read kind; with a write kind as many bytes as `size`, at most 4. -/
def ipxDataOk (dir : Dir) (size : Word) (data : List Byte) : Bool :=
  match dir with
  | .read => data.isEmpty
  | .write => decide (data.length = size.toNat) && decide (size.toNat ≤ 4)

/-- Operands in range (R320 step 3): KIND at most 15, size at most 65535, record words and the binding inside their
ranges, the payload length the operation demands (R170, R196, R247, R248, R250, R262). -/
def operandsOk (i : Instr) (p : Params) : Bool :=
  match i with
  | .stop _ _ => true
  | .cmdSdr _ _ => true
  | .cmdDdr _ _ => true
  | .raddrSdr _ _ => true
  | .raddrDdr _ _ => true
  | .writeSdr _ _ => true
  | .writeDdr _ _ => true
  | .readSdr _ _ => true
  | .readDdr _ _ => true
  | .dummySdr _ _ => true
  | .dummyDdr _ _ => true
  | .lutb kind => decide (kind.toNat ≤ 15)
  | .ipx kind _ size data =>
    decide (kind.toNat ≤ 15) && decide (size.toNat ≤ 65535) &&
    (match (kindOfCode kind).bind (commandOf p) with
      | none => true
      | some c => ipxDataOk c.dir size data)
  | .wren => true
  | .wrdi => true
  | .rdsr => true
  | .rdid => true
  | .erase _ => true
  | .rsten => true
  | .rst => true
  | .rdcfg1 => true
  | .rdcfg2 => true
  | .rdcfg3 => true
  | .wrcfg1 len data => decide (len.toNat = data.length) && decide (1 ≤ data.length) && decide (data.length ≤ 4)
  | .wrcfg2 len data => decide (len.toNat = data.length) && decide (1 ≤ data.length) && decide (data.length ≤ 4)
  | .wrcfg3 len data => decide (len.toNat = data.length) && decide (1 ≤ data.length) && decide (data.length ≤ 4)
  | .pwrup => true
  | .pwrdn => true
  | .lock => true
  | .unlock => true
  | .xwrite _ data => decide (data.length = 1)
  | .ahbcfg record => recordOk ahbBounds record
  | .devcfg record => recordOk controllerBounds record && bindingWithin p.binding
  | .dllcalc record => recordOk controllerBounds record
  | .regrd _ => true
  | .regwr _ _ => true
  | .errcls => true
  | .winrd _ n => decide (n.toNat ≠ 0)
  | .winwr _ len data => decide (len.toNat ≠ 0) && decide (len.toNat = data.length)

/-! ## Step 4: command kinds -/

/-- `CMD_TABLE` defines the kind, whatever its direction (R183 "any", R323). -/
def kindDefined (p : Params) (k : Kind) : Bool :=
  (commandOf p k).isSome

/-- `CMD_TABLE` defines the kind with this direction (R183, R323). -/
def kindWithDir (p : Params) (k : Kind) (d : Dir) : Bool :=
  match commandOf p k with
  | none => false
  | some c => c.dir == d

/-- The operation has a command kind and `CMD_TABLE` defines it as the operation needs (R183, R320 step 4, R323); WRDI,
LOCK and UNLOCK have no kind (R186, R201, R202). -/
def kindOk (i : Instr) (p : Params) : Bool :=
  match i with
  | .stop _ _ => true
  | .cmdSdr _ _ => true
  | .cmdDdr _ _ => true
  | .raddrSdr _ _ => true
  | .raddrDdr _ _ => true
  | .writeSdr _ _ => true
  | .writeDdr _ _ => true
  | .readSdr _ _ => true
  | .readDdr _ _ => true
  | .dummySdr _ _ => true
  | .dummyDdr _ _ => true
  | .lutb kind => ((kindOfCode kind).bind (commandOf p)).isSome
  | .ipx kind _ _ _ => ((kindOfCode kind).bind (commandOf p)).isSome
  | .wren => kindDefined p .writeEnable
  | .wrdi => false
  | .rdsr => kindWithDir p .readStatus .read
  | .rdid => kindWithDir p .readId .read
  | .erase _ => kindDefined p .eraseSector && kindWithDir p .readStatus .read
  | .rsten => kindDefined p .resetEnable
  | .rst => kindDefined p .resetDevice
  | .rdcfg1 => kindWithDir p .readCfg1 .read
  | .rdcfg2 => kindWithDir p .readCfg2 .read
  | .rdcfg3 => kindWithDir p .readCfg3 .read
  | .wrcfg1 _ _ => kindWithDir p .writeCfg1 .write
  | .wrcfg2 _ _ => kindWithDir p .writeCfg2 .write
  | .wrcfg3 _ _ => kindWithDir p .writeCfg3 .write
  | .pwrup => kindDefined p .powerUp
  | .pwrdn => kindDefined p .powerDown
  | .lock => false
  | .unlock => false
  | .xwrite _ _ => kindDefined p .pageProgram
  | .ahbcfg _ => true
  | .devcfg _ => true
  | .dllcalc _ => true
  | .regrd _ => true
  | .regwr _ _ => true
  | .errcls => true
  | .winrd _ _ => true
  | .winwr _ _ _ => true

/-! ## Step 5: addresses -/

/-- Addresses (R320 step 5): a REG offset aligned and mapped (R295), a WIN range inside the window and in devices (R92). -/
def addressOk (i : Instr) (s : State) : Bool :=
  match i with
  | .stop _ _ => true
  | .cmdSdr _ _ => true
  | .cmdDdr _ _ => true
  | .raddrSdr _ _ => true
  | .raddrDdr _ _ => true
  | .writeSdr _ _ => true
  | .writeDdr _ _ => true
  | .readSdr _ _ => true
  | .readDdr _ _ => true
  | .dummySdr _ _ => true
  | .dummyDdr _ _ => true
  | .lutb _ => true
  | .ipx _ _ _ _ => true
  | .wren => true
  | .wrdi => true
  | .rdsr => true
  | .rdid => true
  | .erase _ => true
  | .rsten => true
  | .rst => true
  | .rdcfg1 => true
  | .rdcfg2 => true
  | .rdcfg3 => true
  | .wrcfg1 _ _ => true
  | .wrcfg2 _ _ => true
  | .wrcfg3 _ _ => true
  | .pwrup => true
  | .pwrdn => true
  | .lock => true
  | .unlock => true
  | .xwrite addr _ => windowAdmits addr 1 s
  | .ahbcfg _ => true
  | .devcfg _ => true
  | .dllcalc _ => true
  | .regrd off => (decodeReg off).isSome
  | .regwr off _ => (decodeReg off).isSome
  | .errcls => true
  | .winrd addr n => windowAdmits addr n.toNat s
  | .winwr addr len _ => windowAdmits addr len.toNat s

/-! ## The order of the checks -/

/-- The result of the first check of R320 steps 2 to 5 that fails, none where all pass. -/
def gate (i : Instr) (s : State) : Option Code :=
  if !modeAllows i s.params then some .illegalInMode
  else if !operandsOk i s.params then some .badOperand
  else if !kindOk i s.params then some .unsupported
  else if !addressOk i s then some .badAccess
  else none

end Sys2Proof.Machine
end

