-- ==== Sys2Proof/Machine/Programs.lean ====
section
/-!
DEFINITION. The engine's procedures as lists of micro-steps, in the order of their pseudocode: the slot image and BUILD
(R115, R151), FIFO_SETUP, RX_DRAIN and TX_FILL (R220 to R224), ISSUE (R184), AHBCFG's and DEVCFG's writes (R240, R268).
-/

namespace Sys2Proof.Machine

/-! ## The slot image -/

/-- The opcode of a phase: bit 5 selects DDR (R112, R115's `m`). -/
def rateOpcode (c : LogicalCommand) (op : BitVec 6) : BitVec 6 :=
  match c.mode with
  | .sdr => op
  | .ddr => op ||| 0x20

/-- The instruction half of a phase of the command, with operand `x` (R115). -/
def phaseHalf (c : LogicalCommand) (op : BitVec 6) (x : Byte) : Half :=
  lutHalf (rateOpcode c op) (padsCode c.width) x

/-- A word with one instruction, in its low half (R115: bits 31:16 of W1, W2, W3 are 0). -/
def lowHalf (h : Half) : Word :=
  (0 : Half) ++ h

/-- `image(c)` of R115: command pair, address, dummy, data. -/
def image (c : LogicalCommand) : SlotWords where
  w0 := phaseHalf c 0x01 c.ophi ++ phaseHalf c 0x01 c.oplo
  w1 :=
    match c.aw with
    | none => 0
    | some n => lowHalf (phaseHalf c 0x02 (BitVec.ofNat 8 (8 * n)))
  w2 :=
    match c.dummy with
    | none => 0
    | some n => lowHalf (phaseHalf c 0x0C n)
  w3 :=
    match c.dir with
    | .read => lowHalf (phaseHalf c 0x09 0)
    | .write => lowHalf (phaseHalf c 0x08 0)

/-! ## BUILD -/

/-- One word of a build: the unlock sequence, then the word (R151, R153, R154). -/
def buildWord (p : Params) (ph : Phase) (slot : Fin 30) (j : Fin 4) (w : Word) : List Micro :=
  [⟨ph, .write .lutkey p.lutKey⟩, ⟨ph, .write .lutcr 0x00000002⟩, ⟨ph, .write (.lut (lutIndex slot j)) w⟩]

/-- The pointer reset of bank `k` (R156). -/
def resetPointer (ph : Phase) (k : Fin 4) : Micro :=
  ⟨ph, .field (.flshcr2 k) 0x80000000 0x80000000⟩

/-- The sixteen micro-steps of a build of slot `slot` with the words `w` (R151). -/
def buildSlot (p : Params) (ph : Phase) (slot : Fin 30) (w : SlotWords) : List Micro :=
  buildWord p ph slot 0 w.w0 ++ buildWord p ph slot 1 w.w1 ++ buildWord p ph slot 2 w.w2 ++ buildWord p ph slot 3 w.w3 ++
  [resetPointer ph 0, resetPointer ph 1, resetPointer ph 2, resetPointer ph 3]

/-- BUILD(kind) (R151); the gate has checked that the kind is defined (R323). -/
def build (p : Params) (ph : Phase) (k : Kind) : List Micro :=
  match commandOf p k with
  | none => []
  | some c => buildSlot p ph (slotOfKind p k) (image c)

/-! ## The FIFO procedures -/

/-- The FIFO control word of FIFO_SETUP: clear, DMA off, watermark (R220). -/
def fifoControl (p : Params) : Word :=
  place p.wm.val 2 ||| 1

/-- FIFO_SETUP (R220). -/
def fifoSetup (p : Params) : List Micro :=
  [⟨.programSequence, .write .iprxfcr (fifoControl p)⟩, ⟨.programSequence, .write .iptxfcr (fifoControl p)⟩]

/-- Reads of the first `n` words of the RX window (R222, R223). -/
def readWindow (n : Nat) : List Micro :=
  (List.range n).map fun i => ⟨.drainOrFill, .readRx (Fin.ofNat 32 i)⟩

/-- The short read (R222). -/
def shortDrain (size : Nat) : List Micro :=
  ⟨.drainOrFill, .poll .iprxfsts (.fill size)⟩ :: readWindow (ceilDiv size 4) ++ [⟨.drainOrFill, .popShort size⟩]

/-- One iteration of the long read (R223). -/
def longDrain (p : Params) : List Micro :=
  ⟨.drainOrFill, .poll .intr (.bits 0x20)⟩ :: readWindow (watermarkBytes p / 4) ++ [⟨.drainOrFill, .popLong⟩]

/-- RX_DRAIN(size) (R221). -/
def rxDrain (p : Params) (size : Nat) : List Micro :=
  if size ≤ watermarkBytes p then shortDrain size else longDrain p

/-- TX_FILL(data) (R224). -/
def txFill (data : List Byte) : List Micro :=
  [⟨.drainOrFill, .poll .intr (.bits 0x40)⟩, ⟨.drainOrFill, .write (.tfdr 0) (wordLe data)⟩,
   ⟨.drainOrFill, .write .intr 0x40⟩]

/-! ## ISSUE -/

/-- The data phase (R180). -/
def dataPhase (p : Params) (k : Kind) (size : Nat) (data : List Byte) : List Micro :=
  if size = 0 then []
  else
    match commandOf p k with
    | none => []
    | some c =>
      match c.dir with
      | .read => rxDrain p size
      | .write => txFill data

/-- IPCR1 of an IP command: ISEQID at 20:16, ISEQNUM 0, IDATSZ at 15:0 (R175). -/
def commandSelect (p : Params) (k : Kind) (size : BitVec 16) : Word :=
  place (slotOfKind p k).val 16 ||| BitVec.zeroExtend 32 size

/-- ISSUE's micro-steps (R184). -/
def issue (p : Params) (k : Kind) (addr : Option Word) (size : BitVec 16) (data : List Byte) : List Micro :=
  build p .programSequence k ++
  [⟨.programSequence, .write .ipcr0 (addr.getD 0)⟩, ⟨.programSequence, .write .ipcr1 (commandSelect p k size)⟩] ++
  fifoSetup p ++
  [⟨.triggered, .write .ipcmd 0x00000001⟩, ⟨.pollingCompletion, .poll .intr (.bits 0x00000001)⟩,
   ⟨.pollingCompletion, .write .intr 0x00000001⟩] ++
  dataPhase p k size.toNat data

/-- The Transfer Session of an ISSUE (R172). -/
def newSession (p : Params) (addr : Option Word) (size : BitVec 16) (data : List Byte) : Session where
  addr := addr
  count := size
  wm := watermarkBytes p
  remaining := size.toNat
  out := []
  inp := data

/-! ## AHBCFG -/

/-- The AHBRXBUFCR0 image of buffer `i`: prefetch 31, priority 26:24, master id 19:16, size 7:0 (R30, R240, R243). -/
def bufferWord (record : List Word) (i : Nat) : Word :=
  place (recordWord record (4 * i + 3)) 31 ||| place (recordWord record (4 * i + 2)) 24 |||
  place (recordWord record (4 * i)) 16 ||| place (recordWord record (4 * i + 1)) 0

/-- The MCR2 fields of AHBCFG: RESUMEWAIT 31:24, SCKBDIFFOPT 19, SAMEDEVICEEN 15, CLRAHBBUFOPT 11 (R24, R244). -/
def ahbMcr2Bits (record : List Word) : Word :=
  place (recordWord record 34) 24 ||| place (recordWord record 36) 19 ||| place (recordWord record 35) 15 |||
  place (recordWord record 37) 11

/-- The AHBCR fields of AHBCFG: READADDROPT 6, PREFETCHEN 5, BUFFERABLEEN 4, CACHABLEEN 3 (R25, R244). -/
def ahbcrBits (record : List Word) : Word :=
  place (recordWord record 38) 6 ||| place (recordWord record 39) 5 ||| place (recordWord record 40) 4 |||
  place (recordWord record 41) 3

/-- AHBCFG's thirteen micro-steps (R240). -/
def ahbConfigure (record : List Word) : List Micro :=
  ⟨.configuring, .readModuleDisable⟩ ::
  ((List.finRange 8).map fun i => ⟨.configuring, .write (.ahbrxbufcr0 i) (bufferWord record i.val)⟩) ++
  [⟨.configuring, .field .mcr0 (fieldMask 24 8) (place (recordWord record 32) 24)⟩,
   ⟨.configuring, .field .mcr1 (fieldMask 0 16) (place (recordWord record 33) 0)⟩,
   ⟨.configuring, .field .mcr2 0xFF088800 (ahbMcr2Bits record)⟩,
   ⟨.configuring, .field .ahbcr 0x00000078 (ahbcrBits record)⟩]

/-! ## DEVCFG -/

/-- FLSHCR1's image from the binding (R32, R268). -/
def timingWord (b : Binding) : Word :=
  place b.csInterval 16 ||| place b.csIntervalUnit 15 ||| place b.cas 11 ||| place b.wordAddressing 10 |||
  place b.csHold 5 ||| place b.csSetup 0

/-- The write-mask enable bit of a port in FLSHCR4: 2 for A, 3 for B (R34, R271, R300). -/
def writeMaskBit (p : Fin 2) : Nat :=
  2 + p.val

/-- The read-sequence step of DEVCFG, only for a count above 0 (R273). -/
def readSequence (b : Binding) : List Micro :=
  if b.ardSeqCount = 0 then []
  else [⟨.configuring, .field (.flshcr2 (bankIndex b)) (fieldMask 0 8)
    (place b.ardSeqId 0 ||| place (b.ardSeqCount - 1) 5)⟩]

/-- The write-sequence step of DEVCFG, only for a count above 0 (R274). -/
def writeSequence (b : Binding) : List Micro :=
  if b.awrSeqCount = 0 then []
  else [⟨.configuring, .field (.flshcr2 (bankIndex b)) (fieldMask 8 8)
    (place b.awrSeqId 8 ||| place (b.awrSeqCount - 1) 13)⟩]

/-- DEVCFG's micro-steps (R268 to R276). -/
def deviceConfigure (p : Params) (c : ControllerRecord) : List Micro :=
  let b := p.binding
  let port := portIndex b.port
  let k := bankIndex b
  [⟨.configuring, .poll .sts0 (.bits idleMask)⟩,
   ⟨.configuring, .write (.dllcr port) (dllValue c)⟩,
   ⟨.configuring, .field .flshcr4 (fieldMask (writeMaskBit port) 1) (place b.writeMask (writeMaskBit port))⟩,
   ⟨.configuring, .field (.flshcr0 k) (fieldMask 0 23) (place b.flashSizeKb 0)⟩,
   ⟨.configuring, .write (.flshcr1 k) (timingWord b)⟩,
   ⟨.configuring, .field (.flshcr2 k) (fieldMask 28 3) (place b.awrWaitUnit 28)⟩] ++
  readSequence b ++ writeSequence b ++
  [⟨.configuring, .field .mcr0 (fieldMask 1 1) 0⟩,
   ⟨.configuring, .poll .sts2 (.bits (lockMask port))⟩,
   ⟨.configuring, .delay p.settleCycles⟩]

/-! ## ERRCLS -/

/-- ERRCLS's three reads (R350). -/
def errorReads : List Micro :=
  [⟨.configuring, .readValue .intr⟩, ⟨.configuring, .readValue .sts0⟩, ⟨.configuring, .readValue .sts1⟩]

end Sys2Proof.Machine
end

