-- ==== Sys2Proof/Machine/Engine.lean ====
section
/-!
DEFINITION. ENGINE (R9): accepting a request (R320, R321, R322), taking one micro-step (R15, R90), ending an operation
(R360), and the run of an operation between the turns of the other agents (R9, R90, R97).
-/

namespace Sys2Proof.Machine

/-! ## Starting an operation -/

/-- The engine's state with the micro-steps of an operation in front of it: its phase is that of the first (R55). -/
def Engine.withProgram (e : Engine) (prog : List Micro) : Engine :=
  { e with
    cont := prog
    phase := match prog with
      | [] => .idle
      | m :: _ => m.phase
    polls := 0 }

/-- An accepted operation starts: `ENG.op` holds it, its micro-steps lie ahead (R57, R184). -/
def begin (i : Instr) (session : Option Session) (prog : List Micro) (ending : Ending) (s : State) : State :=
  { s with
    eng := ({ s.eng with op := some i, session := session, ending := ending, vals := [], count := 0 }).withProgram prog }

/-! ## Ending an operation -/

/-- The bytes an operation has collected (R181). -/
def collected (s : State) : List Byte :=
  match s.eng.session with
  | none => []
  | some x => x.out

/-- ERASE goes on with a read-status command, the `n`-th (R190). -/
def eraseNextStatus (n : Nat) (s : State) : State :=
  { s with
    eng := ({ s.eng with
      session := some (newSession s.params none s.params.statusLen [])
      count := n }).withProgram (issue s.params .readStatus none s.params.statusLen []) }

/-- The first status byte an ERASE has read; a draw where `STATUS_LEN` is 0 (log entry 18). -/
def statusByte (s : State) : Byte :=
  match collected s with
  | [] => Config.freeByte s.draws
  | b :: _ => b

/-- A command of ERASE has ended (R190): after erase-sector the first read-status; after a read-status with
write-in-progress 0 the result, with the count in RSP1; else `Timeout` at the limit, or the next read-status. RSP1 has 32
bits and the count none: RSP1 holds it modulo 2^32, by the model's choice (R133, log entry 30). -/
def eraseEnd (s : State) : State :=
  let n := s.eng.count
  if n = 0 then eraseNextStatus 1 s
  else
    let s1 := if (collected s).isEmpty then { s with draws := s.draws + 1 } else s
    if !writeInProgress s.params (statusByte s) then finish (resultOf .ok (BitVec.ofNat 32 n) []) s1
    else
      match s.params.pollLimit with
      | none => eraseNextStatus (n + 1) s1
      | some limit => if limit ≤ n then raise .timeout (BitVec.ofNat 32 n) s1 else eraseNextStatus (n + 1) s1

/-- The classification of the three values ERRCLS has read (R350). -/
def errorFound (s : State) : Option ErrBit :=
  lowestError (s.eng.vals.getD 0 0)

/-- ERRCLS has read its three registers (R350): no error bit ends it with `Ok`; else the lowest is cleared. -/
def classifyEnd (s : State) : State :=
  match errorFound s with
  | none => finish (resultOf .ok 0 []) s
  | some b =>
    { s with eng := ({ s.eng with ending := .classified }).withProgram [⟨.configuring, .write .intr (errMask b)⟩] }

/-- ERRCLS has cleared the bit it reports (R350). -/
def classifiedEnd (s : State) : State :=
  match errorFound s with
  | none => finish (resultOf .ok 0 []) s
  | some b => finish (classify b (s.eng.vals.getD 1 0) (s.eng.vals.getD 2 0)) s

/-- The micro-steps of the operation are all taken. -/
def endOperation (s : State) : State :=
  match s.eng.ending with
  | .done => finish (resultOf .ok 0 (collected s)) s
  | .value => finish (resultOf .ok (s.eng.vals.getD 0 0) []) s
  | .eraseStatus => eraseEnd s
  | .classify => classifyEnd s
  | .classified => classifiedEnd s

/-- A micro-step is done and `rest` lies ahead. -/
def proceed (rest : List Micro) (s : State) : State :=
  match rest with
  | [] => endOperation s
  | m :: ms => { s with eng := s.eng.withProgram (m :: ms) }

/-! ## One micro-step -/

/-- The session with its record changed. -/
def onSession (f : Session → Session) (s : State) : State :=
  { s with eng.session := s.eng.session.map f }

/-- One read of a poll (R362): the condition holds and the operation goes on; or the limit is reached and it ends with
`Timeout` and the number of reads, modulo 2^32 by the model's choice (R133, log entry 30); or the poll stays. -/
def pollStep (r : Reg) (c : PollCond) (rest : List Micro) (s : State) : State :=
  let v := regRead r s
  if c.holds v.1 then proceed rest v.2
  else
    let n := s.eng.polls + 1
    match s.params.pollLimit with
    | none => { v.2 with eng.polls := n }
    | some limit => if limit ≤ n then raise .timeout (BitVec.ofNat 32 n) v.2 else { v.2 with eng.polls := n }

/-- The end of an iteration of the long read (R223): a watermark's worth is popped and counted off; while bytes remain,
another iteration, else the first `count` bytes are kept. -/
def popLongStep (rest : List Micro) (s : State) : State :=
  let s1 := onSession (fun x => { x with remaining := x.remaining - x.wm }) (regWrite .intr 0x20 s)
  match s1.eng.session with
  | none => proceed rest s1
  | some x =>
    if 0 < x.remaining then proceed (longDrain s.params ++ rest) s1
    else proceed rest (onSession (fun x => { x with out := x.out.take x.count.toNat }) s1)

/-- One micro-step `a`, with `rest` behind it (R15, R90). A register write that overlaps a command in flight stops the
engine (R37, R366); a store waits while the module is disabled (R92, R93, R251). -/
def actStep (a : Act) (rest : List Micro) (s : State) : State :=
  match a with
  | .write r v =>
    let s1 := regWrite r v s
    if s1.fault.isSome then s1 else proceed rest s1
  | .field r mask bits => proceed rest (regField r mask bits s)
  | .poll r c => pollStep r c rest s
  | .readValue r =>
    let v := regRead r s
    proceed rest { v.2 with eng.vals := s.eng.vals ++ [v.1] }
  | .readModuleDisable =>
    let v := regRead .mcr0 s
    if v.1.getLsbD 1 then proceed rest v.2 else raise .moduleEnabled 0 v.2
  | .readRx i =>
    let v := regRead (.rfdr i) s
    proceed rest (onSession (fun x => { x with out := x.out ++ bytesLe v.1 }) v.2)
  | .popShort size =>
    proceed rest (onSession (fun x => { x with out := x.out.take size }) (regWrite .intr 0x20 s))
  | .popLong => popLongStep rest s
  | .store addr b => if moduleDisabled s then s else proceed rest (memWrite addr [b] 0 s)
  | .delay _ => proceed rest s

/-- ENGINE's next micro-step; none while it is `Idle`, and none once `FAULT` is set (R366, log entry 8). -/
def engStep (s : State) : State :=
  if s.fault.isSome then s
  else
    match s.eng.cont with
    | [] => s
    | m :: rest => actStep m.act rest s

/-! ## Requests on a busy machine -/

/-- A window request (R247, R248): the checks of its operation, then `go`, which serves the access or leaves it waiting.
It is not subject to acceptance (R321); a refusal is `ENG.result` and nothing else (R331, R361). -/
def windowRequest (i : Instr) (go : State → State) (s : State) : State :=
  match gate i s with
  | some c => refuse c (sizesDrawn s)
  | none => go (sizesDrawn s)

/-- The access of a window operation, none for every operation of port OP (R132). -/
def windowAccess : Instr → Option WinAccess
  | .winrd addr n => some (.read addr n.toNat [])
  | .winwr addr _ data => some (.write addr data 0)
  | _ => none

/-- A request names an operation of port AHB, the window port (R132). -/
def onWindowPort (r : Request) : Bool :=
  reqOp r == 0x20 || reqOp r == 0x21

/-- The result of a request that does not decode (R141, R320): `BadOp`; for a payload the operation does not take
`BadOperand`, after the mode check (log entry 16). -/
def rejectCode (e : Reject) (p : Params) : Code :=
  match e with
  | .unknownOp _ => .badOp
  | .reservedField => .badOp
  | .operandNotZero => .badOp
  | .strayPayload i => if modeAllows i p then .badOperand else .illegalInMode

/-- A request that does not decode has its result (R141); on port OP it passes acceptance first (R320 step 0). -/
def rejectRequest (r : Request) (e : Reject) (s : State) : State :=
  if onWindowPort r then refuse (rejectCode e s.params) s
  else if s.fault.isSome then s
  else if s.eng.phase ≠ .idle then overlap s
  else refuse (rejectCode e s.params) s

/-- A request submitted between two micro-steps of an operation: a window request is served (R321), any other overlaps
(R322). -/
def requestWhileBusy (r : Request) (s : State) : State :=
  match decodeRequest r with
  | .error e => rejectRequest r e s
  | .ok i =>
    match windowAccess i with
    | some a => windowRequest i (admitAccess a) s
    | none => if s.fault.isSome then s else overlap s

/-- A window request of AHBM that passes its checks and is left waiting for BACKEND (R92); a request for anything else is no
turn of AHBM. -/
def requestToWait (r : Request) (s : State) : State :=
  match decodeRequest r with
  | .error _ => s
  | .ok i =>
    match windowAccess i with
    | some a => windowRequest i (queueAccess a) s
    | none => s

/-! ## Running an operation -/

/-- One turn: the agent the schedule names, ENGINE once it is empty (R9, log entry 2). -/
def tick (s : State) : State :=
  match s.sched with
  | [] => engStep s
  | .engine :: rest => engStep { s with sched := rest }
  | .request r :: rest => requestWhileBusy r { s with sched := rest }
  | .access r :: rest => requestToWait r { s with sched := rest }
  | ev :: rest => envStep ev { s with sched := rest }

/-- The engine waits, and no other agent has a turn left: the next read of its poll is like the last one, or its store
finds the module disabled. -/
def waiting (s : State) : Bool :=
  s.sched.isEmpty && s.params.pollLimit.isNone &&
  (match s.eng.cont with
    | ⟨_, .poll r c⟩ :: _ => !c.holds (regPeek r s)
    | _ => false) ||
  s.sched.isEmpty &&
  (match s.eng.cont with
    | ⟨_, .store _ _⟩ :: _ => moduleDisabled s
    | _ => false)

/-- Nothing is left to do before a request or a turn of another agent comes: the operation is over, the port is stuck
(R321), or the engine waits. -/
def settled (s : State) : Bool :=
  s.fault.isSome || s.eng.phase == .idle || waiting s

/-- At most so many turns, until nothing is left to do. -/
def drive : Nat → State → State
  | 0, s => s
  | n + 1, s => if settled s then s else drive n (tick s)

/-- How many turns one step of the machine may take: enough for every operation with the turns scheduled (log entry 3).
An operation that is not over then goes on in the next step. -/
def budget (s : State) : Nat :=
  512 + (64 + s.params.pollLimit.getD 0) * (s.sched.length + 1)

/-- The operation in progress runs on, between the turns the schedule gives the other agents (R9, R90). -/
def run (s : State) : State :=
  drive (budget s) s

/-- A request on port OP (R320): not accepted while `FAULT` is set (R321); an overlap while the engine is not `Idle`
(R322); else the checks in their order, and a refusal that changes nothing but the result (R325), or the operation
`go` starts, run to its end or to a wait. -/
def accept (i : Instr) (go : State → State) (s : State) : Host.Outcome State Fault Refusal :=
  if s.fault.isSome then .next s
  else if s.eng.phase ≠ .idle then .next (overlap s)
  else
    match gate i s with
    | some c => .next (refuse c s)
    | none => .next (run (go s))

/-- ISSUE of one command kind as an operation (R184, R185 to R200). -/
def issueOperation (i : Instr) (k : Kind) (addr : Option Word) (size : BitVec 16) (data : List Byte) (ending : Ending)
    (s : State) : State :=
  begin i (some (newSession s.params addr size data)) (issue s.params k addr size data) ending s

/-- An operation in phase `Configuring` with these micro-steps (R55). -/
def configureOperation (i : Instr) (prog : List Micro) (ending : Ending) (s : State) : State :=
  begin i none prog ending s

end Sys2Proof.Machine
end

