-- ==== Sys2Proof/Machine/AhbWindow.lean ====
section
/-!
DEFINITION. The AHB Window Configurator and the window's operations (R240, R247, R248, R250).
-/

namespace Sys2Proof.Machine

/-- AHBCFG, configure the AHB window (R240). -/
def execAhbcfg (record : List Word) (s : State) : Host.Outcome State Fault Refusal :=
  accept (.ahbcfg record) (fun s => configureOperation (.ahbcfg record) (ahbConfigure record) .done s) s

/-- WINRD, read bytes through the window (R247), on port AHB. -/
def execWinrd (addr : Word) (n : Word) (s : State) : Host.Outcome State Fault Refusal :=
  .next (windowRequest (.winrd addr n) (admitAccess (.read addr n.toNat [])) s)

/-- WINWR, write bytes through the window (R248), on port AHB. -/
def execWinwr (addr : Word) (len : Word) (data : List Byte) (s : State) : Host.Outcome State Fault Refusal :=
  .next (windowRequest (.winwr addr len data) (admitAccess (.write addr data 0)) s)

/-- XWRITE, the restricted execute-in-place write (R250): BUILD(page-program), then the store of one byte. -/
def execXwrite (addr : Word) (data : List Byte) (s : State) : Host.Outcome State Fault Refusal :=
  accept (.xwrite addr data) (fun s =>
    configureOperation (.xwrite addr data)
      (build s.params .configuring .pageProgram ++ [⟨.configuring, .store addr (data.getD 0 0)⟩]) .done s) s

end Sys2Proof.Machine
end

