-- ==== Sys2Proof/Machine/DeviceTiming.lean ====
section
/-!
DEFINITION. The Device Timing and DLL Calibrator's operations (R260, R268).
-/

namespace Sys2Proof.Machine

/-- DLLCALC, compute the DLL Calibration Value (R260): no register access, no micro-step. -/
def execDllcalc (record : List Word) (s : State) : Host.Outcome State Fault Refusal :=
  accept (.dllcalc record) (fun s => finish (resultOf .ok (dllValue (controllerRecord record)) []) s) s

/-- DEVCFG, configure device timing and enable the controller (R268). -/
def execDevcfg (record : List Word) (s : State) : Host.Outcome State Fault Refusal :=
  accept (.devcfg record) (fun s =>
    configureOperation (.devcfg record) (deviceConfigure s.params (controllerRecord record)) .done s) s

end Sys2Proof.Machine
end

