-- ==== Sys2Proof/Machine/ErrorTaxonomy.lean ====
section
/-!
DEFINITION. The Error Taxonomy's operation (R350). The classification itself is in Machine/Flags.lean.
-/

namespace Sys2Proof.Machine

/-- ERRCLS, classify the pending hardware error (R350). -/
def execErrcls (s : State) : Host.Outcome State Fault Refusal :=
  accept .errcls (fun s => configureOperation .errcls errorReads .classify s) s

end Sys2Proof.Machine
end

