-- ==== Sys2Proof/Machine/IpCommands.lean ====
section
/-!
DEFINITION. The IP Command Engine's operations (R170, R185 to R202): each is ISSUE (R184) with its own operands, after the
checks of the gate.
-/

namespace Sys2Proof.Machine

/-- IPX, issue one IP command of a given kind (R170). -/
def execIpx (kind : BitVec 5) (addr : Option Word) (size : Word) (data : List Byte) (s : State) :
    Host.Outcome State Fault Refusal :=
  accept (.ipx kind addr size data) (fun s =>
    match kindOfCode kind with
    | none => s
    | some k => issueOperation (.ipx kind addr size data) k addr (BitVec.truncate 16 size) data .done s) s

/-- WREN, write-enable (R185). -/
def execWren (s : State) : Host.Outcome State Fault Refusal :=
  accept .wren (fun s => issueOperation .wren .writeEnable none 0 [] .done s) s

/-- RDSR, read-status (R188): `STATUS_LEN` bytes. -/
def execRdsr (s : State) : Host.Outcome State Fault Refusal :=
  accept .rdsr (fun s => issueOperation .rdsr .readStatus none s.params.statusLen [] .done s) s

/-- RDID, read-JEDEC-id (R189): `ID_LEN` bytes. -/
def execRdid (s : State) : Host.Outcome State Fault Refusal :=
  accept .rdid (fun s => issueOperation .rdid .readId none s.params.idLen [] .done s) s

/-- RSTEN, reset-enable (R191). -/
def execRsten (s : State) : Host.Outcome State Fault Refusal :=
  accept .rsten (fun s => issueOperation .rsten .resetEnable none 0 [] .done s) s

/-- RST, reset-device (R192): the flash device, not the engine. -/
def execRst (s : State) : Host.Outcome State Fault Refusal :=
  accept .rst (fun s => issueOperation .rst .resetDevice none 0 [] .done s) s

/-- RDCFG1, read configuration register 1 (R193): `CFG_LEN` bytes. -/
def execRdcfg1 (s : State) : Host.Outcome State Fault Refusal :=
  accept .rdcfg1 (fun s => issueOperation .rdcfg1 .readCfg1 none s.params.cfgLen [] .done s) s

/-- RDCFG2, read configuration register 2 (R194): `CFG_LEN` bytes. -/
def execRdcfg2 (s : State) : Host.Outcome State Fault Refusal :=
  accept .rdcfg2 (fun s => issueOperation .rdcfg2 .readCfg2 none s.params.cfgLen [] .done s) s

/-- RDCFG3, read configuration register 3 (R195): `CFG_LEN` bytes. -/
def execRdcfg3 (s : State) : Host.Outcome State Fault Refusal :=
  accept .rdcfg3 (fun s => issueOperation .rdcfg3 .readCfg3 none s.params.cfgLen [] .done s) s

/-- PWRUP, power-up (R199): the flash device. -/
def execPwrup (s : State) : Host.Outcome State Fault Refusal :=
  accept .pwrup (fun s => issueOperation .pwrup .powerUp none 0 [] .done s) s

/-- PWRDN, power-down (R200): the flash device. -/
def execPwrdn (s : State) : Host.Outcome State Fault Refusal :=
  accept .pwrdn (fun s => issueOperation .pwrdn .powerDown none 0 [] .done s) s

/-- ERASE, block-erase (R190): an erase-sector command, then read-status commands until write-in-progress reads 0. -/
def execErase (addr : Word) (s : State) : Host.Outcome State Fault Refusal :=
  accept (.erase addr) (fun s => issueOperation (.erase addr) .eraseSector (some addr) 0 [] .eraseStatus s) s

/-- WRCFG1, write configuration register 1 (R196): 1 to 4 bytes. -/
def execWrcfg1 (len : Word) (data : List Byte) (s : State) : Host.Outcome State Fault Refusal :=
  accept (.wrcfg1 len data) (fun s =>
    issueOperation (.wrcfg1 len data) .writeCfg1 none (BitVec.ofNat 16 data.length) data .done s) s

/-- WRCFG2, write configuration register 2 (R197): 1 to 4 bytes. -/
def execWrcfg2 (len : Word) (data : List Byte) (s : State) : Host.Outcome State Fault Refusal :=
  accept (.wrcfg2 len data) (fun s =>
    issueOperation (.wrcfg2 len data) .writeCfg2 none (BitVec.ofNat 16 data.length) data .done s) s

/-- WRCFG3, write configuration register 3 (R198): 1 to 4 bytes. -/
def execWrcfg3 (len : Word) (data : List Byte) (s : State) : Host.Outcome State Fault Refusal :=
  accept (.wrcfg3 len data) (fun s =>
    issueOperation (.wrcfg3 len data) .writeCfg3 none (BitVec.ofNat 16 data.length) data .done s) s

/-- WRDI, write-disable (R186): the operation has a name and no kind, so the gate refuses it with `Unsupported` after the mode check; there
is nothing to start. -/
def execWrdi (s : State) : Host.Outcome State Fault Refusal :=
  accept .wrdi (fun s => refuse .unsupported s) s

/-- LOCK (R201): the operation has a name and no kind, so the gate refuses it with `Unsupported` after the mode check; there
is nothing to start. -/
def execLock (s : State) : Host.Outcome State Fault Refusal :=
  accept .lock (fun s => refuse .unsupported s) s

/-- UNLOCK (R202): the operation has a name and no kind, so the gate refuses it with `Unsupported` after the mode check; there
is nothing to start. -/
def execUnlock (s : State) : Host.Outcome State Fault Refusal :=
  accept .unlock (fun s => refuse .unsupported s) s

end Sys2Proof.Machine
end

