-- ==== Sys2Proof/Machine/LutBuilder.lean ====
section
/-!
DEFINITION. The LUT Program Builder's operation (R150). The slot image and BUILD are in Machine/Programs.lean, since every
IP command and XWRITE build too (R173, R250).
-/

namespace Sys2Proof.Machine

/-- LUTB, build the LUT program of one command kind (R150). -/
def execLutb (kind : BitVec 5) (s : State) : Host.Outcome State Fault Refusal :=
  accept (.lutb kind) (fun s =>
    match kindOfCode kind with
    | none => s
    | some k => configureOperation (.lutb kind) (build s.params .configuring k) .done s) s

end Sys2Proof.Machine
end

