-- ==== Sys2Proof/Machine/LutInstructions.lean ====
section
/-!
DEFINITION. The LUT instructions (R112) as BACKEND plays them (R53, R101, log entry 9). The engine fixes only their bit
patterns; what each makes the serial bus do is not in the source (R112, R119), so PADS and OPERAND reach nothing but the
encoding.
-/

namespace Sys2Proof.Machine

/-- STOP: the all-zero instruction, no phase of a command (R112, R119). -/
def execStop (_pads : BitVec 2) (_operand : Byte) (s : State) : Host.Outcome State Fault Refusal :=
  .next (playPhase .nothing s)

/-- CMD_SDR: the command phase (R112). -/
def execCmdSdr (_pads : BitVec 2) (_operand : Byte) (s : State) : Host.Outcome State Fault Refusal :=
  .next (playPhase .command s)

/-- CMD_DDR: the command phase (R112). -/
def execCmdDdr (_pads : BitVec 2) (_operand : Byte) (s : State) : Host.Outcome State Fault Refusal :=
  .next (playPhase .command s)

/-- RADDR_SDR: the address phase (R112). -/
def execRaddrSdr (_pads : BitVec 2) (_operand : Byte) (s : State) : Host.Outcome State Fault Refusal :=
  .next (playPhase .address s)

/-- RADDR_DDR: the address phase (R112). -/
def execRaddrDdr (_pads : BitVec 2) (_operand : Byte) (s : State) : Host.Outcome State Fault Refusal :=
  .next (playPhase .address s)

/-- WRITE_SDR: the data phase, direction write (R112). -/
def execWriteSdr (_pads : BitVec 2) (_operand : Byte) (s : State) : Host.Outcome State Fault Refusal :=
  .next (playPhase .dataWrite s)

/-- WRITE_DDR: the data phase, direction write (R112). -/
def execWriteDdr (_pads : BitVec 2) (_operand : Byte) (s : State) : Host.Outcome State Fault Refusal :=
  .next (playPhase .dataWrite s)

/-- READ_SDR: the data phase, direction read (R112). -/
def execReadSdr (_pads : BitVec 2) (_operand : Byte) (s : State) : Host.Outcome State Fault Refusal :=
  .next (playPhase .dataRead s)

/-- READ_DDR: the data phase, direction read (R112). -/
def execReadDdr (_pads : BitVec 2) (_operand : Byte) (s : State) : Host.Outcome State Fault Refusal :=
  .next (playPhase .dataRead s)

/-- DUMMY_SDR: the dummy phase (R112). -/
def execDummySdr (_pads : BitVec 2) (_operand : Byte) (s : State) : Host.Outcome State Fault Refusal :=
  .next (playPhase .dummy s)

/-- DUMMY_DDR: the dummy phase (R112). -/
def execDummyDdr (_pads : BitVec 2) (_operand : Byte) (s : State) : Host.Outcome State Fault Refusal :=
  .next (playPhase .dummy s)

end Sys2Proof.Machine
end

