-- ==== Sys2Proof/Machine/RegisterDemux.lean ====
section
/-!
DEFINITION. The register-access demux's operations (R290, R291).
-/

namespace Sys2Proof.Machine

/-- REGRD, read one register (R290). -/
def execRegrd (off : Word) (s : State) : Host.Outcome State Fault Refusal :=
  accept (.regrd off) (fun s =>
    match decodeReg off with
    | none => s
    | some r => configureOperation (.regrd off) [⟨.configuring, .readValue r⟩] .value s) s

/-- REGWR, write one register (R291): the raw access, with every side effect. -/
def execRegwr (off : Word) (val : Word) (s : State) : Host.Outcome State Fault Refusal :=
  accept (.regwr off val) (fun s =>
    match decodeReg off with
    | none => s
    | some r => configureOperation (.regwr off val) [⟨.configuring, .write r val⟩] .done s) s

end Sys2Proof.Machine
end

