-- ==== Sys2Proof/Machine/Dispatch.lean ====
section
/-!
DEFINITION. One arm per instruction: the meaning it runs.
-/

namespace Sys2Proof.Machine

def exec (i : Instr) (s : State) : Host.Outcome State Fault Refusal :=
  match i with
  | .stop pads operand => Sys2Proof.Machine.execStop pads operand s
  | .cmdSdr pads operand => Sys2Proof.Machine.execCmdSdr pads operand s
  | .cmdDdr pads operand => Sys2Proof.Machine.execCmdDdr pads operand s
  | .raddrSdr pads operand => Sys2Proof.Machine.execRaddrSdr pads operand s
  | .raddrDdr pads operand => Sys2Proof.Machine.execRaddrDdr pads operand s
  | .writeSdr pads operand => Sys2Proof.Machine.execWriteSdr pads operand s
  | .writeDdr pads operand => Sys2Proof.Machine.execWriteDdr pads operand s
  | .readSdr pads operand => Sys2Proof.Machine.execReadSdr pads operand s
  | .readDdr pads operand => Sys2Proof.Machine.execReadDdr pads operand s
  | .dummySdr pads operand => Sys2Proof.Machine.execDummySdr pads operand s
  | .dummyDdr pads operand => Sys2Proof.Machine.execDummyDdr pads operand s
  | .lutb kind => Sys2Proof.Machine.execLutb kind s
  | .ipx kind addr size data => Sys2Proof.Machine.execIpx kind addr size data s
  | .wren => Sys2Proof.Machine.execWren s
  | .wrdi => Sys2Proof.Machine.execWrdi s
  | .rdsr => Sys2Proof.Machine.execRdsr s
  | .rdid => Sys2Proof.Machine.execRdid s
  | .erase addr => Sys2Proof.Machine.execErase addr s
  | .rsten => Sys2Proof.Machine.execRsten s
  | .rst => Sys2Proof.Machine.execRst s
  | .rdcfg1 => Sys2Proof.Machine.execRdcfg1 s
  | .rdcfg2 => Sys2Proof.Machine.execRdcfg2 s
  | .rdcfg3 => Sys2Proof.Machine.execRdcfg3 s
  | .wrcfg1 len data => Sys2Proof.Machine.execWrcfg1 len data s
  | .wrcfg2 len data => Sys2Proof.Machine.execWrcfg2 len data s
  | .wrcfg3 len data => Sys2Proof.Machine.execWrcfg3 len data s
  | .pwrup => Sys2Proof.Machine.execPwrup s
  | .pwrdn => Sys2Proof.Machine.execPwrdn s
  | .lock => Sys2Proof.Machine.execLock s
  | .unlock => Sys2Proof.Machine.execUnlock s
  | .xwrite addr data => Sys2Proof.Machine.execXwrite addr data s
  | .ahbcfg record => Sys2Proof.Machine.execAhbcfg record s
  | .devcfg record => Sys2Proof.Machine.execDevcfg record s
  | .dllcalc record => Sys2Proof.Machine.execDllcalc record s
  | .regrd off => Sys2Proof.Machine.execRegrd off s
  | .regwr off val => Sys2Proof.Machine.execRegwr off val s
  | .errcls => Sys2Proof.Machine.execErrcls s
  | .winrd addr n => Sys2Proof.Machine.execWinrd addr n s
  | .winwr addr len data => Sys2Proof.Machine.execWinwr addr len data s

end Sys2Proof.Machine
end

