-- ==== Sys2Proof/Machine/Fetch.lean ====
section
/-!
DEFINITION. Where the next instruction comes from. The engine fetches nothing by itself (R391): a host operation comes as a
request on a port (R130, R321), a LUT instruction from the LUT program BACKEND plays (R53, R101). What comes next is the
head of the schedule.
-/

namespace Sys2Proof.Machine

/-- What the next turn of the machine is: an instruction, in the state it runs in, or a state without one. -/
inductive Turn where
  | instruction (i : Instr) (s : State)
  | moved (s : State)
deriving DecidableEq, Repr

/-- A request submitted between operations: its operation, or the result of a request that does not decode (R141). -/
def fetchRequest (r : Request) (s : State) : Turn :=
  match decodeRequest r with
  | .ok i => .instruction i s
  | .error e => .moved (rejectRequest r e s)

/-- BACKEND plays for bank `k` from `src`: the LUT instruction at `SEQPTR[k]`; nothing where it has no program to play; an
OPCODE outside R112 as R113 says. -/
def fetchPlayed (k : Fin 4) (src : SeqSource) (s : State) : Turn :=
  match fetchHalf k src s with
  | none => .moved s
  | some (h, slot, s1) =>
    match decodeLut16 h with
    | some i => .instruction i { s1 with player := ⟨k, src⟩ }
    | none => .moved (playUnknown slot { s1 with player := ⟨k, src⟩ })

/-- The machine between two turns of the schedule: an operation in progress runs on; otherwise the agent whose turn it is
moves (R9). -/
def moveOn (s : State) : State :=
  if s.fault.isNone && s.eng.phase != .idle then run s else tick s

/-- The next turn: an instruction where the head of the schedule is a request or BACKEND playing, else a move. -/
def nextTurn (s : State) : Turn :=
  match s.sched with
  | .request r :: rest => fetchRequest r { s with sched := rest }
  | .play k src :: rest => fetchPlayed k src { s with sched := rest }
  | _ => .moved (moveOn s)

/-- `s` with the request whose words are the bits of `w` submitted next. -/
def placeRequest (w : Nat) (s : State) : State :=
  { s with sched := .request (requestOfNat w) :: s.sched }

/-- `s` with the LUT half `w` where BACKEND plays next: half 0 of slot 0, which the window reads of bank 0 play (R92), the
module enabled and the LUT store specified (R22, R58). -/
def placeHalf (w : Nat) (s : State) : State :=
  { s with
    fault := none
    regs.mcr0 := setBits s.regs.mcr0 0x00000002 0
    regs.flshcr2 := s.regs.flshcr2.set 0 (setBits s.regs.flshcr2[0] 0x0000001F 0)
    regs.lut := s.regs.lut.set 0 (lowHalf (BitVec.ofNat 16 w))
    seqptr := s.seqptr.set 0 0
    sched := .play 0 (.ahbRead 0) :: s.sched }

end Sys2Proof.Machine
end

