-- ==== Sys2Proof/Machine/Step.lean ====
section
/-!
DEFINITION. One step of the machine, and where an instruction is placed so that the next step runs it.
-/

namespace Sys2Proof.Machine

/-- One step: the instruction the next turn brings, run whole, or the move the next turn is. -/
def step (s : State) : Host.Outcome State Fault Refusal :=
  match nextTurn s with
  | .instruction i s1 => exec i s1
  | .moved s1 => .next s1

/-- `s` with the instruction whose bits are `w` placed where `step` fetches its next instruction (log entry 1): a LUT16
half where BACKEND plays next, a host operation as the next request. -/
def State.withFetchWord (s : State) (nbits w : Nat) : State :=
  if nbits = 16 then placeHalf w s else placeRequest w s

end Sys2Proof.Machine
end

