-- ==== Sys2Proof/Safety.lean ====
section
/-!
DEFINITION. What counts as a safe run, and the states the statements speak of: a machine that accepts a request (R321), the
invariant of every step, and what the parts of an operation leave behind (R151, R184, R222, R224, R240, R268).
-/

namespace Sys2Proof.Machine

/-! ## Safe and ready states -/

/-- A run is safe as long as nothing overlaps: "a state from which no property is claimed" is not reached (R366). -/
def State.Safe (s : State) : Prop :=
  s.fault = none

/-- A request on port OP is accepted (R321). -/
def State.Ready (s : State) : Prop :=
  s.fault = none ∧ s.eng.phase = .idle

/-- A command of kind `k` with descriptor `c` can be issued and BACKEND can answer it: the request is accepted (R321), the
tag is `RamBlocking` (R324), `CMD_TABLE` defines the kind (R323), no command is in flight (R37), the module is enabled
(R65). -/
structure State.CanIssue (k : Kind) (c : LogicalCommand) (s : State) : Prop where
  ready : s.Ready
  mode : s.params.modeTag = .ramBlocking
  kind : commandOf s.params k = some c
  free : s.inflight = none
  enabled : moduleDisabled s = false

/-- The invariant of every step: the queues hold at most 16 entries (R211, R226), the bits the spec makes read 0 are 0
(R27, R33, R39, R40, R42 to R44), a disabled module has no DLL lock (R68, R376), a command in flight has delivered at most
its size and keeps the arbiter busy on the IP path (R37, R63, R67), and the flash model is in its canonical form. -/
structure State.Consistent (s : State) : Prop where
  rxq : s.rxq.length ≤ 16
  txq : s.txq.length ≤ 16
  intr : s.regs.intr &&& ~~~intrSticky = 0
  flshcr2 : ∀ k : Fin 4, s.regs.flshcr2[k].getLsbD 31 = false
  iprxfcr : s.regs.iprxfcr.getLsbD 0 = false
  iptxfcr : s.regs.iptxfcr.getLsbD 0 = false
  sts0 : s.regs.sts0 &&& ~~~0x0000000F = 0
  sts1 : s.regs.sts1 &&& ~~~0x0F1F0F1F = 0
  sts2 : s.regs.sts2 &&& ~~~allLockMask = 0
  unlocked : moduleDisabled s = true → s.regs.sts2 = 0
  inflight : ∀ c, s.inflight = some c → c.delivered ≤ c.datsz.toNat ∧ c.dir = dirOf c.words ∧ s.regs.sts0 = 0x00000008
  flash : Memory.wf s.win.flash = true

/-- The engine's control state is of one piece (R55 to R57): `Idle` goes with no operation, no session and nothing left
to do; any other phase is that of the next micro-step, of an operation in progress. -/
structure State.Coherent (s : State) : Prop where
  steps : ∀ m ∈ s.eng.cont, m.phase ≠ .idle
  idle : s.eng.phase = .idle → s.eng.cont = [] ∧ s.eng.op = none ∧ s.eng.session = none
  busy : s.eng.phase ≠ .idle → s.eng.op ≠ none ∧ ∃ m rest, s.eng.cont = m :: rest ∧ m.phase = s.eng.phase

/-! ## What an operation leaves -/

/-- The state after an operation that ends with `r` and did nothing else (R360). -/
def State.answered (r : Result) (s : State) : State :=
  { s with eng := Engine.idle (some r) }

/-- The state after BUILD of a kind with descriptor `c` (R151): the store unlocked, the slot holding `image c`, the four
sequence positions 0. The stored words of FLSHCR2 keep bits 30:0; bit 31 is never stored (R33). -/
def State.built (k : Kind) (c : LogicalCommand) (s : State) : State :=
  { s with
    lutUnlocked := true
    regs.lutkey := s.params.lutKey
    regs.lut := setSlot s.regs.lut (slotOfKind s.params k) (image c)
    regs.flshcr2 := s.regs.flshcr2.map (· &&& 0x7FFFFFFF)
    seqptr := Vector.replicate 4 0 }

/-- The state after ProgramSequence (R173 to R176): the slot built, the address and the command selected, both FIFOs empty
with the watermark set. -/
def State.programmed (k : Kind) (c : LogicalCommand) (addr : Option Word) (size : BitVec 16) (s : State) : State :=
  { s.built k c with
    regs.ipcr0 := addr.getD 0
    regs.ipcr1 := commandSelect s.params k size
    regs.iprxfcr := place s.params.wm.val 2
    regs.iptxfcr := place s.params.wm.val 2
    regs.tfdr := Vector.replicate 32 0
    rxq := []
    txq := []
    rdcntr := 0
    wrcntr := 0 }

/-- The command in flight after the trigger of a kind with descriptor `c` (R37, R175). -/
def commandInFlight (p : Params) (k : Kind) (c : LogicalCommand) (addr : Option Word) (size : BitVec 16) : Inflight where
  slot := BitVec.ofNat 5 (slotOfKind p k).val
  seqnum := 0
  addr := addr.getD 0
  datsz := size
  words := image c
  later := []
  dir := some c.dir
  delivered := 0

/-- The state after a command without data, or a read whose bytes have all been drained: programmed, triggered, completed
by BACKEND and the done bit cleared (R177 to R179); the arbiter idle again, its last command an IP command (R42, R65). -/
def State.commanded (k : Kind) (c : LogicalCommand) (addr : Option Word) (size : BitVec 16) (s : State) : State :=
  { s.programmed k c addr size with
    regs.intr := (s.regs.intr ||| 1) &&& ~~~1
    regs.sts0 := 0x0000000B
    inflight := none }

/-- The state after the data of a read has been drained (R222, R223): `n` entries popped, the watermark bit written. -/
def State.drained (n : Nat) (s : State) : State :=
  { s with regs.intr := s.regs.intr &&& ~~~0x20, rxq := [], rdcntr := s.rdcntr + BitVec.ofNat 16 n }

/-- The state after TX_FILL of `data` on an empty TXQ (R224): the word staged, one watermark's worth of entries pushed. -/
def State.filled (data : List Byte) (s : State) : State :=
  { s with
    regs.intr := s.regs.intr &&& ~~~0x40
    regs.tfdr := s.regs.tfdr.set 0 (wordLe data)
    txq := stagedEntries (s.regs.tfdr.set 0 (wordLe data)) (s.params.wm.val + 1)
    wrcntr := s.wrcntr + BitVec.ofNat 16 (s.params.wm.val + 1) }

/-- The state after one read-status command of an ERASE that BACKEND answers with the entry `e` (R190). -/
def State.statusRead (c : LogicalCommand) (s : State) (e : Entry) : State :=
  ({ s.commanded .readStatus c none s.params.statusLen with rxq := [e] } : State).drained 1

/-- An operation of port OP (R132): neither a LUT instruction nor a window access. -/
def operationPort (i : Instr) : Bool :=
  (lutPhase i).isNone && (windowAccess i).isNone

/-- The named read operations, with their kind and the parameter that gives their length (R183, R188, R189, R193 to
R195). -/
def readOperations : List (Instr × Kind × (Params → BitVec 16)) :=
  [(.rdsr, .readStatus, Params.statusLen), (.rdid, .readId, Params.idLen), (.rdcfg1, .readCfg1, Params.cfgLen),
   (.rdcfg2, .readCfg2, Params.cfgLen), (.rdcfg3, .readCfg3, Params.cfgLen)]

/-- What an IP command operation issues, ERASE its first command: kind, address, size and data (R170, R183 to R200). -/
def issued (p : Params) (i : Instr) : Option (Kind × Option Word × BitVec 16 × List Byte) :=
  match i with
  | .ipx kind addr size data => (kindOfCode kind).map fun k => (k, addr, BitVec.truncate 16 size, data)
  | .wren => some (.writeEnable, none, 0, [])
  | .rdsr => some (.readStatus, none, p.statusLen, [])
  | .rdid => some (.readId, none, p.idLen, [])
  | .erase addr => some (.eraseSector, some addr, 0, [])
  | .rsten => some (.resetEnable, none, 0, [])
  | .rst => some (.resetDevice, none, 0, [])
  | .rdcfg1 => some (.readCfg1, none, p.cfgLen, [])
  | .rdcfg2 => some (.readCfg2, none, p.cfgLen, [])
  | .rdcfg3 => some (.readCfg3, none, p.cfgLen, [])
  | .wrcfg1 _ data => some (.writeCfg1, none, BitVec.ofNat 16 data.length, data)
  | .wrcfg2 _ data => some (.writeCfg2, none, BitVec.ofNat 16 data.length, data)
  | .wrcfg3 _ data => some (.writeCfg3, none, BitVec.ofNat 16 data.length, data)
  | .pwrup => some (.powerUp, none, 0, [])
  | .pwrdn => some (.powerDown, none, 0, [])
  | _ => none

/-- The state after the trigger of the command an operation issues (R173 to R177): programmed, the command in flight, the
arbiter busy on the IP path. -/
def State.triggered (k : Kind) (c : LogicalCommand) (addr : Option Word) (size : BitVec 16) (s : State) : State :=
  { s.programmed k c addr size with
    inflight := some (commandInFlight s.params k c addr size)
    regs.sts0 := 0x00000008 }

/-- The registers of access kind RW whose write has no effect but the store (R21, R297). MCR2 and AHBCR are apart: the model
keeps with which MDIS they were written (R408, log entry 31). -/
def plainRegister (r : Reg) : Bool :=
  match r with
  | .mcr1 => true
  | .inten => true
  | .lutkey => true
  | .ahbrxbufcr0 _ => true
  | .flshcr0 _ => true
  | .flshcr1 _ => true
  | .flshcr4 => true
  | .ipcr0 => true
  | .ipcr1 => true
  | .dlpr => true
  | _ => false

/-- The read-only registers (R21). -/
def readOnlyRegister (r : Reg) : Bool :=
  match r with
  | .sts0 => true
  | .sts1 => true
  | .sts2 => true
  | .ahbspndsts => true
  | .iprxfsts => true
  | .iptxfsts => true
  | .rfdr _ => true
  | _ => false

/-! ## Refusals -/

/-- The instruction ends with the result word `word` and changes nothing else (R325, R331, R361). -/
def State.refuses (s : State) (i : Instr) (word : Word) : Prop :=
  exec i s = .next { s with eng.result := some ⟨word, 0, []⟩ }

/-- `CMD_TABLE` does not define the kind with this direction (R183, R323). -/
def lacksKind (p : Params) (k : Kind) (d : Dir) : Prop :=
  ∀ c, commandOf p k = some c → c.dir ≠ d

/-! ## Waits that never end -/

/-- The engine polls for the completion of a read of more than 128 bytes, with no limit on the poll (R203 (c)): what has
been delivered stands in RXQ, DMA is off. -/
structure State.Undeliverable (s : State) : Prop where
  safe : s.Safe
  phase : s.eng.phase = .pollingCompletion
  poll : ∃ rest, s.eng.cont = ⟨.pollingCompletion, .poll .intr (.bits 1)⟩ :: rest
  unlimited : s.params.pollLimit = none
  undone : s.regs.intr.getLsbD 0 = false
  capacity : s.rxq.length ≤ 16
  noDma : s.regs.iprxfcr.getLsbD 1 = false
  command : ∃ c, s.inflight = some c ∧ c.dir = some .read ∧ 128 < c.datsz.toNat ∧ c.delivered = 8 * s.rxq.length

/-! ## Schedules in which BACKEND answers -/

/-- The turns of a command BACKEND answers at once: the 21 writes up to the trigger, an entry for each of `es` (R63), the
completion (R65). -/
def answerTurns (es : List Entry) : List Event :=
  List.replicate 21 .engine ++ es.map .rxPush ++ [.complete []]

/-- The turns of one read-status command of an ERASE that BACKEND answers with the entry `e`, up to the engine's last read:
`STATUS_LEN` at most 4, so that one word is read. -/
def statusTurns (e : Entry) : List Event :=
  answerTurns [e] ++ List.replicate 5 .engine

/-- The turns of an ERASE: the erase-sector command, then a read-status command for each entry (R190). -/
def eraseTurns (es : List Entry) : List Event :=
  answerTurns [] ++ List.replicate 2 .engine ++ es.flatMap statusTurns

end Sys2Proof.Machine
end

