-- ==== Sys2Proof/Certificates/Slice0/Obligations.lean ====
section
/-!
DEFINITION. The statements for the provers, each with the rules of spec/ it formalises. A next state is written with the
named updates of Sys2Proof/Safety.lean (`built`, `programmed`, `triggered`, `commanded`, `drained`, `filled`, `answered`),
whose equalities are the frames: every field they do not name is unchanged. `resultOf` is the result word of R133.
-/

section

open Sys2Proof Sys2Proof.Machine

/-! ## Encoding -/

/-- R111, R112, R130 to R132: decoding the encoding of any instruction, whatever its operands, gives it back. -/
def Obligations.DecodeEncodeRoundTrip : Prop :=
  ∀ i : Instr, decode (encode i) = .ok i

/-- R130 to R132: a request that decodes is the encoding of what it decodes to, up to the spelling of an empty payload. -/
def Obligations.DecodedRequestReencodes : Prop :=
  ∀ (r : Request) (i : Instr), decodeRequest r = .ok i →
    ∃ pl : Payload, encode i = .request { r with payload := pl } ∧
      pl.asBytes = r.payload.asBytes ∧ pl.asWords = r.payload.asWords

/-- R112, R142: a half with an opcode of the table is the encoding of what it decodes to; every other opcode decodes to
nothing. -/
def Obligations.HalfDecodesByOpcode : Prop :=
  (∀ (h : Half) (i : Instr), decodeLut16 h = some i → encode i = .half h) ∧
  ∀ h : Half, decodeLut16 h = none ↔
    h.extractLsb' 10 6 ∉ ([0x00, 0x01, 0x21, 0x02, 0x22, 0x08, 0x28, 0x09, 0x29, 0x0C, 0x2C] : List (BitVec 6))

/-- R111: `I(op, p, x)` as a number, its three fields in place, and the PADS codes of the four widths. -/
def Obligations.Lut16Fields : Prop :=
  (∀ (op : BitVec 6) (p : BitVec 2) (x : Byte),
    (lutHalf op p x).toNat = (op.toNat <<< 10) ||| (p.toNat <<< 8) ||| x.toNat ∧
    (lutHalf op p x).extractLsb' 10 6 = op ∧ (lutHalf op p x).extractLsb' 8 2 = p ∧
    (lutHalf op p x).extractLsb' 0 8 = x) ∧
  padsCode 1 = 0 ∧ padsCode 2 = 1 ∧ padsCode 4 = 2 ∧ padsCode 8 = 3

/-- R120, R130, R132: words written out from the encodings decode to the instructions they stand for. -/
def Obligations.SpecWordsDecode : Prop :=
  decode (.half 0x8705) = .ok (.cmdDdr 3 0x05) ∧
  decode (.half 0x8B20) = .ok (.raddrDdr 3 32) ∧
  decode (.half 0xB304) = .ok (.dummyDdr 3 4) ∧
  decode (.half 0xA700) = .ok (.readDdr 3 0) ∧
  decode (.half 0x2000) = .ok (.writeSdr 0 0) ∧
  decode (.request ⟨0x00000101, 0, 0, .bytes []⟩) = .ok (.lutb 1) ∧
  decode (.request ⟨0x00010502, 0x1000, 16, .bytes []⟩) = .ok (.ipx 5 (some 0x1000) 16 []) ∧
  decode (.request ⟨0x00000005, 0, 0, .bytes []⟩) = .ok .rdsr ∧
  decode (.request ⟨0x00000007, 0x20000, 0, .bytes []⟩) = .ok (.erase 0x20000) ∧
  decode (.request ⟨0x0000000D, 0, 1, .bytes [0x02]⟩) = .ok (.wrcfg1 1 [0x02]) ∧
  decode (.request ⟨0x0000001D, 0x010, 1, .bytes []⟩) = .ok (.regwr 0x010 1) ∧
  decode (.request ⟨0x00000020, 0x10000100, 4, .bytes []⟩) = .ok (.winrd 0x10000100 4) ∧
  decode (.request ⟨0x0000001A, 0, 0, .words [3, 48000000, 2, 1]⟩) = .ok (.dllcalc [3, 48000000, 2, 1])

/-- R115: the four words of a slot image, as the numbers the rule computes. -/
def Obligations.SlotImageWords : Prop :=
  ∀ c : LogicalCommand, c.wellFormed = true →
    let m := if c.mode = .ddr then 0x20 else 0
    let p := (padsCode c.width).toNat
    let I := fun op x : Nat => (op <<< 10) ||| (p <<< 8) ||| x
    (image c).w0.toNat = ((I (0x01 + m) c.ophi.toNat) <<< 16) ||| I (0x01 + m) c.oplo.toNat ∧
    (image c).w1.toNat = (match c.aw with | none => 0 | some n => I (0x02 + m) (8 * n)) ∧
    (image c).w2.toNat = (match c.dummy with | none => 0 | some n => I (0x0C + m) n.toNat) ∧
    (image c).w3.toNat = (match c.dir with | .read => I (0x09 + m) 0 | .write => I (0x08 + m) 0)

/-- R121, R124, R143: packing and unpacking a descriptor are inverse on the well-formed ones; exactly the reserved values
unpack to nothing. -/
def Obligations.DescriptorRoundTrip : Prop :=
  (∀ c : LogicalCommand, c.wellFormed = true → unpackDescriptor (packDescriptor c) = some c) ∧
  (∀ (w : Word) (c : LogicalCommand), unpackDescriptor w = some c → c.wellFormed = true ∧ packDescriptor c = w) ∧
  ∀ w : Word, unpackDescriptor w = none ↔
    4 < (w.extractLsb' 16 3).toNat ∨ (w.getLsbD 19 = false ∧ w.extractLsb' 24 8 ≠ 0)

/-- R141: a request whose OP names no operation, or with a must-be-0 field that is not 0, ends with `BadOp` and changes
nothing else; KIND 16 to 31 with LUTB or IPX ends with `BadOperand`. -/
def Obligations.ReservedRequestIsRefused : Prop :=
  (∀ (s : State) (r : Request) (rest : List Event), s.Ready → s.sched = .request r :: rest →
    (¬ ((1 ≤ (reqOp r).toNat ∧ (reqOp r).toNat ≤ 0x14) ∨ (0x18 ≤ (reqOp r).toNat ∧ (reqOp r).toNat ≤ 0x1A) ∨
        (0x1C ≤ (reqOp r).toNat ∧ (reqOp r).toNat ≤ 0x1E) ∨ (reqOp r).toNat = 0x20 ∨ (reqOp r).toNat = 0x21) ∨
      r.req0.extractLsb' 6 2 ≠ 0 ∨ r.req0.extractLsb' 13 3 ≠ 0 ∨ r.req0.extractLsb' 17 15 ≠ 0 ∨
      (reqKind r ≠ 0 ∧ (reqOp r).toNat ∉ [0x01, 0x02]) ∨
      (reqAp r = true ∧ (reqOp r).toNat ≠ 0x02) ∨
      (r.req1 ≠ 0 ∧ (reqOp r).toNat ∉ [0x02, 0x07, 0x14, 0x1C, 0x1D, 0x20, 0x21]) ∨
      (r.req1 ≠ 0 ∧ (reqOp r).toNat = 0x02 ∧ reqAp r = false) ∨
      (r.req2 ≠ 0 ∧ (reqOp r).toNat ∉ [0x02, 0x0D, 0x0E, 0x0F, 0x1D, 0x20, 0x21])) →
    step s = .next { s with sched := rest, eng.result := some ⟨0x00030001, 0, []⟩ }) ∧
  ∀ (s : State) (kind : BitVec 5), s.Ready → 16 ≤ kind.toNat →
    exec (.lutb kind) s = .next { s with eng.result := some ⟨0x00030004, 0, []⟩ } ∧
    ∀ (addr : Option Word) (size : Word) (data : List Byte), s.params.modeTag = .ramBlocking →
      exec (.ipx kind addr size data) s = .next { s with eng.result := some ⟨0x00030004, 0, []⟩ }

/-! ## The LUT Program Builder -/

/-- R150, R151: LUTB of a defined kind, with no other agent moving (log entry 2), leaves exactly what BUILD leaves, and
`Ok`. -/
def Obligations.LutbBuildsItsSlot : Prop :=
  ∀ (s : State) (k : Kind) (c : LogicalCommand), s.Ready → s.sched = [] → commandOf s.params k = some c →
    exec (.lutb (BitVec.ofNat 5 (kindCode k).val)) s = .next ((s.built k c).answered (resultOf .ok 0 []))

/-- R152, R157, R158: after LUTB, with no other agent moving (log entry 2), the kind's slot holds the image whatever it held
before, every other slot what it held, and so the slot of every other kind; building the kind twice in a row leaves what
building it once leaves. -/
def Obligations.LutbOverwritesOneSlot : Prop :=
  ∀ (s : State) (k : Kind) (c : LogicalCommand), s.Ready → s.sched = [] → commandOf s.params k = some c →
    ∃ t, exec (.lutb (BitVec.ofNat 5 (kindCode k).val)) s = .next t ∧
      slotOf t.regs.lut (slotOfKind s.params k) = image c ∧
      (∀ n : Fin 30, n ≠ slotOfKind s.params k → slotOf t.regs.lut n = slotOf s.regs.lut n) ∧
      (slotsInjective s.params → ∀ k' : Kind, k' ≠ k →
        slotOf t.regs.lut (slotOfKind s.params k') = slotOf s.regs.lut (slotOfKind s.params k')) ∧
      exec (.lutb (BitVec.ofNat 5 (kindCode k).val)) t = .next t

/-- R29, R50: LUTCR locks and unlocks only under the key and reads the lock state; a LUT word is stored when unlocked and
dropped when locked. -/
def Obligations.LutStoreIsLocked : Prop :=
  ∀ (s : State) (v : Word) (i : Fin 120),
    (s.regs.lutkey ≠ s.params.lutKey → regWrite .lutcr v s = s) ∧
    (s.regs.lutkey = s.params.lutKey →
      (v.extractLsb' 0 2 = 2 → regWrite .lutcr v s = { s with lutUnlocked := true }) ∧
      (v.extractLsb' 0 2 = 1 → regWrite .lutcr v s = { s with lutUnlocked := false }) ∧
      (v.extractLsb' 0 2 = 0 ∨ v.extractLsb' 0 2 = 3 → regWrite .lutcr v s = s)) ∧
    (s.fault = none → regRead .lutcr s = (if s.lutUnlocked then 2 else 1, s)) ∧
    (s.lutUnlocked = true → regWrite (.lut i) v s = { s with regs.lut := s.regs.lut.set i v }) ∧
    (s.lutUnlocked = false → regWrite (.lut i) v s = s)

/-! ## The IP Command Engine -/

/-- R171, R177 to R179, R184: the micro-steps of ISSUE go through the phases in their order: twenty register writes, the
trigger (the write of 1 to IPCMD), one poll of INTR for its done bit and one write of 1 to it; a command of size 0 has no
data phase after them. -/
def Obligations.IssuePhases : Prop :=
  ∀ (p : Params) (k : Kind) (c : LogicalCommand) (addr : Option Word) (size : BitVec 16) (data : List Byte),
    commandOf p k = some c →
    ∃ n, (issue p k addr size data).map Micro.phase =
        List.replicate 20 .programSequence ++ [.triggered, .pollingCompletion, .pollingCompletion] ++
          List.replicate n .drainOrFill ∧
      (size = 0 → n = 0) ∧ (size ≠ 0 → 0 < n) ∧
      (∀ m ∈ (issue p k addr size data).take 21, ∃ r v, m.act = .write r v ∨ ∃ mask, m.act = .field r mask v) ∧
      (issue p k addr size data)[20]? = some ⟨.triggered, .write .ipcmd 1⟩ ∧
      (issue p k addr size data)[21]? = some ⟨.pollingCompletion, .poll .intr (.bits 1)⟩ ∧
      (issue p k addr size data)[22]? = some ⟨.pollingCompletion, .write .intr 1⟩

/-- R177 to R184, R185, R191, R192, R199, R200, R170, R203 (a): a command without data that BACKEND completes ends with
`Ok`: the slot built, the registers of ISSUE written, the done bit set and cleared, nothing in flight. -/
def Obligations.CommandWithoutDataCompletes : Prop :=
  (∀ x ∈ ([(.wren, .writeEnable), (.rsten, .resetEnable), (.rst, .resetDevice), (.pwrup, .powerUp),
      (.pwrdn, .powerDown)] : List (Instr × Kind)),
    ∀ (s : State) (c : LogicalCommand), s.CanIssue x.2 c → s.sched = answerTurns [] →
      exec x.1 s = .next (({ s.commanded x.2 c none 0 with sched := [] } : State).answered (resultOf .ok 0 []))) ∧
  (∀ x ∈ readOperations, ∀ (s : State) (c : LogicalCommand), s.CanIssue x.2.1 c → c.dir = .read →
    x.2.2 s.params = 0 → s.sched = answerTurns [] →
      exec x.1 s = .next (({ s.commanded x.2.1 c none 0 with sched := [] } : State).answered (resultOf .ok 0 []))) ∧
  ∀ (s : State) (k : Kind) (c : LogicalCommand) (addr : Option Word), s.CanIssue k c → k ≠ .pageProgram →
    s.sched = answerTurns [] →
      exec (.ipx (BitVec.ofNat 5 (kindCode k).val) addr 0 []) s =
        .next (({ s.commanded k c addr 0 with sched := [] } : State).answered (resultOf .ok 0 []))

/-- R170, R180, R188, R189, R193 to R195, R222, R223: a read of 1 to 128 bytes whose entries BACKEND delivers ends with
`Ok` and the first bytes delivered, in order; with a size above the watermark, where the entries are a multiple of the
watermark's. The queue is empty and its counter has counted the entries. -/
def Obligations.ReadReturnsItsBytes : Prop :=
  ∀ (s : State) (i : Instr) (k : Kind) (c : LogicalCommand) (addr : Option Word) (n : BitVec 16) (es : List Entry),
    s.CanIssue k c → c.dir = .read →
    ((addr = none ∧ ∃ len, (i, k, len) ∈ readOperations ∧ len s.params = n) ∨
      (k ≠ .pageProgram ∧ i = .ipx (BitVec.ofNat 5 (kindCode k).val) addr (BitVec.zeroExtend 32 n) [])) →
    1 ≤ n.toNat → n.toNat ≤ 128 → es.length = ceilDiv n.toNat 8 →
    (n.toNat ≤ watermarkBytes s.params ∨ (s.params.wm.val + 1) ∣ es.length) →
    s.sched = answerTurns es →
    exec i s = .next ((({ s.commanded k c addr n with rxq := es, sched := [] } : State).drained es.length).answered
      (resultOf .ok 0 ((es.flatMap Entry.bytes).take n.toNat)))

/-- R170, R180, R196 to R198, R224, R406: a write of 1 to 4 bytes that BACKEND completes ends with `Ok`; the word is staged
and a watermark's worth of entries pushed after the completion, and stays in TXQ. -/
def Obligations.WriteFillsAfterCompletion : Prop :=
  ∀ (s : State) (i : Instr) (k : Kind) (c : LogicalCommand) (addr : Option Word) (data : List Byte),
    s.CanIssue k c → c.dir = .write → 1 ≤ data.length → data.length ≤ 4 →
    ((addr = none ∧ ((k = .writeCfg1 ∧ i = .wrcfg1 (BitVec.ofNat 32 data.length) data) ∨
        (k = .writeCfg2 ∧ i = .wrcfg2 (BitVec.ofNat 32 data.length) data) ∨
        (k = .writeCfg3 ∧ i = .wrcfg3 (BitVec.ofNat 32 data.length) data))) ∨
      (k ≠ .pageProgram ∧ i = .ipx (BitVec.ofNat 5 (kindCode k).val) addr (BitVec.ofNat 32 data.length) data)) →
    s.sched = answerTurns [] →
    exec i s = .next ((({ s.commanded k c addr (BitVec.ofNat 16 data.length) with sched := [] } : State).filled
      data).answered (resultOf .ok 0 []))

/-- R190, R362: ERASE issues the erase-sector command and then read-status commands until the first whose status byte has
write-in-progress 0, and none after it; RSP1 is their number. Where that bit is still 1 when the limit is reached, it ends
with `Timeout`, with their number in RSP1 (log entry 17) and everything done so far left as it is. That RSP1 holds a number of
2^32 or more modulo 2^32 is the model's choice (log entry 30). -/
def Obligations.EraseCountsItsPolls : Prop :=
  ∀ (s : State) (c cs : LogicalCommand) (addr : Word) (es : List Entry),
    s.CanIssue .eraseSector c → commandOf s.params .readStatus = some cs → cs.dir = .read →
    1 ≤ s.params.statusLen.toNat → s.params.statusLen.toNat ≤ 4 →
    (∀ e ∈ es, writeInProgress s.params e.b0 = true) →
    (∀ last : Entry, writeInProgress s.params last.b0 = false →
      (∀ limit, s.params.pollLimit = some limit → es = [] ∨ es.length < limit) → s.sched = eraseTurns (es ++ [last]) →
      exec (.erase addr) s =
        .next (({ (es ++ [last]).foldl (State.statusRead cs) (s.commanded .eraseSector c (some addr) 0) with
          sched := [] } : State).answered (resultOf .ok (BitVec.ofNat 32 (es.length + 1)) []))) ∧
    ∀ limit, s.params.pollLimit = some limit → es.length = max limit 1 → s.sched = eraseTurns es →
      exec (.erase addr) s =
        .next (({ es.foldl (State.statusRead cs) (s.commanded .eraseSector c (some addr) 0) with
          sched := [] } : State).answered (resultOf .timeout (BitVec.ofNat 32 es.length) []))

/-- R178, R362, R364, R377 (c), R413: with no answer from BACKEND and no other agent moving (log entry 2) every IP command
waits in its completion poll for ever
without a limit, and with one ends with `Timeout` and the number of reads; either way the registers written stay written
and the command stays in flight. The model's choices: that one step runs the operation up to its wait (log entry 3), and that RSP1
holds a number of 2^32 or more modulo 2^32 (30). -/
def Obligations.UnansweredCommandWaits : Prop :=
  ∀ (s : State) (i : Instr) (k : Kind) (c : LogicalCommand) (addr : Option Word) (n : BitVec 16) (data : List Byte),
    issued s.params i = some (k, addr, n, data) → s.Ready → gate i s = none → commandOf s.params k = some c →
    s.inflight = none → s.sched = [] → s.regs.intr.getLsbD 0 = false →
    (s.params.pollLimit = none →
      ∃ e : Engine, e.phase = .pollingCompletion ∧ e.op = some i ∧ e.result = s.eng.result ∧
        exec i s = .next { s.triggered k c addr n with eng := e } ∧
        step { s.triggered k c addr n with eng := e } = .next { s.triggered k c addr n with eng := e }) ∧
    ∀ limit, s.params.pollLimit = some limit →
      exec i s = .next ((s.triggered k c addr n).answered (resultOf .timeout (BitVec.ofNat 32 (max limit 1)) []))

/-- R203 (b), R402: with the done bit left at 1 and no other agent moving (log entry 2) the completion poll ends at its first
read: a command without data ends with `Ok` while it is still in flight. -/
def Obligations.StaleDoneBitEndsThePoll : Prop :=
  ∀ (s : State) (i : Instr) (k : Kind) (c : LogicalCommand) (addr : Option Word),
    issued s.params i = some (k, addr, 0, []) → (∀ a, i ≠ .erase a) → s.Ready → gate i s = none →
    commandOf s.params k = some c → s.inflight = none → s.sched = [] → s.regs.intr.getLsbD 0 = true →
    exec i s = .next (({ s.triggered k c addr 0 with regs.intr := s.regs.intr &&& ~~~1 } : State).answered
      (resultOf .ok 0 []))

/-- R37, R177, R366: the trigger of an IP command while another is in flight, with no other agent moving (log entry 2), sets
`FAULT`; the operation gets no result, the command in flight stays. -/
def Obligations.TriggerWhileInFlightFaults : Prop :=
  ∀ (s : State) (i : Instr) (k : Kind) (c : LogicalCommand) (addr : Option Word) (n : BitVec 16) (data : List Byte),
    issued s.params i = some (k, addr, n, data) → s.Ready → gate i s = none → commandOf s.params k = some c →
    s.inflight ≠ none → s.sched = [] →
    ∃ e : Engine, e.result = s.eng.result ∧ e.op = some i ∧
      exec i s = .next { s.programmed k c addr n with fault := some .overlap, eng := e }

/-- R178, R359, R362, R364: while the done bit reads 0 the completion poll changes nothing but its own count, whatever error
bits are set; where that count reaches the limit, the operation ends with `Timeout` and the number of reads (a number of 2^32
or more modulo 2^32 by the model's choice, log entry 30), and nothing but the engine changes; when it reads 1 the engine goes
on to the next micro-step and changes nothing else. -/
def Obligations.CompletionPollOnlyReads : Prop :=
  ∀ (s : State) (ph : Phase) (m : Micro) (rest : List Micro), s.Safe →
    s.eng.cont = ⟨ph, .poll .intr (.bits 1)⟩ :: m :: rest →
    (s.regs.intr.getLsbD 0 = false → s.params.pollLimit = none → engStep s = { s with eng.polls := s.eng.polls + 1 }) ∧
    (s.regs.intr.getLsbD 0 = false → ∀ limit, s.params.pollLimit = some limit →
      engStep s = if limit ≤ s.eng.polls + 1 then
        s.answered (resultOf .timeout (BitVec.ofNat 32 (s.eng.polls + 1)) []) else { s with eng.polls := s.eng.polls + 1 }) ∧
    (s.regs.intr.getLsbD 0 = true →
      engStep s = { s with eng := { s.eng with cont := m :: rest, phase := m.phase, polls := 0 } })

/-- R203 (c), R405: a read of more than 128 bytes never ends: whatever turn comes, but a request on the operation port or
RESET, the engine stays in its completion poll with the command in flight. -/
def Obligations.LongReadNeverCompletes : Prop :=
  ∀ s : State, s.Undeliverable →
    (s.sched = [] → (tick s).Undeliverable) ∧
    ∀ (ev : Event) (rest : List Event), s.sched = ev :: rest → (∀ r, ev = .request r → onWindowPort r = true) →
      ev ≠ .reset → (tick s).Undeliverable

/-- R203 (d), R223, R405, R188, R189, R193 to R195: a read above the watermark, IPX or named, whose entries are no multiple of
the watermark's waits for ever in its last drain iteration, with the remaining entries in RXQ. -/
def Obligations.UnevenLongReadWaits : Prop :=
  ∀ (s : State) (i : Instr) (k : Kind) (c : LogicalCommand) (addr : Option Word) (n : BitVec 16) (es : List Entry),
    s.CanIssue k c → c.dir = .read →
    ((addr = none ∧ ∃ len, (i, k, len) ∈ readOperations ∧ len s.params = n) ∨
      (k ≠ .pageProgram ∧ i = .ipx (BitVec.ofNat 5 (kindCode k).val) addr (BitVec.zeroExtend 32 n) [])) →
    watermarkBytes s.params < n.toNat → n.toNat ≤ 128 →
    es.length = ceilDiv n.toNat 8 → ¬ (s.params.wm.val + 1) ∣ es.length → s.params.pollLimit = none →
    s.sched = answerTurns es →
    ∃ t, exec i s = .next t ∧
      t.eng.phase = .drainOrFill ∧ t.eng.result = s.eng.result ∧
      t.rxq = es.drop ((s.params.wm.val + 1) * (es.length / (s.params.wm.val + 1))) ∧ step t = .next t

/-- R186, R201, R202: WRDI, LOCK and UNLOCK, encoded with OP 0x04, 0x12 and 0x13, end with `Unsupported` in `RamBlocking`
and with `IllegalInMode` in `XipBlocking`, and change nothing but the result. -/
def Obligations.OperationsWithoutKind : Prop :=
  encode .wrdi = .request ⟨0x04, 0, 0, .bytes []⟩ ∧ encode .lock = .request ⟨0x12, 0, 0, .bytes []⟩ ∧
  encode .unlock = .request ⟨0x13, 0, 0, .bytes []⟩ ∧
  ∀ i ∈ ([.wrdi, .lock, .unlock] : List Instr), ∀ s : State, s.Ready →
    (s.params.modeTag = .ramBlocking → exec i s = .next { s with eng.result := some ⟨0x00030003, 0, []⟩ }) ∧
    (s.params.modeTag = .xipBlocking → exec i s = .next { s with eng.result := some ⟨0x00030002, 0, []⟩ })

/-! ## The FIFO controller -/

/-- R214, R216, R85: writing 1 to bit 5 of INTR pops at most a watermark's worth of entries and counts them, and the bit
reads 0 afterwards unless another watermark's worth is there; writing 1 to bit 6 appends a watermark's worth of entries made
of the staged words, if they fit, and counts them; TFDR keeps its contents; without room nothing moves. With both bits 1 the
pop comes first, then the push (R27, R297); with both 0 stored bits are cleared and nothing moves. -/
def Obligations.IntrWriteMovesTheQueues : Prop :=
  (∀ (s : State) (v : Word), v.getLsbD 5 = true → v.getLsbD 6 = false →
    let w := (s.regs.iprxfcr.extractLsb' 2 4).toNat + 1
    let n := min w s.rxq.length
    regWrite .intr v s = { s with
      regs.intr := s.regs.intr &&& ~~~v
      rxq := s.rxq.drop n
      rdcntr := s.rdcntr + BitVec.ofNat 16 n } ∧
    (s.fault = none → s.rxq.length < 2 * w → (regRead .intr (regWrite .intr v s)).1.getLsbD 5 = false)) ∧
  (∀ (s : State) (v : Word), v.getLsbD 5 = true → v.getLsbD 6 = true →
    regWrite .intr v s = regWrite .intr 0x40 (regWrite .intr (v &&& ~~~0x40) s)) ∧
  (∀ (s : State) (v : Word), v.getLsbD 5 = false → v.getLsbD 6 = false →
    regWrite .intr v s = { s with regs.intr := s.regs.intr &&& ~~~v }) ∧
  ∀ (s : State) (v : Word), v.getLsbD 5 = false → v.getLsbD 6 = true →
    let n := (s.regs.iptxfcr.extractLsb' 2 4).toNat + 1
    (16 - s.txq.length < n → regWrite .intr v s = { s with regs.intr := s.regs.intr &&& ~~~v }) ∧
    (n ≤ 16 - s.txq.length → ∃ es : List Entry, es.length = n ∧
      (∀ (j : Nat) (h : 2 * j + 1 < 32) (hj : j < es.length),
        bytesLe s.regs.tfdr[2 * j] = [es[j].b0, es[j].b1, es[j].b2, es[j].b3] ∧
        bytesLe s.regs.tfdr[2 * j + 1] = [es[j].b4, es[j].b5, es[j].b6, es[j].b7]) ∧
      regWrite .intr v s = { s with
        regs.intr := s.regs.intr &&& ~~~v
        txq := s.txq ++ es
        wrcntr := s.wrcntr + BitVec.ofNat 16 n })

/-- R217: the clear bits empty their queue, its counter and the staging words, in the same write that stores the new
watermark and DMA bit; both bits read 0; written 0 they clear nothing. -/
def Obligations.ClearBitsEmptyTheQueues : Prop :=
  ∀ (s : State) (v : Word),
    (v.getLsbD 0 = true →
      regWrite .iprxfcr v s = { s with regs.iprxfcr := v &&& ~~~1, rxq := [], rdcntr := 0 } ∧
      regWrite .iptxfcr v s = { s with
        regs.iptxfcr := v &&& ~~~1, txq := [], wrcntr := 0, regs.tfdr := Vector.replicate 32 0 }) ∧
    (v.getLsbD 0 = false →
      regWrite .iprxfcr v s = { s with regs.iprxfcr := v } ∧ regWrite .iptxfcr v s = { s with regs.iptxfcr := v }) ∧
    (v &&& ~~~1).getLsbD 0 = false

/-- R213, R215, R218 (and R46 to R49): bits 5 and 6 of INTR are computed from the queues and the watermarks at the moment of
the read; the fill levels and counters of the status registers; the RX window: word `i` from the head, low bytes first, a
free value beyond the fill level; nothing pops. TFDR reads 0. -/
def Obligations.FifoStatusAndWindow : Prop :=
  ∀ s : State, s.fault = none → s.rxq.length ≤ 16 → s.txq.length ≤ 16 →
    ((regRead .intr s).1.getLsbD 5 = true ↔ (s.regs.iprxfcr.extractLsb' 2 4).toNat + 1 ≤ s.rxq.length) ∧
    ((regRead .intr s).1.getLsbD 6 = true ↔ (s.regs.iptxfcr.extractLsb' 2 4).toNat + 1 ≤ 16 - s.txq.length) ∧
    (∃ v, regRead .iprxfsts s = (v, s) ∧ (v.extractLsb' 0 8).toNat = s.rxq.length ∧ v.extractLsb' 16 16 = s.rdcntr) ∧
    (∃ v, regRead .iptxfsts s = (v, s) ∧ (v.extractLsb' 0 8).toNat = s.txq.length ∧ v.extractLsb' 16 16 = s.wrcntr) ∧
    (∀ (i : Fin 32) (e : Entry), s.rxq[i.val / 2]? = some e →
      ∃ v, regRead (.rfdr i) s = (v, s) ∧
        bytesLe v = if i.val % 2 = 0 then [e.b0, e.b1, e.b2, e.b3] else [e.b4, e.b5, e.b6, e.b7]) ∧
    (∀ i : Fin 32, s.rxq.length ≤ i.val / 2 → ∃ v, regRead (.rfdr i) s = (v, { s with draws := s.draws + 1 })) ∧
    ∀ i : Fin 32, regRead (.tfdr i) s = (0, s)

/-! ## The AHB window -/

/-- R240, R241, R243, R244, with no other agent moving (log entry 2): AHBCFG with the module enabled ends with `ModuleEnabled` and writes nothing; with it disabled it
writes the four fields of every read buffer, 0 in their reserved bits, and the ten policy fields, and leaves every other
bit and register as it was; BACKEND's use of MCR2 and AHBCR is settled then (R408, the model's own two fields, log entry 31). -/
def Obligations.AhbcfgWritesItsFields : Prop :=
  ∀ (s : State) (r : List Word), s.Ready → s.Consistent → s.sched = [] → recordOk ahbBounds r = true →
    (moduleDisabled s = false → exec (.ahbcfg r) s = .next (s.answered (resultOf .moduleEnabled 0 []))) ∧
    (moduleDisabled s = true → ∃ (buf : Vector Word 8) (m0 m1 m2 cr : Word),
      exec (.ahbcfg r) s = .next (({ s with
        regs.ahbrxbufcr0 := buf, regs.mcr0 := m0, regs.mcr1 := m1, regs.mcr2 := m2, regs.ahbcr := cr
        unsettledMcr2 := false, unsettledAhbcr := false } : State).answered
          (resultOf .ok 0 [])) ∧
      (∀ i : Fin 8, slice buf[i] 0 8 = recordWord r (4 * i.val + 1) ∧ slice buf[i] 16 4 = recordWord r (4 * i.val) ∧
        slice buf[i] 24 3 = recordWord r (4 * i.val + 2) ∧ slice buf[i] 31 1 = recordWord r (4 * i.val + 3) ∧
        buf[i] &&& 0x78F0FF00 = 0) ∧
      slice m0 24 8 = recordWord r 32 ∧ m0 &&& 0x00FFFFFF = s.regs.mcr0 &&& 0x00FFFFFF ∧
      slice m1 0 16 = recordWord r 33 ∧ m1 &&& 0xFFFF0000 = s.regs.mcr1 &&& 0xFFFF0000 ∧
      slice m2 24 8 = recordWord r 34 ∧ slice m2 15 1 = recordWord r 35 ∧ slice m2 19 1 = recordWord r 36 ∧
      slice m2 11 1 = recordWord r 37 ∧ m2 &&& 0x00F777FF = s.regs.mcr2 &&& 0x00F777FF ∧
      slice cr 6 1 = recordWord r 38 ∧ slice cr 5 1 = recordWord r 39 ∧ slice cr 4 1 = recordWord r 40 ∧
      slice cr 3 1 = recordWord r 41 ∧ cr &&& 0xFFFFFF87 = s.regs.ahbcr &&& 0xFFFFFF87)

/-- R36, R88, R92, R95, R174: a window access is admitted iff it lies inside the window and every byte of it in a device
(byte by byte by the model's deduction, log entry 14); a byte at offset `off` from `WIN_BASE` is byte `x` of bank `k` iff
`off` is `x` past the sizes of the banks before `k`, and inside `k`. The address of an IP command is translated the same way,
where its program has an address phase, which an image has iff its descriptor has an address width: BACKEND plays the slots
of its program on that bank alone and changes no byte of another device. A program has an address phase where a RADDR stands
in it behind nothing but instructions of R112 other than STOP, and none where there is no RADDR; where each RADDR stands behind
a STOP or an opcode outside R112, that is a free value (R113, R119). A command without an address phase, or with an address in
no device, is played on any bank; the first may change any device, the second changes none. The model's choices: when the sizes
are looked at, the form of that free value, and a command without a bank (log entry 27); the slots behind the first (29). With
SAMEDEVICEEN every bank has bank 0's size; after a raw write of MCR2 with MDIS = 0 (R408), and under `FAULT` (R58), whether it
has is a free value, in a form that is the model's (31). -/
def Obligations.WindowAddressesAreTranslated : Prop :=
  (∀ (s : State) (addr : Word) (n : Nat), 1 ≤ n →
    (windowAdmits addr n s = true ↔
      s.params.winBase ≤ addr.toNat ∧ addr.toNat + n ≤ s.params.winBase + s.params.winSize ∧
      ∀ j < n, ∃ k x, locate (bankSize s) (addr.toNat - s.params.winBase + j) = some (k, x))) ∧
  (∀ (size : Fin 4 → Nat) (off : Nat) (k : Fin 4) (x : Nat),
    locate size off = some (k, x) ↔
      off = ((List.ofFn size).take k.val).sum + x ∧ x < size k) ∧
  (∀ (s : State) (k : Fin 4), s.fault = none →
    bankSize s k = 1024 * (s.regs.flshcr0[if sameDevice s then 0 else k].extractLsb' 0 23).toNat) ∧
  (∀ s : State, (s.fault = none → s.unsettledMcr2 = false → sameDevice s = s.regs.mcr2.getLsbD 15) ∧
    (s.fault ≠ none ∨ s.unsettledMcr2 = true → sameDevice s = Config.freeSameDevice s.draws)) ∧
  (∀ c : LogicalCommand, addressPhase [image c] = c.aw.isSome) ∧
  (∀ (prog : List SlotWords) (pre post : List Half) (h : Half), programHalves prog = pre ++ h :: post →
    ((∀ x ∈ pre, ∃ i, decodeLut16 x = some i ∧ ∀ p b, i ≠ .stop p b) →
      (h.extractLsb' 10 6 = 0x02 ∨ h.extractLsb' 10 6 = 0x22) → addressPhase prog = true) ∧
    ((h.extractLsb' 10 6 = 0x00 ∨ decodeLut16 h = none) →
      (∀ x ∈ pre, x.extractLsb' 10 6 ≠ 0x02 ∧ x.extractLsb' 10 6 ≠ 0x22) →
      (∃ x ∈ post, x.extractLsb' 10 6 = 0x02 ∨ x.extractLsb' 10 6 = 0x22) →
      addressPhase prog = Config.playsBeyond (programHalves prog))) ∧
  (∀ prog : List SlotWords, (∀ x ∈ programHalves prog, x.extractLsb' 10 6 ≠ 0x02 ∧ x.extractLsb' 10 6 ≠ 0x22) →
    addressPhase prog = false) ∧
  ∀ (s : State) (c : Inflight), s.inflight = some c →
    (∀ (k : Fin 4) (j : Fin 8), s.fault = none → moduleDisabled s = false →
      (addressPhase (commandProgram c) = false ∨ locate (bankSize s) c.addr.toNat = none ∨
        ∃ x, locate (bankSize s) c.addr.toNat = some (k, x)) →
      fetchHalf k (.ip j) s =
        (commandProgram c)[j.val]?.map fun w => (w.half s.seqptr[k], c.slot + BitVec.ofNat 5 j.val, s)) ∧
    (addressPhase (commandProgram c) = false → completeEnabled s = true → s.params.flashModel = true →
      ∀ device : List Host.Cell,
        (envStep (.complete device) s).win.flash = Memory.writeCells s.win.flash device) ∧
    (addressPhase (commandProgram c) = true →
      (locate (bankSize s) c.addr.toNat = none → ∀ device : List Host.Cell,
        (envStep (.complete device) s).win.flash = s.win.flash) ∧
      ∀ (b : Fin 4) (x : Nat), locate (bankSize s) c.addr.toNat = some (b, x) →
        (∀ (k : Fin 4) (j : Fin 8), k ≠ b → fetchHalf k (.ip j) s = none) ∧
        (Memory.wf s.win.flash = true → ∀ (device : List Host.Cell) (k : Fin 4) (a : Nat), k ≠ b → a < 2 ^ 40 →
          Memory.read (envStep (.complete device) s).win.flash (flashKey k a) = Memory.read s.win.flash (flashKey k a)))

/-- R247, R92, R98: WINRD of an admitted range with the module enabled ends with `Ok` and `n` bytes: the flash model's
where there is one and neither an IP command is in flight nor a buffered write pending, free values otherwise. It writes
nothing but its result and what be_ahb may (R69, R57). With the module disabled it waits. The model's: the access is served in
its own step (log entry 13), admission byte by byte (14), the flash model's keys (15), its result in `ENG.result` (12), the form
of the free value SAMEDEVICEEN is after a raw write of MCR2 (31), that no byte comes stale from a read buffer (35). -/
def Obligations.WinrdReturnsItsBytes : Prop :=
  ∀ (s : State) (addr n : Word), n ≠ 0 → s.Safe → windowAdmits addr n.toNat s = true →
    (moduleDisabled s = false → ∃ (bytes : List Byte) (sp : Word) (seq : Vector (Fin 8) 4) (d : Nat),
      exec (.winrd addr n) s = .next { s with
        eng.result := some (resultOf .ok 0 bytes), regs.ahbspndsts := sp, seqptr := seq, draws := d } ∧
      bytes.length = n.toNat ∧
      (s.params.flashModel = true → s.inflight = none → s.win.buffered = [] → ∀ j < n.toNat, ∃ a,
        windowKey s (addr.toNat + j) = some a ∧ bytes[j]? = some (Memory.read s.win.flash a))) ∧
    (moduleDisabled s = true → exec (.winrd addr n) s = .next { s with
      win.waiting := s.win.waiting ++ [.read addr n.toNat []] })

/-- R248, R93, R100: WINWR of an admitted range in `RamBlocking` with the module enabled ends with `Ok`: with BUFFERABLEEN
the write is kept pending; without it, it lands: under a flash model byte `j` at the key of `addr + j`, every other byte of
flash as before. With the module disabled it waits. The model's: the access is served in its own step (log entry 13), admission
byte by byte (14), the flash model's keys (15), its result in `ENG.result` (12), that it lands while an IP command is in flight
too (33). BUFFERABLEEN is the stored bit; after a raw write of AHBCR with MDIS = 0 it is a free value (R408), in a form that is
the model's (31). -/
def Obligations.WinwrWritesItsBytes : Prop :=
  ∀ (s : State) (addr len : Word) (data : List Byte), len ≠ 0 → len.toNat = data.length → s.Safe →
    s.params.modeTag = .ramBlocking → windowAdmits addr len.toNat s = true →
    Memory.wf s.win.flash = true →
    (s.unsettledAhbcr = false → bufferable s = s.regs.ahbcr.getLsbD 4) ∧
    (s.unsettledAhbcr = true → bufferable s = Config.freeBuffering s.draws s.win.buffered.length) ∧
    (moduleDisabled s = true → exec (.winwr addr len data) s = .next { s with
      win.waiting := s.win.waiting ++ [.write addr data 0] }) ∧
    (moduleDisabled s = false → bufferable s = true → exec (.winwr addr len data) s = .next { s with
      win.buffered := s.win.buffered ++ [⟨addr, data, 0⟩], eng.result := some (resultOf .ok 0 []) }) ∧
    (moduleDisabled s = false → bufferable s = false →
      ∃ (fl : List Host.Cell) (sp : Word) (seq : Vector (Fin 8) 4) (d : Nat),
        exec (.winwr addr len data) s = .next { s with
          win.flash := fl, eng.result := some (resultOf .ok 0 []), regs.ahbspndsts := sp, seqptr := seq, draws := d } ∧
        Memory.wf fl = true ∧ (s.params.flashModel = false → fl = s.win.flash) ∧
        (∀ a, (∀ j < data.length, windowKey s (addr.toNat + j) ≠ some a) →
          Memory.read fl a = Memory.read s.win.flash a) ∧
        (s.params.flashModel = true → ∀ (j : Nat) (b : Byte), data[j]? = some b → ∃ a,
          windowKey s (addr.toNat + j) = some a ∧ Memory.read fl a = b))

/-- R90, R92, R93, R100: be_ahb serves any waiting access byte by byte, in ascending order: its next byte of a read is the flash
model's where one may be read (R98), its next byte of an unbuffered write lands alone; the last byte ends the access with
`Ok`; a write none of whose bytes has landed is kept pending whole, and acknowledged, with BUFFERABLEEN. A buffered write lands
by a later be_ahb step, whole or byte by byte. Nothing else moves but what be_ahb may (R69). The model's own: the turns (log
entries 13, 21), the result in `ENG.result` (12), the flash model's keys (15), that a byte of a write which lies in no device
by then is dropped (14), that each byte of a read is decided at its own moment (32), that none comes stale from a read buffer
(35), that a write lands while an IP command is in flight too (33), and that the stored MDIS decides under `FAULT` too (8).
BUFFERABLEEN under `FAULT` and after a raw write of AHBCR with MDIS = 0 is a free value (R58, R408), in a form that is the
model's (31). -/
def Obligations.WaitingAccessIsServedByBytes : Prop :=
  ∀ (s : State) (i : Nat), Memory.wf s.win.flash = true →
    (s.fault = none → s.unsettledAhbcr = false → bufferable s = s.regs.ahbcr.getLsbD 4) ∧
    (s.fault ≠ none ∨ s.unsettledAhbcr = true → bufferable s = Config.freeBuffering s.draws s.win.buffered.length) ∧
    (∀ (addr : Word) (n : Nat) (got : List Byte), moduleDisabled s = false →
      s.win.waiting[i]? = some (.read addr n got) → got.length < n →
      ∃ (b : Byte) (sp : Word) (seq : Vector (Fin 8) 4) (d : Nat),
        (got.length + 1 < n → envStep (.ahbByte i) s = { s with
          win.waiting := s.win.waiting.set i (.read addr n (got ++ [b]))
          regs.ahbspndsts := sp, seqptr := seq, draws := d }) ∧
        (got.length + 1 = n → envStep (.ahbByte i) s = { s with
          win.waiting := s.win.waiting.eraseIdx i, eng.result := some (resultOf .ok 0 (got ++ [b]))
          regs.ahbspndsts := sp, seqptr := seq, draws := d }) ∧
        (s.params.flashModel = true → s.Safe → s.inflight = none → s.win.buffered = [] →
          ∀ a, windowKey s (addr.toNat + got.length) = some a → b = Memory.read s.win.flash a)) ∧
    (∀ (addr : Word) (data : List Byte) (landed : Nat), moduleDisabled s = false →
      s.win.waiting[i]? = some (.write addr data landed) → landed < data.length →
      (bufferable s = true → landed = 0 → envStep (.ahbByte i) s = { s with
        win.waiting := s.win.waiting.eraseIdx i, win.buffered := s.win.buffered ++ [⟨addr, data, 0⟩]
        eng.result := some (resultOf .ok 0 []) }) ∧
      (bufferable s = false ∨ landed ≠ 0 → ∃ (fl : List Host.Cell) (sp : Word) (seq : Vector (Fin 8) 4) (d : Nat),
        (landed + 1 < data.length → envStep (.ahbByte i) s = { s with
          win.waiting := s.win.waiting.set i (.write addr data (landed + 1)), win.flash := fl
          regs.ahbspndsts := sp, seqptr := seq, draws := d }) ∧
        (landed + 1 = data.length → envStep (.ahbByte i) s = { s with
          win.waiting := s.win.waiting.eraseIdx i, win.flash := fl, eng.result := some (resultOf .ok 0 [])
          regs.ahbspndsts := sp, seqptr := seq, draws := d }) ∧
        (s.params.flashModel = false → fl = s.win.flash) ∧
        (∀ a, windowKey s (addr.toNat + landed) ≠ some a → Memory.read fl a = Memory.read s.win.flash a) ∧
        (s.params.flashModel = true → ∀ (a : Nat) (b : Byte), windowKey s (addr.toNat + landed) = some a →
          data[landed]? = some b → Memory.read fl a = b))) ∧
    ∀ w : BufferedWrite, s.win.buffered[i]? = some w → w.landed < w.data.length →
      (∃ (fl : List Host.Cell) (sp : Word) (seq : Vector (Fin 8) 4) (d : Nat),
        (w.landed + 1 < w.data.length → envStep (.ahbLandByte i) s = { s with
          win.buffered := s.win.buffered.set i { w with landed := w.landed + 1 }, win.flash := fl
          regs.ahbspndsts := sp, seqptr := seq, draws := d }) ∧
        (w.landed + 1 = w.data.length → envStep (.ahbLandByte i) s = { s with
          win.buffered := s.win.buffered.eraseIdx i, win.flash := fl
          regs.ahbspndsts := sp, seqptr := seq, draws := d }) ∧
        (s.params.flashModel = false → fl = s.win.flash) ∧
        (∀ a, windowKey s (w.addr.toNat + w.landed) ≠ some a → Memory.read fl a = Memory.read s.win.flash a) ∧
        (s.params.flashModel = true → ∀ (a : Nat) (b : Byte), windowKey s (w.addr.toNat + w.landed) = some a →
          w.data[w.landed]? = some b → Memory.read fl a = b)) ∧
      ∃ (fl : List Host.Cell) (sp : Word) (seq : Vector (Fin 8) 4) (d : Nat),
        envStep (.ahbLand i) s = { s with
          win.buffered := s.win.buffered.eraseIdx i, win.flash := fl
          regs.ahbspndsts := sp, seqptr := seq, draws := d } ∧
        (s.params.flashModel = false → fl = s.win.flash) ∧
        (∀ a, (∀ j, w.landed ≤ j → j < w.data.length → windowKey s (w.addr.toNat + j) ≠ some a) →
          Memory.read fl a = Memory.read s.win.flash a) ∧
        (s.params.flashModel = true → ∀ (j a : Nat) (b : Byte), w.landed ≤ j → w.data[j]? = some b →
          windowKey s (w.addr.toNat + j) = some a → Memory.read fl a = b)

/-- R250, R251, with no other agent moving (log entry 2): XWRITE builds the page-program slot and stores its one byte: pending
with BUFFERABLEEN, at the key of `addr` without it; every other byte of flash is as before. With the module disabled it has
built the slot and the store never ends. The model's: admission byte by byte (log entry 14), the flash model's keys (15), that
the byte lands while an IP command is in flight too (33), the form of the free values BUFFERABLEEN and SAMEDEVICEEN are after a
raw write of their registers (R408, 31). -/
def Obligations.XwriteBuildsAndStores : Prop :=
  ∀ (s : State) (c : LogicalCommand) (addr : Word) (b : Byte), s.Ready → s.sched = [] →
    commandOf s.params .pageProgram = some c → windowAdmits addr 1 s = true → Memory.wf s.win.flash = true →
    (moduleDisabled s = true → ∃ e : Engine, e.phase = .configuring ∧ e.result = s.eng.result ∧
      exec (.xwrite addr [b]) s = .next { s.built .pageProgram c with eng := e } ∧
      step { s.built .pageProgram c with eng := e } = .next { s.built .pageProgram c with eng := e }) ∧
    (moduleDisabled s = false → bufferable s = true → exec (.xwrite addr [b]) s = .next
      (({ s.built .pageProgram c with win.buffered := s.win.buffered ++ [⟨addr, [b], 0⟩] } : State).answered
        (resultOf .ok 0 []))) ∧
    (moduleDisabled s = false → bufferable s = false →
      ∃ (fl : List Host.Cell) (sp : Word) (seq : Vector (Fin 8) 4) (d : Nat),
        exec (.xwrite addr [b]) s = .next (({ s.built .pageProgram c with
          win.flash := fl, regs.ahbspndsts := sp, seqptr := seq, draws := d } : State).answered (resultOf .ok 0 [])) ∧
        (s.params.flashModel = false → fl = s.win.flash) ∧
        (∀ a, windowKey s addr.toNat ≠ some a → Memory.read fl a = Memory.read s.win.flash a) ∧
        (s.params.flashModel = true → ∃ a, windowKey s addr.toNat = some a ∧ Memory.read fl a = b))

/-- R252: under a flash model, with the module enabled, no IP command in flight and no write buffered, WINWR followed by
WINRD of the same range returns the bytes written, and so does XWRITE, with no other agent moving (log entry 2), followed by
WINRD. After a raw write of MCR2 with MDIS = 0 nothing is said, for the two accesses may then be translated apart (R408).
The model's: the flash model, which stores what is written (log entry 15), admission byte by byte (14), BUFFERABLEEN as
BACKEND uses it (31), that no byte comes stale from a read buffer (35). -/
def Obligations.WindowRoundTrip : Prop :=
  ∀ (s : State) (addr : Word), s.params.flashModel = true → Memory.wf s.win.flash = true → s.Ready →
    moduleDisabled s = false → bufferable s = false → s.unsettledMcr2 = false → s.inflight = none →
    s.win.buffered = [] →
    (∀ (len : Word) (data : List Byte), len ≠ 0 → len.toNat = data.length → s.params.modeTag = .ramBlocking →
      windowAdmits addr len.toNat s = true →
      ∃ t u, exec (.winwr addr len data) s = .next t ∧ exec (.winrd addr len) t = .next u ∧
        u.eng.result = some (resultOf .ok 0 data)) ∧
    ∀ (c : LogicalCommand) (b : Byte), commandOf s.params .pageProgram = some c → s.sched = [] →
      windowAdmits addr 1 s = true →
      ∃ t u, exec (.xwrite addr [b]) s = .next t ∧ exec (.winrd addr 1) t = .next u ∧
        u.eng.result = some (resultOf .ok 0 [b])

/-! ## The Device Timing and DLL Calibrator -/

/-- R263, R264, R265: `dll_value` is `0x100` for the loopback modes and for mode 3 without the secondary clock, `0x79` from 100
MHz up, and else `0x100` with bits 6:3 of the rounded-up quotient at 15:12, computed without wrap; and the source's literal
cases. -/
def Obligations.DllValueFormula : Prop :=
  (∀ c : ControllerRecord, c.sampleMode ≤ 3 → c.secondaryClockEn ≤ 1 → c.dataValidTimeNs < 2 ^ 32 →
    (c.sampleMode ≤ 2 ∨ c.secondaryClockEn = 0 → dllValue c = 0x00000100) ∧
    (c.sampleMode = 3 → c.secondaryClockEn = 1 → 100000000 ≤ c.rootClockHz → dllValue c = 0x00000079) ∧
    (c.sampleMode = 3 → c.secondaryClockEn = 1 → c.rootClockHz < 100000000 →
      ∃ raw : Nat, 75 * raw < c.dataValidTimeNs * 1000 + 75 ∧ c.dataValidTimeNs * 1000 ≤ 75 * raw ∧
        (dllValue c).toNat = 0x100 + (raw / 8 % 16) * 2 ^ 12)) ∧
  (∀ hz ns en, dllValue ⟨0, hz, ns, en⟩ = 0x00000100) ∧ (∀ hz ns, dllValue ⟨3, hz, ns, 0⟩ = 0x00000100) ∧
  (∀ ns, dllValue ⟨3, 200000000, ns, 1⟩ = 0x00000079) ∧ dllValue ⟨3, 48000000, 2, 1⟩ = 0x00003100

/-- R260: DLLCALC, encoded with OP 0x1A and its record, ends with `Ok` and the DLL value under both tags, and with
`BadOperand` for a sampling mode above 3 or a clock-enable above 1; it touches nothing but the result. -/
def Obligations.DllcalcReturnsTheValue : Prop :=
  ∀ (s : State) (mode hz ns en : Word), s.Ready →
    encode (.dllcalc [mode, hz, ns, en]) = .request ⟨0x0000001A, 0, 0, .words [mode, hz, ns, en]⟩ ∧
    (mode.toNat ≤ 3 → en.toNat ≤ 1 → exec (.dllcalc [mode, hz, ns, en]) s =
      .next (s.answered (resultOf .ok (dllValue ⟨mode.toNat, hz.toNat, ns.toNat, en.toNat⟩) []))) ∧
    (3 < mode.toNat ∨ 1 < en.toNat → exec (.dllcalc [mode, hz, ns, en]) s =
      .next { s with eng.result := some ⟨0x00030004, 0, []⟩ })

/-- R268 to R277, R362: DEVCFG on an idle arbiter writes the bound port and bank and enables the module: the bound port's
DLLCR holds the DLL value, its write-mask bit the flag, the bound bank the timing and sequence fields; every other bit, bank
and register is as it was. With BACKEND locking the bound port's DLL after the last write it ends with `Ok`. With no other
agent moving (log entry 2) it waits for the lock with the writes done, or on a busy arbiter before the first of them: for
ever without a limit on the poll, else until `Timeout` with the number of reads (a number of 2^32 or more modulo 2^32 by the
model's choice, log entry 30). -/
def Obligations.DevcfgConfiguresTheBank : Prop :=
  ∀ (s : State) (r : List Word) (b : Binding) (p : Fin 2) (k : Fin 4), s.Ready → s.Consistent →
    recordOk controllerBounds r = true → s.params.binding = b → bindingWithin b = true →
    p = portIndex b.port → k = bankIndex b →
    (s.regs.sts0 &&& 3 ≠ 3 → s.sched = [] →
      (s.params.pollLimit = none → ∃ e : Engine, e.phase = .configuring ∧ e.op = some (.devcfg r) ∧
        e.result = s.eng.result ∧ exec (.devcfg r) s = .next { s with eng := e } ∧
        step { s with eng := e } = .next { s with eng := e }) ∧
      ∀ limit, s.params.pollLimit = some limit →
        exec (.devcfg r) s = .next (s.answered (resultOf .timeout (BitVec.ofNat 32 (max limit 1)) []))) ∧
    (s.regs.sts0 &&& 3 = 3 → ∃ w4 w0 w1 w2 : Word,
      let t : State := { s with
        regs.dllcr := s.regs.dllcr.set p (dllValue (controllerRecord r))
        regs.flshcr4 := w4
        regs.flshcr0 := s.regs.flshcr0.set k w0
        regs.flshcr1 := s.regs.flshcr1.set k w1
        regs.flshcr2 := s.regs.flshcr2.set k w2
        regs.mcr0 := s.regs.mcr0 &&& ~~~2
        regs.sts2 := s.regs.sts2 &&& ~~~lockMask p
        sched := [] }
      (s.sched = List.replicate (7 + (if b.ardSeqCount = 0 then 0 else 1) + (if b.awrSeqCount = 0 then 0 else 1)) .engine ++
          [.lock p true true] →
        exec (.devcfg r) s =
          .next (({ t with regs.sts2 := s.regs.sts2 ||| lockMask p } : State).answered (resultOf .ok 0 []))) ∧
      (s.sched = [] →
        (s.params.pollLimit = none → ∃ e : Engine, e.phase = .configuring ∧ e.op = some (.devcfg r) ∧
          e.result = s.eng.result ∧ exec (.devcfg r) s = .next { t with eng := e } ∧
          step { t with eng := e } = .next { t with eng := e }) ∧
        ∀ limit, s.params.pollLimit = some limit →
          exec (.devcfg r) s = .next (t.answered (resultOf .timeout (BitVec.ofNat 32 (max limit 1)) []))) ∧
      slice w4 (2 + p.val) 1 = b.writeMask ∧
      w4 &&& ~~~((4 : Word) <<< p.val) = s.regs.flshcr4 &&& ~~~((4 : Word) <<< p.val) ∧
      slice w0 0 23 = b.flashSizeKb ∧ w0 &&& 0xFF800000 = s.regs.flshcr0[k] &&& 0xFF800000 ∧
      slice w1 0 5 = b.csSetup ∧ slice w1 5 5 = b.csHold ∧ slice w1 10 1 = b.wordAddressing ∧ slice w1 11 4 = b.cas ∧
      slice w1 15 1 = b.csIntervalUnit ∧ slice w1 16 16 = b.csInterval ∧
      slice w2 28 3 = b.awrWaitUnit ∧ w2 &&& 0x0FFF0000 = s.regs.flshcr2[k] &&& 0x0FFF0000 ∧ w2.getLsbD 31 = false ∧
      (if b.ardSeqCount = 0 then slice w2 0 8 = slice s.regs.flshcr2[k] 0 8
        else slice w2 0 5 = b.ardSeqId ∧ slice w2 5 3 = b.ardSeqCount - 1) ∧
      (if b.awrSeqCount = 0 then slice w2 8 8 = slice s.regs.flshcr2[k] 8 8
        else slice w2 8 5 = b.awrSeqId ∧ slice w2 13 3 = b.awrSeqCount - 1))

/-! ## The register-access demux -/

/-- R292: the decode table, offset by offset and array by array, and nothing else decodes. -/
def Obligations.OffsetsDecodeByTheTable : Prop :=
  (∀ x ∈ ([(0x000, .mcr0), (0x004, .mcr1), (0x008, .mcr2), (0x00C, .ahbcr), (0x010, .inten), (0x014, .intr),
      (0x018, .lutkey), (0x01C, .lutcr), (0x094, .flshcr4), (0x0A0, .ipcr0), (0x0A4, .ipcr1), (0x0B0, .ipcmd),
      (0x0B4, .dlpr), (0x0B8, .iprxfcr), (0x0BC, .iptxfcr), (0x0C0, .dllcr 0), (0x0C4, .dllcr 1), (0x0E0, .sts0),
      (0x0E4, .sts1), (0x0E8, .sts2), (0x0EC, .ahbspndsts), (0x0F0, .iprxfsts), (0x0F4, .iptxfsts)] : List (Word × Reg)),
    decodeReg x.1 = some x.2) ∧
  (∀ i : Fin 8, decodeReg (0x020 + BitVec.ofNat 32 (4 * i.val)) = some (.ahbrxbufcr0 i)) ∧
  (∀ k : Fin 4, decodeReg (0x060 + BitVec.ofNat 32 (4 * k.val)) = some (.flshcr0 k) ∧
    decodeReg (0x070 + BitVec.ofNat 32 (4 * k.val)) = some (.flshcr1 k) ∧
    decodeReg (0x080 + BitVec.ofNat 32 (4 * k.val)) = some (.flshcr2 k)) ∧
  (∀ i : Fin 32, decodeReg (0x100 + BitVec.ofNat 32 (4 * i.val)) = some (.rfdr i) ∧
    decodeReg (0x180 + BitVec.ofNat 32 (4 * i.val)) = some (.tfdr i)) ∧
  (∀ i : Fin 120, decodeReg (0x200 + BitVec.ofNat 32 (4 * i.val)) = some (.lut i)) ∧
  (∀ (off : Word) (r : Reg), decodeReg off = some r → off.toNat = regOffset r) ∧
  allRegs.length = 227 ∧ ∀ r : Reg, r ∈ allRegs

/-- R295, R87: REGRD and REGWR at an offset that is no multiple of 4, or in a hole, end with `BadAccess` and change nothing
but the result. -/
def Obligations.BadOffsetsAreRefused : Prop :=
  ∀ (s : State) (off v : Word), s.Ready →
    (off.toNat % 4 ≠ 0 ∨ (0x040 ≤ off.toNat ∧ off.toNat ≤ 0x05C) ∨
      off.toNat ∈ [0x090, 0x098, 0x09C, 0x0A8, 0x0AC, 0x0F8, 0x0FC] ∨ (0x0C8 ≤ off.toNat ∧ off.toNat ≤ 0x0DC) ∨
      0x3E0 ≤ off.toNat) →
    exec (.regrd off) s = .next { s with eng.result := some ⟨0x00030005, 0, []⟩ } ∧
    exec (.regwr off v) s = .next { s with eng.result := some ⟨0x00030005, 0, []⟩ }

/-- R290, R296: REGRD of a mapped offset, with no other agent moving (log entry 2), ends with `Ok` and the register's value in RSP1, and
changes nothing else; RFDR beyond the fill level returns a free value. -/
def Obligations.RegrdReadsTheRegister : Prop :=
  ∀ (s : State) (off : Word) (r : Reg), s.Ready → s.sched = [] → decodeReg off = some r →
    (∀ v, regShows r s = some v → exec (.regrd off) s = .next (s.answered (resultOf .ok v []))) ∧
    (regShows r s = none → ∃ v,
      exec (.regrd off) s = .next (({ s with draws := s.draws + 1 } : State).answered (resultOf .ok v [])))

/-- R291, R297, R37: REGWR of a mapped offset, with no other agent moving (log entry 2), ends with `Ok` after the register's write; a
trigger while a command is in flight sets `FAULT` instead and gets no result. -/
def Obligations.RegwrWritesTheRegister : Prop :=
  ∀ (s : State) (off v : Word) (r : Reg), s.Ready → s.sched = [] → decodeReg off = some r →
    (¬ (r = .ipcmd ∧ v.getLsbD 0 = true ∧ s.inflight ≠ none) →
      exec (.regwr off v) s = .next ((regWrite r v s).answered (resultOf .ok 0 []))) ∧
    (r = .ipcmd → v.getLsbD 0 = true → s.inflight ≠ none →
      ∃ e : Engine, e.result = s.eng.result ∧
        exec (.regwr off v) s = .next { s with fault := some .overlap, eng := e })

/-- R297, R33, R36, R37, R68, R140: a write to a plain register is read back whole and changes no other register; MCR0 and DLLCR
also clear the lock bits the rule names; FLSHCR2 stores bits 30:0 and with bit 31 resets its bank's position; read-only
registers ignore writes; TFDR stores, IPCMD with TRG 0 does nothing. The trigger with nothing in flight puts in flight the
command the registers name, with its slot's words as they stand (free values for slots 30 and 31, and under `FAULT`), and
makes the arbiter busy; with a command in flight it sets `FAULT` and does nothing else. That the words of the ISEQNUM slots
behind the first are read at the trigger too, free values beyond slot 29, is the model's choice (log entry 29). MCR2 and AHBCR
are stored whole too; that BACKEND's use of them is open after a write with MDIS = 0 (R408), and settled after one with MDIS = 1,
stands in two fields of the model's own (31). -/
def Obligations.RegisterWritesAreReadBack : Prop :=
  ∀ (s : State) (r : Reg) (v : Word),
    (plainRegister r = true → ∃ g : Regs, regWrite r v s = { s with regs := g } ∧
      regShows r { s with regs := g } = some v ∧
      ∀ r', r' ≠ r → regStored r' { s with regs := g } = regStored r' s ∧ regShows r' { s with regs := g } = regShows r' s) ∧
    regWrite .mcr2 v s = { s with regs.mcr2 := v, unsettledMcr2 := !moduleDisabled s } ∧
    regWrite .ahbcr v s = { s with regs.ahbcr := v, unsettledAhbcr := !moduleDisabled s } ∧
    (readOnlyRegister r = true → regWrite r v s = s) ∧
    (v.getLsbD 1 = false → regWrite .mcr0 v s = { s with regs.mcr0 := v }) ∧
    (v.getLsbD 1 = true → regWrite .mcr0 v s = { s with regs.mcr0 := v, regs.sts2 := s.regs.sts2 &&& 0xFFFCFFFC }) ∧
    regWrite (.dllcr 0) v s =
      { s with regs.dllcr := s.regs.dllcr.set 0 v, regs.sts2 := s.regs.sts2 &&& 0xFFFFFFFC } ∧
    regWrite (.dllcr 1) v s =
      { s with regs.dllcr := s.regs.dllcr.set 1 v, regs.sts2 := s.regs.sts2 &&& 0xFFFCFFFF } ∧
    (∀ i : Fin 32, regWrite (.tfdr i) v s = { s with regs.tfdr := s.regs.tfdr.set i v }) ∧
    (∀ k : Fin 4,
      (v.getLsbD 31 = false → regWrite (.flshcr2 k) v s = { s with regs.flshcr2 := s.regs.flshcr2.set k v }) ∧
      (v.getLsbD 31 = true → regWrite (.flshcr2 k) v s =
        { s with regs.flshcr2 := s.regs.flshcr2.set k (v &&& 0x7FFFFFFF), seqptr := s.seqptr.set k 0 })) ∧
    (v.getLsbD 0 = false → regWrite .ipcmd v s = s) ∧
    (v.getLsbD 0 = true → s.inflight ≠ none → regWrite .ipcmd v s = { s with fault := some .overlap }) ∧
    (v.getLsbD 0 = true → s.inflight = none → ∃ (w : SlotWords) (l : List SlotWords) (d : Nat),
      regWrite .ipcmd v s = { s with
        inflight := some {
          slot := s.regs.ipcr1.extractLsb' 16 5, seqnum := s.regs.ipcr1.extractLsb' 24 3, addr := s.regs.ipcr0
          datsz := s.regs.ipcr1.extractLsb' 0 16, words := w, later := l, dir := dirOf w, delivered := 0 }
        regs.sts0 := 0x00000008, draws := d } ∧
      l.length = (s.regs.ipcr1.extractLsb' 24 3).toNat ∧
      (∀ n : Fin 30, s.fault = none → (s.regs.ipcr1.extractLsb' 16 5).toNat = n.val → w = slotOf s.regs.lut n) ∧
      (∀ (j : Nat) (n : Fin 30), s.fault = none → j < l.length →
        (s.regs.ipcr1.extractLsb' 16 5).toNat + 1 + j = n.val → l[j]? = some (slotOf s.regs.lut n)) ∧
      (s.fault = none → (s.regs.ipcr1.extractLsb' 16 5).toNat + l.length < 30 → d = s.draws) ∧
      (s.fault ≠ none ∨ 30 ≤ (s.regs.ipcr1.extractLsb' 16 5).toNat → d = s.draws + 4 * (l.length + 1)))

/-- R298, R33, R39, R40, R68, R301: a field update of MCR0, MCR1, MCR2, AHBCR, FLSHCR0, FLSHCR2, FLSHCR4, IPRXFCR or IPTXFCR
replaces the named bits, keeps the others and touches no other register; on a consistent state it fires no action it does not
name. Naming CLRINSTRPTR alone resets the bank's position and stores nothing; naming MDIS with 1 clears the lock bits, with 0
does not; naming a clear bit with 1 empties that queue and is not stored. Whether an update of MCR2 or AHBCR came with MDIS = 0
stands in a field of the model's own (R408, log entry 31). That an update of MCR0 while MDIS is 1 clears the lock
bits once more, which are 0 already, is log entry 24. -/
def Obligations.FieldUpdateFiresNothingElse : Prop :=
  ∀ (s : State) (mask bits : Word), s.Consistent → bits &&& ~~~mask = 0 →
    (∀ k : Fin 4, mask.getLsbD 31 = false → regField (.flshcr2 k) mask bits s =
      { s with regs.flshcr2 := s.regs.flshcr2.set k ((s.regs.flshcr2[k] &&& ~~~mask) ||| bits) }) ∧
    (∀ k : Fin 4, regField (.flshcr2 k) 0x80000000 0x80000000 s = { s with seqptr := s.seqptr.set k 0 }) ∧
    (mask.getLsbD 1 = false ∨ bits.getLsbD 1 = false → regField .mcr0 mask bits s =
      { s with regs.mcr0 := (s.regs.mcr0 &&& ~~~mask) ||| bits }) ∧
    (bits.getLsbD 1 = true → regField .mcr0 mask bits s =
      { s with regs.mcr0 := (s.regs.mcr0 &&& ~~~mask) ||| bits, regs.sts2 := s.regs.sts2 &&& 0xFFFCFFFC }) ∧
    regField .mcr1 mask bits s = { s with regs.mcr1 := (s.regs.mcr1 &&& ~~~mask) ||| bits } ∧
    regField .mcr2 mask bits s =
      { s with regs.mcr2 := (s.regs.mcr2 &&& ~~~mask) ||| bits, unsettledMcr2 := !moduleDisabled s } ∧
    regField .ahbcr mask bits s =
      { s with regs.ahbcr := (s.regs.ahbcr &&& ~~~mask) ||| bits, unsettledAhbcr := !moduleDisabled s } ∧
    (∀ k : Fin 4, regField (.flshcr0 k) mask bits s =
      { s with regs.flshcr0 := s.regs.flshcr0.set k ((s.regs.flshcr0[k] &&& ~~~mask) ||| bits) }) ∧
    regField .flshcr4 mask bits s = { s with regs.flshcr4 := (s.regs.flshcr4 &&& ~~~mask) ||| bits } ∧
    (bits.getLsbD 0 = false → regField .iprxfcr mask bits s =
      { s with regs.iprxfcr := (s.regs.iprxfcr &&& ~~~mask) ||| bits }) ∧
    (bits.getLsbD 0 = true → regField .iprxfcr mask bits s =
      { s with regs.iprxfcr := ((s.regs.iprxfcr &&& ~~~mask) ||| bits) &&& ~~~1, rxq := [], rdcntr := 0 }) ∧
    (bits.getLsbD 0 = false → regField .iptxfcr mask bits s =
      { s with regs.iptxfcr := (s.regs.iptxfcr &&& ~~~mask) ||| bits }) ∧
    (bits.getLsbD 0 = true → regField .iptxfcr mask bits s =
      { s with
        regs.iptxfcr := ((s.regs.iptxfcr &&& ~~~mask) ||| bits) &&& ~~~1, regs.tfdr := Vector.replicate 32 0
        txq := [], wrcntr := 0 })

/-! ## The Error Taxonomy and the interrupt output -/

/-- R350, R367: ERRCLS, with no other agent moving (log entry 2), reports the lowest error bit pending, with its kind, path and cause, and
clears that bit alone; with none pending it ends with `Ok` and changes nothing. -/
def Obligations.ErrclsReportsTheLowestBit : Prop :=
  ∀ s : State, s.Ready → s.sched = [] →
    ((∀ b : ErrBit, s.regs.intr.getLsbD (errPos b) = false) → exec .errcls s = .next (s.answered (resultOf .ok 0 []))) ∧
    ∀ b : ErrBit, s.regs.intr.getLsbD (errPos b) = true →
      (∀ b' : ErrBit, errPos b' < errPos b → s.regs.intr.getLsbD (errPos b') = false) →
      exec .errcls s = .next (({ s with regs.intr := s.regs.intr &&& ~~~((1 : Word) <<< errPos b) } : State).answered
        ⟨rsp0 (errCode b) (errPath b s.regs.sts0) (errCause b s.regs.sts1), 0, []⟩)

/-- R133, R351 to R356: what each error bit is reported as: the code and the path in RSP0 (PATH 17:16, CAUSE 15:8, CODE
7:0), the cause from STS1 for the two check errors, `0xE` for the execution timeout, 0 for the others. -/
def Obligations.ErrorClassification : Prop :=
  (∀ (c : Code) (p : Path) (x : Byte), (rsp0 c p x).toNat =
    (pathCode p).toNat * 2 ^ 16 + x.toNat * 2 ^ 8 + (codeByte c).toNat) ∧
  (∀ x ∈ ([(.ipCmdGe, 1, 0x10), (.ahbCmdGe, 2, 0x10), (.ipCmdErr, 3, 0x11), (.ahbCmdErr, 4, 0x11),
      (.dataLearnFail, 7, 0x14), (.ahbBusTimeout, 10, 0x13), (.seqTimeout, 11, 0x12)] : List (ErrBit × Nat × Byte)),
    errPos x.1 = x.2.1 ∧ codeByte (errCode x.1) = x.2.2) ∧
  ∀ sts0 sts1 : Word,
    (∀ b ∈ [ErrBit.ipCmdGe, .ipCmdErr], pathCode (errPath b sts0) = 2) ∧
    (∀ b ∈ [ErrBit.ahbCmdGe, .ahbCmdErr, .ahbBusTimeout],
      pathCode (errPath b sts0) = if sts0.extractLsb' 2 2 = 1 then 1 else 0) ∧
    (∀ b ∈ [ErrBit.dataLearnFail, .seqTimeout],
      pathCode (errPath b sts0) = if sts0.extractLsb' 2 2 = 3 then 0 else sts0.extractLsb' 2 2) ∧
    (errCause .ipCmdErr sts1).toNat = (sts1.extractLsb' 24 4).toNat ∧
    (errCause .ahbCmdErr sts1).toNat = (sts1.extractLsb' 8 4).toNat ∧ errCause .seqTimeout sts1 = 0x0E ∧
    ∀ b ∈ [ErrBit.ipCmdGe, .ahbCmdGe, .dataLearnFail, .ahbBusTimeout], errCause b sts1 = 0

/-- R358: the interrupt output is 1 iff a read of INTR shows, enabled by INTEN, one of bits 0 to 7, 10, 11. -/
def Obligations.InterruptOutput : Prop :=
  ∀ s : State, s.fault = none →
    (irq s = true ↔ ∃ i ∈ [0, 1, 2, 3, 4, 5, 6, 7, 10, 11],
      (regRead .intr s).1.getLsbD i = true ∧ s.regs.inten.getLsbD i = true)

/-! ## The Mode/Execution Gate -/

/-- R331, R324: under `XipBlocking` every "no" cell of the matrix ends with `IllegalInMode` and changes nothing but
`ENG.result`. -/
def Obligations.XipRefusesBeforeAnyWrite : Prop :=
  ∀ s : State, s.params.modeTag = .xipBlocking →
    (∀ i : Instr, s.Ready →
      ((∃ kind addr size data, i = .ipx kind addr size data) ∨ (∃ addr, i = .erase addr) ∨
        (∃ len data, i = .wrcfg1 len data ∨ i = .wrcfg2 len data ∨ i = .wrcfg3 len data) ∨
        i ∈ [.wren, .wrdi, .rdsr, .rdid, .rsten, .rst, .rdcfg1, .rdcfg2, .rdcfg3, .pwrup, .pwrdn, .lock, .unlock]) →
      exec i s = .next { s with eng.result := some ⟨0x00030002, 0, []⟩ }) ∧
    ∀ (addr len : Word) (data : List Byte), s.Safe →
      exec (.winwr addr len data) s = .next { s with eng.result := some ⟨0x00030002, 0, []⟩ }

/-- R320, R325, R328, R361, R365: a request that a check refuses changes nothing but the result, whichever check it is. When the
checks after the mode check refuse: `BadOperand` (R134, R170, R196, R247, R248, R250, R262), then `Unsupported` for a kind the
table does not define as the operation needs it (R183, R323), then `BadAccess` (R92, R247, R248, R250); page-program on the
command path is refused with `IllegalInMode` under both tags. That ERASE is refused for want of a read-status with direction
read is no rule of the spec but the model's deduction (log entry 23). -/
def Obligations.RefusalsArePrecise : Prop :=
  (∀ (s : State) (i : Instr) (c : Code), gate i s = some c →
    (operationPort i = true → s.Ready → exec i s = .next { s with eng.result := some (resultOf c 0 []) }) ∧
    ((windowAccess i).isSome = true → s.Safe → exec i s = .next { s with eng.result := some (resultOf c 0 []) })) ∧
  (∀ (s : State) (addr : Option Word) (size : Word) (data : List Byte), s.Ready →
    s.refuses (.ipx 3 addr size data) 0x00030002) ∧
  (∀ s : State, s.Ready →
    (∀ r : List Word, r.length ≠ 42 ∨
        (∃ i < 8, 15 < recordWord r (4 * i) ∨ 255 < recordWord r (4 * i + 1) ∨ 7 < recordWord r (4 * i + 2) ∨
          1 < recordWord r (4 * i + 3)) ∨
        255 < recordWord r 32 ∨ 65535 < recordWord r 33 ∨ 255 < recordWord r 34 ∨
        (∃ i, 35 ≤ i ∧ i ≤ 41 ∧ 1 < recordWord r i) → s.refuses (.ahbcfg r) 0x00030004) ∧
    (∀ r : List Word, r.length ≠ 4 ∨ 3 < recordWord r 0 ∨ 1 < recordWord r 3 →
      s.refuses (.dllcalc r) 0x00030004 ∧ s.refuses (.devcfg r) 0x00030004) ∧
    (∀ r : List Word, bindingWithin s.params.binding = false → s.refuses (.devcfg r) 0x00030004) ∧
    (∀ (addr : Word) (data : List Byte), data.length ≠ 1 → s.refuses (.xwrite addr data) 0x00030004) ∧
    (∀ (addr : Word) (b : Byte), commandOf s.params .pageProgram = none → s.refuses (.xwrite addr [b]) 0x00030003) ∧
    (∀ (addr : Word) (b : Byte) (c : LogicalCommand), commandOf s.params .pageProgram = some c →
      windowAdmits addr 1 s = false → s.refuses (.xwrite addr [b]) 0x00030005) ∧
    (∀ k : Kind, commandOf s.params k = none → s.refuses (.lutb (BitVec.ofNat 5 (kindCode k).val)) 0x00030003)) ∧
  (∀ s : State, s.Ready → s.params.modeTag = .ramBlocking →
    (∀ (k : Kind) (addr : Option Word) (size : Word) (data : List Byte), k ≠ .pageProgram →
      (65535 < size.toNat → s.refuses (.ipx (BitVec.ofNat 5 (kindCode k).val) addr size data) 0x00030004) ∧
      (∀ c, commandOf s.params k = some c →
        (c.dir = .read ∧ data ≠ [] ∨ c.dir = .write ∧ (data.length ≠ size.toNat ∨ 4 < size.toNat)) →
        s.refuses (.ipx (BitVec.ofNat 5 (kindCode k).val) addr size data) 0x00030004) ∧
      (commandOf s.params k = none → size.toNat ≤ 65535 →
        s.refuses (.ipx (BitVec.ofNat 5 (kindCode k).val) addr size data) 0x00030003)) ∧
    (∀ (len : Word) (data : List Byte), len.toNat ≠ data.length ∨ data.length = 0 ∨ 4 < data.length →
      s.refuses (.wrcfg1 len data) 0x00030004 ∧ s.refuses (.wrcfg2 len data) 0x00030004 ∧
      s.refuses (.wrcfg3 len data) 0x00030004) ∧
    (∀ (len : Word) (data : List Byte), len.toNat = data.length → 1 ≤ data.length → data.length ≤ 4 →
      (lacksKind s.params .writeCfg1 .write → s.refuses (.wrcfg1 len data) 0x00030003) ∧
      (lacksKind s.params .writeCfg2 .write → s.refuses (.wrcfg2 len data) 0x00030003) ∧
      (lacksKind s.params .writeCfg3 .write → s.refuses (.wrcfg3 len data) 0x00030003)) ∧
    (∀ x ∈ ([(.wren, .writeEnable), (.rsten, .resetEnable), (.rst, .resetDevice), (.pwrup, .powerUp),
        (.pwrdn, .powerDown)] : List (Instr × Kind)), commandOf s.params x.2 = none → s.refuses x.1 0x00030003) ∧
    (∀ x ∈ readOperations, lacksKind s.params x.2.1 .read → s.refuses x.1 0x00030003) ∧
    (∀ addr : Word, commandOf s.params .eraseSector = none ∨ lacksKind s.params .readStatus .read →
      s.refuses (.erase addr) 0x00030003)) ∧
  ∀ s : State, s.Safe →
    (∀ addr : Word, s.refuses (.winrd addr 0) 0x00030004) ∧
    (∀ addr n : Word, n ≠ 0 → windowAdmits addr n.toNat s = false → s.refuses (.winrd addr n) 0x00030005) ∧
    (s.params.modeTag = .ramBlocking → ∀ (addr len : Word) (data : List Byte),
      (len = 0 ∨ len.toNat ≠ data.length → s.refuses (.winwr addr len data) 0x00030004) ∧
      (len ≠ 0 → len.toNat = data.length → windowAdmits addr len.toNat s = false →
        s.refuses (.winwr addr len data) 0x00030005))

/-- R321, R322, R366, R92, R247: on port OP, under `FAULT` a request does nothing; on a busy engine it sets `FAULT` and
neither operation gets a result. So does a request on port OP, decodable or not, whose turn comes between two micro-steps of the
operation in progress, and the run ends with it; a window request whose turn comes there is served as at any other time, or has
the result of its refusal. One submitted to wait (the turn `access`) joins the waiting accesses, or is refused; a request for
anything else is no such turn. What runs on under `FAULT` is log entry 8, the turns are log entries 2 and 13, the port of a
request that does not decode 22, the result of a window access 12. -/
def Obligations.AcceptanceAndOverlap : Prop :=
  (∀ (s : State) (i : Instr), operationPort i = true →
    (s.fault ≠ none → exec i s = .next s) ∧
    (s.fault = none → s.eng.phase ≠ .idle → exec i s = .next { s with fault := some .overlap })) ∧
  (∀ (s : State) (ev : Event) (rest : List Event), s.sched = ev :: rest → s.fault = none → s.eng.phase ≠ .idle →
    run s = drive (budget s - 1) (tick s)) ∧
  (∀ (s : State) (r : Request) (rest : List Event), s.sched = .request r :: rest →
    (onWindowPort r = false →
      (s.fault ≠ none → tick s = { s with sched := rest }) ∧
      (s.fault = none → s.eng.phase ≠ .idle →
        tick s = { s with sched := rest, fault := some .overlap } ∧
        run s = { s with sched := rest, fault := some .overlap })) ∧
    (onWindowPort r = true →
      (∀ i, decodeRequest r = .ok i → exec i { s with sched := rest } = .next (tick s)) ∧
      ∀ e, decodeRequest r = .error e →
        tick s = { s with sched := rest, eng.result := some (resultOf (rejectCode e s.params) 0 []) })) ∧
  ∀ (s : State) (r : Request) (rest : List Event), s.sched = .access r :: rest →
    (∀ i a, decodeRequest r = .ok i → windowAccess i = some a → s.Safe →
      (gate i s = none → tick s = { s with sched := rest, win.waiting := s.win.waiting ++ [a] }) ∧
      ∀ c, gate i s = some c → tick s = { s with sched := rest, eng.result := some (resultOf c 0 []) }) ∧
    ((∀ i, decodeRequest r = .ok i → windowAccess i = none) → tick s = { s with sched := rest })

/-- R366, R58, R392: no step but RESET clears `FAULT`; while it is set the engine ends no operation: all of it stays but
`ENG.result`, which only a window access can set (that the engine takes no further micro-step is the model's choice, log entry
8). RESET clears it. -/
def Obligations.FaultIsSticky : Prop :=
  ∀ s t : State, step s = .next t →
    (s.fault ≠ none → s.sched.head? ≠ some .reset → t.fault = s.fault ∧
      (∃ r, t.eng = { s.eng with result := r }) ∧
      ((∀ r, s.sched.head? = some (.request r) → onWindowPort r = false) →
        (∀ r, s.sched.head? ≠ some (.access r)) →
        (∀ i, s.sched.head? ≠ some (.ahbServe i) ∧ s.sched.head? ≠ some (.ahbByte i)) → t.eng = s.eng)) ∧
    (s.fault ≠ none → s.sched.head? = some .reset → t.fault = none)

/-! ## BACKEND and RESET -/

/-- R63 to R69, R92, R93, R100: BACKEND's moves, each under its guard; a turn whose guard fails changes nothing. be_ahb, which
has no guard, serves a waiting access whole, while the module is enabled (R92): a read has the flash model's bytes where they
may be read (R98), a write lands each byte at its address and no other byte of flash changes, or is kept pending (R100); and
it moves nothing else but what it may. The model's own: what a command did to the flash devices comes with the turn (log
entries 15, 27); what becomes of a byte that lies in no device by then (14); a window access has its result in `ENG.result` (12);
a write lands while an IP command is in flight too (33); no byte of a read comes stale from a read buffer (35); the stored MDIS
decides under `FAULT` too (8); the form of the free value BUFFERABLEEN is there and after a raw write of AHBCR with MDIS = 0
(R58, R408, 31). -/
def Obligations.BackendMoves : Prop :=
  ∀ s : State,
    (∀ (e : Entry) (c : Inflight), s.inflight = some c → c.dir = some .read → c.delivered < c.datsz.toNat →
      s.rxq.length < 16 → s.regs.mcr0.getLsbD 1 = false →
      envStep (.rxPush e) s = { s with
        rxq := s.rxq ++ [e], inflight := some { c with delivered := min (c.delivered + 8) c.datsz.toNat } }) ∧
    (∀ e : Entry, s.inflight = none ∨ 16 ≤ s.rxq.length ∨ s.regs.mcr0.getLsbD 1 = true ∨
        (∃ c, s.inflight = some c ∧ (c.dir ≠ some .read ∨ c.datsz.toNat ≤ c.delivered)) →
      envStep (.rxPush e) s = s) ∧
    (s.regs.mcr0.getLsbD 1 = false → envStep .txPop s = { s with txq := s.txq.tail }) ∧
    (s.regs.mcr0.getLsbD 1 = true → envStep .txPop s = s) ∧
    (∀ (device : List Host.Cell) (c : Inflight), s.inflight = some c → s.regs.mcr0.getLsbD 1 = false →
      (c.dir = some .read → c.datsz.toNat ≤ c.delivered) → ∃ (fl : List Host.Cell) (d : Nat),
      envStep (.complete device) s = { s with
        regs.intr := s.regs.intr ||| 1, regs.sts0 := s.regs.sts0 ||| 3, inflight := none, win.flash := fl, draws := d } ∧
      (s.fault = none → d = s.draws) ∧ (device = [] ∨ s.params.flashModel = false → fl = s.win.flash) ∧
      (Memory.wf s.win.flash = true → ∀ a, (∀ x ∈ device, x.1 ≠ a) → Memory.read fl a = Memory.read s.win.flash a)) ∧
    (∀ device : List Host.Cell, s.inflight = none ∨ s.regs.mcr0.getLsbD 1 = true ∨
        (∃ c, s.inflight = some c ∧ c.dir = some .read ∧ c.delivered < c.datsz.toNat) →
      envStep (.complete device) s = s) ∧
    (∀ (b : ErrBit) (code : BitVec 4) (id : BitVec 5) (onAhb : Bool), ∃ st : Word,
      envStep (.error b code id onAhb) s = { s with regs.intr := s.regs.intr ||| ((1 : Word) <<< errPos b), regs.sts1 := st } ∧
      (b = .ipCmdErr → st.extractLsb' 24 4 = code ∧ st.extractLsb' 16 5 = id ∧
        st &&& 0xF0E0FFFF = s.regs.sts1 &&& 0xF0E0FFFF) ∧
      (b = .ahbCmdErr → st.extractLsb' 8 4 = code ∧ st.extractLsb' 0 5 = id ∧
        st &&& 0xFFFFF0E0 = s.regs.sts1 &&& 0xFFFFF0E0) ∧
      (b = .seqTimeout → onAhb = true → st = (s.regs.sts1 &&& 0xFFFFF0FF) ||| 0x00000E00) ∧
      (b = .seqTimeout → onAhb = false → st = (s.regs.sts1 &&& 0xF0FFFFFF) ||| 0x0E000000) ∧
      (b ∉ [ErrBit.ipCmdErr, .ahbCmdErr, .seqTimeout] → st = s.regs.sts1)) ∧
    (∀ (seq arb : Bool) (src : BitVec 2), s.inflight = none → ∃ st : Word,
      envStep (.arb seq arb src) s = { s with regs.sts0 := st } ∧ st.getLsbD 0 = seq ∧ st.getLsbD 1 = arb ∧
        st.extractLsb' 2 2 = src ∧ st.extractLsb' 4 28 = 0) ∧
    (∀ (seq arb : Bool) (src : BitVec 2), s.inflight ≠ none → envStep (.arb seq arb src) s = s) ∧
    (∀ (p : Fin 2) (slave reference : Bool), s.regs.mcr0.getLsbD 1 = false → ∃ st : Word,
      envStep (.lock p slave reference) s = { s with regs.sts2 := st } ∧ st.getLsbD (16 * p.val) = slave ∧
        st.getLsbD (16 * p.val + 1) = reference ∧
        st &&& ~~~((3 : Word) <<< (16 * p.val)) = s.regs.sts2 &&& ~~~((3 : Word) <<< (16 * p.val))) ∧
    (∀ (p : Fin 2) (slave reference : Bool), s.regs.mcr0.getLsbD 1 = true →
      envStep (.lock p slave reference) s = s) ∧
    ∀ i : Nat,
      (∀ (addr : Word) (n : Nat) (got : List Byte), s.regs.mcr0.getLsbD 1 = false →
        s.win.waiting[i]? = some (.read addr n got) →
        ∃ (bytes : List Byte) (sp : Word) (seq : Vector (Fin 8) 4) (d : Nat), bytes.length = n - got.length ∧
          envStep (.ahbServe i) s = { s with
            win.waiting := s.win.waiting.eraseIdx i, eng.result := some (resultOf .ok 0 (got ++ bytes))
            regs.ahbspndsts := sp, seqptr := seq, draws := d } ∧
          (s.params.flashModel = true → s.Safe → s.inflight = none → s.win.buffered = [] →
            ∀ j < n - got.length, ∀ a, windowKey s (addr.toNat + (got.length + j)) = some a →
              bytes[j]? = some (Memory.read s.win.flash a))) ∧
      (∀ (addr : Word) (data : List Byte) (landed : Nat), s.regs.mcr0.getLsbD 1 = false →
        s.win.waiting[i]? = some (.write addr data landed) →
        (bufferable s = true → landed = 0 → envStep (.ahbServe i) s = { s with
          win.waiting := s.win.waiting.eraseIdx i, win.buffered := s.win.buffered ++ [⟨addr, data, 0⟩]
          eng.result := some (resultOf .ok 0 []) }) ∧
        (bufferable s = false ∨ landed ≠ 0 →
          ∃ (fl : List Host.Cell) (sp : Word) (seq : Vector (Fin 8) 4) (d : Nat),
          envStep (.ahbServe i) s = { s with
            win.waiting := s.win.waiting.eraseIdx i, win.flash := fl, eng.result := some (resultOf .ok 0 [])
            regs.ahbspndsts := sp, seqptr := seq, draws := d } ∧
          (s.params.flashModel = false → fl = s.win.flash) ∧
          (Memory.wf s.win.flash = true →
            (∀ a, (∀ j, landed ≤ j → j < data.length → windowKey s (addr.toNat + j) ≠ some a) →
              Memory.read fl a = Memory.read s.win.flash a) ∧
            (s.params.flashModel = true → ∀ (j a : Nat) (b : Byte), landed ≤ j → data[j]? = some b →
              windowKey s (addr.toNat + j) = some a → Memory.read fl a = b)))) ∧
      (s.regs.mcr0.getLsbD 1 = true ∨ s.win.waiting.length ≤ i → ∀ ev ∈ [Event.ahbServe i, .ahbByte i],
        ∃ (sp : Word) (seq : Vector (Fin 8) 4) (d : Nat),
          envStep ev s = { s with regs.ahbspndsts := sp, seqptr := seq, draws := d }) ∧
      (s.win.buffered.length ≤ i → ∀ ev ∈ [Event.ahbLand i, .ahbLandByte i],
        ∃ (sp : Word) (seq : Vector (Fin 8) 4) (d : Nat),
          envStep ev s = { s with regs.ahbspndsts := sp, seqptr := seq, draws := d })

/-- R70: whatever move BACKEND makes, no register of access kind RW, RW+ or WO, no LUT or TFDR word and no lock state
changes, no stored INTR bit is cleared, nothing leaves RXQ, nothing enters TXQ, `FAULT` and the engine stay (but for
`ENG.result`, which a window access has when be_ahb serves it), and no command starts. -/
def Obligations.BackendNeverWrites : Prop :=
  ∀ (s : State) (ev : Event), (∀ r, ev ≠ .request r) → (∀ n, ev ≠ .dmaPop n) → (∀ es, ev ≠ .dmaPush es) → ev ≠ .reset →
    (∀ r : Reg, r ≠ .intr → readOnlyRegister r = false →
      regStored r (envStep ev s) = regStored r s ∧ regShows r (envStep ev s) = regShows r s) ∧
    s.regs.intr &&& (envStep ev s).regs.intr = s.regs.intr ∧
    (∃ es, (envStep ev s).rxq = s.rxq ++ es) ∧ (∃ es, s.txq = es ++ (envStep ev s).txq) ∧
    (envStep ev s).rdcntr = s.rdcntr ∧ (envStep ev s).wrcntr = s.wrcntr ∧
    (envStep ev s).fault = s.fault ∧ (∃ r, (envStep ev s).eng = { s.eng with result := r }) ∧
    ((∀ i, ev ≠ .ahbServe i ∧ ev ≠ .ahbByte i) → (envStep ev s).eng = s.eng) ∧
    ((envStep ev s).inflight = none ∨
      ∃ c n, s.inflight = some c ∧ (envStep ev s).inflight = some { c with delivered := n })

/-- R71, R72, R391: the machine right after reset, in every register and every piece of hidden state the rules give a value
(the LUT words and `LUT_UNLOCKED`, which they leave unspecified, are not stated). -/
def Obligations.ResetValues : Prop :=
  regShows .mcr0 State.reset = some 0x00000002 ∧ regShows .intr State.reset = some 0x00000040 ∧
  regShows .sts0 State.reset = some 0x00000003 ∧
  (∀ r : Reg, r ∉ [Reg.mcr0, .intr, .sts0, .lutcr] → (∀ i, r ≠ .lut i) → (∀ i, r ≠ .rfdr i) →
    regShows r State.reset = some 0) ∧
  (∀ k : Fin 4, State.reset.seqptr[k] = 0) ∧ State.reset.rxq = [] ∧ State.reset.txq = [] ∧
  State.reset.inflight = none ∧ State.reset.eng.phase = .idle ∧ State.reset.eng.session = none ∧
  State.reset.eng.op = none ∧ State.reset.eng.result = none ∧ State.reset.fault = none ∧ irq State.reset = false

/-- R390, R391, R392: RESET, from any state, gives every register and piece of hidden state its reset value, but for the LUT
words and `LUT_UNLOCKED`, which are free; every operation in progress is abandoned without a result, the waiting window
accesses too; parameters and the flash device stay. The model's choices (log entry 6): which buffered writes outlast it is free;
a command in flight that it forgets changes no byte of the flash model; what the model's own fields become. -/
def Obligations.ResetEvent : Prop :=
  ∀ s : State, ∃ (lut : Vector Word 120) (u : Bool) (kept : List BufferedWrite) (d : Nat),
    kept.Sublist s.win.buffered ∧
    envStep .reset s = { State.reset with
      params := s.params, regs.lut := lut, lutUnlocked := u
      win := { waiting := [], buffered := kept, flash := s.win.flash }
      player := s.player, draws := d, sched := s.sched }

/-! ## LUT instructions -/

/-- R53, R63, R64, R112 (the model's reading, log entries 9 and 10; the stored MDIS under `FAULT`, 8): every LUT instruction
BACKEND plays moves the position of its bank freely and nothing else, but that in the data phase of an IP command a read
instruction also delivers one free entry where be_rx_push may, and a write instruction takes the head of TXQ where be_tx_pop
may. R113, R142, R66 (log entry 11): an opcode outside R112 moves the position, and by a free choice also raises CommandCheck
for the path played: bit 3 of INTR with the slot in STS1 20:16 and a free code in 27:24, or bit 4 with the slot in 4:0 and the
code in 11:8; nothing else changes. -/
def Obligations.LutInstructionsPlay : Prop :=
  ∀ (s : State) (p : BitVec 2) (x : Byte),
    (∀ i ∈ [Instr.stop p x, .cmdSdr p x, .cmdDdr p x, .raddrSdr p x, .raddrDdr p x, .dummySdr p x, .dummyDdr p x],
      ∃ q : Fin 8, exec i s = .next { s with seqptr := s.seqptr.set s.player.bank q, draws := s.draws + 1 }) ∧
    (∀ i ∈ [Instr.readSdr p x, .readDdr p x],
      (playsCommand s.player.source = false ∨ rxPushEnabled s = false → ∃ q : Fin 8,
        exec i s = .next { s with seqptr := s.seqptr.set s.player.bank q, draws := s.draws + 1 }) ∧
      (∀ c, playsCommand s.player.source = true → s.inflight = some c → rxPushEnabled s = true → ∃ (q : Fin 8) (e : Entry),
        exec i s = .next { s with
          seqptr := s.seqptr.set s.player.bank q, draws := s.draws + 9, rxq := s.rxq ++ [e]
          inflight := some { c with delivered := min (c.delivered + 8) c.datsz.toNat } })) ∧
    (∀ i ∈ [Instr.writeSdr p x, .writeDdr p x],
      (playsCommand s.player.source = false ∨ moduleDisabled s = true → ∃ q : Fin 8,
        exec i s = .next { s with seqptr := s.seqptr.set s.player.bank q, draws := s.draws + 1 }) ∧
      (playsCommand s.player.source = true → moduleDisabled s = false → ∃ q : Fin 8,
        exec i s = .next { s with seqptr := s.seqptr.set s.player.bank q, draws := s.draws + 1, txq := s.txq.tail })) ∧
    ∀ slot : BitVec 5, ∃ q : Fin 8,
      (Config.freeBool (s.draws + 1) = false →
        playUnknown slot s = { s with seqptr := s.seqptr.set s.player.bank q, draws := s.draws + 2 }) ∧
      (Config.freeBool (s.draws + 1) = true → ∃ st : Word,
        playUnknown slot s = { s with
          seqptr := s.seqptr.set s.player.bank q, draws := s.draws + 2, regs.sts1 := st
          regs.intr := s.regs.intr ||| if playsCommand s.player.source then 0x00000008 else 0x00000010 } ∧
        (playsCommand s.player.source = true → st.extractLsb' 16 5 = slot ∧
          st &&& 0xF0E0FFFF = s.regs.sts1 &&& 0xF0E0FFFF) ∧
        (playsCommand s.player.source = false → st.extractLsb' 0 5 = slot ∧
          st &&& 0xFFFFF0E0 = s.regs.sts1 &&& 0xFFFFF0E0))

/-! ## The machine -/

/-- R9, R130, R320: when the next turn is a request that decodes to `i`, the step is `exec i` with the turn taken; when it
is BACKEND playing a LUT half that decodes to `i`, the step is `exec i` with the half fetched; a request that does not
decode is answered or overlaps; a half that is not there is not played, and one with an opcode outside R112 is met as R113
says. Before any other turn an operation in progress runs on, through as many turns as it takes; where there is none, or
under `FAULT`, the agent takes its one turn. That the head of `sched` is the next turn, and that one step runs an operation
to its end or to its wait, are the model's choices (log entries 2 and 3); what goes on under `FAULT` is log entry 8. -/
def Obligations.StepRunsTheDecodedInstruction : Prop :=
  (∀ (s : State) (r : Request) (rest : List Event), s.sched = .request r :: rest →
    (∀ i, decodeRequest r = .ok i → step s = exec i { s with sched := rest }) ∧
    ∀ e, decodeRequest r = .error e → step s = .next (rejectRequest r e { s with sched := rest })) ∧
  (∀ (s : State) (k : Fin 4) (src : SeqSource) (rest : List Event), s.sched = .play k src :: rest →
    (fetchHalf k src { s with sched := rest } = none → step s = .next { s with sched := rest }) ∧
    ∀ (h : Half) (slot : BitVec 5) (s1 : State), fetchHalf k src { s with sched := rest } = some (h, slot, s1) →
      (∀ i, decodeLut16 h = some i → step s = exec i { s1 with player := ⟨k, src⟩ }) ∧
      (decodeLut16 h = none → step s = .next (playUnknown slot { s1 with player := ⟨k, src⟩ }))) ∧
  ∀ s : State, (∀ r rest, s.sched ≠ .request r :: rest) → (∀ k src rest, s.sched ≠ .play k src :: rest) →
    (s.fault = none → s.eng.phase ≠ .idle → step s = .next (run s)) ∧
    (s.fault ≠ none ∨ s.eng.phase = .idle → step s = .next (tick s))

/-- R144: the instruction whose table bits are `w`, placed where the machine takes its next instruction, is what the next turn
brings and the next step runs: a LUT half as BACKEND's next, in the state with that half placed and its turn taken; a host
operation as the next request, in the state as it was (the model's choice, log entry 1). -/
def Obligations.PlacedWordRuns : Prop :=
  ∀ (s : State) (nbits w : Nat) (i : Instr), decodeTableWord nbits w = some i →
    (nbits = 16 →
      let t : State := { placeHalf w s with sched := s.sched, player := ⟨0, .ahbRead 0⟩ }
      t.regs.lut[0].extractLsb' 0 16 = BitVec.ofNat 16 w ∧
      nextTurn (s.withFetchWord nbits w) = .instruction i t ∧ step (s.withFetchWord nbits w) = exec i t) ∧
    (nbits ≠ 16 → nextTurn (s.withFetchWord nbits w) = .instruction i s ∧ step (s.withFetchWord nbits w) = exec i s)

/-- R27, R33, R39, R40, R42 to R44, R68, R211, R226: every step keeps the machine consistent, from every consistent state,
whatever the agents do (of the stored words under `FAULT`, log entry 8). -/
def Obligations.StepKeepsConsistency : Prop :=
  ∀ s t : State, s.Consistent → step s = .next t → t.Consistent

/-- R55 to R57, R171: every step keeps the engine's control state of one piece: `Idle` with no operation and no session, or
the phase of its next micro-step with an operation in progress. -/
def Obligations.StepKeepsControlCoherent : Prop :=
  ∀ s t : State, s.Coherent → step s = .next t → t.Coherent

/-- R71, R72: the machine after reset is consistent, and its control state coherent. -/
def Obligations.ResetIsConsistentAndCoherent : Prop :=
  State.reset.Consistent ∧ State.reset.Coherent

/-- R12, R325, R392: no step changes a parameter. -/
def Obligations.ParametersNeverChange : Prop :=
  ∀ s t : State, step s = .next t → t.params = s.params

end
end

