-- ==== Sys2Proof/Laws/Encoding.lean ====
section
/-!
SUPPORT. The fields of the encoded forms: each field of a half (R111) and of a request header (R130) reads back as it was
put in.
-/

namespace Sys2Proof

theorem lutHalf_opcode (op : BitVec 6) (p : BitVec 2) (x : Byte) : (lutHalf op p x).extractLsb' 10 6 = op := by
  ext i hi
  simp only [lutHalf, BitVec.getElem_extractLsb', BitVec.getLsbD_append]
  have h1 : ¬ (10 + i < 8) := by omega
  have h2 : ¬ (10 + i - 8 < 2) := by omega
  simp [h1, h2, show 10 + i - 8 - 2 = i by omega, BitVec.getLsbD_eq_getElem hi]

theorem lutHalf_pads (op : BitVec 6) (p : BitVec 2) (x : Byte) : (lutHalf op p x).extractLsb' 8 2 = p := by
  ext i hi
  simp only [lutHalf, BitVec.getElem_extractLsb', BitVec.getLsbD_append]
  simp [hi]

theorem lutHalf_operand (op : BitVec 6) (p : BitVec 2) (x : Byte) : (lutHalf op p x).extractLsb' 0 8 = x := by
  ext i hi
  simp only [lutHalf, BitVec.getElem_extractLsb', BitVec.getLsbD_append]
  simp [hi]

theorem header_op (op : BitVec 6) (kind : BitVec 5) (ap : Bool) : (header op kind ap).extractLsb' 0 6 = op := by
  ext i hi
  simp only [header, BitVec.getElem_extractLsb', BitVec.getLsbD_append]
  simp [hi]

theorem header_kind (op : BitVec 6) (kind : BitVec 5) (ap : Bool) : (header op kind ap).extractLsb' 8 5 = kind := by
  ext i hi
  simp only [header, BitVec.getElem_extractLsb', BitVec.getLsbD_append]
  simp [hi, show ¬ (8 + i < 6) by omega, show ¬ (8 + i - 6 < 2) by omega, show 8 + i - 6 - 2 = i by omega]

theorem header_ap (op : BitVec 6) (kind : BitVec 5) (ap : Bool) : (header op kind ap).getLsbD 16 = ap := by
  simp only [header, BitVec.getLsbD_append]
  simp

theorem header_reserved (op : BitVec 6) (kind : BitVec 5) (ap : Bool) :
    (header op kind ap).extractLsb' 6 2 = 0 ∧ (header op kind ap).extractLsb' 13 3 = 0 ∧
    (header op kind ap).extractLsb' 17 15 = 0 := by
  refine ⟨?_, ?_, ?_⟩ <;> ext i hi <;> simp only [header, BitVec.getElem_extractLsb', BitVec.getLsbD_append]
  · simp [hi]
  · simp [show ¬ (13 + i < 6) by omega, show ¬ (13 + i - 6 < 2) by omega, show ¬ (13 + i - 6 - 2 < 5) by omega,
      show 13 + i - 6 - 2 - 5 < 3 by omega]
  · simp [show ¬ (17 + i < 6) by omega, show ¬ (17 + i - 6 < 2) by omega, show ¬ (17 + i - 6 - 2 < 5) by omega,
      show ¬ (17 + i - 6 - 2 - 5 < 3) by omega, show ¬ (17 + i - 6 - 2 - 5 - 3 < 1) by omega]

end Sys2Proof
end

