-- ==== Sys2Proof/Laws/Memory.lean ====
section
/-!
SUPPORT. The flash model's byte store: a read after a write, and the canonical form kept by every write.
-/

namespace Sys2Proof.Machine

/-- No entry of a canonical list whose first address is above `a` lies at `a`. -/
theorem Memory.read_of_lt (m : List Host.Cell) (a : Nat) (h : ∀ c ∈ m, a < c.1) : Memory.read m a = Memory.unlisted := by
  induction m with
  | nil => rfl
  | cons c rest ih =>
    have hc : c.1 ≠ a := by have := h c (by simp); omega
    simp only [Memory.read, hc, if_false]
    exact ih fun d hd => h d (by simp [hd])

/-- The tail of a canonical list is canonical, and its addresses lie above the head's. -/
theorem Memory.wf_cons {c : Host.Cell} {m : List Host.Cell} (h : Memory.wf (c :: m) = true) :
    c.2 ≠ Memory.unlisted ∧ Memory.wf m = true ∧ ∀ d ∈ m, c.1 < d.1 := by
  induction m generalizing c with
  | nil => simpa [Memory.wf] using h
  | cons d rest ih =>
    simp only [Memory.wf, Bool.and_eq_true, bne_iff_ne, ne_eq, decide_eq_true_eq] at h
    obtain ⟨⟨hc, hlt⟩, hw⟩ := h
    refine ⟨hc, hw, ?_⟩
    intro e he
    rcases List.mem_cons.mp he with rfl | he
    · exact hlt
    · have := (ih hw).2.2 e he
      omega

/-- A list is canonical when its head is above nothing of a canonical tail. -/
theorem Memory.wf_of_cons {c : Host.Cell} {m : List Host.Cell} (hc : c.2 ≠ Memory.unlisted) (hm : Memory.wf m = true)
    (hlt : ∀ d ∈ m, c.1 < d.1) : Memory.wf (c :: m) = true := by
  cases m with
  | nil => simpa [Memory.wf] using hc
  | cons d rest => simp [Memory.wf, hc, hm, hlt d (by simp)]

/-- The addresses of a list after a write are the old ones and perhaps the written one. -/
theorem Memory.mem_write {m : List Host.Cell} {a : Nat} {b : Byte} {d : Host.Cell} (h : d ∈ Memory.write m a b) :
    d ∈ m ∨ d = (a, b) := by
  induction m with
  | nil =>
    by_cases hb : b = Memory.unlisted
    · simp [Memory.write, hb] at h
    · simpa [Memory.write, hb] using h
  | cons c rest ih =>
    simp only [Memory.write] at h
    split at h
    · split at h
      · exact .inl h
      · rcases List.mem_cons.mp h with rfl | h
        · exact .inr rfl
        · exact .inl h
    · split at h
      · split at h
        · exact .inl (by simp [h])
        · rcases List.mem_cons.mp h with rfl | h
          · exact .inr rfl
          · exact .inl (by simp [h])
      · rcases List.mem_cons.mp h with rfl | h
        · exact .inl (by simp)
        · rcases ih h with h | h
          · exact .inl (by simp [h])
          · exact .inr h

/-- A write keeps the canonical form. -/
theorem Memory.wf_write {m : List Host.Cell} (a : Nat) (b : Byte) (h : Memory.wf m = true) :
    Memory.wf (Memory.write m a b) = true := by
  induction m with
  | nil => by_cases hb : b = Memory.unlisted <;> simp [Memory.write, Memory.wf, hb]
  | cons c rest ih =>
    obtain ⟨hc, hr, hlt⟩ := Memory.wf_cons h
    simp only [Memory.write]
    split
    · rename_i hac
      split
      · exact h
      · rename_i hb
        refine Memory.wf_of_cons hb h ?_
        intro d hd
        rcases List.mem_cons.mp hd with rfl | hd
        · exact hac
        · have := hlt d hd
          show a < d.1
          omega
    · split
      · split
        · exact hr
        · rename_i hac hb
          refine Memory.wf_of_cons hb hr ?_
          intro d hd
          have := hlt d hd
          show a < d.1
          omega
      · refine Memory.wf_of_cons hc (ih hr) ?_
        intro d hd
        rcases Memory.mem_write hd with hd | rfl
        · exact hlt d hd
        · show c.1 < a
          omega

/-- What a read gives after a write: the byte written there, the old byte anywhere else. -/
theorem Memory.read_write {m : List Host.Cell} (a : Nat) (b : Byte) (x : Nat) (h : Memory.wf m = true) :
    Memory.read (Memory.write m a b) x = if x = a then b else Memory.read m x := by
  induction m with
  | nil =>
    by_cases hb : b = Memory.unlisted
    · simp [Memory.write, Memory.read, hb]
    · simp [Memory.write, Memory.read, hb, eq_comm]
  | cons c rest ih =>
    obtain ⟨_, hr, hlt⟩ := Memory.wf_cons h
    simp only [Memory.write]
    split
    · rename_i hac
      split
      · rename_i hb
        subst hb
        split
        · rename_i hx
          subst hx
          exact Memory.read_of_lt _ _ fun d hd => by
            rcases List.mem_cons.mp hd with rfl | hd
            · exact hac
            · have := hlt d hd
              omega
        · rfl
      · simp only [Memory.read, eq_comm (a := a)]
    · split
      · rename_i _ hac
        subst hac
        split
        · rename_i hb
          subst hb
          split
          · rename_i hx
            subst hx
            exact Memory.read_of_lt _ _ hlt
          · rename_i hx
            simp [Memory.read, Ne.symm hx]
        · simp only [Memory.read, eq_comm (a := c.1)]
          split <;> rfl
      · simp only [Memory.read, ih hr]
        split
        · rename_i hx
          subst hx
          split
          · rename_i hx
            omega
          · rfl
        · rfl

/-- Writing several bytes keeps the canonical form. -/
theorem Memory.wf_writeCells {m : List Host.Cell} (cells : List Host.Cell) (h : Memory.wf m = true) :
    Memory.wf (Memory.writeCells m cells) = true := by
  unfold Memory.writeCells
  induction cells generalizing m with
  | nil => exact h
  | cons c rest ih => exact ih (Memory.wf_write c.1 c.2 h)

/-- Writing several bytes leaves an address that is not among them alone. -/
theorem Memory.read_writeCells_other {m : List Host.Cell} (cells : List Host.Cell) (x : Nat) (h : Memory.wf m = true)
    (hx : ∀ c ∈ cells, c.1 ≠ x) : Memory.read (Memory.writeCells m cells) x = Memory.read m x := by
  unfold Memory.writeCells
  induction cells generalizing m with
  | nil => rfl
  | cons c rest ih =>
    have hc : x ≠ c.1 := Ne.symm (hx c (by simp))
    have := ih (Memory.wf_write c.1 c.2 h) fun d hd => hx d (by simp [hd])
    rw [List.foldl_cons, this, Memory.read_write _ _ _ h, if_neg hc]

/-- The flash model is in canonical form after reset. -/
theorem reset_flash_wf : Memory.wf State.reset.win.flash = true := rfl

end Sys2Proof.Machine
end

