-- ==== Sys2Proof/Laws/State.lean ====
section
/-!
SUPPORT. What each named update of the state leaves in each field, so that no proof unfolds an update.
-/

namespace Sys2Proof.Machine

variable (s : State)


/-! ## finish -/

@[simp] theorem finish_params (r : Result) : (finish r s).params = s.params := rfl
@[simp] theorem finish_regs (r : Result) : (finish r s).regs = s.regs := rfl
@[simp] theorem finish_lutUnlocked (r : Result) : (finish r s).lutUnlocked = s.lutUnlocked := rfl
@[simp] theorem finish_seqptr (r : Result) : (finish r s).seqptr = s.seqptr := rfl
@[simp] theorem finish_rxq (r : Result) : (finish r s).rxq = s.rxq := rfl
@[simp] theorem finish_txq (r : Result) : (finish r s).txq = s.txq := rfl
@[simp] theorem finish_rdcntr (r : Result) : (finish r s).rdcntr = s.rdcntr := rfl
@[simp] theorem finish_wrcntr (r : Result) : (finish r s).wrcntr = s.wrcntr := rfl
@[simp] theorem finish_inflight (r : Result) : (finish r s).inflight = s.inflight := rfl
@[simp] theorem finish_eng (r : Result) : (finish r s).eng = Engine.idle (some r) := rfl
@[simp] theorem finish_fault (r : Result) : (finish r s).fault = s.fault := rfl
@[simp] theorem finish_win (r : Result) : (finish r s).win = s.win := rfl
@[simp] theorem finish_player (r : Result) : (finish r s).player = s.player := rfl
@[simp] theorem finish_unsettledMcr2 (r : Result) : (finish r s).unsettledMcr2 = s.unsettledMcr2 := rfl
@[simp] theorem finish_unsettledAhbcr (r : Result) : (finish r s).unsettledAhbcr = s.unsettledAhbcr := rfl
@[simp] theorem finish_draws (r : Result) : (finish r s).draws = s.draws := rfl
@[simp] theorem finish_sched (r : Result) : (finish r s).sched = s.sched := rfl

/-! ## raise -/

@[simp] theorem raise_params (c : Code) (v : Word) : (raise c v s).params = s.params := rfl
@[simp] theorem raise_regs (c : Code) (v : Word) : (raise c v s).regs = s.regs := rfl
@[simp] theorem raise_lutUnlocked (c : Code) (v : Word) : (raise c v s).lutUnlocked = s.lutUnlocked := rfl
@[simp] theorem raise_seqptr (c : Code) (v : Word) : (raise c v s).seqptr = s.seqptr := rfl
@[simp] theorem raise_rxq (c : Code) (v : Word) : (raise c v s).rxq = s.rxq := rfl
@[simp] theorem raise_txq (c : Code) (v : Word) : (raise c v s).txq = s.txq := rfl
@[simp] theorem raise_rdcntr (c : Code) (v : Word) : (raise c v s).rdcntr = s.rdcntr := rfl
@[simp] theorem raise_wrcntr (c : Code) (v : Word) : (raise c v s).wrcntr = s.wrcntr := rfl
@[simp] theorem raise_inflight (c : Code) (v : Word) : (raise c v s).inflight = s.inflight := rfl
@[simp] theorem raise_eng (c : Code) (v : Word) : (raise c v s).eng = Engine.idle (some (resultOf c v [])) := rfl
@[simp] theorem raise_fault (c : Code) (v : Word) : (raise c v s).fault = s.fault := rfl
@[simp] theorem raise_win (c : Code) (v : Word) : (raise c v s).win = s.win := rfl
@[simp] theorem raise_player (c : Code) (v : Word) : (raise c v s).player = s.player := rfl
@[simp] theorem raise_unsettledMcr2 (c : Code) (v : Word) : (raise c v s).unsettledMcr2 = s.unsettledMcr2 := rfl
@[simp] theorem raise_unsettledAhbcr (c : Code) (v : Word) : (raise c v s).unsettledAhbcr = s.unsettledAhbcr := rfl
@[simp] theorem raise_draws (c : Code) (v : Word) : (raise c v s).draws = s.draws := rfl
@[simp] theorem raise_sched (c : Code) (v : Word) : (raise c v s).sched = s.sched := rfl

/-! ## answer -/

@[simp] theorem answer_params (r : Result) : (answer r s).params = s.params := rfl
@[simp] theorem answer_regs (r : Result) : (answer r s).regs = s.regs := rfl
@[simp] theorem answer_lutUnlocked (r : Result) : (answer r s).lutUnlocked = s.lutUnlocked := rfl
@[simp] theorem answer_seqptr (r : Result) : (answer r s).seqptr = s.seqptr := rfl
@[simp] theorem answer_rxq (r : Result) : (answer r s).rxq = s.rxq := rfl
@[simp] theorem answer_txq (r : Result) : (answer r s).txq = s.txq := rfl
@[simp] theorem answer_rdcntr (r : Result) : (answer r s).rdcntr = s.rdcntr := rfl
@[simp] theorem answer_wrcntr (r : Result) : (answer r s).wrcntr = s.wrcntr := rfl
@[simp] theorem answer_inflight (r : Result) : (answer r s).inflight = s.inflight := rfl
@[simp] theorem answer_eng (r : Result) : (answer r s).eng = { s.eng with result := some r } := rfl
@[simp] theorem answer_fault (r : Result) : (answer r s).fault = s.fault := rfl
@[simp] theorem answer_win (r : Result) : (answer r s).win = s.win := rfl
@[simp] theorem answer_player (r : Result) : (answer r s).player = s.player := rfl
@[simp] theorem answer_unsettledMcr2 (r : Result) : (answer r s).unsettledMcr2 = s.unsettledMcr2 := rfl
@[simp] theorem answer_unsettledAhbcr (r : Result) : (answer r s).unsettledAhbcr = s.unsettledAhbcr := rfl
@[simp] theorem answer_draws (r : Result) : (answer r s).draws = s.draws := rfl
@[simp] theorem answer_sched (r : Result) : (answer r s).sched = s.sched := rfl

/-! ## refuse -/

@[simp] theorem refuse_params (c : Code) : (refuse c s).params = s.params := rfl
@[simp] theorem refuse_regs (c : Code) : (refuse c s).regs = s.regs := rfl
@[simp] theorem refuse_lutUnlocked (c : Code) : (refuse c s).lutUnlocked = s.lutUnlocked := rfl
@[simp] theorem refuse_seqptr (c : Code) : (refuse c s).seqptr = s.seqptr := rfl
@[simp] theorem refuse_rxq (c : Code) : (refuse c s).rxq = s.rxq := rfl
@[simp] theorem refuse_txq (c : Code) : (refuse c s).txq = s.txq := rfl
@[simp] theorem refuse_rdcntr (c : Code) : (refuse c s).rdcntr = s.rdcntr := rfl
@[simp] theorem refuse_wrcntr (c : Code) : (refuse c s).wrcntr = s.wrcntr := rfl
@[simp] theorem refuse_inflight (c : Code) : (refuse c s).inflight = s.inflight := rfl
@[simp] theorem refuse_eng (c : Code) : (refuse c s).eng = { s.eng with result := some (resultOf c 0 []) } := rfl
@[simp] theorem refuse_fault (c : Code) : (refuse c s).fault = s.fault := rfl
@[simp] theorem refuse_win (c : Code) : (refuse c s).win = s.win := rfl
@[simp] theorem refuse_player (c : Code) : (refuse c s).player = s.player := rfl
@[simp] theorem refuse_unsettledMcr2 (c : Code) : (refuse c s).unsettledMcr2 = s.unsettledMcr2 := rfl
@[simp] theorem refuse_unsettledAhbcr (c : Code) : (refuse c s).unsettledAhbcr = s.unsettledAhbcr := rfl
@[simp] theorem refuse_draws (c : Code) : (refuse c s).draws = s.draws := rfl
@[simp] theorem refuse_sched (c : Code) : (refuse c s).sched = s.sched := rfl

/-! ## overlap -/

@[simp] theorem overlap_params : (overlap s).params = s.params := rfl
@[simp] theorem overlap_regs : (overlap s).regs = s.regs := rfl
@[simp] theorem overlap_lutUnlocked : (overlap s).lutUnlocked = s.lutUnlocked := rfl
@[simp] theorem overlap_seqptr : (overlap s).seqptr = s.seqptr := rfl
@[simp] theorem overlap_rxq : (overlap s).rxq = s.rxq := rfl
@[simp] theorem overlap_txq : (overlap s).txq = s.txq := rfl
@[simp] theorem overlap_rdcntr : (overlap s).rdcntr = s.rdcntr := rfl
@[simp] theorem overlap_wrcntr : (overlap s).wrcntr = s.wrcntr := rfl
@[simp] theorem overlap_inflight : (overlap s).inflight = s.inflight := rfl
@[simp] theorem overlap_eng : (overlap s).eng = s.eng := rfl
@[simp] theorem overlap_fault : (overlap s).fault = some .overlap := rfl
@[simp] theorem overlap_win : (overlap s).win = s.win := rfl
@[simp] theorem overlap_player : (overlap s).player = s.player := rfl
@[simp] theorem overlap_unsettledMcr2 : (overlap s).unsettledMcr2 = s.unsettledMcr2 := rfl
@[simp] theorem overlap_unsettledAhbcr : (overlap s).unsettledAhbcr = s.unsettledAhbcr := rfl
@[simp] theorem overlap_draws : (overlap s).draws = s.draws := rfl
@[simp] theorem overlap_sched : (overlap s).sched = s.sched := rfl

/-! ## onSession -/

@[simp] theorem onSession_params (f : Session → Session) : (onSession f s).params = s.params := rfl
@[simp] theorem onSession_regs (f : Session → Session) : (onSession f s).regs = s.regs := rfl
@[simp] theorem onSession_lutUnlocked (f : Session → Session) : (onSession f s).lutUnlocked = s.lutUnlocked := rfl
@[simp] theorem onSession_seqptr (f : Session → Session) : (onSession f s).seqptr = s.seqptr := rfl
@[simp] theorem onSession_rxq (f : Session → Session) : (onSession f s).rxq = s.rxq := rfl
@[simp] theorem onSession_txq (f : Session → Session) : (onSession f s).txq = s.txq := rfl
@[simp] theorem onSession_rdcntr (f : Session → Session) : (onSession f s).rdcntr = s.rdcntr := rfl
@[simp] theorem onSession_wrcntr (f : Session → Session) : (onSession f s).wrcntr = s.wrcntr := rfl
@[simp] theorem onSession_inflight (f : Session → Session) : (onSession f s).inflight = s.inflight := rfl
@[simp] theorem onSession_eng (f : Session → Session) : (onSession f s).eng = { s.eng with session := s.eng.session.map f } := rfl
@[simp] theorem onSession_fault (f : Session → Session) : (onSession f s).fault = s.fault := rfl
@[simp] theorem onSession_win (f : Session → Session) : (onSession f s).win = s.win := rfl
@[simp] theorem onSession_player (f : Session → Session) : (onSession f s).player = s.player := rfl
@[simp] theorem onSession_unsettledMcr2 (f : Session → Session) : (onSession f s).unsettledMcr2 = s.unsettledMcr2 := rfl
@[simp] theorem onSession_unsettledAhbcr (f : Session → Session) : (onSession f s).unsettledAhbcr = s.unsettledAhbcr := rfl
@[simp] theorem onSession_draws (f : Session → Session) : (onSession f s).draws = s.draws := rfl
@[simp] theorem onSession_sched (f : Session → Session) : (onSession f s).sched = s.sched := rfl

/-! ## begin -/

@[simp] theorem begin_params (i : Instr) (x : Option Session) (prog : List Micro) (e : Ending) : (begin i x prog e s).params = s.params := rfl
@[simp] theorem begin_regs (i : Instr) (x : Option Session) (prog : List Micro) (e : Ending) : (begin i x prog e s).regs = s.regs := rfl
@[simp] theorem begin_lutUnlocked (i : Instr) (x : Option Session) (prog : List Micro) (e : Ending) : (begin i x prog e s).lutUnlocked = s.lutUnlocked := rfl
@[simp] theorem begin_seqptr (i : Instr) (x : Option Session) (prog : List Micro) (e : Ending) : (begin i x prog e s).seqptr = s.seqptr := rfl
@[simp] theorem begin_rxq (i : Instr) (x : Option Session) (prog : List Micro) (e : Ending) : (begin i x prog e s).rxq = s.rxq := rfl
@[simp] theorem begin_txq (i : Instr) (x : Option Session) (prog : List Micro) (e : Ending) : (begin i x prog e s).txq = s.txq := rfl
@[simp] theorem begin_rdcntr (i : Instr) (x : Option Session) (prog : List Micro) (e : Ending) : (begin i x prog e s).rdcntr = s.rdcntr := rfl
@[simp] theorem begin_wrcntr (i : Instr) (x : Option Session) (prog : List Micro) (e : Ending) : (begin i x prog e s).wrcntr = s.wrcntr := rfl
@[simp] theorem begin_inflight (i : Instr) (x : Option Session) (prog : List Micro) (e : Ending) : (begin i x prog e s).inflight = s.inflight := rfl
@[simp] theorem begin_eng (i : Instr) (x : Option Session) (prog : List Micro) (e : Ending) : (begin i x prog e s).eng = { s.eng with op := some i, session := x, ending := e, vals := [], count := 0 }.withProgram prog := rfl
@[simp] theorem begin_fault (i : Instr) (x : Option Session) (prog : List Micro) (e : Ending) : (begin i x prog e s).fault = s.fault := rfl
@[simp] theorem begin_win (i : Instr) (x : Option Session) (prog : List Micro) (e : Ending) : (begin i x prog e s).win = s.win := rfl
@[simp] theorem begin_player (i : Instr) (x : Option Session) (prog : List Micro) (e : Ending) : (begin i x prog e s).player = s.player := rfl
@[simp] theorem begin_unsettledMcr2 (i : Instr) (x : Option Session) (prog : List Micro) (e : Ending) : (begin i x prog e s).unsettledMcr2 = s.unsettledMcr2 := rfl
@[simp] theorem begin_unsettledAhbcr (i : Instr) (x : Option Session) (prog : List Micro) (e : Ending) : (begin i x prog e s).unsettledAhbcr = s.unsettledAhbcr := rfl
@[simp] theorem begin_draws (i : Instr) (x : Option Session) (prog : List Micro) (e : Ending) : (begin i x prog e s).draws = s.draws := rfl
@[simp] theorem begin_sched (i : Instr) (x : Option Session) (prog : List Micro) (e : Ending) : (begin i x prog e s).sched = s.sched := rfl

/-! ## The engine's program -/

@[simp] theorem withProgram_cont (e : Engine) (prog : List Micro) : (e.withProgram prog).cont = prog := rfl
@[simp] theorem withProgram_session (e : Engine) (prog : List Micro) : (e.withProgram prog).session = e.session := rfl
@[simp] theorem withProgram_op (e : Engine) (prog : List Micro) : (e.withProgram prog).op = e.op := rfl
@[simp] theorem withProgram_result (e : Engine) (prog : List Micro) : (e.withProgram prog).result = e.result := rfl
@[simp] theorem withProgram_ending (e : Engine) (prog : List Micro) : (e.withProgram prog).ending = e.ending := rfl
@[simp] theorem withProgram_vals (e : Engine) (prog : List Micro) : (e.withProgram prog).vals = e.vals := rfl
@[simp] theorem withProgram_count (e : Engine) (prog : List Micro) : (e.withProgram prog).count = e.count := rfl
@[simp] theorem withProgram_polls (e : Engine) (prog : List Micro) : (e.withProgram prog).polls = 0 := rfl
@[simp] theorem withProgram_phase_cons (e : Engine) (m : Micro) (ms : List Micro) :
    (e.withProgram (m :: ms)).phase = m.phase := rfl
@[simp] theorem withProgram_withProgram (e : Engine) (p q : List Micro) :
    (e.withProgram p).withProgram q = e.withProgram q := rfl
@[simp] theorem idle_phase (r : Option Result) : (Engine.idle r).phase = .idle := rfl
@[simp] theorem idle_result (r : Option Result) : (Engine.idle r).result = r := rfl
@[simp] theorem idle_cont (r : Option Result) : (Engine.idle r).cont = [] := rfl
@[simp] theorem idle_op (r : Option Result) : (Engine.idle r).op = none := rfl
@[simp] theorem idle_session (r : Option Result) : (Engine.idle r).session = none := rfl

end Sys2Proof.Machine
end

