-- ==== Sys2Proof/Laws/Registers.lean ====
section
/-!
SUPPORT. What the register primitives can do, once: the fields a write leaves alone, the pop and the push, the trigger, the
fetch of a slot, a read.
-/

namespace Sys2Proof.Machine

/-! ## The fetch of slots -/

/-- The fetch of a slot that exists, on a surface that is specified, gives the four LUT words and changes nothing (R37). -/
theorem fetchSlot_slot {s : State} (n : Fin 30) (hf : s.fault = none) : fetchSlot n.val s = (slotOf s.regs.lut n, s) := by
  simp [fetchSlot, hf]

/-- A fetch changes nothing but the count of draws. -/
theorem fetchSlot_frame (n : Nat) (s : State) : ∃ d, (fetchSlot n s).2 = { s with draws := d } := by
  unfold fetchSlot
  split
  · exact ⟨s.draws, rfl⟩
  · exact ⟨_, rfl⟩

/-- Nor does the fetch of the slots behind one (R36). -/
theorem fetchLater_frame (slot n : Nat) (s : State) : ∃ d, (fetchLater slot n s).2 = { s with draws := d } := by
  induction n generalizing slot s with
  | zero => exact ⟨s.draws, rfl⟩
  | succ n ih =>
    obtain ⟨d, h⟩ := fetchSlot_frame (slot + 1) s
    obtain ⟨d', h'⟩ := ih (slot + 1) (fetchSlot (slot + 1) s).2
    exact ⟨d', by rw [fetchLater, h', h]⟩

/-- As many slots are fetched as are asked for. -/
theorem fetchLater_length (slot n : Nat) (s : State) : (fetchLater slot n s).1.length = n := by
  induction n generalizing slot s with
  | zero => rfl
  | succ n ih => simp [fetchLater, ih]

/-- On a surface that is specified the `j`-th slot behind one is the LUT's, where there is such a slot (R36, R101). -/
theorem fetchLater_slot {s : State} {slot n j : Nat} (hf : s.fault = none) (hj : j < n) (hs : slot + 1 + j < 30) :
    (fetchLater slot n s).1[j]? = some (slotOf s.regs.lut ⟨slot + 1 + j, hs⟩) := by
  induction n generalizing slot j s with
  | zero => omega
  | succ n ih =>
    cases j with
    | zero => simp [fetchLater, fetchSlot_slot ⟨slot + 1, by omega⟩ hf]
    | succ j =>
      rw [fetchLater, fetchSlot_slot ⟨slot + 1, by omega⟩ hf]
      simp only [List.getElem?_cons_succ]
      rw [ih hf (by omega) (by omega)]
      congr 3
      omega

/-! ## What a register write leaves alone -/

/-- A register write touches neither the parameters, the engine, the window port, the player nor the schedule. -/
theorem regWrite_frame (r : Reg) (v : Word) (s : State) :
    (regWrite r v s).params = s.params ∧ (regWrite r v s).eng = s.eng ∧ (regWrite r v s).win = s.win ∧
    (regWrite r v s).player = s.player ∧ (regWrite r v s).sched = s.sched := by
  by_cases hr : r = .ipcmd
  · subst hr
    simp only [regWrite, trigger, overlap]
    obtain ⟨d, h⟩ := fetchSlot_frame (slice s.regs.ipcr1 16 5) s
    rw [h]
    obtain ⟨d', h'⟩ := fetchLater_frame (slice s.regs.ipcr1 16 5) (slice s.regs.ipcr1 24 3) { s with draws := d }
    rw [h']
    repeat' split
    all_goals trivial
  · cases r <;> simp only [regWrite, intrWrite, rxPop, txPush, lutcrWrite] <;>
      first
      | exact absurd rfl hr
      | ((repeat' split) <;> trivial)

@[simp] theorem regWrite_params (r : Reg) (v : Word) (s : State) : (regWrite r v s).params = s.params :=
  (regWrite_frame r v s).1

@[simp] theorem regWrite_eng (r : Reg) (v : Word) (s : State) : (regWrite r v s).eng = s.eng :=
  (regWrite_frame r v s).2.1

@[simp] theorem regWrite_win (r : Reg) (v : Word) (s : State) : (regWrite r v s).win = s.win :=
  (regWrite_frame r v s).2.2.1

@[simp] theorem regWrite_player (r : Reg) (v : Word) (s : State) : (regWrite r v s).player = s.player :=
  (regWrite_frame r v s).2.2.2.1

@[simp] theorem regWrite_sched (r : Reg) (v : Word) (s : State) : (regWrite r v s).sched = s.sched :=
  (regWrite_frame r v s).2.2.2.2

/-- Only a write of IPCMD, the trigger, can set `FAULT`, start a command or take a draw (R37, R70). -/
theorem regWrite_quiet {r : Reg} (h : r ≠ .ipcmd) (v : Word) (s : State) :
    (regWrite r v s).fault = s.fault ∧ (regWrite r v s).inflight = s.inflight ∧ (regWrite r v s).draws = s.draws := by
  cases r <;> simp only [regWrite, intrWrite, rxPop, txPush, lutcrWrite] <;>
    first
    | exact absurd rfl h
    | ((repeat' split) <;> trivial)

/-- Only a write of MCR2 or AHBCR settles or opens BACKEND's use of that register, by the MDIS it comes with (R408). -/
theorem regWrite_unsettled (r : Reg) (v : Word) (s : State) :
    (regWrite r v s).unsettledMcr2 = (if r = .mcr2 then !moduleDisabled s else s.unsettledMcr2) ∧
    (regWrite r v s).unsettledAhbcr = (if r = .ahbcr then !moduleDisabled s else s.unsettledAhbcr) := by
  by_cases hr : r = .ipcmd
  · subst hr
    simp only [regWrite, trigger, overlap]
    obtain ⟨d, h⟩ := fetchSlot_frame (slice s.regs.ipcr1 16 5) s
    rw [h]
    obtain ⟨d', h'⟩ := fetchLater_frame (slice s.regs.ipcr1 16 5) (slice s.regs.ipcr1 24 3) { s with draws := d }
    rw [h']
    repeat' split
    all_goals trivial
  · cases r <;> simp only [regWrite, intrWrite, rxPop, txPush, lutcrWrite] <;>
      first
      | exact absurd rfl hr
      | ((repeat' split) <;> trivial)

/-- A field update is a write of the same register (R298), so it touches what the write touches. -/
@[simp] theorem regField_params (r : Reg) (m b : Word) (s : State) : (regField r m b s).params = s.params :=
  regWrite_params _ _ _

@[simp] theorem regField_eng (r : Reg) (m b : Word) (s : State) : (regField r m b s).eng = s.eng :=
  regWrite_eng _ _ _

@[simp] theorem regField_sched (r : Reg) (m b : Word) (s : State) : (regField r m b s).sched = s.sched :=
  regWrite_sched _ _ _

/-- A field update of any register but IPCMD leaves `FAULT` and the command in flight alone. -/
theorem regField_quiet {r : Reg} (h : r ≠ .ipcmd) (m b : Word) (s : State) :
    (regField r m b s).fault = s.fault ∧ (regField r m b s).inflight = s.inflight :=
  ⟨(regWrite_quiet h _ s).1, (regWrite_quiet h _ s).2.1⟩

/-! ## The two FIFO actions -/

/-- The pop leaves every field but RXQ and its counter alone (R214). -/
theorem rxPop_spec (s : State) :
    rxPop s = { s with
      rxq := s.rxq.drop (min (watermarkEntries s.regs.iprxfcr) s.rxq.length)
      rdcntr := s.rdcntr + BitVec.ofNat 16 (min (watermarkEntries s.regs.iprxfcr) s.rxq.length) } := rfl

/-- The push does nothing without room, else appends exactly a watermark's worth of staged entries (R216). -/
theorem txPush_spec (s : State) :
    (16 - s.txq.length < watermarkEntries s.regs.iptxfcr ∧ txPush s = s) ∨
    (watermarkEntries s.regs.iptxfcr ≤ 16 - s.txq.length ∧
      txPush s = { s with
        txq := s.txq ++ stagedEntries s.regs.tfdr (watermarkEntries s.regs.iptxfcr)
        wrcntr := s.wrcntr + BitVec.ofNat 16 (watermarkEntries s.regs.iptxfcr) }) := by
  unfold txPush
  by_cases h : 16 - s.txq.length < watermarkEntries s.regs.iptxfcr
  · exact .inl ⟨h, if_pos h⟩
  · exact .inr ⟨by omega, if_neg h⟩

@[simp] theorem stagedEntries_length (t : Vector Word 32) (n : Nat) : (stagedEntries t n).length = n := by
  simp [stagedEntries]

/-! ## The trigger -/

/-- What the trigger can do: overlap a command in flight, or put one in flight with the fetched words (R36, R37). -/
theorem trigger_cases (s : State) :
    (s.inflight ≠ none ∧ trigger s = overlap s) ∨
    (s.inflight = none ∧ ∃ w s1 l s2, fetchSlot (slice s.regs.ipcr1 16 5) s = (w, s1) ∧
      fetchLater (slice s.regs.ipcr1 16 5) (slice s.regs.ipcr1 24 3) s1 = (l, s2) ∧
      trigger s = { s2 with
        inflight := some {
          slot := s.regs.ipcr1.extractLsb' 16 5, seqnum := s.regs.ipcr1.extractLsb' 24 3, addr := s.regs.ipcr0,
          datsz := s.regs.ipcr1.extractLsb' 0 16, words := w, later := l, dir := dirOf w, delivered := 0 }
        regs.sts0 := arbiterStatus false false 2 }) := by
  unfold trigger
  cases h : s.inflight with
  | some c => exact .inl ⟨by simp, rfl⟩
  | none => exact .inr ⟨rfl, _, _, _, _, rfl, rfl, rfl⟩

/-! ## Reading -/

/-- A read changes nothing but the count of draws (R296). -/
theorem regRead_frame (r : Reg) (s : State) : ∃ d, (regRead r s).2 = { s with draws := d } := by
  unfold regRead
  split
  · exact ⟨_, rfl⟩
  · exact ⟨s.draws, rfl⟩

/-- A read of a register that shows a value, on a surface that is specified, gives it and changes nothing (R296). -/
theorem regRead_shows {r : Reg} {s : State} {v : Word} (hf : s.fault = none) (h : regShows r s = some v) :
    regRead r s = (v, s) := by
  simp [regRead, regPeek, readDraws, hf, h]

end Sys2Proof.Machine
end

