-- ==== Sys2Proof/Laws/Backend.lean ====
section
/-!
SUPPORT. What BACKEND's operations can do, once: the sizes it looks at, what be_ahb moves besides its access (R69), where an
address leads (R95), what a window write lands (R93, R100), the completion of a command (R65).
-/

namespace Sys2Proof.Machine

/-! ## Sizes and the moves of be_ahb -/

/-- Looking at the sizes changes nothing but the count of draws. -/
theorem sizesDrawn_frame (s : State) : ∃ d, sizesDrawn s = { s with draws := d } := by
  unfold sizesDrawn
  split
  · exact ⟨_, rfl⟩
  · exact ⟨s.draws, rfl⟩

/-- On a surface that is specified the sizes are no draws. -/
theorem sizesDrawn_safe {s : State} (hf : s.fault = none) : sizesDrawn s = s := by
  simp [sizesDrawn, hf]

/-- be_ahb moves nothing but AHBSPNDSTS, the positions and the count of draws, besides its access (R69). -/
theorem ahbMoves_frame (s : State) :
    ∃ sp seq d, ahbMoves s = { s with regs.ahbspndsts := sp, seqptr := seq, draws := d } :=
  ⟨_, _, _, rfl⟩

/-- The same after the sizes have been looked at. -/
theorem ahbMoves_sizesDrawn (s : State) :
    ∃ sp seq d, ahbMoves (sizesDrawn s) = { s with regs.ahbspndsts := sp, seqptr := seq, draws := d } := by
  obtain ⟨d, h⟩ := sizesDrawn_frame s
  rw [h]
  exact ⟨_, _, _, rfl⟩

/-! ## The two bits whose use a raw write leaves open -/

/-- Settled and without `FAULT`, BUFFERABLEEN is the stored bit (R25). -/
theorem bufferable_settled {s : State} (hf : s.fault = none) (hu : s.unsettledAhbcr = false) :
    bufferable s = s.regs.ahbcr.getLsbD 4 := by
  simp [bufferable, hf, hu]

/-- Under `FAULT`, or after a raw write of AHBCR with MDIS = 0, it is a free value (R58, R408). -/
theorem bufferable_open {s : State} (h : s.fault ≠ none ∨ s.unsettledAhbcr = true) :
    bufferable s = Config.freeBuffering s.draws s.win.buffered.length := by
  rcases h with h | h <;> simp [bufferable, h, Option.isSome_iff_ne_none]

/-- Settled and without `FAULT`, SAMEDEVICEEN is the stored bit (R24). -/
theorem sameDevice_settled {s : State} (hf : s.fault = none) (hu : s.unsettledMcr2 = false) :
    sameDevice s = s.regs.mcr2.getLsbD 15 := by
  simp [sameDevice, hf, hu]

/-- Under `FAULT`, or after a raw write of MCR2 with MDIS = 0, it is a free value (R58, R408). -/
theorem sameDevice_open {s : State} (h : s.fault ≠ none ∨ s.unsettledMcr2 = true) :
    sameDevice s = Config.freeSameDevice s.draws := by
  rcases h with h | h <;> simp [sameDevice, h, Option.isSome_iff_ne_none]

/-! ## Where an address leads -/

/-- The bank of a flash model's key is the bank it was made of. -/
theorem keyBank_flashKey (k : Fin 4) {a : Nat} (h : a < 2 ^ 40) : keyBank (flashKey k a) = k.val := by
  unfold keyBank flashKey
  omega

/-- A byte of the stack of devices stands behind the banks before its own, and inside its own (R95). -/
theorem locate_some {size : Fin 4 → Nat} {off : Nat} {k : Fin 4} {a : Nat} (h : locate size off = some (k, a)) :
    a < size k ∧ off = ((List.ofFn size).take k.val).sum + a := by
  unfold locate at h
  repeat' split at h
  all_goals
    simp only [Option.some.injEq, Prod.mk.injEq, reduceCtorEq] at h
  all_goals
    obtain ⟨rfl, rfl⟩ := h
    simp only [List.ofFn_succ, List.ofFn_zero]
    simp
    omega

/-- No device is so large that two banks share a key. -/
theorem bankSize_lt (s : State) (k : Fin 4) : bankSize s k < 2 ^ 40 := by
  have h : ∀ w : Word, slice w 0 23 < 2 ^ 23 := fun w => (w.extractLsb' 0 23).isLt
  unfold bankSize
  split
  · have := h (Config.freeWord (s.draws + k.val))
    omega
  · have := h (s.regs.flshcr0[if sameDevice s then 0 else k])
    omega

/-- Two window addresses with the same key are the same (R95). -/
theorem windowKey_injective {s : State} {a b key : Nat} (ha : windowKey s a = some key) (hb : windowKey s b = some key) :
    a = b := by
  unfold windowKey at ha hb
  split at ha <;> split at hb <;> try contradiction
  rw [Option.map_eq_some_iff] at ha hb
  obtain ⟨⟨k, x⟩, hk, hx⟩ := ha
  obtain ⟨⟨l, y⟩, hl, hy⟩ := hb
  obtain ⟨hk1, hk2⟩ := locate_some hk
  obtain ⟨hl1, hl2⟩ := locate_some hl
  have h1 := bankSize_lt s k
  have h2 := bankSize_lt s l
  have hkl : k = l := by
    have e1 := keyBank_flashKey k (a := x) (by omega)
    have e2 := keyBank_flashKey l (a := y) (by omega)
    rw [show flashKey k x = key from hx] at e1
    rw [show flashKey l y = key from hy] at e2
    omega
  subst hkl
  have hxy : flashKey k x = flashKey k y := hx.trans hy.symm
  unfold flashKey at hxy
  omega

/-! ## The landing of a window write -/

/-- The keys of the cells a write stores are those of its bytes not yet landed (R93). -/
theorem mem_windowCells {addr : Word} {data : List Byte} {landed : Nat} {s : State} {c : Host.Cell} :
    c ∈ windowCells addr data landed s ↔
      ∃ j, landed ≤ j ∧ data[j]? = some c.2 ∧ windowKey s (addr.toNat + j) = some c.1 := by
  obtain ⟨key, b⟩ := c
  have hz : ∀ (x : Byte) (j : Nat), (x, j) ∈ data.zipIdx.drop landed ↔ landed ≤ j ∧ data[j]? = some x := by
    intro x j
    rw [List.mem_iff_getElem?]
    simp only [List.getElem?_drop, List.getElem?_zipIdx, Option.map_eq_some_iff, Prod.mk.injEq]
    constructor
    · rintro ⟨i, y, hy, rfl, rfl⟩
      exact ⟨by omega, by simpa using hy⟩
    · rintro ⟨hj, hx⟩
      exact ⟨j - landed, x, by rwa [Nat.add_sub_cancel' hj], rfl, by omega⟩
  simp only [windowCells, List.mem_filterMap, Option.map_eq_some_iff, Prod.mk.injEq]
  constructor
  · rintro ⟨⟨x, j⟩, hm, key', hk, rfl, rfl⟩
    obtain ⟨h1, h2⟩ := (hz x j).mp hm
    exact ⟨j, h1, h2, hk⟩
  · rintro ⟨j, h1, h2, hk⟩
    exact ⟨(b, j), (hz b j).mpr ⟨h1, h2⟩, key, hk, rfl, rfl⟩

/-- Cells among which an address has one byte leave that byte there. -/
theorem Memory.read_writeCells_mem {m : List Host.Cell} {cells : List Host.Cell} {c : Host.Cell} (hw : Memory.wf m = true)
    (hc : c ∈ cells) (hu : ∀ d ∈ cells, d.1 = c.1 → d.2 = c.2) : Memory.read (Memory.writeCells m cells) c.1 = c.2 := by
  unfold Memory.writeCells
  induction cells generalizing m with
  | nil => simp at hc
  | cons d rest ih =>
    rw [List.foldl_cons]
    by_cases hr : c ∈ rest
    · exact ih (Memory.wf_write d.1 d.2 hw) hr fun x hx => hu x (by simp [hx])
    · have hd : c = d := by simpa [hr] using hc
      subst hd
      by_cases hx : ∃ x ∈ rest, x.1 = c.1
      · obtain ⟨x, hx, he⟩ := hx
        have h2 := hu x (by simp [hx]) he
        exact absurd (show c ∈ rest from (Prod.ext he h2 : x = c) ▸ hx) hr
      · have := Memory.read_writeCells_other (m := Memory.write m c.1 c.2) rest c.1 (Memory.wf_write c.1 c.2 hw)
          fun x hxr he => hx ⟨x, hxr, he⟩
        unfold Memory.writeCells at this
        rw [this, Memory.read_write _ _ _ hw, if_pos rfl]

/-- What a window write lands: nothing without a flash model; no byte but its own; each of its own (R83, R93). -/
theorem landBytes_spec (addr : Word) (data : List Byte) (landed : Nat) {s : State} (hw : Memory.wf s.win.flash = true) :
    Memory.wf (landBytes addr data landed s) = true ∧
    (s.params.flashModel = false → landBytes addr data landed s = s.win.flash) ∧
    (∀ a, (∀ j, landed ≤ j → j < data.length → windowKey s (addr.toNat + j) ≠ some a) →
      Memory.read (landBytes addr data landed s) a = Memory.read s.win.flash a) ∧
    (s.params.flashModel = true → ∀ (j a : Nat) (b : Byte), landed ≤ j → data[j]? = some b →
      windowKey s (addr.toNat + j) = some a → Memory.read (landBytes addr data landed s) a = b) := by
  unfold landBytes
  refine ⟨?_, ?_, ?_, ?_⟩
  · split
    · exact Memory.wf_writeCells _ hw
    · exact hw
  · intro h
    simp [h]
  · intro a h
    split
    · refine Memory.read_writeCells_other _ _ hw ?_
      intro c hc he
      obtain ⟨j, h1, h2, h3⟩ := mem_windowCells.mp hc
      exact h j h1 (by have := List.getElem?_eq_some_iff.mp h2; exact this.1) (he ▸ h3)
    · rfl
  · intro h j a b h1 h2 h3
    rw [if_pos h]
    refine Memory.read_writeCells_mem (c := (a, b)) hw (mem_windowCells.mpr ⟨j, h1, h2, h3⟩) ?_
    intro d hd he
    obtain ⟨i, h4, h5, h6⟩ := mem_windowCells.mp hd
    have hij := windowKey_injective h3 (he ▸ h6)
    have : i = j := by omega
    subst this
    exact Option.some.inj (h5.symm.trans h2)

/-! ## The service of a window access -/

/-- A read, or what is left of it, is served: its bytes, the flash model's where they may be read (R98), its result, what
be_ahb may move, and nothing else (R92, R247). -/
theorem serveAccess_read (addr : Word) (n : Nat) (got : List Byte) (s : State) :
    ∃ (bytes : List Byte) (sp : Word) (seq : Vector (Fin 8) 4) (d : Nat), bytes.length = n - got.length ∧
      serveAccess (.read addr n got) s = { s with
        eng.result := some (resultOf .ok 0 (got ++ bytes)), regs.ahbspndsts := sp, seqptr := seq, draws := d } ∧
      (flashReadable s = true → ∀ j < n - got.length, ∀ a, windowKey s (addr.toNat + (got.length + j)) = some a →
        bytes[j]? = some (Memory.read s.win.flash a)) := by
  refine ⟨_, _, _, _, by simp, rfl, ?_⟩
  intro hr j hj a ha
  simp only [List.getElem?_map, List.getElem?_range hj, Option.map_some, windowByte, hr, ha, if_true]

/-- be_ahb serves the access it takes, which waits no longer (R69). -/
theorem beAhbServe_some {s : State} {i : Nat} {a : WinAccess} (hm : moduleDisabled s = false)
    (ha : s.win.waiting[i]? = some a) :
    beAhbServe i s = serveAccess a { s with win.waiting := s.win.waiting.eraseIdx i } := by
  simp only [beAhbServe, servable, hm, ha]
  rfl

/-- A write with BUFFERABLEEN is kept pending and has its result (R93, R100). -/
theorem serveAccess_buffered {s : State} (addr : Word) (data : List Byte) (h : bufferable s = true) :
    serveAccess (.write addr data 0) s = { s with
      eng.result := some (resultOf .ok 0 []), win.buffered := s.win.buffered ++ [⟨addr, data, 0⟩] } := by
  simp [serveAccess, memWrite, h, answer]

/-- Another write, or what is left of it, lands and has its result (R93, R248). -/
theorem serveAccess_write {s : State} (addr : Word) (data : List Byte) {landed : Nat}
    (h : bufferable s = false ∨ landed ≠ 0) :
    ∃ (sp : Word) (seq : Vector (Fin 8) 4) (d : Nat), serveAccess (.write addr data landed) s = { s with
      eng.result := some (resultOf .ok 0 []), win.flash := landBytes addr data landed s
      regs.ahbspndsts := sp, seqptr := seq, draws := d } := by
  have hb : (bufferable s && landed == 0) = false := by
    rcases h with h | h <;> simp [h]
  obtain ⟨sp, seq, d, hm⟩ := ahbMoves_sizesDrawn { s with win.flash := landBytes addr data landed s }
  refine ⟨sp, seq, d, ?_⟩
  simp only [serveAccess, memWrite, hb, landWrite, hm]
  rfl

/-! ## The program of a command -/

/-- A command with ISEQNUM 0, as every operation of the engine issues it, has the one slot of its record (R36, R175). -/
theorem commandProgram_one {c : Inflight} (h : c.seqnum = 0) : commandProgram c = [c.words] := by
  simp [commandProgram, h]

/-- The first slot is the record's, played under its own number (R37). -/
theorem fetchHalf_first {s : State} {c : Inflight} {k : Fin 4} (hm : moduleDisabled s = false) (hf : s.fault = none)
    (hi : s.inflight = some c) (hk : playsOn (commandTarget c s) k = true) :
    fetchHalf k (.ip 0) s = some (c.words.half s.seqptr[k], c.slot, s) := by
  simp [fetchHalf, hm, hi, commandProgram, hk, sizesDrawn_safe hf]

/-- The first slot of a bank's window reads, where the surface is specified and there is such a slot (R92, R101). -/
theorem fetchHalf_window {s : State} {k : Fin 4} {n : Fin 30} (hm : moduleDisabled s = false) (hf : s.fault = none)
    (hn : slice (windowSequences k s) 0 5 = n.val) :
    fetchHalf k (.ahbRead 0) s = some ((slotOf s.regs.lut n).half s.seqptr[k], BitVec.ofNat 5 n.val, s) := by
  simp [fetchHalf, hm, hn, fetchSlot_slot n hf]

/-! ## The completion of a command -/

/-- A command changes no byte but those of its turn, and none of a device its address does not lie in (R83, R95). -/
theorem read_commandCells_other {m : List Host.Cell} (t : FlashTarget) (cells : List Host.Cell) (a : Nat)
    (hw : Memory.wf m = true) (h : (∀ c ∈ cells, c.1 ≠ a) ∨ ∃ k x, t = .device k x ∧ keyBank a ≠ k.val) :
    Memory.read (Memory.writeCells m (commandCells t cells)) a = Memory.read m a := by
  refine Memory.read_writeCells_other _ _ hw ?_
  intro c hc he
  rcases h with h | ⟨k, x, rfl, hk⟩
  · have : c ∈ cells := by
      cases t <;> simp_all [commandCells]
    exact h c this he
  · simp only [commandCells, List.mem_filter, beq_iff_eq] at hc
    exact hk (he ▸ hc.2)

/-- be_complete under its guard (R65). -/
theorem beComplete_enabled {s : State} {x : Inflight} (device : List Host.Cell) (hx : s.inflight = some x)
    (hm : moduleDisabled s = false) (hd : x.dir = some .read → x.datsz.toNat ≤ x.delivered) :
    beComplete device s = sizesDrawn { s with
      regs.intr := s.regs.intr ||| 1
      regs.sts0 := s.regs.sts0 ||| idleMask
      inflight := none
      win.flash :=
        if s.params.flashModel then Memory.writeCells s.win.flash (commandCells (commandTarget x s) device)
        else s.win.flash } := by
  have h : completeEnabled s = true := by
    simp only [completeEnabled, hx, hm]
    by_cases h : x.dir = some .read
    · simp [h, hd h]
    · simp [h]
  simp only [beComplete, hx, h, if_true]

/-- be_complete under its guard, for a command that did nothing to a device (R65). -/
theorem beComplete_some {s : State} {x : Inflight} (hf : s.fault = none) (hx : s.inflight = some x)
    (hm : moduleDisabled s = false) (hd : x.dir = some .read → x.datsz.toNat ≤ x.delivered) :
    beComplete [] s = { s with
      regs.intr := s.regs.intr ||| 1, regs.sts0 := s.regs.sts0 ||| idleMask, inflight := none } := by
  have hc : commandCells (commandTarget x s) [] = [] := by
    cases commandTarget x s <;> rfl
  rw [beComplete_enabled [] hx hm hd, hc]
  simp [sizesDrawn, hf, Memory.writeCells]

/-! ## The address phase of an image -/

theorem half_of_append (a b : Half) : (a ++ b).extractLsb' 0 16 = b ∧ (a ++ b).extractLsb' 16 16 = a := by
  constructor <;> ext i hi <;> simp only [BitVec.getElem_extractLsb', BitVec.getLsbD_append]
  · simp [hi]
  · simp [show ¬ (16 + i < 16) by omega, BitVec.getLsbD_eq_getElem hi]

/-- BACKEND surely goes on behind exactly the instructions of R112 but STOP. -/
theorem goesOn_iff (h : Half) : goesOn h = true ↔ ∃ i, decodeLut16 h = some i ∧ ∀ p x, i ≠ .stop p x := by
  have hg : goesOn h = true ↔ (h.extractLsb' 10 6).toNat ∈ [0x01, 0x21, 0x02, 0x22, 0x08, 0x28, 0x09, 0x29, 0x0C, 0x2C] := by
    simp [goesOn, BitVec.toNat_eq]
  rw [hg]
  unfold decodeLut16
  split <;> simp_all

/-- A RADDR that only instructions of R112 other than STOP stand before is reached (R119). -/
theorem addressPhase_reached {prog : List SlotWords} {pre post : List Half} {h : Half}
    (hp : programHalves prog = pre ++ h :: post) (hpre : ∀ x ∈ pre, goesOn x = true) (ha : isAddress h = true) :
    addressPhase prog = true := by
  have hg : goesOn h = true := by
    simp only [isAddress, Bool.or_eq_true, beq_iff_eq] at ha
    rcases ha with ha | ha <;> simp [goesOn, ha]
  simp only [addressPhase, hp, Bool.or_eq_true, List.any_eq_true]
  refine .inl ⟨h, ?_, ha⟩
  rw [List.takeWhile_append_of_pos hpre, List.takeWhile_cons_of_pos hg]
  simp

/-- A RADDR is reached or not, freely, where each stands behind a STOP or an opcode outside R112 (R113, R119). -/
theorem addressPhase_behind {prog : List SlotWords} {pre post : List Half} {x : Half}
    (hp : programHalves prog = pre ++ x :: post) (hx : goesOn x = false) (hpre : ∀ y ∈ pre, isAddress y = false)
    (ha : ∃ y ∈ post, isAddress y = true) : addressPhase prog = Config.playsBeyond (programHalves prog) := by
  have h1 : ((programHalves prog).takeWhile goesOn).any isAddress = false := by
    rw [List.any_eq_false]
    intro y hy
    rw [hp] at hy
    have : y ∈ pre := by
      rw [List.takeWhile_append, List.takeWhile_cons_of_neg (by simp [hx])] at hy
      split at hy
      · simpa using hy
      · exact (List.takeWhile_sublist _).mem hy
    simp [hpre y this]
  have h2 : (programHalves prog).any isAddress = true := by
    obtain ⟨y, hy, hya⟩ := ha
    exact List.any_eq_true.mpr ⟨y, by simp [hp, hy], hya⟩
  simp only [addressPhase, h1, h2, Bool.false_or, Bool.true_and]

/-- A program without a RADDR has no address phase (R174). -/
theorem addressPhase_absent {prog : List SlotWords} (h : ∀ y ∈ programHalves prog, isAddress y = false) :
    addressPhase prog = false := by
  have h2 : (programHalves prog).any isAddress = false := List.any_eq_false.mpr fun y hy => by simp [h y hy]
  have h1 : ((programHalves prog).takeWhile goesOn).any isAddress = false :=
    List.any_eq_false.mpr fun y hy => by simp [h y ((List.takeWhile_sublist _).mem hy)]
  simp only [addressPhase, h1, h2, Bool.or_self, Bool.false_and]

/-- An image has an address phase exactly where its descriptor has an address width (R115, R174): its RADDR stands right
behind the opcode pair. -/
theorem addressPhase_image (c : LogicalCommand) : addressPhase [image c] = c.aw.isSome := by
  have hl : ∀ h : Half, (lowHalf h).extractLsb' 0 16 = h ∧ (lowHalf h).extractLsb' 16 16 = 0 := half_of_append 0
  obtain ⟨oplo, ophi, aw, mode, dummy, dir, width⟩ := c
  simp only [addressPhase, programHalves, List.flatMap_cons, List.flatMap_nil, List.append_nil, List.finRange_succ,
    List.finRange_zero, List.map_cons, List.map_nil, SlotWords.half, SlotWords.word, image]
  cases aw <;> cases dummy <;> cases dir <;> cases mode <;>
    simp [half_of_append, hl, phaseHalf, rateOpcode, lutHalf_opcode, isAddress, goesOn]

end Sys2Proof.Machine
end

