-- ==== Sys2Proof/Laws/Engine.lean ====
section
/-!
SUPPORT. The run of an operation: one lemma for each thing a turn can be, and one for a whole list of register writes, so
that no proof unfolds `drive`, `tick` or `engStep`.
-/

namespace Sys2Proof.Machine

/-! ## A state with another engine and another schedule -/

/-- The state `s` with the engine at `e` and the turns `q` to come. -/
def State.at (s : State) (e : Engine) (q : List Event) : State :=
  { s with eng := e, sched := q }

@[simp] theorem at_eng (s : State) (e : Engine) (q : List Event) : (s.at e q).eng = e := rfl
@[simp] theorem at_sched (s : State) (e : Engine) (q : List Event) : (s.at e q).sched = q := rfl
@[simp] theorem at_fault (s : State) (e : Engine) (q : List Event) : (s.at e q).fault = s.fault := rfl
@[simp] theorem at_regs (s : State) (e : Engine) (q : List Event) : (s.at e q).regs = s.regs := rfl
@[simp] theorem at_params (s : State) (e : Engine) (q : List Event) : (s.at e q).params = s.params := rfl
@[simp] theorem at_inflight (s : State) (e : Engine) (q : List Event) : (s.at e q).inflight = s.inflight := rfl
@[simp] theorem at_rxq (s : State) (e : Engine) (q : List Event) : (s.at e q).rxq = s.rxq := rfl
@[simp] theorem at_txq (s : State) (e : Engine) (q : List Event) : (s.at e q).txq = s.txq := rfl
@[simp] theorem at_at (s : State) (e e' : Engine) (q q' : List Event) : (s.at e q).at e' q' = s.at e' q' := rfl
theorem at_self (s : State) : s = s.at s.eng s.sched := rfl

/-- The fetch of a slot looks at neither the engine nor the schedule. -/
theorem fetchSlot_at (n : Nat) (s : State) (e : Engine) (q : List Event) :
    fetchSlot n (s.at e q) = ((fetchSlot n s).1, (fetchSlot n s).2.at e q) := by
  by_cases h : n < 30 ∧ s.fault.isNone
  · have h' : n < 30 ∧ (s.at e q).fault.isNone := h
    rw [fetchSlot, fetchSlot, dif_pos h, dif_pos h']
    rfl
  · have h' : ¬(n < 30 ∧ (s.at e q).fault.isNone) := h
    rw [fetchSlot, fetchSlot, dif_neg h, dif_neg h']
    rfl

/-- Nor does the fetch of the slots behind one. -/
theorem fetchLater_at (slot n : Nat) (s : State) (e : Engine) (q : List Event) :
    fetchLater slot n (s.at e q) = ((fetchLater slot n s).1, (fetchLater slot n s).2.at e q) := by
  induction n generalizing slot s with
  | zero => rfl
  | succ n ih => simp only [fetchLater, fetchSlot_at, ih]

theorem at_ite (c : Prop) [Decidable c] (s t : State) (e : Engine) (q : List Event) :
    (if c then s else t).at e q = if c then s.at e q else t.at e q := by
  split <;> rfl

theorem rxPop_at (s : State) (e : Engine) (q : List Event) : rxPop (s.at e q) = (rxPop s).at e q := rfl

theorem txPush_at (s : State) (e : Engine) (q : List Event) : txPush (s.at e q) = (txPush s).at e q := by
  by_cases h : 16 - s.txq.length < watermarkEntries s.regs.iptxfcr
  · rw [txPush, txPush, if_pos h]
    exact if_pos h
  · rw [txPush, txPush, if_neg h]
    exact if_neg h

theorem intrWrite_at (v : Word) (s : State) (e : Engine) (q : List Event) :
    intrWrite v (s.at e q) = (intrWrite v s).at e q := by
  unfold intrWrite
  cases v.getLsbD 5 <;> cases v.getLsbD 6
  · rfl
  · exact txPush_at { s with regs.intr := s.regs.intr &&& ~~~v } e q
  · rfl
  · exact txPush_at (rxPop { s with regs.intr := s.regs.intr &&& ~~~v }) e q

theorem lutcrWrite_at (v : Word) (s : State) (e : Engine) (q : List Event) :
    lutcrWrite v (s.at e q) = (lutcrWrite v s).at e q := by
  simp only [lutcrWrite, at_ite]
  rfl

/-- A register write looks at neither the engine nor the schedule. -/
theorem regWrite_at (r : Reg) (v : Word) (s : State) (e : Engine) (q : List Event) :
    regWrite r v (s.at e q) = (regWrite r v s).at e q := by
  by_cases hr : r = .ipcmd
  · subst hr
    simp only [regWrite, trigger, at_inflight, at_regs, fetchSlot_at, fetchLater_at]
    split
    · split <;> rfl
    · rfl
  · cases r <;> first | exact absurd rfl hr | rfl | skip
    · exact intrWrite_at v s e q
    · exact lutcrWrite_at v s e q
    all_goals
      simp only [regWrite, at_ite]
      rfl

/-- Nor does a field update. -/
theorem regField_at (r : Reg) (m b : Word) (s : State) (e : Engine) (q : List Event) :
    regField r m b (s.at e q) = (regField r m b s).at e q := by
  have h : regStored r (s.at e q) = regStored r s := by cases r <;> rfl
  rw [regField, h, regWrite_at, regField]

/-! ## Turns -/

/-- Nothing is settled while an operation runs and an agent has a turn. -/
theorem not_settled_of_sched {s : State} (hf : s.fault = none) (hp : s.eng.phase ≠ .idle) (hq : s.sched ≠ []) :
    settled s = false := by
  have : s.sched.isEmpty = false := by simpa using hq
  simp [settled, waiting, hf, hp, this]

/-- A run that has nothing left to do stays. -/
theorem drive_settled {s : State} (h : settled s = true) (n : Nat) : drive n s = s := by
  cases n with
  | zero => rfl
  | succ n => simp [drive, h]

/-- A run with something left to do takes a turn. -/
theorem drive_tick {s : State} (h : settled s = false) (n : Nat) : drive (n + 1) s = drive n (tick s) := by
  simp [drive, h]

/-- The engine's turn (R9). -/
theorem drive_engine (s : State) (e : Engine) (q : List Event) (n : Nat) (hf : s.fault = none) (hp : e.phase ≠ .idle) :
    drive (n + 1) (s.at e (.engine :: q)) = drive n (engStep (s.at e q)) :=
  drive_tick (not_settled_of_sched (s := s.at e (.engine :: q)) hf hp (by simp)) n

/-- A turn of BACKEND, or of the agents outside the model. -/
theorem drive_event (s : State) (e : Engine) (q : List Event) (ev : Event) (n : Nat) (hf : s.fault = none)
    (hp : e.phase ≠ .idle) (he : ev ≠ .engine) (hr : ∀ r, ev ≠ .request r ∧ ev ≠ .access r) :
    drive (n + 1) (s.at e (ev :: q)) = drive n (envStep ev (s.at e q)) := by
  rw [drive_tick (not_settled_of_sched (s := s.at e (ev :: q)) hf hp (by simp)) n]
  cases ev <;> first | exact absurd rfl he | exact absurd rfl (hr _).1 | exact absurd rfl (hr _).2 | rfl

/-- With no turn scheduled the engine moves, unless it waits (R9). -/
theorem drive_alone (s : State) (e : Engine) (n : Nat) (hf : s.fault = none) (hp : e.phase ≠ .idle)
    (hw : waiting (s.at e []) = false) : drive (n + 1) (s.at e []) = drive n (engStep (s.at e [])) := by
  refine drive_tick ?_ n
  simp [settled, hf, hp, hw]

/-! ## Lists of register writes -/

/-- A micro-step that only writes a register other than IPCMD. -/
def Micro.plain (m : Micro) : Bool :=
  m.phase != .idle &&
  match m.act with
  | .write r _ => r != .ipcmd
  | .field r _ _ => r != .ipcmd
  | _ => false

/-- What such a micro-step writes. -/
def Micro.apply (m : Micro) (s : State) : State :=
  match m.act with
  | .write r v => regWrite r v s
  | .field r mask bits => regField r mask bits s
  | _ => s

/-- What a list of such micro-steps writes. -/
def applyAll (ms : List Micro) (s : State) : State :=
  ms.foldl (fun s m => m.apply s) s

theorem applyAll_append (ms ns : List Micro) (s : State) : applyAll (ms ++ ns) s = applyAll ns (applyAll ms s) :=
  List.foldl_append

theorem apply_at (m : Micro) (s : State) (e : Engine) (q : List Event) : m.apply (s.at e q) = (m.apply s).at e q := by
  cases m with
  | mk ph a => cases a <;> first | exact regWrite_at .. | exact regField_at .. | rfl

theorem apply_fault {m : Micro} (h : m.plain = true) (s : State) : (m.apply s).fault = s.fault := by
  cases m with
  | mk ph a =>
    cases a <;> simp [Micro.plain] at h
    · exact (regWrite_quiet h.2 _ _).1
    · exact (regField_quiet h.2 _ _ _).1

theorem applyAll_fault {ms : List Micro} (h : ms.all Micro.plain = true) (s : State) :
    (applyAll ms s).fault = s.fault := by
  induction ms generalizing s with
  | nil => rfl
  | cons m ms ih =>
    simp only [List.all_cons, Bool.and_eq_true] at h
    exact (ih h.2 _).trans (apply_fault h.1 s)

/-- The engine takes its next micro-step (R15). -/
theorem engStep_cons (s : State) (e : Engine) (q : List Event) (m : Micro) (rest : List Micro) (hf : s.fault = none) :
    engStep (s.at (e.withProgram (m :: rest)) q) = actStep m.act rest (s.at (e.withProgram (m :: rest)) q) := by
  have h : (s.at (e.withProgram (m :: rest)) q).fault.isSome = false := by simp [hf]
  unfold engStep
  rw [h]
  rfl

/-- A register write that overlaps nothing, and then the rest. -/
theorem actStep_write (r : Reg) (v : Word) (rest : List Micro) (s : State) (e : Engine) (q : List Event)
    (hf : (regWrite r v s).fault = none) :
    actStep (.write r v) rest (s.at e q) = proceed rest ((regWrite r v s).at e q) := by
  have h : ((regWrite r v s).at e q).fault.isSome = false := by simp [hf]
  simp only [actStep, regWrite_at]
  rw [h]
  rfl

/-- One plain micro-step of the engine. -/
theorem engStep_plain {m : Micro} (h : m.plain = true) (s : State) (e : Engine) (q : List Event) (m' : Micro)
    (ms : List Micro) (hf : s.fault = none) :
    engStep (s.at (e.withProgram (m :: m' :: ms)) q) = (m.apply s).at (e.withProgram (m' :: ms)) q := by
  have hf' : (m.apply s).fault = none := (apply_fault h s).trans hf
  rw [engStep_cons _ _ _ _ _ hf]
  cases m with
  | mk ph a =>
    cases a <;> simp [Micro.plain] at h
    · exact actStep_write _ _ _ _ _ _ hf'
    · simp only [actStep, regField_at]
      rfl

/-- A whole list of plain micro-steps, one scheduled turn each, with a micro-step `m` behind them. -/
theorem drive_plain (ws : List Micro) (h : ws.all Micro.plain = true) (s : State) (e : Engine) (q : List Event) (m : Micro)
    (ms : List Micro) (n : Nat) (hf : s.fault = none) :
    drive (n + ws.length) (s.at (e.withProgram (ws ++ m :: ms)) (List.replicate ws.length .engine ++ q)) =
      drive n ((applyAll ws s).at (e.withProgram (m :: ms)) q) := by
  induction ws generalizing s with
  | nil => rfl
  | cons w ws ih =>
    simp only [List.all_cons, Bool.and_eq_true] at h
    have hp : (e.withProgram (w :: (ws ++ m :: ms))).phase ≠ .idle := by
      simp only [withProgram_phase_cons]
      have := h.1
      simp [Micro.plain] at this
      exact this.1
    rw [List.length_cons, ← Nat.add_assoc, List.replicate_succ]
    simp only [List.cons_append]
    rw [drive_engine _ _ _ _ hf hp]
    have hf' := (apply_fault h.1 s).trans hf
    cases ws with
    | nil =>
      simp only [List.nil_append]
      rw [engStep_plain h.1 s e _ m ms hf]
      exact ih (by rfl) _ hf'
    | cons w' ws' =>
      simp only [List.cons_append]
      rw [engStep_plain h.1 s e _ w' (ws' ++ m :: ms) hf]
      exact ih h.2 _ hf'

/-! ## Other micro-steps -/

/-- A poll whose condition holds goes on (R362). -/
theorem engStep_poll_holds (s : State) (e : Engine) (q : List Event) (ph : Phase) (r : Reg) (c : PollCond) (v : Word)
    (rest : List Micro) (hf : s.fault = none) (hr : regShows r s = some v) (hc : c.holds v = true) :
    engStep (s.at (e.withProgram (⟨ph, .poll r c⟩ :: rest)) q) =
      proceed rest (s.at (e.withProgram (⟨ph, .poll r c⟩ :: rest)) q) := by
  have hr' : regRead r (s.at (e.withProgram (⟨ph, .poll r c⟩ :: rest)) q) = (v, _) :=
    regRead_shows hf (by rw [← hr]; cases r <;> rfl)
  rw [engStep_cons _ _ _ _ _ hf]
  simp only [actStep, pollStep, hr', hc, if_true]

/-- The micro-steps left after one that is done (R55). -/
theorem proceed_cons (m : Micro) (ms : List Micro) (s : State) (e : Engine) (q : List Event) :
    proceed (m :: ms) (s.at e q) = s.at (e.withProgram (m :: ms)) q := rfl

/-- An engine that is `Idle` is settled. -/
theorem settled_of_idle {s : State} (h : s.eng.phase = .idle) : settled s = true := by
  simp [settled, h]

/-- A faulted machine is settled (R321, R366). -/
theorem settled_of_fault {s : State} (h : s.fault ≠ none) : settled s = true := by
  have : s.fault.isSome = true := Option.isSome_iff_ne_none.mpr h
  simp [settled, this]

/-! ## Acceptance -/

/-- What a request on port OP can come to (R320, R321, R322): nothing under `FAULT`, the overlap on a busy engine, the
refusal of the first check that fails, or the operation's run. -/
theorem accept_cases (i : Instr) (go : State → State) (s : State) :
    (s.fault ≠ none ∧ accept i go s = .next s) ∨
    (s.fault = none ∧ s.eng.phase ≠ .idle ∧ accept i go s = .next (overlap s)) ∨
    (s.Ready ∧ ∃ c, gate i s = some c ∧ accept i go s = .next (refuse c s)) ∨
    (s.Ready ∧ gate i s = none ∧ accept i go s = .next (run (go s))) := by
  unfold accept State.Ready
  cases hf : s.fault with
  | some f => exact .inl ⟨by simp, rfl⟩
  | none =>
    by_cases hp : s.eng.phase = .idle
    · cases hg : gate i s with
      | some c => exact .inr (.inr (.inl ⟨⟨rfl, hp⟩, c, rfl, by simp [hp]⟩))
      | none => exact .inr (.inr (.inr ⟨⟨rfl, hp⟩, rfl, by simp [hp]⟩))
    · exact .inr (.inl ⟨rfl, hp, by simp [hp]⟩)

/-- A request that passes every check runs. -/
theorem accept_run {i : Instr} {go : State → State} {s : State} (h : s.Ready) (hg : gate i s = none) :
    accept i go s = .next (run (go s)) := by
  simp [accept, h.1, h.2, hg]

end Sys2Proof.Machine
end

