-- ==== Sys2Proof/Laws/Build.lean ====
section
/-!
SUPPORT. What the engine's lists of register writes do: a field update, BUILD (R151), ProgramSequence (R173 to R176), and the
parts of a run that follow it: the trigger, the completion, the poll, the clear.
-/

namespace Sys2Proof.Machine

/-! ## Field updates -/

/-- A field update leaves the bits outside its mask alone (R298). -/
theorem setBits_and {mask bits n : Word} (hm : mask &&& n = 0) (hb : bits &&& n = 0) (old : Word) :
    setBits old mask bits &&& n = old &&& n := by
  ext i hi
  have h1 := congrArg (fun x => x.getLsbD i) hm
  have h2 := congrArg (fun x => x.getLsbD i) hb
  simp [BitVec.getLsbD] at h1 h2
  simp [setBits]
  grind

/-! ## BUILD -/

/-- Under the key a write of 2 to LUTCR unlocks the store (R29). -/
theorem regWrite_unlock {s : State} (h : s.regs.lutkey = s.params.lutKey) :
    regWrite .lutcr 2 s = { s with lutUnlocked := true } := by
  simp [regWrite, lutcrWrite, h, slice]

/-- The unlock and one word write of a build (R153, R154). -/
theorem applyAll_buildWord {p : Params} (ph : Phase) (slot : Fin 30) (j : Fin 4) (w : Word) {s : State}
    (hp : s.params = p) :
    applyAll (buildWord p ph slot j w) s =
      { s with lutUnlocked := true, regs.lutkey := p.lutKey, regs.lut := s.regs.lut.set (lutIndex slot j) w } := by
  subst hp
  have h : applyAll (buildWord s.params ph slot j w) s =
      regWrite (.lut (lutIndex slot j)) w (regWrite .lutcr 2 (regWrite .lutkey s.params.lutKey s)) := rfl
  rw [h, regWrite_unlock (s := regWrite .lutkey s.params.lutKey s) rfl]
  rfl

/-- The pointer reset of one bank (R156): the position is 0, the stored bits stay. -/
theorem apply_resetPointer (ph : Phase) (k : Fin 4) (s : State) :
    (resetPointer ph k).apply s = { s with
      regs.flshcr2 := s.regs.flshcr2.set k (s.regs.flshcr2[k] &&& 0x7FFFFFFF), seqptr := s.seqptr.set k 0 } := by
  have h1 : setBits (s.regs.flshcr2[k]) 0x80000000 0x80000000 &&& 0x7FFFFFFF = s.regs.flshcr2[k] &&& 0x7FFFFFFF :=
    setBits_and (by decide) (by decide) _
  have h2 : (setBits (s.regs.flshcr2[k]) 0x80000000 0x80000000).getLsbD 31 = true := by simp [setBits]
  simp only [resetPointer, Micro.apply, regField, regStored, regShows, Option.getD_some, regWrite, h1, h2, if_true]

/-- Resetting the four pointers one bank after the other is resetting all. -/
theorem four_banks {α : Type} (f : α → α) (v : Vector α 4) :
    (let g := fun (v : Vector α 4) (k : Fin 4) => v.set k (f v[k]); g (g (g (g v 0) 1) 2) 3) = v.map f := by
  ext i hi
  interval_cases i <;> simp

/-- The sixteen micro-steps of a build of one slot (R151). -/
theorem applyAll_buildSlot (ph : Phase) (slot : Fin 30) (w : SlotWords) (s : State) :
    applyAll (buildSlot s.params ph slot w) s = { s with
      lutUnlocked := true
      regs.lutkey := s.params.lutKey
      regs.lut := setSlot s.regs.lut slot w
      regs.flshcr2 := s.regs.flshcr2.map (· &&& 0x7FFFFFFF)
      seqptr := Vector.replicate 4 0 } := by
  have hz : s.seqptr.map (fun _ => (0 : Fin 8)) = Vector.replicate 4 0 := by ext; simp
  rw [buildSlot]
  simp only [applyAll_append]
  rw [applyAll_buildWord (p := s.params) ph slot 0 w.w0, applyAll_buildWord (p := s.params) ph slot 1 w.w1,
    applyAll_buildWord (p := s.params) ph slot 2 w.w2, applyAll_buildWord (p := s.params) ph slot 3 w.w3]
  · simp only [applyAll, List.foldl, apply_resetPointer]
    rw [← hz, ← four_banks, ← four_banks]
    rfl
  all_goals rfl

/-- BUILD of a defined kind (R151, R152). -/
theorem applyAll_build {ph : Phase} {k : Kind} {c : LogicalCommand} {s : State} (hc : commandOf s.params k = some c) :
    applyAll (build s.params ph k) s = s.built k c := by
  rw [build, hc]
  exact applyAll_buildSlot ph _ _ s

/-- A build is register writes only, sixteen of them, whatever the state (R155). -/
theorem build_plain {p : Params} {ph : Phase} {k : Kind} (hph : ph ≠ .idle) : (build p ph k).all Micro.plain = true := by
  unfold build
  cases commandOf p k with
  | none => rfl
  | some c => simp [buildSlot, buildWord, resetPointer, Micro.plain, hph]

theorem build_length {p : Params} {ph : Phase} {k : Kind} {c : LogicalCommand} (hc : commandOf p k = some c) :
    (build p ph k).length = 16 := by
  simp [build, hc, buildSlot, buildWord]

/-! ## ProgramSequence -/

/-- The first twenty micro-steps of ISSUE (R173 to R176). -/
def programWrites (p : Params) (k : Kind) (addr : Option Word) (size : BitVec 16) : List Micro :=
  build p .programSequence k ++
  [⟨.programSequence, .write .ipcr0 (addr.getD 0)⟩, ⟨.programSequence, .write .ipcr1 (commandSelect p k size)⟩] ++
  fifoSetup p

/-- ISSUE is its twenty writes, the trigger, the poll, the clear and the data phase (R184). -/
theorem issue_eq (p : Params) (k : Kind) (addr : Option Word) (size : BitVec 16) (data : List Byte) :
    issue p k addr size data = programWrites p k addr size ++
      ⟨.triggered, .write .ipcmd 1⟩ :: ⟨.pollingCompletion, .poll .intr (.bits 1)⟩ ::
        ⟨.pollingCompletion, .write .intr 1⟩ :: dataPhase p k size.toNat data := by
  simp [issue, programWrites]

theorem programWrites_plain (p : Params) (k : Kind) (addr : Option Word) (size : BitVec 16) :
    (programWrites p k addr size).all Micro.plain = true := by
  simp only [programWrites, List.all_append, build_plain (p := p) (k := k) (ph := .programSequence) (by decide)]
  rfl

theorem programWrites_length {p : Params} {k : Kind} {c : LogicalCommand} (addr : Option Word) (size : BitVec 16)
    (hc : commandOf p k = some c) : (programWrites p k addr size).length = 20 := by
  simp [programWrites, build_length hc, fifoSetup]

/-- The FIFO control word with its clear bit read back as 0 (R217, R220). -/
theorem fifoControl_stored (p : Params) : fifoControl p &&& ~~~1 = place p.wm.val 2 ∧ (fifoControl p).getLsbD 0 = true := by
  unfold fifoControl
  have := p.wm.isLt
  generalize p.wm.val = n at *
  interval_cases n <;> decide

/-- What ProgramSequence writes (R173 to R176). -/
theorem applyAll_programWrites {k : Kind} {c : LogicalCommand} {s : State} (addr : Option Word) (size : BitVec 16)
    (hc : commandOf s.params k = some c) :
    applyAll (programWrites s.params k addr size) s = s.programmed k c addr size := by
  simp only [programWrites, applyAll_append, applyAll_build hc]
  have hf := fifoControl_stored s.params
  simp only [fifoSetup, applyAll, List.foldl, Micro.apply, regWrite, hf, if_true]
  rfl

/-! ## Slots of the LUT store -/

theorem lutIndex_inj {s s' : Fin 30} {j j' : Fin 4} (h : (lutIndex s j).val = (lutIndex s' j').val) : s = s' ∧ j = j' := by
  simp only [lutIndex] at h
  constructor <;> apply Fin.ext <;> omega

/-- Reading a slot after writing it whole gives what was written (R152). -/
theorem slotOf_setSlot_same (lut : Vector Word 120) (n : Fin 30) (w : SlotWords) : slotOf (setSlot lut n w) n = w := by
  simp only [slotOf, setSlot, Fin.getElem_fin, Vector.getElem_set]
  simp [lutIndex]

/-- Writing one slot leaves every other slot alone (R158). -/
theorem slotOf_setSlot_other (lut : Vector Word 120) {n n' : Fin 30} (w : SlotWords) (h : n ≠ n') :
    slotOf (setSlot lut n w) n' = slotOf lut n' := by
  have hne : ∀ j j' : Fin 4, (lutIndex n j).val ≠ (lutIndex n' j').val := fun j j' he => h (lutIndex_inj he).1
  simp only [slotOf, setSlot, Fin.getElem_fin, Vector.getElem_set, hne, if_false]

/-! ## The trigger -/

/-- The opcode of a word that holds one instruction. -/
theorem lowHalf_opcode (op : BitVec 6) (p : BitVec 2) (x : Byte) : slice (lowHalf (lutHalf op p x)) 10 6 = op.toNat := by
  have h : (lowHalf (lutHalf op p x)).extractLsb' 10 6 = (lutHalf op p x).extractLsb' 10 6 := by
    ext i hi
    simp only [lowHalf, BitVec.getElem_extractLsb', BitVec.getLsbD_append]
    simp [show 10 + i < 16 by omega]
  rw [slice, h, lutHalf_opcode]

/-- `dir_of` of a slot image is the descriptor's direction (R115, R118). -/
theorem dirOf_image (c : LogicalCommand) : dirOf (image c) = some c.dir := by
  unfold dirOf image phaseHalf rateOpcode
  cases c.dir <;> cases c.mode <;> simp [lowHalf_opcode]

/-- The fields of IPCR1 as ProgramSequence writes it (R36, R175). -/
theorem commandSelect_fields (p : Params) (k : Kind) (size : BitVec 16) :
    (commandSelect p k size).extractLsb' 16 5 = BitVec.ofNat 5 (slotOfKind p k).val ∧
    (commandSelect p k size).extractLsb' 24 3 = 0 ∧ (commandSelect p k size).extractLsb' 0 16 = size := by
  have hn := (slotOfKind p k).isLt
  unfold commandSelect place
  generalize (slotOfKind p k).val = n at *
  have hb : ∀ i, 5 ≤ i → n.testBit i = false := fun i hi =>
    Nat.testBit_lt_two_pow (lt_of_lt_of_le (by omega : n < 2 ^ 5) (Nat.pow_le_pow_right (by omega) hi))
  refine ⟨?_, ?_, ?_⟩ <;> ext i hi <;> simp
  · simp only [show 16 + i < 32 by omega, ← BitVec.getLsbD_eq_getElem, BitVec.getLsbD_ofNat]
    simp [hi, show i < 32 by omega]
  · exact ⟨fun _ _ => by simp [BitVec.getLsbD_ofNat, hb (24 + i - 16) (by omega)],
      fun _ => BitVec.getLsbD_of_ge _ _ (by omega)⟩
  · simp [hi, show i < 32 by omega]

/-- The trigger, on a surface that is specified, with the command ProgramSequence selects (R37). -/
theorem trigger_programmed {k : Kind} {c : LogicalCommand} {addr : Option Word} {size : BitVec 16} {s : State}
    (hf : s.fault = none) (hi : s.inflight = none) :
    trigger (s.programmed k c addr size) = { s.programmed k c addr size with
      inflight := some (commandInFlight s.params k c addr size), regs.sts0 := 8 } := by
  obtain ⟨h1, h2, h3⟩ := commandSelect_fields s.params k size
  have hs : slice (commandSelect s.params k size) 16 5 = (slotOfKind s.params k).val := by
    have := (slotOfKind s.params k).isLt
    rw [slice, h1]
    simp
    omega
  have hlut : slotOf (s.programmed k c addr size).regs.lut (slotOfKind s.params k) = image c :=
    slotOf_setSlot_same _ _ _
  have hp : (s.programmed k c addr size).inflight = none := hi
  have hr : (s.programmed k c addr size).regs.ipcr1 = commandSelect s.params k size := rfl
  unfold trigger
  rw [hp]
  simp only [hr, hs]
  have hz : slice (commandSelect s.params k size) 24 3 = 0 := by rw [slice, h2]; rfl
  rw [fetchSlot_slot (s := s.programmed k c addr size) (slotOfKind s.params k) hf, hlut, hz]
  simp only [h1, h2, h3, dirOf_image, fetchLater]
  rfl

end Sys2Proof.Machine
end

