-- ==== Sys2Proof/Laws/Issue.lean ====
section
/-!
SUPPORT. The run of an IP command that BACKEND answers (R184): its twenty-one writes, the entries, the completion.
-/

namespace Sys2Proof.Machine

/-- The command in flight once `n` entries have been delivered (R63). -/
def deliveredBy (x : Inflight) (n : Nat) : Inflight :=
  { x with delivered := min (8 * n) x.datsz.toNat }

/-- be_rx_push under its guard (R63). -/
theorem beRxPush_some {s : State} {x : Inflight} (e : Entry) (hx : s.inflight = some x) (hd : x.dir = some .read)
    (hl : x.delivered < x.datsz.toNat) (hq : s.rxq.length < 16) (hm : moduleDisabled s = false) :
    beRxPush e s = { s with
      rxq := s.rxq ++ [e], inflight := some { x with delivered := min (x.delivered + 8) x.datsz.toNat } } := by
  simp [beRxPush, rxPushEnabled, hx, hd, hl, hq, hm]

/-- The turns in which BACKEND delivers the entries of a read (R63, R212). -/
theorem drive_pushes (es : List Entry) (n : Nat) (e : Engine) (q : List Event) (hp : e.phase ≠ .idle) {x : Inflight}
    (hd : x.dir = some .read) :
    ∀ (s : State) (j : Nat), s.fault = none → s.inflight = some (deliveredBy x j) → moduleDisabled s = false →
      s.rxq.length + es.length ≤ 16 → (es ≠ [] → 8 * (j + es.length) < x.datsz.toNat + 8) →
      drive (n + es.length) (s.at e (es.map .rxPush ++ q)) =
        drive n ({ s with rxq := s.rxq ++ es, inflight := some (deliveredBy x (j + es.length)) }.at e q) := by
  induction es with
  | nil =>
    intro s j _ hx _ _ _
    simp only [List.length_nil, Nat.add_zero, List.map_nil, List.nil_append, List.append_nil, ← hx]
  | cons a es ih =>
    intro s j hf hx hm hl hj
    have hj := hj (by simp)
    simp only [List.length_cons] at hl hj
    have hlt : (deliveredBy x j).delivered < (deliveredBy x j).datsz.toNat := by
      show min (8 * j) x.datsz.toNat < x.datsz.toNat
      omega
    have hnext : ({ deliveredBy x j with
        delivered := min ((deliveredBy x j).delivered + 8) (deliveredBy x j).datsz.toNat } : Inflight) =
        deliveredBy x (j + 1) := by
      simp only [deliveredBy]
      congr 1
      show min (min (8 * j) x.datsz.toNat + 8) x.datsz.toNat = min (8 * (j + 1)) x.datsz.toNat
      omega
    rw [List.length_cons, ← Nat.add_assoc, List.map_cons, List.cons_append,
      drive_event _ _ _ _ _ hf hp (by simp) (by simp)]
    have hstep : envStep (.rxPush a) (s.at e (es.map .rxPush ++ q)) =
        ({ s with rxq := s.rxq ++ [a], inflight := some (deliveredBy x (j + 1)) } : State).at e (es.map .rxPush ++ q) := by
      rw [← hnext]
      exact beRxPush_some (s := s.at e (es.map .rxPush ++ q)) a hx hd hlt (show s.rxq.length < 16 by omega) hm
    rw [hstep, ih { s with rxq := s.rxq ++ [a], inflight := some (deliveredBy x (j + 1)) } (j + 1) hf rfl hm
      (by simp; omega) (by intro _; omega)]
    simp [Nat.add_assoc, Nat.add_comm 1]

/-- The answer a command needs: as many entries as a read of `size` bytes takes (R212), none for another command. -/
structure Answers (c : LogicalCommand) (size : BitVec 16) (es : List Entry) : Prop where
  fits : es.length ≤ 16
  read : c.dir = .read → es.length = ceilDiv size.toNat 8
  write : c.dir = .write → es = []

/-- A command up to its completion: programmed, triggered, answered (R37, R63, R65, R173 to R177). The engine stands
before the first read of its poll. -/
theorem drive_issue {k : Kind} {c : LogicalCommand} {s : State} {es : List Entry} (addr : Option Word) (size : BitVec 16)
    (data : List Byte) (e : Engine) (q : List Event) (n : Nat) (hf : s.fault = none) (hi : s.inflight = none)
    (hm : moduleDisabled s = false) (hc : commandOf s.params k = some c) (ha : Answers c size es) :
    drive (n + es.length + 22) (s.at (e.withProgram (issue s.params k addr size data)) (answerTurns es ++ q)) =
      drive n ({ s.programmed k c addr size with
          rxq := es, inflight := none, regs.intr := s.regs.intr ||| 1, regs.sts0 := 0xB }.at
        (e.withProgram (⟨.pollingCompletion, .poll .intr (.bits 1)⟩ :: ⟨.pollingCompletion, .write .intr 1⟩ ::
          dataPhase s.params k size.toNat data)) q) := by
  set rest := (⟨.pollingCompletion, .poll .intr (.bits 1)⟩ :: ⟨.pollingCompletion, .write .intr 1⟩ ::
          dataPhase s.params k size.toNat data : List Micro) with hrest
  have hlen := programWrites_length addr size hc
  have hq : answerTurns es ++ q = List.replicate (programWrites s.params k addr size).length .engine ++
      (.engine :: (es.map .rxPush ++ (.complete [] :: q))) := by
    rw [hlen, answerTurns, show (21 : Nat) = 20 + 1 from rfl, List.replicate_succ']
    simp
  rw [issue_eq, hq, show n + es.length + 22 = (n + 1 + es.length + 1) + (programWrites s.params k addr size).length by
    rw [hlen]; omega]
  rw [drive_plain _ (programWrites_plain _ _ _ _) s e _ _ _ _ hf, applyAll_programWrites addr size hc]
  rw [drive_engine _ _ _ _ (by exact hf) (by simp)]
  rw [engStep_cons _ _ _ _ _ (by exact hf)]
  have ht : regWrite .ipcmd 1 (s.programmed k c addr size) = _ := trigger_programmed hf hi
  rw [actStep_write _ _ _ _ _ _ (by rw [ht]; exact hf), ht, hrest, proceed_cons]
  set s1 : State := { s.programmed k c addr size with
      inflight := some (commandInFlight s.params k c addr size), regs.sts0 := 8 } with hs1
  have hx : s1.inflight = some (deliveredBy (commandInFlight s.params k c addr size) 0) := by
    simp [hs1, deliveredBy, commandInFlight]
  by_cases hd : c.dir = .read
  · have hr := ha.read hd
    have hfit := ha.fits
    have hce : 8 * ceilDiv size.toNat 8 < size.toNat + 8 ∧ size.toNat ≤ 8 * ceilDiv size.toNat 8 := by
      unfold ceilDiv
      omega
    rw [drive_pushes es (n + 1) _ _ (by simp) (x := commandInFlight s.params k c addr size)
      (by simp [commandInFlight, hd]) s1 0 hf hx hm (by simp [hs1, State.programmed]; omega)
      (by intro _; simp [commandInFlight]; omega)]
    rw [drive_event _ _ _ _ _ (by exact hf) (by simp) (by simp) (by simp)]
    have hb := beComplete_some (s := ({ s1 with
        rxq := s1.rxq ++ es
        inflight := some (deliveredBy (commandInFlight s.params k c addr size) (0 + es.length)) } : State).at
        (e.withProgram rest) q) hf rfl hm (by
          intro _
          show size.toNat ≤ min (8 * (0 + es.length)) size.toNat
          omega)
    simp only [envStep, withProgram_withProgram]
    rw [← hrest, hb]
    rw [show (0xB : Word) = 8 ||| idleMask by decide]
    rfl
  · have hw : c.dir = .write := by cases h : c.dir <;> simp_all
    have he := ha.write hw
    subst he
    simp only [List.map_nil, List.nil_append, List.length_nil, Nat.add_zero]
    rw [drive_event _ _ _ _ _ (by exact hf) (by simp) (by simp) (by simp)]
    have hb := beComplete_some (s := s1.at (e.withProgram rest) q) hf rfl hm (by simp [commandInFlight, hw])
    simp only [envStep, withProgram_withProgram]
    rw [← hrest, hb]
    rw [show (0xB : Word) = 8 ||| idleMask by decide]
    rfl

end Sys2Proof.Machine
end

