-- ==== Sys2Proof/Laws/Data.lean ====
section
/-!
SUPPORT. The run of an IP command after its completion (R178 to R181): the poll's last read, the clear, the short read, the
fill.
-/

namespace Sys2Proof.Machine

/-! ## The engine's turn, scheduled or alone -/

/-- The engine moves next: its turn is scheduled, or none is. -/
def EngineTurn (q q' : List Event) : Prop :=
  q = .engine :: q' ∨ (q = [] ∧ q' = [])

/-- The engine's turn, where it does not wait. -/
theorem drive_turn (s : State) (e : Engine) (q q' : List Event) (n : Nat) (hf : s.fault = none) (hp : e.phase ≠ .idle)
    (ht : EngineTurn q q') (hw : waiting (s.at e []) = false) : drive (n + 1) (s.at e q) = drive n (engStep (s.at e q')) := by
  rcases ht with rfl | ⟨rfl, rfl⟩
  · exact drive_engine s e q' n hf hp
  · exact drive_alone s e n hf hp hw

/-- An engine before a micro-step that is neither a poll nor a store does not wait. -/
theorem waiting_other (s : State) (e : Engine) (m : Micro) (ms : List Micro)
    (h : (∀ r c, m.act ≠ .poll r c) ∧ ∀ a b, m.act ≠ .store a b) :
    waiting (s.at (e.withProgram (m :: ms)) []) = false := by
  obtain ⟨ph, a⟩ := m
  cases a <;> simp_all [waiting]

/-- An engine before a poll whose condition holds does not wait. -/
theorem waiting_poll (s : State) (e : Engine) (ph : Phase) (r : Reg) (c : PollCond) (ms : List Micro)
    (h : c.holds (regPeek r s) = true) :
    waiting (s.at (e.withProgram (⟨ph, .poll r c⟩ :: ms)) []) = false := by
  have : regPeek r (s.at (e.withProgram (⟨ph, .poll r c⟩ :: ms)) []) = regPeek r s := by cases r <;> rfl
  simp [waiting, this, h]

/-- What a register shows is what a read returns on a surface that is specified. -/
theorem regPeek_shows {r : Reg} {s : State} {v : Word} (hf : s.fault = none) (h : regShows r s = some v) :
    regPeek r s = v := by
  simp [regPeek, hf, h]

/-- A poll's last read (R362). -/
theorem drive_poll (s : State) (e : Engine) (q q' : List Event) (n : Nat) (ph : Phase) (r : Reg) (c : PollCond) (v : Word)
    (rest : List Micro) (hf : s.fault = none) (hp : ph ≠ .idle) (ht : EngineTurn q q') (hr : regShows r s = some v)
    (hc : c.holds v = true) :
    drive (n + 1) (s.at (e.withProgram (⟨ph, .poll r c⟩ :: rest)) q) =
      drive n (proceed rest (s.at (e.withProgram (⟨ph, .poll r c⟩ :: rest)) q')) := by
  rw [drive_turn s _ q q' n hf hp ht (waiting_poll _ _ _ _ _ _ (by rw [regPeek_shows hf hr, hc])),
    engStep_poll_holds _ _ _ _ _ _ _ _ hf hr hc]

/-- A register write that overlaps nothing. -/
theorem drive_write (s : State) (e : Engine) (q q' : List Event) (n : Nat) (ph : Phase) (r : Reg) (v : Word)
    (rest : List Micro) (hf : s.fault = none) (hp : ph ≠ .idle) (ht : EngineTurn q q') (hr : r ≠ .ipcmd) :
    drive (n + 1) (s.at (e.withProgram (⟨ph, .write r v⟩ :: rest)) q) =
      drive n (proceed rest ((regWrite r v s).at (e.withProgram (⟨ph, .write r v⟩ :: rest)) q')) := by
  rw [drive_turn s _ q q' n hf hp ht (waiting_other _ _ _ _ (by simp)), engStep_cons _ _ _ _ _ hf]
  exact congrArg (drive n) (actStep_write _ _ _ _ _ _ (by rw [(regWrite_quiet hr _ _).1, hf]))

/-! ## The end of an operation -/

/-- An operation with nothing left to do ends with `Ok` and the bytes it has collected (R181, R360). -/
theorem proceed_nil_done (s : State) (e : Engine) (q : List Event) (h : e.ending = .done) :
    proceed [] (s.at e q) =
      s.at (Engine.idle (some (resultOf .ok 0 (match e.session with | none => [] | some x => x.out)))) q := by
  simp only [proceed, endOperation, at_eng, h, collected]
  rfl

/-- A finished operation stays finished. -/
theorem drive_idle (s : State) (r : Option Result) (q : List Event) (n : Nat) :
    drive n (s.at (Engine.idle r) q) = s.at (Engine.idle r) q :=
  drive_settled (settled_of_idle rfl) n

/-! ## Poll and clear -/

/-- The condition of the completion poll is bit 0 of INTR (R178). -/
theorem done_bit (s : State) (h : s.regs.intr.getLsbD 0 = true) : PollCond.holds (.bits 1) (intrRead s) = true := by
  have hm : ∀ x : Word, x.getLsbD 0 = true → x &&& 1 = 1 := by
    intro x hx
    ext i hi
    rcases Nat.eq_zero_or_pos i with rfl | hi0
    · simpa [← BitVec.getLsbD_eq_getElem] using hx
    · simp [BitVec.getElem_one, Nat.ne_of_gt hi0]
  simp only [PollCond.holds, beq_iff_eq]
  apply hm
  have h0 : ∀ b : Bool, (if b = true then (0x20 : Word) else 0).getLsbD 0 = false := by decide
  have h1 : ∀ b : Bool, (if b = true then (0x40 : Word) else 0).getLsbD 0 = false := by decide
  simp only [intrRead, BitVec.getLsbD_or, BitVec.getLsbD_and, h, h0, h1]
  decide

/-- The last read of the completion poll and the clear of the done bit (R178, R179). -/
theorem drive_done (s : State) (e : Engine) (q q' q'' : List Event) (n : Nat) (rest : List Micro) (hf : s.fault = none)
    (ht : EngineTurn q q') (ht' : EngineTurn q' q'') (h : s.regs.intr.getLsbD 0 = true) :
    drive (n + 2) (s.at (e.withProgram (⟨.pollingCompletion, .poll .intr (.bits 1)⟩ ::
        ⟨.pollingCompletion, .write .intr 1⟩ :: rest)) q) =
      drive n (proceed rest (({ s with regs.intr := s.regs.intr &&& ~~~1 } : State).at
        (e.withProgram (⟨.pollingCompletion, .write .intr 1⟩ :: rest)) q'')) := by
  rw [drive_poll s e q q' (n + 1) _ _ _ _ _ hf (by simp) ht rfl (done_bit s h), proceed_cons, withProgram_withProgram,
    drive_write s e q' q'' n _ _ _ _ hf (by simp) ht' (by simp)]
  rfl

/-! ## The short read -/

/-- The bytes of a queue, in order (R54, R85). -/
def queueBytes (q : List Entry) : List Byte :=
  q.flatMap Entry.bytes

theorem bytesLe_lowWord (e : Entry) : bytesLe e.lowWord = [e.b0, e.b1, e.b2, e.b3] := by
  simp only [bytesLe, Entry.lowWord, wordOfBytes, List.cons.injEq, and_true]
  refine ⟨?_, ?_, ?_, ?_⟩ <;> ext i hi <;> simp only [BitVec.getElem_extractLsb', BitVec.getLsbD_append]
  · simp [hi]
  · simp [hi]
  · simp [show ¬ (16 + i < 8) by omega, show 16 + i - 8 - 8 = i by omega, show ¬ (16 + i - 8 < 8) by omega, hi]
  · simp [show ¬ (24 + i < 8) by omega, show ¬ (24 + i - 8 < 8) by omega, show ¬ (24 + i - 8 - 8 < 8) by omega,
      show 24 + i - 8 - 8 - 8 = i by omega, BitVec.getLsbD_eq_getElem hi]

theorem bytesLe_highWord (e : Entry) : bytesLe e.highWord = [e.b4, e.b5, e.b6, e.b7] :=
  bytesLe_lowWord ⟨e.b4, e.b5, e.b6, e.b7, e.b0, e.b1, e.b2, e.b3⟩

/-- Word `j` of the RX window, where the queue has it, is the queue's next four bytes (R48, R85). -/
theorem rxWord_bytes (es : List Entry) (j : Nat) (hj : j < 2 * es.length) (h32 : j < 32) :
    ∃ w, rxWord es ⟨j, h32⟩ = some w ∧ (queueBytes es).take (4 * j) ++ bytesLe w = (queueBytes es).take (4 * j + 4) := by
  induction es generalizing j with
  | nil => simp at hj
  | cons e es ih =>
    have hq : queueBytes (e :: es) = e.bytes ++ queueBytes es := rfl
    rcases j with _ | _ | j
    · exact ⟨e.lowWord, by simp [rxWord], by simp [bytesLe_lowWord, hq, Entry.bytes]⟩
    · exact ⟨e.highWord, by simp [rxWord], by simp [bytesLe_highWord, hq, Entry.bytes]⟩
    · obtain ⟨w, hw, hb⟩ := ih j (by simp at hj; omega) (by omega)
      refine ⟨w, ?_, ?_⟩
      · rw [← hw]
        simp [rxWord, show (j + 1 + 1) / 2 = j / 2 + 1 by omega, show (j + 1 + 1) % 2 = j % 2 by omega]
      · have hl : e.bytes.length = 8 := rfl
        have ht : ∀ m, 8 ≤ m → (e.bytes ++ queueBytes es).take m = e.bytes ++ (queueBytes es).take (m - 8) := by
          intro m hm
          rw [List.take_append, List.take_of_length_le (by rw [hl]; exact hm), hl]
        rw [hq, ht _ (by omega), ht _ (by omega), List.append_assoc, show 4 * (j + 1 + 1) - 8 = 4 * j by omega,
          show 4 * (j + 1 + 1) + 4 - 8 = 4 * j + 4 by omega, hb]

/-- The engine with a session. -/
def Engine.withSession (e : Engine) (x : Session) : Engine :=
  { e with session := some x }

/-- The reads of the RX window keep the queue's bytes, four each (R222, R223). -/
theorem drive_reads (m : Nat) (s : State) (e : Engine) (x : Session) (n : Nat) (last : Micro) (rest : List Micro)
    (hf : s.fault = none) (h32 : s.rxq.length ≤ 16) :
    ∀ (j : Nat) (q q' : List Event), (q = List.replicate m .engine ++ q' ∨ (q = [] ∧ q' = [])) → j + m ≤ 2 * s.rxq.length →
      drive (n + m) (s.at ((e.withSession { x with out := x.out ++ (queueBytes s.rxq).take (4 * j) }).withProgram
          ((List.range' j m).map (fun i => ⟨.drainOrFill, .readRx (Fin.ofNat 32 i)⟩) ++ last :: rest)) q) =
        drive n (s.at ((e.withSession
          { x with out := x.out ++ (queueBytes s.rxq).take (4 * (j + m)) }).withProgram (last :: rest)) q') := by
  induction m with
  | zero =>
    intro j q q' hq _
    have : q = q' := by rcases hq with h | ⟨h, h'⟩ <;> simp_all
    subst this
    rfl
  | succ m ih =>
    intro j q q' hq hj
    obtain ⟨w, hw, hb⟩ := rxWord_bytes s.rxq j (by omega) (by omega)
    have hfin : Fin.ofNat 32 j = ⟨j, by omega⟩ := by
      apply Fin.ext
      simp
      omega
    obtain ⟨q1, ht, hq1⟩ : ∃ q1, EngineTurn q q1 ∧ (q1 = List.replicate m .engine ++ q' ∨ (q1 = [] ∧ q' = [])) := by
      rcases hq with rfl | ⟨rfl, rfl⟩
      · exact ⟨_, .inl (by rw [List.replicate_succ]; rfl), .inl rfl⟩
      · exact ⟨[], .inr ⟨rfl, rfl⟩, .inr ⟨rfl, rfl⟩⟩
    rw [List.range'_succ, List.map_cons, List.cons_append, ← Nat.add_assoc,
      drive_turn s _ q q1 _ hf (by simp) ht (waiting_other _ _ _ _ (by simp)), engStep_cons _ _ _ _ _ hf]
    have hread : ∀ (e' : Engine), regRead (.rfdr (Fin.ofNat 32 j)) (s.at e' q1) = (w, s.at e' q1) := fun e' =>
      regRead_shows hf (by rw [hfin]; exact hw)
    simp only [actStep, hread]
    have hmore : ∃ m' ms', (List.range' (j + 1) m).map (fun i => (⟨.drainOrFill, .readRx (Fin.ofNat 32 i)⟩ : Micro)) ++
        last :: rest = m' :: ms' := by
      cases hm : (List.range' (j + 1) m).map (fun i => (⟨.drainOrFill, .readRx (Fin.ofNat 32 i)⟩ : Micro)) with
      | nil => exact ⟨_, _, rfl⟩
      | cons a as => exact ⟨_, _, rfl⟩
    obtain ⟨m', ms', hm'⟩ := hmore
    have hnext := ih (j + 1) q1 q' hq1 (by omega)
    rw [hm'] at hnext ⊢
    rw [show j + (m + 1) = j + 1 + m by omega, ← hnext, show 4 * (j + 1) = 4 * j + 4 by omega, ← hb, ← List.append_assoc]
    rfl

/-- What the short read's last micro-step leaves (R214, R222): the pop, and the first `size` bytes kept. -/
theorem actStep_popShort (size : Nat) (rest : List Micro) (s : State) (e : Engine) (x : Session) (q : List Event) :
    actStep (.popShort size) rest (s.at (e.withSession x) q) =
      proceed rest ((regWrite .intr 0x20 s).at (e.withSession { x with out := x.out.take size }) q) := by
  simp only [actStep, regWrite_at]
  rfl

end Sys2Proof.Machine
end

