-- ==== Sys2Proof/Laws/Exec.lean ====
section
/-!
SUPPORT. The three shapes a meaning has: a host operation of port OP is an acceptance of its own start (R320), a LUT
instruction is played by its phase (R112), a window request is refused or comes to BACKEND (R247, R248).
-/

namespace Sys2Proof.Machine

/-- Every operation of port OP goes through acceptance (R320 to R322). -/
theorem exec_accept {i : Instr} (h : operationPort i = true) : ∃ go, ∀ s, exec i s = accept i go s := by
  cases i <;> first | exact absurd h (by decide) | exact ⟨_, fun s => rfl⟩ | (simp [operationPort, lutPhase, windowAccess] at h)

/-- Every LUT instruction is played by its phase (R112). -/
theorem exec_played {i : Instr} {ph : LutPhase} (h : lutPhase i = some ph) (s : State) :
    exec i s = .next (playPhase ph s) := by
  cases i <;> simp only [lutPhase, Option.some.injEq, reduceCtorEq] at h <;> subst h <;> rfl

/-- A window request that a check refuses has that result and does nothing else (R331, R361). -/
theorem windowRequest_refused {i : Instr} {c : Code} {s : State} (go : State → State) (hf : s.fault = none)
    (hg : gate i s = some c) : windowRequest i go s = refuse c s := by
  simp [windowRequest, hg, sizesDrawn, hf]

/-- A window request that passes its checks comes to BACKEND (R247, R248). -/
theorem windowRequest_passed {i : Instr} {s : State} (go : State → State) (hf : s.fault = none) (hg : gate i s = none) :
    windowRequest i go s = go s := by
  simp [windowRequest, hg, sizesDrawn, hf]

/-! ## Requests between two micro-steps -/

/-- The checks look at no schedule (R320). -/
theorem gate_sched (i : Instr) (s : State) (q : List Event) : gate i { s with sched := q } = gate i s := by
  cases i <;> rfl

/-- Two operation codes, and no other, make a window operation (R132). -/
theorem windowAccess_of_makeOp {op : BitVec 6} {kind : BitVec 5} {ap : Bool} {r1 r2 : Word} {data : List Byte}
    {record : List Word} {i : Instr} (h : makeOp op kind ap r1 r2 data record = some i) :
    (windowAccess i).isSome = (op == 0x20 || op == 0x21) := by
  have e : (op == 0x20 || op == 0x21) = (decide (op.toNat = 0x20) || decide (op.toNat = 0x21)) := by
    simp [BitVec.toNat_eq, Bool.beq_eq_decide_eq]
  rw [e]
  unfold makeOp at h
  split at h <;> first
    | (injection h with h; subst h; simp_all [windowAccess])
    | exact absurd h (by simp)

/-- A request that decodes is a window operation exactly where it is on the window port (R132). -/
theorem windowAccess_of_decode {r : Request} {i : Instr} (h : decodeRequest r = .ok i) :
    (windowAccess i).isSome = onWindowPort r := by
  unfold decodeRequest at h
  split at h
  · cases h
  · split at h
    · cases h
    · split at h
      · cases h
      · split at h
        · split at h
          · injection h with h; subst h
            exact windowAccess_of_makeOp ‹_›
          · cases h
        · split at h <;> cases h

end Sys2Proof.Machine
end

