-- ==== Sys2Proof/Laws/PerInstr.lean ====
section
/-!
SUPPORT. One family of lemmas per instruction: each instruction's encoding carries, under the mask of its row of
spec/opcode_table.json, the row's match value (R112, R132, R144).
-/

namespace Sys2Proof.Laws

/-- The match value of a row: of a LUT16 half under mask 0xFC00, of REQ0 under mask 0x3F. -/
inductive TableMatch where
  | half (h : Half)
  | request (w : Word)
deriving DecidableEq, Repr

/-- The match value of each instruction's row. -/
def tableMatch : Instr → TableMatch
  | .stop _ _ => .half 0x0000
  | .cmdSdr _ _ => .half 0x0400
  | .cmdDdr _ _ => .half 0x8400
  | .raddrSdr _ _ => .half 0x0800
  | .raddrDdr _ _ => .half 0x8800
  | .writeSdr _ _ => .half 0x2000
  | .writeDdr _ _ => .half 0xA000
  | .readSdr _ _ => .half 0x2400
  | .readDdr _ _ => .half 0xA400
  | .dummySdr _ _ => .half 0x3000
  | .dummyDdr _ _ => .half 0xB000
  | .lutb _ => .request 0x00000001
  | .ipx _ _ _ _ => .request 0x00000002
  | .wren => .request 0x00000003
  | .wrdi => .request 0x00000004
  | .rdsr => .request 0x00000005
  | .rdid => .request 0x00000006
  | .erase _ => .request 0x00000007
  | .rsten => .request 0x00000008
  | .rst => .request 0x00000009
  | .rdcfg1 => .request 0x0000000A
  | .rdcfg2 => .request 0x0000000B
  | .rdcfg3 => .request 0x0000000C
  | .wrcfg1 _ _ => .request 0x0000000D
  | .wrcfg2 _ _ => .request 0x0000000E
  | .wrcfg3 _ _ => .request 0x0000000F
  | .pwrup => .request 0x00000010
  | .pwrdn => .request 0x00000011
  | .lock => .request 0x00000012
  | .unlock => .request 0x00000013
  | .xwrite _ _ => .request 0x00000014
  | .ahbcfg _ => .request 0x00000018
  | .devcfg _ => .request 0x00000019
  | .dllcalc _ => .request 0x0000001A
  | .regrd _ => .request 0x0000001C
  | .regwr _ _ => .request 0x0000001D
  | .errcls => .request 0x0000001E
  | .winrd _ _ => .request 0x00000020
  | .winwr _ _ _ => .request 0x00000021

/-- What an encoding carries under the mask of its format. -/
def encodedMatch (e : Encoded) : TableMatch :=
  match e with
  | .half h => .half (h &&& 0xFC00)
  | .request r => .request (r.req0 &&& 0x0000003F)

theorem lutHalf_opcode_bits (op : BitVec 6) (p : BitVec 2) (x : Byte) :
    lutHalf op p x &&& 0xFC00 = op ++ (0 : BitVec 10) := by
  ext i hi
  simp only [lutHalf, BitVec.getElem_and, BitVec.getElem_append]
  interval_cases i <;> simp

theorem header_op_bits (op : BitVec 6) (kind : BitVec 5) (ap : Bool) :
    header op kind ap &&& 0x0000003F = BitVec.zeroExtend 32 op := by
  ext i hi
  simp only [header, BitVec.getElem_and, BitVec.getElem_append, BitVec.getElem_setWidth]
  interval_cases i <;> simp

/-- The encoding of the instruction matches the instruction's row. -/
def MatchesItsRow.Statement (i : Instr) : Prop :=
  encodedMatch (encode i) = tableMatch i

namespace MatchesItsRow

theorem stop (pads : BitVec 2) (operand : Byte) : Statement (.stop pads operand) :=
  congrArg TableMatch.half ((lutHalf_opcode_bits _ _ _).trans (by decide))

theorem cmdSdr (pads : BitVec 2) (operand : Byte) : Statement (.cmdSdr pads operand) :=
  congrArg TableMatch.half ((lutHalf_opcode_bits _ _ _).trans (by decide))

theorem cmdDdr (pads : BitVec 2) (operand : Byte) : Statement (.cmdDdr pads operand) :=
  congrArg TableMatch.half ((lutHalf_opcode_bits _ _ _).trans (by decide))

theorem raddrSdr (pads : BitVec 2) (operand : Byte) : Statement (.raddrSdr pads operand) :=
  congrArg TableMatch.half ((lutHalf_opcode_bits _ _ _).trans (by decide))

theorem raddrDdr (pads : BitVec 2) (operand : Byte) : Statement (.raddrDdr pads operand) :=
  congrArg TableMatch.half ((lutHalf_opcode_bits _ _ _).trans (by decide))

theorem writeSdr (pads : BitVec 2) (operand : Byte) : Statement (.writeSdr pads operand) :=
  congrArg TableMatch.half ((lutHalf_opcode_bits _ _ _).trans (by decide))

theorem writeDdr (pads : BitVec 2) (operand : Byte) : Statement (.writeDdr pads operand) :=
  congrArg TableMatch.half ((lutHalf_opcode_bits _ _ _).trans (by decide))

theorem readSdr (pads : BitVec 2) (operand : Byte) : Statement (.readSdr pads operand) :=
  congrArg TableMatch.half ((lutHalf_opcode_bits _ _ _).trans (by decide))

theorem readDdr (pads : BitVec 2) (operand : Byte) : Statement (.readDdr pads operand) :=
  congrArg TableMatch.half ((lutHalf_opcode_bits _ _ _).trans (by decide))

theorem dummySdr (pads : BitVec 2) (operand : Byte) : Statement (.dummySdr pads operand) :=
  congrArg TableMatch.half ((lutHalf_opcode_bits _ _ _).trans (by decide))

theorem dummyDdr (pads : BitVec 2) (operand : Byte) : Statement (.dummyDdr pads operand) :=
  congrArg TableMatch.half ((lutHalf_opcode_bits _ _ _).trans (by decide))

theorem lutb (kind : BitVec 5) : Statement (.lutb kind) :=
  congrArg TableMatch.request ((header_op_bits _ _ _).trans (by decide))

theorem ipx (kind : BitVec 5) (addr : Option Word) (size : Word) (data : List Byte) : Statement (.ipx kind addr size data) :=
  congrArg TableMatch.request ((header_op_bits _ _ _).trans (by decide))

theorem wren : Statement .wren :=
  congrArg TableMatch.request ((header_op_bits _ _ _).trans (by decide))

theorem wrdi : Statement .wrdi :=
  congrArg TableMatch.request ((header_op_bits _ _ _).trans (by decide))

theorem rdsr : Statement .rdsr :=
  congrArg TableMatch.request ((header_op_bits _ _ _).trans (by decide))

theorem rdid : Statement .rdid :=
  congrArg TableMatch.request ((header_op_bits _ _ _).trans (by decide))

theorem erase (addr : Word) : Statement (.erase addr) :=
  congrArg TableMatch.request ((header_op_bits _ _ _).trans (by decide))

theorem rsten : Statement .rsten :=
  congrArg TableMatch.request ((header_op_bits _ _ _).trans (by decide))

theorem rst : Statement .rst :=
  congrArg TableMatch.request ((header_op_bits _ _ _).trans (by decide))

theorem rdcfg1 : Statement .rdcfg1 :=
  congrArg TableMatch.request ((header_op_bits _ _ _).trans (by decide))

theorem rdcfg2 : Statement .rdcfg2 :=
  congrArg TableMatch.request ((header_op_bits _ _ _).trans (by decide))

theorem rdcfg3 : Statement .rdcfg3 :=
  congrArg TableMatch.request ((header_op_bits _ _ _).trans (by decide))

theorem wrcfg1 (len : Word) (data : List Byte) : Statement (.wrcfg1 len data) :=
  congrArg TableMatch.request ((header_op_bits _ _ _).trans (by decide))

theorem wrcfg2 (len : Word) (data : List Byte) : Statement (.wrcfg2 len data) :=
  congrArg TableMatch.request ((header_op_bits _ _ _).trans (by decide))

theorem wrcfg3 (len : Word) (data : List Byte) : Statement (.wrcfg3 len data) :=
  congrArg TableMatch.request ((header_op_bits _ _ _).trans (by decide))

theorem pwrup : Statement .pwrup :=
  congrArg TableMatch.request ((header_op_bits _ _ _).trans (by decide))

theorem pwrdn : Statement .pwrdn :=
  congrArg TableMatch.request ((header_op_bits _ _ _).trans (by decide))

theorem lock : Statement .lock :=
  congrArg TableMatch.request ((header_op_bits _ _ _).trans (by decide))

theorem unlock : Statement .unlock :=
  congrArg TableMatch.request ((header_op_bits _ _ _).trans (by decide))

theorem xwrite (addr : Word) (data : List Byte) : Statement (.xwrite addr data) :=
  congrArg TableMatch.request ((header_op_bits _ _ _).trans (by decide))

theorem ahbcfg (record : List Word) : Statement (.ahbcfg record) :=
  congrArg TableMatch.request ((header_op_bits _ _ _).trans (by decide))

theorem devcfg (record : List Word) : Statement (.devcfg record) :=
  congrArg TableMatch.request ((header_op_bits _ _ _).trans (by decide))

theorem dllcalc (record : List Word) : Statement (.dllcalc record) :=
  congrArg TableMatch.request ((header_op_bits _ _ _).trans (by decide))

theorem regrd (off : Word) : Statement (.regrd off) :=
  congrArg TableMatch.request ((header_op_bits _ _ _).trans (by decide))

theorem regwr (off : Word) (val : Word) : Statement (.regwr off val) :=
  congrArg TableMatch.request ((header_op_bits _ _ _).trans (by decide))

theorem errcls : Statement .errcls :=
  congrArg TableMatch.request ((header_op_bits _ _ _).trans (by decide))

theorem winrd (addr : Word) (n : Word) : Statement (.winrd addr n) :=
  congrArg TableMatch.request ((header_op_bits _ _ _).trans (by decide))

theorem winwr (addr : Word) (len : Word) (data : List Byte) : Statement (.winwr addr len data) :=
  congrArg TableMatch.request ((header_op_bits _ _ _).trans (by decide))

end MatchesItsRow

end Sys2Proof.Laws
end

