-- ==== Sys2Proof/Tests/Slice0.lean ====
section
/-!
SUPPORT. Tests. Expected values come from spec/95_test_vectors.md (vectors V1 to V166) and from the worked examples of the
section files; each theorem names its source. The theorems named `witness_` show a state and operands that meet all the
hypotheses of one statement of Sys2Proof/Certificates/Slice0/Obligations.lean.
-/

namespace Sys2Proof.Tests

open Sys2Proof Sys2Proof.Machine

-- One test at a time: the tests evaluated side by side need more memory than the check gives.
set_option Elab.async false

/-! ## Helpers -/

/-- The next state, where there is one. -/
def nextOf (o : Host.Outcome State Fault Refusal) (s : State) : State :=
  match o with
  | .next t => t
  | .fault _ => s
  | .refused _ => s

/-- The state after an instruction. -/
def after (i : Instr) (s : State) : State :=
  nextOf (exec i s) s

/-- The module enabled, one device of 64 MiB in bank 0, a flash model: the state after the boot of section 3.0 of the
vectors, as far as these tests need it. -/
def enabled : State :=
  { State.reset with
    params.flashModel := true
    regs.mcr0 := 0xFF000000
    regs.flshcr0 := #v[0x10000, 0, 0, 0]
    regs.flshcr2 := #v[0x20000305, 0, 0, 0] }

/-- The same with BACKEND answering the next command with the entries `es`. -/
def answering (es : List Entry) : State :=
  { enabled with sched := answerTurns es }

/-- `State.reset` under the tag `XipBlocking`. -/
def xip : State :=
  { State.reset with params.modeTag := .xipBlocking }

/-- A first entry whose first three bytes are the JEDEC id of the mock. -/
def idEntry : Entry :=
  ⟨0xC2, 0x85, 0x3A, 0, 0, 0, 0, 0⟩

/-- An entry of eight equal bytes. -/
def filler (b : Byte) : Entry :=
  ⟨b, b, b, b, b, b, b, b⟩

/-- The record of R246. -/
def ahbRecord : List Word :=
  [0, 0x20, 0, 1] ++ List.replicate 28 0 ++ [0xFF, 0xFFFF, 0x20, 0, 0, 1, 1, 1, 1, 1]

/-- A request without payload. -/
def words (r0 r1 r2 : Word) : Encoded :=
  .request ⟨r0, r1, r2, .bytes []⟩

/-! ## Well-formedness: an ill-formed term for each check -/

theorem test_wf_stop : (Instr.stop 1 0).wellFormed = false ∧ (Instr.stop 0 1).wellFormed = false ∧
    (Instr.stop 0 0).wellFormed = true := by decide

theorem test_wf_raddr : (Instr.raddrSdr 0 12).wellFormed = false ∧ (Instr.raddrDdr 3 40).wellFormed = false ∧
    (Instr.raddrDdr 3 32).wellFormed = true := by decide

theorem test_wf_data : (Instr.writeSdr 0 1).wellFormed = false ∧ (Instr.writeDdr 0 1).wellFormed = false ∧
    (Instr.readSdr 0 1).wellFormed = false ∧ (Instr.readDdr 0 1).wellFormed = false := by decide

theorem test_wf_kind : (Instr.lutb 16).wellFormed = false ∧ (Instr.ipx 16 none 0 []).wellFormed = false ∧
    (Instr.ipx 5 none 65536 []).wellFormed = false := by decide

theorem test_wf_wrcfg1 : (Instr.wrcfg1 0 []).wellFormed = false ∧ (Instr.wrcfg1 2 [1]).wellFormed = false ∧
    (Instr.wrcfg1 5 [1, 2, 3, 4, 5]).wellFormed = false := by decide

theorem test_wf_wrcfg2 : (Instr.wrcfg2 0 []).wellFormed = false ∧ (Instr.wrcfg2 2 [1]).wellFormed = false ∧
    (Instr.wrcfg2 5 [1, 2, 3, 4, 5]).wellFormed = false := by decide

theorem test_wf_wrcfg3 : (Instr.wrcfg3 0 []).wellFormed = false ∧ (Instr.wrcfg3 2 [1]).wellFormed = false ∧
    (Instr.wrcfg3 5 [1, 2, 3, 4, 5]).wellFormed = false := by decide

theorem test_wf_xwrite : (Instr.xwrite 0 []).wellFormed = false ∧ (Instr.xwrite 0 [1, 2]).wellFormed = false := by decide

theorem test_wf_records : (Instr.ahbcfg []).wellFormed = false ∧
    (Instr.ahbcfg ([16] ++ List.replicate 41 0)).wellFormed = false ∧ (Instr.devcfg [4, 0, 0, 0]).wellFormed = false ∧
    (Instr.devcfg [3, 0, 0]).wellFormed = false ∧ (Instr.dllcalc [0, 0, 0, 2]).wellFormed = false := by decide

theorem test_wf_window : (Instr.winrd 0 0).wellFormed = false ∧ (Instr.winwr 0 0 []).wellFormed = false ∧
    (Instr.winwr 0 2 [1]).wellFormed = false := by decide

/-! ## Decoding (sections 2.1 and 2.4 of the vectors) -/

/-- V1 to V13. -/
theorem test_decode_lut :
    [0x0000, 0x0406, 0x8705, 0x0818, 0x8B20, 0x2000, 0xA300, 0x2600, 0xA700, 0x3206, 0xB314, 0x3000, 0x05FF].map
      decodeLut16 =
    [some (.stop 0 0), some (.cmdSdr 0 0x06), some (.cmdDdr 3 0x05), some (.raddrSdr 0 24), some (.raddrDdr 3 32),
     some (.writeSdr 0 0), some (.writeDdr 3 0), some (.readSdr 2 0), some (.readDdr 3 0), some (.dummySdr 2 6),
     some (.dummyDdr 3 20), some (.dummySdr 0 0), some (.cmdSdr 1 0xFF)] := by decide

/-- Section 2.1: an opcode the builder does not emit (R113, R142). -/
theorem test_decode_lut_reserved : decode (.half 0x0C00) = .error (.unknownOp 3) := by decide

/-- V37. -/
theorem test_decode_builder : decode (words 0x00000101 0 0) = .ok (.lutb 1) := by decide

/-- V38 to V47. -/
theorem test_decode_commands :
    decode (words 0x00010502 0x1000 0x10) = .ok (.ipx 5 (some 0x1000) 16 []) ∧
    decode (words 0x00000002 0 0) = .ok (.ipx 0 none 0 []) ∧
    decode (.request ⟨0x00000B02, 0, 1, .bytes [0x02]⟩) = .ok (.ipx 11 none 1 [0x02]) ∧
    decode (words 0x00000003 0 0) = .ok .wren ∧ decode (words 0x00000004 0 0) = .ok .wrdi ∧
    decode (words 0x00000005 0 0) = .ok .rdsr ∧ decode (words 0x00000006 0 0) = .ok .rdid ∧
    decode (words 0x00000007 0x20000 0) = .ok (.erase 0x20000) ∧
    decode (words 0x00000008 0 0) = .ok .rsten ∧ decode (words 0x00000009 0 0) = .ok .rst := by decide

/-- V48 to V53. -/
theorem test_decode_configuration_commands :
    decode (words 0x0000000A 0 0) = .ok .rdcfg1 ∧ decode (words 0x0000000B 0 0) = .ok .rdcfg2 ∧
    decode (words 0x0000000C 0 0) = .ok .rdcfg3 ∧
    decode (.request ⟨0x0000000D, 0, 1, .bytes [0x02]⟩) = .ok (.wrcfg1 1 [0x02]) ∧
    decode (.request ⟨0x0000000E, 0, 2, .bytes [0x07, 0x00]⟩) = .ok (.wrcfg2 2 [0x07, 0x00]) ∧
    decode (.request ⟨0x0000000F, 0, 4, .bytes [0x11, 0x22, 0x33, 0x44]⟩) = .ok (.wrcfg3 4 [0x11, 0x22, 0x33, 0x44]) ∧
    decode (words 0x00000010 0 0) = .ok .pwrup ∧ decode (words 0x00000011 0 0) = .ok .pwrdn ∧
    decode (words 0x00000012 0 0) = .ok .lock ∧ decode (words 0x00000013 0 0) = .ok .unlock := by decide

/-- V54, V55, V61, V62. -/
theorem test_decode_window :
    decode (.request ⟨0x00000014, 0x10000040, 0, .bytes [0xA5]⟩) = .ok (.xwrite 0x10000040 [0xA5]) ∧
    decode (.request ⟨0x00000018, 0, 0, .words ahbRecord⟩) = .ok (.ahbcfg ahbRecord) ∧
    decode (words 0x00000020 0x10000100 4) = .ok (.winrd 0x10000100 4) ∧
    decode (.request ⟨0x00000021, 0x10000040, 4, .bytes [1, 2, 3, 4]⟩) = .ok (.winwr 0x10000040 4 [1, 2, 3, 4]) := by
  decide

/-- V56 to V60. -/
theorem test_decode_rest :
    decode (.request ⟨0x00000019, 0, 0, .words [3, 0x02DC6C00, 2, 1]⟩) = .ok (.devcfg [3, 48000000, 2, 1]) ∧
    decode (.request ⟨0x0000001A, 0, 0, .words [3, 0x02DC6C00, 2, 1]⟩) = .ok (.dllcalc [3, 48000000, 2, 1]) ∧
    decode (words 0x0000001C 0xE0 0) = .ok (.regrd 0x0E0) ∧ decode (words 0x0000001D 0x10 1) = .ok (.regwr 0x010 1) ∧
    decode (words 0x0000001E 0 0) = .ok .errcls := by decide

/-- The reserved encodings of section 2.4: OPs that name nothing. -/
theorem test_decode_unknown_op :
    ∀ op ∈ [0x00, 0x15, 0x16, 0x17, 0x1B, 0x1F] ++ List.range' 0x22 30,
      decode (words (BitVec.ofNat 32 op) 0 0) = .error (.unknownOp (BitVec.ofNat 6 op)) := by decide

/-- The reserved encodings of section 2.4: must-be-0 fields that are not 0. -/
theorem test_decode_reserved_fields :
    decode (words 0x00000043 0 0) = .error .reservedField ∧ decode (words 0x00000103 0 0) = .error .reservedField ∧
    decode (words 0x00010007 0 0) = .error .reservedField ∧ decode (words 0x00020002 0 0) = .error .reservedField ∧
    decode (words 0x00000003 5 0) = .error .operandNotZero ∧ decode (words 0x00000101 0 1) = .error .operandNotZero := by
  decide

/-- A payload the operation does not take is named as such (log entry 16). -/
theorem test_decode_stray_payload :
    decode (.request ⟨0x00000003, 0, 0, .bytes [1]⟩) = .error (.strayPayload .wren) := by decide

/-- The words of the table, numbered as it numbers them: a 16-bit row and a 32-bit row (R144). -/
theorem test_table_words : decodeTableWord 16 0x8705 = some (.cmdDdr 3 0x05) ∧ decodeTableWord 32 0x101 = some (.lutb 1) ∧
    decodeTableWord 32 0x22 = none := by decide

/-! ## Slot images and descriptors (section 2.2) -/

/-- V14 to V27, images. -/
theorem test_images :
    illustrativeTable.toList.map (Option.map image) =
    [some ⟨0x04000406, 0, 0, 0x00002000⟩, some ⟨0x87FA8705, 0x00008B20, 0x0000B304, 0x0000A700⟩,
     some ⟨0x87DE8721, 0x00008B20, 0, 0x0000A300⟩, some ⟨0x87ED8712, 0x00008B20, 0, 0x0000A300⟩,
     some ⟨0x8760879F, 0x00008B20, 0x0000B304, 0x0000A700⟩, some ⟨0x871187EE, 0x00008B20, 0x0000B314, 0x0000A700⟩,
     some ⟨0x04000466, 0, 0, 0x00002000⟩, some ⟨0x04000499, 0, 0, 0x00002000⟩,
     some ⟨0x04000415, 0, 0, 0x00002400⟩, some ⟨0x878E8771, 0x00008B20, 0x0000B304, 0x0000A700⟩, none,
     some ⟨0x04000401, 0, 0, 0x00002000⟩, some ⟨0x878D8772, 0x00008B20, 0, 0x0000A300⟩, none,
     some ⟨0x040004AB, 0, 0, 0x00002000⟩, some ⟨0x040004B9, 0, 0x00003000, 0x00002000⟩] := by decide +kernel

/-- V14 to V27, packed descriptors. -/
theorem test_descriptors :
    illustrativeTable.toList.map (Option.map packDescriptor) =
    [some 0x00200006, some 0x04DCFA05, some 0x00F4DE21, some 0x00F4ED12, some 0x04DC609F, some 0x14DC11EE,
     some 0x00200066, some 0x00200099, some 0x00000015, some 0x04DC8E71, none, some 0x00200001, some 0x00F48D72, none,
     some 0x002000AB, some 0x002800B9] := by decide +kernel

/-- Section 2.2: V15 unpacked, and the two ill-formed words. -/
theorem test_unpack : unpackDescriptor 0x04DCFA05 = some (octalCommand 0x05 0xFA (some 4) .read) ∧
    unpackDescriptor 0x00250006 = none ∧ unpackDescriptor 0x05000006 = none := by decide +kernel

/-! ## LUT instructions: one step each -/

/-- A command in flight whose data phase reads, and BACKEND playing it. -/
def playing (source : SeqSource) (dir : Dir) : State :=
  { enabled with
    player := ⟨0, source⟩
    txq := [idEntry]
    inflight := some ⟨4, 0, 0, 3, ⟨0, 0, 0, 0⟩, [], some dir, 0⟩ }

/-- R53: BACKEND's position moves, freely; an instruction without a data phase moves no data. -/
theorem test_play_quiet : ∀ i ∈ [Instr.stop 0 0, .cmdSdr 0 6, .cmdDdr 3 5, .raddrSdr 0 24, .raddrDdr 3 32, .dummySdr 2 6,
    .dummyDdr 3 20], (after i (playing (.ip 0) .read)).rxq = [] ∧ (after i (playing (.ip 0) .read)).txq = [idEntry] := by decide +kernel

/-- R63: a read instruction of the command in flight delivers one entry. -/
theorem test_play_read : ∀ i ∈ [Instr.readSdr 2 0, .readDdr 3 0], (after i (playing (.ip 0) .read)).rxq.length = 1 ∧
    (after i (playing (.ahbRead 0) .read)).rxq = [] := by decide +kernel

/-- R64: a write instruction of the command in flight takes the head of TXQ. -/
theorem test_play_write : ∀ i ∈ [Instr.writeSdr 0 0, .writeDdr 3 0], (after i (playing (.ip 0) .write)).txq = [] ∧
    (after i (playing (.ahbWrite 0) .write)).txq = [idEntry] := by decide +kernel

/-! ## LUTB (section 2.3) -/

/-- V28. -/
theorem test_lutb_read_status : slotOf (after (.lutb 1) State.reset).regs.lut 1 =
    ⟨0x87FA8705, 0x00008B20, 0x0000B304, 0x0000A700⟩ ∧
    (after (.lutb 1) State.reset).eng.result = some ⟨0x00030000, 0, []⟩ := by decide +kernel

/-- V35. -/
theorem test_lutb_pointers : (after (.lutb 1) { enabled with seqptr := #v[5, 6, 7, 1] }).seqptr = #v[0, 0, 0, 0] ∧
    (after (.lutb 1) enabled).regs.flshcr2 = #v[0x20000305, 0, 0, 0] := by decide +kernel

/-! ## IP commands (section 2.6) -/

/-- V80, and V87 (a payload with a read kind). -/
theorem test_ipx : (after (.ipx 5 (some 0x1000) 16 [])
      (answering [⟨0x10, 0x11, 0x12, 0x13, 0x14, 0x15, 0x16, 0x17⟩, ⟨0x18, 0x19, 0x1A, 0x1B, 0x1C, 0x1D, 0x1E, 0x1F⟩])).eng.result =
      some ⟨0x00030000, 0, (List.range' 0x10 16).map (BitVec.ofNat 8)⟩ ∧
    (after (.ipx 4 none 3 [1]) enabled).eng.result = some ⟨0x00030004, 0, []⟩ := by decide +kernel

/-- V83 and V85. -/
theorem test_ipx_gate : (after (.ipx 3 none 4 [1, 2, 3, 4]) enabled).eng.result = some ⟨0x00030002, 0, []⟩ ∧
    (after (.ipx 16 none 0 []) xip).eng.result = some ⟨0x00030002, 0, []⟩ := by decide +kernel

/-- V71. -/
theorem test_wren : (after .wren (answering [])).eng.result = some ⟨0x00030000, 0, []⟩ ∧
    (after .wren (answering [])).regs.ipcr1 = 0x00000000 := by decide +kernel

/-- V166: with the module disabled the command waits in its completion poll. -/
theorem test_wren_waits : (after .wren State.reset).eng.phase = .pollingCompletion ∧
    (after .wren State.reset).eng.result = none := by decide +kernel

/-- V79 and V92. -/
theorem test_no_kind : ∀ i ∈ [Instr.wrdi, .lock, .unlock], (after i State.reset).eng.result = some ⟨0x00030003, 0, []⟩ ∧
    (after i xip).eng.result = some ⟨0x00030002, 0, []⟩ := by decide +kernel

/-- V72. -/
theorem test_rdsr : (after .rdsr (answering [⟨2, 0, 0, 0, 0, 0, 0, 0⟩])).eng.result = some ⟨0x00030000, 0, [2]⟩ ∧
    (after .rdsr (answering [⟨2, 0, 0, 0, 0, 0, 0, 0⟩])).regs.ipcr1 = 0x00010001 := by decide +kernel

/-- V73 and program P1. -/
theorem test_rdid : (after .rdid (answering [idEntry])).eng.result = some ⟨0x00030000, 0, [0xC2, 0x85, 0x3A]⟩ ∧
    regPeek .iprxfsts (after .rdid (answering [idEntry])) = 0x00010000 := by decide +kernel

/-- Request 4 of program P2: WIP reads 1, 1, 0. -/
theorem test_erase : (after (.erase 0x20000) { enabled with
      sched := eraseTurns [⟨1, 0, 0, 0, 0, 0, 0, 0⟩, ⟨1, 0, 0, 0, 0, 0, 0, 0⟩, ⟨0, 0, 0, 0, 0, 0, 0, 0⟩] }).eng.result =
    some ⟨0x00030000, 3, []⟩ := by decide +kernel

/-- V74. -/
theorem test_device_commands : (after .rsten (answering [])).regs.ipcr1 = 0x00060000 ∧
    (after .rst (answering [])).regs.ipcr1 = 0x00070000 ∧ (after .pwrup (answering [])).regs.ipcr1 = 0x000E0000 ∧
    (after .pwrdn (answering [])).regs.ipcr1 = 0x000F0000 := by decide +kernel

/-- V75 and V76. -/
theorem test_rdcfg : (after .rdcfg1 (answering [filler 0])).eng.result = some ⟨0x00030000, 0, [0]⟩ ∧
    (after .rdcfg2 (answering [⟨7, 0, 0, 0, 0, 0, 0, 0⟩])).eng.result = some ⟨0x00030000, 0, [7]⟩ ∧
    (after .rdcfg3 enabled).eng.result = some ⟨0x00030003, 0, []⟩ := by decide +kernel

/-- V77, V78 and V76. -/
theorem test_wrcfg : (after (.wrcfg1 1 [2]) (answering [])).txq = [⟨2, 0, 0, 0, 0, 0, 0, 0⟩] ∧
    (after (.wrcfg2 2 [7, 0]) (answering [])).regs.tfdr[0] = 7 ∧
    (after (.wrcfg3 1 [1]) enabled).eng.result = some ⟨0x00030003, 0, []⟩ := by decide +kernel

/-- V95 and V96: a second request, and a window read, while the engine polls. -/
theorem test_overlap : (after .rdsr (after .wren State.reset)).fault = some .overlap ∧
    (after (.winrd 0x10000100 4) (after .wren enabled)).fault = none := by decide +kernel

/-- Program P4: the timeout, and the overlap of the next command. -/
theorem test_timeout : (after .rdid { enabled with params.pollLimit := some 3 }).eng.result = some ⟨0x00030007, 3, []⟩ ∧
    (after .wren (after .rdid { enabled with params.pollLimit := some 3 })).fault = some .overlap := by decide +kernel

/-- V108: a read above the watermark that is no multiple of it waits in its last iteration, a named one too. -/
theorem test_uneven_read : ∀ i ∈ [Instr.ipx 5 (some 0x1000) 24 [], .rdsr, .rdid, .rdcfg1],
    (after i { enabled with
      params.wm := 1, params.statusLen := 24, params.idLen := 24, params.cfgLen := 24
      sched := answerTurns [filler 1, filler 2, filler 3] }).eng.phase = .drainOrFill := by decide +kernel

/-! ## FIFOs (section 2.8) -/

/-- V98 and V100. -/
theorem test_rx_pop : (regWrite .intr 0x20 { enabled with regs.iprxfcr := 0x4, rxq := [filler 1, filler 2, filler 3] }).rxq =
      [filler 3] ∧
    (regWrite .intr 0x20 { enabled with regs.iprxfcr := 0xC, rxq := [filler 1, filler 2] }).rdcntr = 2 := by decide +kernel

/-- V101 and V102. -/
theorem test_tx_push : regPeek .iptxfsts (regWrite .intr 0x40 { enabled with regs.iptxfcr := 0x3C }) = 0x00100010 ∧
    (regWrite .intr 0x40 { enabled with txq := List.replicate 16 idEntry }).txq.length = 16 := by decide +kernel

/-- V103. -/
theorem test_tx_order : (regWrite .intr 0x40 { enabled with
      regs.tfdr := (enabled.regs.tfdr.set 0 0x44332211).set 1 0x88776655 }).txq =
    [⟨0x11, 0x22, 0x33, 0x44, 0x55, 0x66, 0x77, 0x88⟩] := by decide +kernel

/-- V104. -/
theorem test_rx_window : rxWord [⟨0xC2, 0x85, 0x3A, 0x11, 0x22, 0x33, 0x44, 0x55⟩] 0 = some 0x113A85C2 ∧
    rxWord [⟨0xC2, 0x85, 0x3A, 0x11, 0x22, 0x33, 0x44, 0x55⟩] 1 = some 0x55443322 ∧
    rxWord [⟨0xC2, 0x85, 0x3A, 0x11, 0x22, 0x33, 0x44, 0x55⟩] 2 = none := by decide +kernel

/-! ## The window (sections 2.9 and 2.13) -/

/-- V110. -/
theorem test_ahbcfg : (after (.ahbcfg ahbRecord) State.reset).regs.mcr2 = 0x20000800 ∧
    (after (.ahbcfg ahbRecord) State.reset).regs.ahbrxbufcr0[0] = 0x80000020 := by decide +kernel

/-- V113 and V114. -/
theorem test_ahbcfg_refused : (after (.ahbcfg ahbRecord) enabled).eng.result = some ⟨0x00030006, 0, []⟩ ∧
    (after (.ahbcfg ([16] ++ List.replicate 41 0)) State.reset).eng.result = some ⟨0x00030004, 0, []⟩ := by decide +kernel

/-- V143 and V147. -/
theorem test_winrd : (after (.winrd 0x14000000 1) { enabled with params.winSize := 0x8000000 }).eng.result =
      some ⟨0x00030005, 0, []⟩ ∧
    (after (.winrd 0x10000100 4) { enabled with regs.mcr0 := 2 }).win.waiting = [.read 0x10000100 4 []] := by decide +kernel

/-- R90: two bytes of a waiting write land one by one, the lower first, and the last one ends the access. -/
theorem test_bytes_one_by_one :
    let s := tick (tick { enabled with sched := [.access ⟨0x21, 0x10000010, 2, .bytes [1, 2]⟩, .ahbByte 0, .ahbByte 0] })
    (Memory.read s.win.flash 0x10 = 1 ∧ Memory.read s.win.flash 0x11 = 0xFF ∧ s.eng.result = none) ∧
    Memory.read (tick s).win.flash 0x11 = 2 ∧ (tick s).eng.result = some ⟨0x00030000, 0, []⟩ := by decide +kernel

/-- R62, R69: of two waiting accesses the later one may be served first, and a new one may overtake both (R247). -/
theorem test_any_waiting :
    let s := tick (tick { enabled with
      sched := [.access ⟨0x20, 0x10000000, 1, .bytes []⟩, .access ⟨0x21, 0x10000010, 1, .bytes [5]⟩, .ahbServe 1] })
    (tick s).win.waiting = [.read 0x10000000 1 []] ∧ Memory.read (tick s).win.flash 0x10 = 5 ∧
    (after (.winrd 0x10000010 1) s).eng.result = some ⟨0x00030000, 0, [0xFF]⟩ := by decide +kernel

/-- Requests 1 and 2 of program P2 (S8). -/
theorem test_winwr : (after (.winrd 0x10020010 4) (after (.winwr 0x10020010 4 [1, 2, 3, 4]) enabled)).eng.result =
    some ⟨0x00030000, 0, [1, 2, 3, 4]⟩ := by decide +kernel

/-- V93 and V145. -/
theorem test_winwr_refused : (after (.winwr 0x10000040 1 [1]) xip).eng.result = some ⟨0x00030002, 0, []⟩ ∧
    (after (.winwr 0x10000040 2 [1]) enabled).eng.result = some ⟨0x00030004, 0, []⟩ := by decide +kernel

/-- Program P3: XWRITE under `XipBlocking`, and the read of the byte. -/
theorem test_xwrite : (after (.winrd 0x10000040 1) (after (.xwrite 0x10000040 [0xA5])
      { enabled with params.modeTag := .xipBlocking })).eng.result = some ⟨0x00030000, 0, [0xA5]⟩ := by decide +kernel

/-- V144: the second device begins where the first ends. -/
theorem test_translation : let s := { enabled with regs.flshcr0 := #v[0x400, 0x400, 0, 0] }
    windowKey s 0x10100000 = some (flashKey 1 0) ∧ windowKey s 0x100FFFFF = some (flashKey 0 0xFFFFF) := by
  decide +kernel

/-- R95: the address of an IP command is translated as a window offset is; a command whose program has no address phase
plays on any bank (R174). -/
theorem test_command_target :
    let s := { enabled with regs.flshcr0 := #v[0x400, 0x400, 0, 0] }
    let c : LogicalCommand → Word → Inflight := fun c a => ⟨2, 0, a, 0, image c, [], some .write, 0⟩
    commandTarget (c (octalCommand 0x21 0xDE none .write) 0x100000) s = .device 1 0 ∧
    commandTarget (c (octalCommand 0x21 0xDE none .write) 0x200000) s = .noDevice ∧
    commandTarget (c (plainCommand 0x06 none .write) 0x100000) s = .noAddress ∧
    (envStep (.complete [(flashKey 0 7, 1), (flashKey 1 7, 2)])
      { s with inflight := some (c (octalCommand 0x21 0xDE none .write) 0x100000) }).win.flash = [(flashKey 1 7, 2)] := by
  decide +kernel

/-- R36, R37, R101: a raw ISEQNUM of 1 makes the slot behind ISEQID's part of the command, with its words of the trigger, and
no third slot; R140: a slot behind slot 29 is a program of draws. -/
theorem test_sequence :
    let s := { enabled with regs.lut := Vector.ofFn fun i : Fin 120 => BitVec.ofNat 32 i.val }
    let t := regWrite .ipcmd 1 (regWrite .ipcr1 0x01060000 s)
    let u := regWrite .ipcmd 1 (regWrite .ipcr1 0x011D0000 s)
    (fetchHalf 2 (.ip 1) { t with seqptr := #v[0, 0, 6, 0] }).map (fun x => (x.1, x.2.1)) = some (31, 7) ∧
    (fetchHalf 2 (.ip 0) (regWrite (.lut 24) 5 t)).map (fun x => (x.1, x.2.1)) = some (24, 6) ∧
    fetchHalf 2 (.ip 2) t = none ∧ t.draws = s.draws ∧ u.draws = s.draws + 4 ∧
    u.inflight.map (fun c => c.later.length) = some 1 := by
  decide +kernel

/-! ## Timing (sections 1.1, 2.10, 2.11) -/

/-- S1 to S4, V118 to V125. -/
theorem test_dll : [(⟨0, 200000000, 99, 1⟩ : ControllerRecord), ⟨3, 200000000, 2, 0⟩, ⟨3, 200000000, 5, 1⟩,
      ⟨3, 100000000, 2, 1⟩, ⟨3, 99999999, 2, 1⟩, ⟨3, 48000000, 2, 1⟩, ⟨3, 48000000, 0, 1⟩, ⟨3, 48000000, 1, 1⟩,
      ⟨3, 48000000, 3, 1⟩, ⟨3, 48000000, 9, 1⟩, ⟨3, 48000000, 10, 1⟩, ⟨3, 0, 4294967295, 1⟩].map dllValue =
    [0x100, 0x100, 0x79, 0x79, 0x3100, 0x3100, 0x100, 0x1100, 0x5100, 0xF100, 0x100, 0x9100] := by decide +kernel

/-- S4 and V126. -/
theorem test_dllcalc : (after (.dllcalc [3, 48000000, 2, 1]) State.reset).eng.result = some ⟨0x00030000, 0x3100, []⟩ ∧
    (after (.dllcalc [4, 0, 0, 0]) State.reset).eng.result = some ⟨0x00030004, 0, []⟩ := by decide +kernel

/-- V127: the registers of bank 0, the module left enabled. -/
theorem test_devcfg :
    (fun t : State => [t.regs.dllcr[0], t.regs.flshcr4, t.regs.flshcr0[0], t.regs.flshcr1[0], t.regs.flshcr2[0],
      t.regs.mcr0, t.regs.sts2])
      (after (.devcfg [3, 48000000, 2, 1]) { State.reset with
        sched := List.replicate 9 .engine ++ [.lock 0 true true] }) =
      [0x3100, 0x4, 0x10000, 0x20063, 0x20000305, 0, 0x3] := by decide +kernel

/-- The binding of V128. -/
def bindingB : Binding :=
  ⟨.b, 1, 8, 0x2000, 1, 0x10, 5, 7, 1, 0, 5, 2, 0, 0, 3, 7⟩

/-- V128: port B, instance 1, and no write sequences. -/
theorem test_devcfg_port_b :
    (fun t : State => [t.regs.dllcr[1], t.regs.flshcr4, t.regs.flshcr0[3], t.regs.flshcr1[3], t.regs.flshcr2[3]])
      (after (.devcfg [0, 133000000, 0, 0]) { State.reset with
        params.binding := bindingB, regs.flshcr4 := 4, sched := List.replicate 8 .engine ++ [.lock 1 true true] }) =
      [0x100, 0x4, 0x2000, 0x109CA7, 0x70000025] := by decide +kernel

/-! ## The register demux (section 2.12) -/

/-- V132 and V136. -/
theorem test_regrd : [0x000, 0x0E0, 0x014, 0x0F0, 0x0E8, 0x180, 0x0B0].map
      (fun off => ((after (.regrd off) State.reset).eng.result.map Result.rsp1)) =
    [some 2, some 3, some 0x40, some 0, some 0, some 0, some 0] := by decide +kernel

/-- V135. -/
theorem test_regrd_holes : [0x002, 0x040, 0x090, 0x0C8, 0x0FC, 0x3E0, 0xFFFFFFFC].map
      (fun off => ((after (.regrd off) State.reset).eng.result.map Result.rsp0)) =
    List.replicate 7 (some 0x00030005) := by decide +kernel

/-- V138. -/
theorem test_regwr_lock : (after (.regwr 0x01C 2) State.reset).lutUnlocked = false ∧
    (after (.regwr 0x01C 2) (after (.regwr 0x018 0x5AF05AF0) State.reset)).lutUnlocked = true := by decide +kernel

/-- V139 and V141. -/
theorem test_regwr_flags : regPeek .intr (after (.regwr 0x014 0x801) { enabled with regs.intr := 0x809 }) = 0x048 ∧
    (after (.regwr 0x000 0xFF000002) { enabled with regs.sts2 := 0x00030003 }).regs.sts2 = 0 := by decide +kernel

/-! ## Errors and the interrupt line (section 2.14) -/

/-- V156 and V161 (its first call). -/
theorem test_errcls : (after .errcls { enabled with regs.intr := 0x9, regs.sts1 := 0x04010000 }).eng.result =
      some ⟨0x00020411, 0, []⟩ ∧
    regPeek .intr (after .errcls { enabled with regs.intr := 0xC1E }) = 0xC5C := by decide +kernel

/-- V152, V154, V155, V157, V158, V159, V160, V162. -/
theorem test_classification :
    [(0, 3, 0), (4, 3, 0), (4, 7, 0), (0x10, 3, 0x305), (0x80, 0xB, 0), (0x400, 7, 0), (0x800, 0xF, 0),
      (8, 8, 0x0F040000)].map (fun x : Word × Word × Word =>
        (after .errcls { enabled with regs.intr := x.1, regs.sts0 := x.2.1, regs.sts1 := x.2.2 }).eng.result.map Result.rsp0) =
    [some 0x00030000, some 0x10, some 0x10010, some 0x311, some 0x20014, some 0x10013, some 0xE12, some 0x20F11] := by
  decide +kernel

/-- Section 2.14, the interrupt line. -/
theorem test_irq : irq { enabled with regs.intr := 1, regs.inten := 1 } = true ∧
    irq { enabled with regs.intr := 1 } = false ∧ irq { State.reset with regs.inten := 0x40 } = true ∧
    irq { enabled with regs.intr := 0xC9F, regs.inten := 0x300 } = false := by decide +kernel

/-! ## The machine -/

/-- V164 and V165. -/
theorem test_reset : (envStep .reset (after .rdsr (after .wren State.reset))).fault = none ∧
    (envStep .reset (after .wren State.reset)).inflight = none := by decide +kernel

/-- A placed host operation is what the next step runs. -/
theorem test_step_request : nextOf (step (State.reset.withFetchWord 32 0x0000001E)) State.reset = after .errcls State.reset := by
  decide +kernel

/-- A placed LUT instruction is what the next step runs: READ_DDR, played for the window, takes one draw and its turn. -/
theorem test_step_half : (nextOf (step (State.reset.withFetchWord 16 0xA700)) State.reset).draws = 1 ∧
    (nextOf (step (State.reset.withFetchWord 16 0xA700)) State.reset).sched = [] := by decide +kernel

/-! ## Witnesses: encodings -/

theorem witness_DecodedRequestReencodes : decodeRequest ⟨0x00000003, 0, 0, .words []⟩ = .ok .wren ∧
    decodeRequest ⟨0x00011F02, 0xFFFFFFFF, 0xFFFFFFFF, .bytes [0xFF]⟩ =
      .ok (.ipx 31 (some 0xFFFFFFFF) 0xFFFFFFFF [0xFF]) := by decide

theorem witness_HalfDecodesByOpcode : decodeLut16 0xB3FF = some (.dummyDdr 3 0xFF) ∧ decodeLut16 0xFC00 = none := by
  decide

theorem witness_SlotImageWords :
    (⟨0xFF, 0xFF, some 1, .sdr, some 0xFF, .write, 1⟩ : LogicalCommand).wellFormed = true ∧
    (⟨0, 0, some 4, .ddr, some 0, .read, 8⟩ : LogicalCommand).wellFormed = true ∧
    (⟨0, 0, none, .ddr, none, .read, 2⟩ : LogicalCommand).wellFormed = true := by decide

theorem witness_DescriptorRoundTrip :
    unpackDescriptor 0xFFFCFFFF = some ⟨0xFF, 0xFF, some 4, .ddr, some 0xFF, .write, 8⟩ ∧
    unpackDescriptor 0x00050000 = none ∧ unpackDescriptor 0x01000000 = none := by decide

/-- `State.reset` with one request submitted. -/
def submitted (r0 r1 r2 : Word) : State :=
  { State.reset with sched := [.request ⟨r0, r1, r2, .bytes []⟩] }

/-- A request none of whose fields is what R141 refuses is none of these: each line breaks one rule of R141 alone. -/
theorem witness_ReservedRequestIsRefused : (submitted 0x15 0 0).Ready ∧
    (∀ op ∈ [0x00, 0x15, 0x17, 0x1B, 0x1F, 0x22, 0x3F, 0x20, 0x21], (reqOp ⟨BitVec.ofNat 32 op, 0, 0, .bytes []⟩).toNat = op) ∧
    (reqOp ⟨0x43, 0, 0, .bytes []⟩ = 3 ∧ (0x43 : Word).extractLsb' 6 2 ≠ 0) ∧
    (reqOp ⟨0x8003, 0, 0, .bytes []⟩ = 3 ∧ (0x8003 : Word).extractLsb' 13 3 ≠ 0) ∧
    (reqOp ⟨0x80000003, 0, 0, .bytes []⟩ = 3 ∧ (0x80000003 : Word).extractLsb' 17 15 ≠ 0) ∧
    (reqOp ⟨0x10020, 0, 0, .bytes []⟩ = 0x20 ∧ reqAp ⟨0x10020, 0, 0, .bytes []⟩ = true) ∧
    (reqOp ⟨0x103, 0, 0, .bytes []⟩ = 3 ∧ reqKind ⟨0x103, 0, 0, .bytes []⟩ = 1) ∧
    (reqOp ⟨0x10007, 0, 0, .bytes []⟩ = 7 ∧ reqAp ⟨0x10007, 0, 0, .bytes []⟩ = true) ∧
    (reqOp ⟨0x03, 5, 0, .bytes []⟩ = 3 ∧ (5 : Word) ≠ 0) ∧
    (reqOp ⟨0x02, 5, 0, .bytes []⟩ = 2 ∧ reqAp ⟨0x02, 5, 0, .bytes []⟩ = false) ∧
    (reqOp ⟨0x101, 0, 1, .bytes []⟩ = 1 ∧ (1 : Word) ≠ 0) ∧
    (State.reset.Ready ∧ 16 ≤ (16 : BitVec 5).toNat ∧ 16 ≤ (31 : BitVec 5).toNat ∧
      State.reset.params.modeTag = .ramBlocking) :=
  ⟨⟨rfl, rfl⟩, by decide, by decide, by decide, by decide, by decide, by decide, by decide, by decide, by decide, by decide,
    ⟨rfl, rfl⟩, by decide, by decide, rfl⟩

/-! ## Witnesses: the builder -/

theorem witness_LutbBuildsItsSlot : State.reset.Ready ∧ State.reset.sched = [] ∧
    commandOf State.reset.params .writeEnable = some (plainCommand 0x06 none .write) ∧
    commandOf State.reset.params .powerDown = some (plainCommand 0xB9 (some 0) .write) :=
  ⟨⟨rfl, rfl⟩, rfl, by decide, by decide⟩

theorem witness_LutbOverwritesOneSlot : State.reset.Ready ∧ State.reset.sched = [] ∧
    commandOf State.reset.params .readStatus = some (octalCommand 0x05 0xFA (some 4) .read) ∧
    slotsInjective State.reset.params ∧ (29 : Fin 30) ≠ slotOfKind State.reset.params .readStatus ∧
    Kind.eraseSector ≠ Kind.readStatus :=
  ⟨⟨rfl, rfl⟩, rfl, by decide, by
    intro k k' h
    cases k <;> cases k' <;> first | rfl | exact absurd h (by decide), by decide, by decide⟩

/-- A store unlocked under its key. -/
def unlockedStore : State :=
  { State.reset with regs.lutkey := 0x5AF05AF0, lutUnlocked := true }

theorem witness_LutStoreIsLocked : State.reset.regs.lutkey ≠ State.reset.params.lutKey ∧
    unlockedStore.regs.lutkey = unlockedStore.params.lutKey ∧
    (2 : Word).extractLsb' 0 2 = 2 ∧ (0xFFFFFFFD : Word).extractLsb' 0 2 = 1 ∧ (0xFFFFFFFC : Word).extractLsb' 0 2 = 0 ∧
    (0xFFFFFFFF : Word).extractLsb' 0 2 = 3 ∧ State.reset.fault = none ∧ unlockedStore.lutUnlocked = true ∧
    State.reset.lutUnlocked = false := by decide

/-! ## Witnesses: IP commands -/

/-- With any answer of BACKEND and at any watermark, read commands can be issued. -/
theorem canIssue_enabled (wm : Fin 16) (q : List Event) {k : Kind} {c : LogicalCommand}
    (h : commandOf enabled.params k = some c) : ({ enabled with params.wm := wm, sched := q } : State).CanIssue k c :=
  ⟨⟨rfl, rfl⟩, rfl, h, rfl, (by decide : moduleDisabled enabled = false)⟩

theorem witness_IssuePhases : commandOf defaultParams .fastRead = some (octalCommand 0xEE 0x11 (some 20) .read) ∧
    (0 : BitVec 16) ≠ 65535 := by decide

/-- A command without data, and a read whose length is 0. -/
theorem witness_CommandWithoutDataCompletes :
    (answering []).CanIssue .writeEnable (plainCommand 0x06 none .write) ∧
    (answering []).CanIssue .powerDown (plainCommand 0xB9 (some 0) .write) ∧
    ({ answering [] with params.statusLen := 0 } : State).CanIssue .readStatus (octalCommand 0x05 0xFA (some 4) .read) ∧
    (answering []).CanIssue .eraseSector (octalCommand 0x21 0xDE none .write) ∧
    (answering []).sched = answerTurns [] :=
  ⟨⟨⟨rfl, rfl⟩, rfl, by decide, rfl, by decide⟩, ⟨⟨rfl, rfl⟩, rfl, by decide, rfl, by decide⟩,
    ⟨⟨rfl, rfl⟩, rfl, by decide, rfl, by decide⟩, ⟨⟨rfl, rfl⟩, rfl, by decide, rfl, by decide⟩, rfl⟩

/-- The default watermark is 8 bytes: 1 and 8 bytes by the short path, 9 and 128 by the long one. -/
theorem witness_ReadReturnsItsBytes :
    (∀ es : List Entry, (answering es).CanIssue .fastRead (octalCommand 0xEE 0x11 (some 20) .read) ∧
      (answering es).CanIssue .readStatus (octalCommand 0x05 0xFA (some 4) .read)) ∧
    (Instr.rdsr, Kind.readStatus, Params.statusLen) ∈ readOperations ∧ enabled.params.statusLen = 1 ∧
    ([idEntry].length = ceilDiv 1 8 ∧ [idEntry].length = ceilDiv 8 8 ∧ 8 ≤ watermarkBytes enabled.params) ∧
    ([idEntry, idEntry].length = ceilDiv 9 8 ∧ ¬ 9 ≤ watermarkBytes enabled.params ∧
      (enabled.params.wm.val + 1) ∣ [idEntry, idEntry].length) ∧
    ((List.replicate 16 idEntry).length = ceilDiv 128 8 ∧ (enabled.params.wm.val + 1) ∣ (List.replicate 16 idEntry).length) :=
  ⟨fun _ => ⟨canIssue_enabled 0 _ (by decide), canIssue_enabled 0 _ (by decide)⟩,
    by simp [readOperations], rfl, by decide, by decide, by decide⟩

/-- Parameters under which WRCFG3 is defined too. -/
def withCfg3 : State :=
  { answering [] with params.cmdTable := enabled.params.cmdTable.set 13 (some (plainCommand 0x11 none .write)) }

theorem witness_WriteFillsAfterCompletion :
    (answering []).CanIssue .writeCfg1 (plainCommand 0x01 none .write) ∧
    (answering []).CanIssue .writeCfg2 (octalCommand 0x72 0x8D none .write) ∧
    withCfg3.CanIssue .writeCfg3 (plainCommand 0x11 none .write) ∧
    (plainCommand 0x01 none .write).dir = .write ∧ 1 ≤ ([2] : List Byte).length ∧ ([1, 2, 3, 4] : List Byte).length ≤ 4 ∧
    withCfg3.sched = answerTurns [] :=
  ⟨⟨⟨rfl, rfl⟩, rfl, by decide, rfl, by decide⟩, ⟨⟨rfl, rfl⟩, rfl, by decide, rfl, by decide⟩,
    ⟨⟨rfl, rfl⟩, rfl, by decide, rfl, by decide⟩, rfl, by decide, by decide, rfl⟩

/-- Three status reads, under a limit of exactly three. -/
def erasing : State :=
  { enabled with params.pollLimit := some 3, sched := eraseTurns [filler 1, filler 1, filler 0] }

/-- The limit reached: three status reads with the bit at 1, under a limit of three; one under a limit of 0. -/
def erasingOn (limit : Nat) (es : List Entry) : State :=
  { enabled with params.pollLimit := some limit, sched := eraseTurns es }

theorem witness_EraseCountsItsPolls_timeout :
    (∀ limit es, (erasingOn limit es).CanIssue .eraseSector (octalCommand 0x21 0xDE none .write)) ∧
    [filler 1, filler 1, filler 1].length = max 3 1 ∧ [filler 1].length = max 0 1 ∧
    (after (.erase 0x20000) (erasingOn 3 [filler 1, filler 1, filler 1])).eng.result = some ⟨0x00030007, 3, []⟩ ∧
    (after (.erase 0x20000) (erasingOn 0 [filler 1])).eng.result = some ⟨0x00030007, 1, []⟩ :=
  ⟨fun _ _ => ⟨⟨rfl, rfl⟩, rfl, (by decide : commandOf enabled.params .eraseSector = _), rfl,
      (by decide : moduleDisabled enabled = false)⟩,
    by decide, by decide, by decide +kernel, by decide +kernel⟩

theorem witness_EraseCountsItsPolls : erasing.CanIssue .eraseSector (octalCommand 0x21 0xDE none .write) ∧
    commandOf erasing.params .readStatus = some (octalCommand 0x05 0xFA (some 4) .read) ∧
    (octalCommand 0x05 0xFA (some 4) .read).dir = .read ∧ 1 ≤ erasing.params.statusLen.toNat ∧
    erasing.params.statusLen.toNat ≤ 4 ∧ (∀ e ∈ [filler 1, filler 1], writeInProgress erasing.params e.b0 = true) ∧
    writeInProgress erasing.params (filler 0).b0 = false ∧
    (∀ limit, erasing.params.pollLimit = some limit → [filler 1, filler 1] = [] ∨ [filler 1, filler 1].length < limit) :=
  ⟨⟨⟨rfl, rfl⟩, rfl, by decide, rfl, by decide⟩, by decide, rfl, by decide, by decide, by decide, by decide, by
    intro limit h
    simp only [erasing, Option.some.injEq] at h
    subst h
    exact .inr (by decide)⟩

/-- No answer, without a limit and with the smallest ones. -/
theorem witness_UnansweredCommandWaits :
    issued enabled.params (.erase 0x1000) = some (.eraseSector, some 0x1000, 0, []) ∧
    issued enabled.params (.ipx 5 none 65535 []) = some (.fastRead, none, 65535, []) ∧ enabled.Ready ∧
    gate (.erase 0x1000) enabled = none ∧ gate (.ipx 5 none 65535 []) enabled = none ∧ enabled.inflight = none ∧
    enabled.sched = [] ∧ enabled.regs.intr.getLsbD 0 = false ∧ enabled.params.pollLimit = none ∧
    ({ enabled with params.pollLimit := some 0 } : State).params.pollLimit = some 0 ∧
    ({ enabled with params.pollLimit := some 1 } : State).params.pollLimit = some 1 :=
  ⟨by decide, by decide, ⟨rfl, rfl⟩, by decide, by decide, rfl, rfl, by decide, rfl, rfl, rfl⟩

theorem witness_StaleDoneBitEndsThePoll :
    issued enabled.params .wren = some (.writeEnable, none, 0, []) ∧ (∀ a, Instr.wren ≠ .erase a) ∧
    gate .wren { enabled with regs.intr := 1 } = none ∧ ({ enabled with regs.intr := 1 } : State).Ready ∧
    ({ enabled with regs.intr := 1 } : State).regs.intr.getLsbD 0 = true :=
  ⟨by decide, by simp, by decide, ⟨rfl, rfl⟩, by decide⟩

/-- A command in flight behind an idle engine, as a timeout leaves it (R364). -/
def abandoned : State :=
  playing (.ip 0) .read

theorem witness_TriggerWhileInFlightFaults : abandoned.Ready ∧ gate .wren abandoned = none ∧
    issued abandoned.params .wren = some (.writeEnable, none, 0, []) ∧
    commandOf abandoned.params .writeEnable = some (plainCommand 0x06 none .write) ∧ abandoned.inflight ≠ none ∧
    abandoned.sched = [] :=
  ⟨⟨rfl, rfl⟩, by decide, by decide, by decide, by decide, rfl⟩

/-- An engine before the first read of its completion poll, the done bit not set and set, without and with a limit. -/
def polling (intr : Word) (limit : Option Nat) : State :=
  { playing (.ip 0) .read with
    params.pollLimit := limit
    regs.intr := intr
    eng := { Engine.idle none with
      phase := .pollingCompletion
      op := some .rdid
      cont := [⟨.pollingCompletion, .poll .intr (.bits 1)⟩, ⟨.pollingCompletion, .write .intr 1⟩] } }

theorem witness_CompletionPollOnlyReads : (∀ v l, (polling v l).Safe) ∧
    (polling 0xC9E none).regs.intr.getLsbD 0 = false ∧ (polling 0xC9E none).params.pollLimit = none ∧
    (polling 0 (some 1)).params.pollLimit = some 1 ∧ (polling 0xC9F none).regs.intr.getLsbD 0 = true ∧
    (polling 0 none).eng.cont =
      [⟨.pollingCompletion, .poll .intr (.bits 1)⟩, ⟨.pollingCompletion, .write .intr 1⟩] :=
  ⟨fun _ _ => rfl, by decide, rfl, rfl, by decide, rfl⟩

/-- A read of 129 bytes, all that BACKEND can deliver of it delivered. -/
def undeliverable : State :=
  { polling 0 none with
    rxq := List.replicate 16 idEntry
    inflight := some ⟨5, 0, 0, 129, ⟨0, 0, 0, 0⟩, [], some .read, 128⟩ }

theorem witness_LongReadNeverCompletes : undeliverable.Undeliverable ∧ undeliverable.sched = [] ∧
    ({ undeliverable with sched := [.txPop] } : State).Undeliverable ∧
    ({ undeliverable with sched := [.request ⟨0x20, 0x10000000, 1, .bytes []⟩] } : State).Undeliverable ∧
    onWindowPort ⟨0x20, 0x10000000, 1, .bytes []⟩ = true ∧
    ({ undeliverable with sched := [.complete []] } : State).Undeliverable :=
  ⟨⟨rfl, rfl, ⟨_, rfl⟩, rfl, rfl, by decide, by decide, ⟨_, rfl, rfl, by decide, by decide⟩⟩, rfl,
    ⟨rfl, rfl, ⟨_, rfl⟩, rfl, rfl, by decide, by decide, ⟨_, rfl, rfl, by decide, by decide⟩⟩,
    ⟨rfl, rfl, ⟨_, rfl⟩, rfl, rfl, by decide, by decide, ⟨_, rfl, rfl, by decide, by decide⟩⟩, by decide,
    ⟨rfl, rfl, ⟨_, rfl⟩, rfl, rfl, by decide, by decide, ⟨_, rfl, rfl, by decide, by decide⟩⟩⟩

/-- V108: 24 bytes at a watermark of 16; and 128 bytes at a watermark of 24. -/
def uneven (wm : Fin 16) (es : List Entry) : State :=
  { enabled with params.wm := wm, sched := answerTurns es }

theorem witness_UnevenLongReadWaits : (∀ wm es, (uneven wm es).CanIssue .fastRead (octalCommand 0xEE 0x11 (some 20) .read)) ∧
    (watermarkBytes (uneven 1 []).params < 24 ∧ [idEntry, idEntry, idEntry].length = ceilDiv 24 8 ∧ ¬ (1 + 1) ∣ 3) ∧
    (watermarkBytes (uneven 2 []).params < 128 ∧ (List.replicate 16 idEntry).length = ceilDiv 128 8 ∧ ¬ (2 + 1) ∣ 16) :=
  ⟨fun _ _ => canIssue_enabled _ _ (by decide), by decide, by decide⟩

/-- A named read of 24 bytes at a watermark of 16. -/
def unevenNamed : State :=
  { uneven 1 (List.replicate 3 idEntry) with params.idLen := 24 }

theorem witness_UnevenLongReadWaits_named :
    unevenNamed.CanIssue .readId (octalCommand 0x9F 0x60 (some 4) .read) ∧
    (Instr.rdid, Kind.readId, Params.idLen) ∈ readOperations ∧ unevenNamed.params.idLen = 24 ∧
    watermarkBytes unevenNamed.params < 24 ∧ ¬ (unevenNamed.params.wm.val + 1) ∣ 3 ∧
    unevenNamed.params.pollLimit = none :=
  ⟨⟨⟨rfl, rfl⟩, rfl, by decide, rfl, by decide⟩, by simp [readOperations], rfl, by decide, by decide, rfl⟩

theorem witness_OperationsWithoutKind : State.reset.Ready ∧ State.reset.params.modeTag = .ramBlocking ∧ xip.Ready ∧
    xip.params.modeTag = .xipBlocking :=
  ⟨⟨rfl, rfl⟩, rfl, ⟨rfl, rfl⟩, rfl⟩

/-! ## Witnesses: FIFOs -/

/-- A pop, a push that fits exactly, a push that does not fit, both and neither. -/
theorem witness_IntrWriteMovesTheQueues : ((0x60 : Word).getLsbD 5 = true ∧ (0x60 : Word).getLsbD 6 = true) ∧
    ((0xFFFFFF9F : Word).getLsbD 5 = false ∧ (0xFFFFFF9F : Word).getLsbD 6 = false) ∧ (0x20 : Word).getLsbD 5 = true ∧ (0x20 : Word).getLsbD 6 = false ∧
    (0x40 : Word).getLsbD 5 = false ∧ (0x40 : Word).getLsbD 6 = true ∧ enabled.fault = none ∧
    enabled.rxq.length < 2 * ((enabled.regs.iprxfcr.extractLsb' 2 4).toNat + 1) ∧
    ((0x3C : Word).extractLsb' 2 4).toNat + 1 ≤ 16 - enabled.txq.length ∧
    16 - (playing (.ip 0) .write).txq.length < ((0x3C : Word).extractLsb' 2 4).toNat + 1 := by decide

theorem witness_ClearBitsEmptyTheQueues : (0x3D : Word).getLsbD 0 = true ∧ (0xFFFFFFFE : Word).getLsbD 0 = false := by
  decide

/-- Empty queues, and full ones. -/
theorem witness_FifoStatusAndWindow : enabled.fault = none ∧ enabled.rxq.length ≤ 16 ∧ enabled.txq.length ≤ 16 ∧
    (List.replicate 16 idEntry).length ≤ 16 ∧ (List.replicate 16 idEntry)[31 / 2]? = some idEntry ∧
    enabled.rxq.length ≤ (0 : Fin 32).val / 2 := by decide

/-! ## Witnesses: the window -/

/-- A consistent machine with the module disabled. -/
def disabled : State :=
  { enabled with regs.mcr0 := 0xFF000002 }

theorem consistent_enabled : enabled.Consistent where
  rxq := by decide
  txq := by decide
  intr := by decide
  flshcr2 := by decide +kernel
  iprxfcr := by decide
  iptxfcr := by decide
  sts0 := by decide
  sts1 := by decide
  sts2 := by decide
  unlocked := by decide
  inflight := by simp [enabled, State.reset]
  flash := by decide

theorem consistent_disabled : disabled.Consistent where
  rxq := by decide
  txq := by decide
  intr := by decide
  flshcr2 := by decide +kernel
  iprxfcr := by decide
  iptxfcr := by decide
  sts0 := by decide
  sts1 := by decide
  sts2 := by decide
  unlocked := by decide
  inflight := by simp [disabled, enabled, State.reset]
  flash := by decide

/-- The record with every word at its maximum (V111), and with every word 0 (V112). -/
theorem witness_AhbcfgWritesItsFields : enabled.Ready ∧ enabled.Consistent ∧ moduleDisabled enabled = false ∧
    disabled.Ready ∧ disabled.Consistent ∧ disabled.sched = [] ∧ moduleDisabled disabled = true ∧
    recordOk ahbBounds (ahbBounds.map (BitVec.ofNat 32)) = true ∧ recordOk ahbBounds (List.replicate 42 0) = true :=
  ⟨⟨rfl, rfl⟩, consistent_enabled, by decide, ⟨rfl, rfl⟩, consistent_disabled, rfl, by decide, by decide, by decide⟩

/-- The first byte of the window, the last of the device of bank 0, and none beyond it. -/
theorem witness_WindowAddressesAreTranslated : enabled.fault = none ∧ windowAdmits 0x10000000 1 enabled = true ∧
    windowAdmits 0x13FFFFFF 1 enabled = true ∧ windowAdmits 0x13FFFFFF 2 enabled = false ∧
    windowAdmits 0x0FFFFFFF 1 enabled = false ∧
    locate (fun _ => 8) 0 = some (0, 0) ∧ locate (fun _ => 8) 31 = some (3, 7) ∧ locate (fun _ => 8) 32 = none := by
  decide +kernel

/-- A command in flight at the last byte of bank 0's device, its program with an address phase. -/
def erasingLast : State :=
  { enabled with
    inflight := some ⟨2, 0, 0x3FFFFFF, 0, image (octalCommand 0x21 0xDE none .write), [], some .write, 0⟩ }

theorem witness_WindowAddressesAreTranslated_command :
    (∃ c, erasingLast.inflight = some c ∧ addressPhase (commandProgram c) = true ∧
      locate (bankSize erasingLast) c.addr.toNat = some (0, 0x3FFFFFF)) ∧ (3 : Fin 4) ≠ 0 ∧ erasingLast.fault = none ∧
    moduleDisabled erasingLast = false ∧ Memory.wf erasingLast.win.flash = true ∧ 2 ^ 40 - 1 < 2 ^ 40 ∧
    erasingLast.unsettledMcr2 = false ∧ (regWrite .mcr2 0x8000 enabled).unsettledMcr2 = true :=
  ⟨⟨_, rfl, by decide +kernel, by decide +kernel⟩, by decide, rfl, by decide, rfl, by decide, rfl, rfl⟩

/-- A program whose only RADDR stands behind a STOP: its halves, the first two the opcode pair. -/
theorem witness_WindowAddressesAreTranslated_stop :
    programHalves [⟨0x04000406, 0, 0x00000818, 0⟩] = ([0x0406, 0x0400] : List Half) ++ (0 : Half) :: [0, 0x0818, 0, 0, 0] := by
  rfl

/-- The opcode pair goes on and is no address; a STOP, a RADDR, an opcode outside R112, a program without a RADDR. -/
theorem witness_WindowAddressesAreTranslated_halves :
    decodeLut16 0x0406 = some (.cmdSdr 0 6) ∧ decodeLut16 0x0400 = some (.cmdSdr 0 0) ∧
    (∀ p b, Instr.cmdSdr 0 6 ≠ .stop p b) ∧ decodeLut16 0x0C00 = none ∧
    isAddress 0x0406 = false ∧ isAddress 0x0400 = false ∧ isAddress 0x0818 = true ∧
    (programHalves [⟨0x04000406, 0, 0, 0x2000⟩]).any isAddress = false :=
  ⟨by decide, by decide, by simp, by decide, by decide, by decide, by decide, by decide +kernel⟩

/-- R119: whether such a RADDR is reached is free; one behind the opcode pair of its slot is reached, in the first slot. -/
theorem test_address_behind_stop :
    addressPhase [⟨0x04000406, 0, 0x00000818, 0⟩] = Config.playsBeyond [0x0406, 0x0400, 0, 0, 0x0818, 0, 0, 0] ∧
    addressPhase [⟨0x04000403, 0x00000818, 0, 0x2400⟩] = true ∧ addressPhase [⟨0x04000406, 0, 0, 0x2000⟩] = false :=
  ⟨rfl, by decide +kernel, by decide +kernel⟩

/-- A command in flight without an address phase, and one with the first address outside every device. -/
theorem witness_WindowAddressesAreTranslated_no_bank :
    (∃ c, (playing (.ip 0) .write).inflight = some c ∧ addressPhase (commandProgram c) = false) ∧
    completeEnabled (playing (.ip 0) .write) = true ∧ (playing (.ip 0) .write).params.flashModel = true ∧
    (playing (.ip 0) .write).fault = none ∧ moduleDisabled (playing (.ip 0) .write) = false ∧
    ∃ c, ({ erasingLast with inflight := some ⟨2, 0, 0x4000000, 0, image (octalCommand 0x21 0xDE none .write), [], some .write,
        0⟩ } : State).inflight = some c ∧ addressPhase (commandProgram c) = true ∧
      locate (bankSize erasingLast) c.addr.toNat = none :=
  ⟨⟨_, rfl, by decide +kernel⟩, by decide, by decide, rfl, by decide, ⟨_, rfl, by decide +kernel, by decide +kernel⟩⟩

theorem witness_WinrdReturnsItsBytes : (1 : Word) ≠ 0 ∧ enabled.Safe ∧ disabled.Safe ∧
    windowAdmits 0x10000000 (1 : Word).toNat enabled = true ∧ windowAdmits 0x13FFFFFF (1 : Word).toNat disabled = true ∧
    moduleDisabled enabled = false ∧ moduleDisabled disabled = true ∧ enabled.params.flashModel = true ∧ enabled.inflight = none ∧
    enabled.win.buffered = [] :=
  ⟨by decide, rfl, rfl, by decide +kernel, by decide +kernel, by decide, by decide, rfl, rfl, rfl⟩

/-- The module enabled, BUFFERABLEEN set. -/
def buffering : State :=
  { enabled with regs.ahbcr := 0x10 }

/-- R408: the same bit by a raw write with MDIS = 0 is stored, and its use is a free value; with MDIS = 1 it is settled. -/
theorem test_raw_write_with_mdis_0 : regWrite .ahbcr 0x10 enabled = { buffering with unsettledAhbcr := true } ∧
    bufferable (regWrite .ahbcr 0x10 enabled) = Config.freeBuffering enabled.draws 0 ∧
    bufferable (regWrite .ahbcr 0x10 disabled) = true ∧
    sameDevice (regWrite .mcr2 0x8000 enabled) = Config.freeSameDevice enabled.draws ∧
    sameDevice (regWrite .mcr2 0x8000 disabled) = true :=
  ⟨rfl, rfl, by decide, rfl, by decide⟩

theorem witness_WinwrWritesItsBytes : (2 : Word) ≠ 0 ∧ (2 : Word).toNat = ([1, 2] : List Byte).length ∧ enabled.Safe ∧
    enabled.params.modeTag = .ramBlocking ∧ windowAdmits 0x10000000 (2 : Word).toNat enabled = true ∧
    Memory.wf enabled.win.flash = true ∧ moduleDisabled enabled = false ∧
    bufferable enabled = false ∧ buffering.Safe ∧ windowAdmits 0x10000000 (2 : Word).toNat buffering = true ∧
    bufferable buffering = true ∧ disabled.Safe ∧ windowAdmits 0x10000000 (2 : Word).toNat disabled = true ∧
    moduleDisabled disabled = true ∧ buffering.unsettledAhbcr = false ∧
    (regWrite .ahbcr 0x10 enabled).unsettledAhbcr = true ∧ (regWrite .ahbcr 0x10 enabled).Safe ∧
    windowAdmits 0x10000000 (2 : Word).toNat (regWrite .ahbcr 0x10 enabled) = true :=
  ⟨by decide, by decide, rfl, rfl, by decide +kernel, by decide, by decide, by decide, rfl, by decide +kernel,
    by decide, rfl, by decide +kernel, by decide, rfl, rfl, rfl, by decide +kernel⟩

/-- A read of two bytes at its first and at its last byte, a write of two bytes at its first and at its last, a buffered
write at its first byte and at its last. -/
theorem witness_WaitingAccessIsServedByBytes : moduleDisabled enabled = false ∧ Memory.wf enabled.win.flash = true ∧
    enabled.params.flashModel = true ∧ enabled.Safe ∧ enabled.inflight = none ∧ enabled.win.buffered = [] ∧
    bufferable enabled = false ∧
    (∀ a b : WinAccess, ({ enabled with win.waiting := [a, b] } : State).win.waiting[1]? = some b) ∧
    (∀ w : BufferedWrite, ({ enabled with win.buffered := [w] } : State).win.buffered[0]? = some w) ∧
    ((⟨0x10000010, [1, 2], 0⟩ : BufferedWrite).landed + 1 < [1, 2].length ∧
      (⟨0x10000010, [1, 2], 1⟩ : BufferedWrite).landed + 1 = [1, 2].length) ∧
    (([] : List Byte).length < 1 ∧ ([] : List Byte).length + 1 < 2 ∧ ([7] : List Byte).length + 1 = 2) ∧
    (0 + 1 < ([1, 2] : List Byte).length ∧ 1 + 1 = ([1, 2] : List Byte).length ∧ ([1, 2] : List Byte)[1]? = some 2) ∧
    windowKey enabled ((0x10000010 : Word).toNat + 1) = some 0x11 ∧
    bufferable buffering = true ∧ moduleDisabled buffering = false ∧ Memory.wf buffering.win.flash = true ∧
    (∀ a b : WinAccess, ({ buffering with win.waiting := [a, b] } : State).win.waiting[1]? = some b) ∧
    buffering.unsettledAhbcr = false ∧ (regWrite .ahbcr 0x10 enabled).unsettledAhbcr = true :=
  ⟨by decide, by decide, rfl, rfl, rfl, rfl, by decide, fun _ _ => rfl, fun _ => rfl, by decide, by decide, by decide,
    by decide +kernel, by decide, by decide, rfl, fun _ _ => rfl, rfl, rfl⟩

theorem witness_XwriteBuildsAndStores : enabled.Ready ∧ enabled.sched = [] ∧
    commandOf enabled.params .pageProgram = some (octalCommand 0x12 0xED none .write) ∧
    windowAdmits 0x13FFFFFF 1 enabled = true ∧ Memory.wf enabled.win.flash = true ∧ bufferable enabled = false ∧
    moduleDisabled enabled = false ∧ buffering.Ready ∧ windowAdmits 0x13FFFFFF 1 buffering = true ∧
    bufferable buffering = true ∧ moduleDisabled buffering = false ∧ disabled.Ready ∧
    windowAdmits 0x13FFFFFF 1 disabled = true ∧ moduleDisabled disabled = true :=
  ⟨⟨rfl, rfl⟩, rfl, by decide, by decide +kernel, by decide, by decide, by decide, ⟨rfl, rfl⟩, by decide +kernel,
    by decide, by decide, ⟨rfl, rfl⟩, by decide +kernel, by decide⟩

theorem witness_WindowRoundTrip : enabled.params.flashModel = true ∧ Memory.wf enabled.win.flash = true ∧ enabled.Ready ∧
    moduleDisabled enabled = false ∧ bufferable enabled = false ∧ enabled.unsettledMcr2 = false ∧
    enabled.inflight = none ∧ enabled.win.buffered = [] ∧ enabled.params.modeTag = .ramBlocking ∧
    windowAdmits 0x13FFFFFE (2 : Word).toNat enabled = true ∧ (2 : Word).toNat = ([0xFF, 0] : List Byte).length ∧
    commandOf enabled.params .pageProgram = some (octalCommand 0x12 0xED none .write) ∧ enabled.sched = [] ∧
    windowAdmits 0x13FFFFFF 1 enabled = true :=
  ⟨rfl, by decide, ⟨rfl, rfl⟩, by decide, by decide, rfl, rfl, rfl, rfl, by decide +kernel, by decide, by decide, rfl,
    by decide +kernel⟩

/-! ## Witnesses: timing -/

/-- One record for each branch of `dll_value`, at the edge of the range. -/
theorem witness_DllValueFormula : (2 ≤ 3 ∧ 1 ≤ 1 ∧ 4294967295 < 2 ^ 32 ∧ 2 ≤ 2) ∧
    ((⟨3, 100000000, 4294967295, 0⟩ : ControllerRecord).secondaryClockEn = 0) ∧
    ((⟨3, 100000000, 4294967295, 1⟩ : ControllerRecord).secondaryClockEn = 1 ∧ 100000000 ≤ 100000000) ∧
    99999999 < 100000000 := by decide

theorem witness_DllcalcReturnsTheValue : State.reset.Ready ∧ (3 : Word).toNat ≤ 3 ∧ (1 : Word).toNat ≤ 1 ∧
    3 < (4 : Word).toNat ∧ 1 < (2 : Word).toNat :=
  ⟨⟨rfl, rfl⟩, by decide, by decide, by decide, by decide⟩

/-- The two bindings of V127 (both sequence rows, port A) and V128 (one sequence row, port B), with their schedules. -/
def calibrating (b : Binding) : State :=
  { disabled with
    params.binding := b
    sched := List.replicate (7 + (if b.ardSeqCount = 0 then 0 else 1) + (if b.awrSeqCount = 0 then 0 else 1)) .engine ++
      [.lock (portIndex b.port) true true] }

theorem consistent_calibrating (b : Binding) : (calibrating b).Consistent :=
  let h := consistent_disabled
  ⟨h.rxq, h.txq, h.intr, h.flshcr2, h.iprxfcr, h.iptxfcr, h.sts0, h.sts1, h.sts2, h.unlocked, h.inflight, h.flash⟩

theorem witness_DevcfgConfiguresTheBank : (∀ b, (calibrating b).Ready ∧ (calibrating b).Consistent) ∧
    recordOk controllerBounds [3, 0xFFFFFFFF, 0xFFFFFFFF, 1] = true ∧ recordOk controllerBounds [0, 0, 0, 0] = true ∧
    bindingWithin illustrativeBinding = true ∧ bindingWithin bindingB = true ∧ bindingB.awrSeqCount = 0 ∧
    (calibrating bindingB).params.binding = bindingB ∧ (calibrating bindingB).regs.sts0 &&& 3 = 3 :=
  ⟨fun _ => ⟨⟨rfl, rfl⟩, consistent_calibrating _⟩, by decide, by decide, by decide, by decide, rfl, rfl, by decide⟩

/-- A busy arbiter, and an idle one with no DLL that ever locks, without a limit and with the smallest ones. -/
def neverLocking (sts0 : Word) (limit : Option Nat) : State :=
  { disabled with params.binding := bindingB, params.pollLimit := limit, regs.sts0 := sts0 }

theorem witness_DevcfgConfiguresTheBank_waits :
    (∀ x l, (neverLocking x l).Ready ∧ (neverLocking x l).sched = [] ∧ (neverLocking x l).params.pollLimit = l) ∧
    (∀ l, (neverLocking 2 l).Consistent ∧ (neverLocking 3 l).Consistent) ∧
    (2 : Word) &&& 3 ≠ 3 ∧ (3 : Word) &&& 3 = 3 ∧
    (after (.devcfg [3, 48000000, 2, 1]) (neverLocking 2 none)).eng.phase = .configuring ∧
    (after (.devcfg [3, 48000000, 2, 1]) (neverLocking 3 (some 4))).eng.result = some ⟨0x00030007, 4, []⟩ :=
  let h := consistent_disabled
  ⟨fun _ _ => ⟨⟨rfl, rfl⟩, rfl, rfl⟩, fun _ =>
    ⟨⟨h.rxq, h.txq, h.intr, h.flshcr2, h.iprxfcr, h.iptxfcr, (by decide : (2 : Word) &&& ~~~0x0000000F = 0), h.sts1, h.sts2,
        h.unlocked, by simp [neverLocking, disabled, enabled, State.reset], h.flash⟩,
      ⟨h.rxq, h.txq, h.intr, h.flshcr2, h.iprxfcr, h.iptxfcr, (by decide : (3 : Word) &&& ~~~0x0000000F = 0), h.sts1, h.sts2,
        h.unlocked, by simp [neverLocking, disabled, enabled, State.reset], h.flash⟩⟩,
    by decide, by decide, by decide +kernel, by decide +kernel⟩

/-! ## Witnesses: the register demux -/

theorem witness_OffsetsDecodeByTheTable : decodeReg 0x3DC = some (.lut 119) ∧ decodeReg 0x000 = some .mcr0 ∧
    decodeReg 0x0C4 = some (.dllcr 1) ∧ decodeReg 0x1FC = some (.tfdr 31) := by decide +kernel

/-- Each hole of R295 at its ends, and a misaligned offset. -/
theorem witness_BadOffsetsAreRefused : State.reset.Ready ∧ (0x3DF : Word).toNat % 4 ≠ 0 ∧
    (0x040 ≤ (0x040 : Word).toNat ∧ (0x040 : Word).toNat ≤ 0x05C) ∧
    (0x040 ≤ (0x05C : Word).toNat ∧ (0x05C : Word).toNat ≤ 0x05C) ∧
    ((0x0FC : Word).toNat ∈ [0x090, 0x098, 0x09C, 0x0A8, 0x0AC, 0x0F8, 0x0FC]) ∧
    (0x0C8 ≤ (0x0C8 : Word).toNat ∧ (0x0DC : Word).toNat ≤ 0x0DC) ∧ 0x3E0 ≤ (0x3E0 : Word).toNat ∧
    0x3E0 ≤ (0xFFFFFFFC : Word).toNat :=
  ⟨⟨rfl, rfl⟩, by decide, by decide, by decide, by decide, by decide, by decide, by decide⟩

theorem witness_RegrdReadsTheRegister : State.reset.Ready ∧ State.reset.sched = [] ∧
    decodeReg 0x000 = some .mcr0 ∧ regShows .mcr0 State.reset = some 2 ∧
    decodeReg 0x100 = some (.rfdr 0) ∧ regShows (.rfdr 0) State.reset = none ∧ decodeReg 0x3DC = some (.lut 119) :=
  ⟨⟨rfl, rfl⟩, rfl, by decide +kernel, by decide, by decide +kernel, by decide, by decide +kernel⟩

theorem witness_RegwrWritesTheRegister : abandoned.Ready ∧ abandoned.sched = [] ∧ decodeReg 0x0B0 = some .ipcmd ∧
    (1 : Word).getLsbD 0 = true ∧ abandoned.inflight ≠ none ∧ enabled.Ready ∧ enabled.inflight = none ∧
    decodeReg 0x200 = some (.lut 0) :=
  ⟨⟨rfl, rfl⟩, rfl, by decide +kernel, by decide, by decide, ⟨rfl, rfl⟩, rfl, by decide +kernel⟩

theorem witness_RegisterWritesAreReadBack : plainRegister .mcr1 = true ∧ plainRegister (.flshcr1 3) = true ∧
    readOnlyRegister .sts0 = true ∧ readOnlyRegister (.rfdr 31) = true ∧ (0xFFFFFFFD : Word).getLsbD 1 = false ∧
    (2 : Word).getLsbD 1 = true ∧ (0xFFFFFFFE : Word).getLsbD 0 = false ∧ (0x7FFFFFFF : Word).getLsbD 31 = false ∧
    (0x80000000 : Word).getLsbD 31 = true ∧ (1 : Word).getLsbD 0 = true ∧ abandoned.inflight ≠ none ∧
    enabled.inflight = none ∧ enabled.fault = none ∧ ((0x001D0000 : Word).extractLsb' 16 5).toNat = (29 : Fin 30).val ∧
    30 ≤ ((0x001E0000 : Word).extractLsb' 16 5).toNat ∧
    (∀ j < ((0x07160000 : Word).extractLsb' 24 3).toNat, ∃ n : Fin 30,
      ((0x07160000 : Word).extractLsb' 16 5).toNat + 1 + j = n.val) ∧
    ((0x07160000 : Word).extractLsb' 16 5).toNat + ((0x07160000 : Word).extractLsb' 24 3).toNat < 30 := by decide

theorem witness_FieldUpdateFiresNothingElse : enabled.Consistent ∧ ((0x70000000 : Word) &&& ~~~0x70000000 = 0) ∧
    (0x70000000 : Word).getLsbD 31 = false ∧ (0xFF000000 : Word).getLsbD 1 = false ∧
    (0x0000003E : Word).getLsbD 0 = false ∧ ((0x80000000 : Word) &&& ~~~0x80000000 = 0) ∧
    (((2 : Word) &&& ~~~2 = 0) ∧ (2 : Word).getLsbD 1 = true) ∧ (((0 : Word) &&& ~~~2 = 0) ∧ (0 : Word).getLsbD 1 = false) ∧
    (((1 : Word) &&& ~~~1 = 0) ∧ (1 : Word).getLsbD 0 = true) :=
  ⟨consistent_enabled, by decide, by decide, by decide, by decide, by decide, by decide, by decide, by decide⟩

/-! ## Witnesses: errors, the gate, the machine -/

/-- The lowest error bit, the highest alone, and none. -/
theorem witness_ErrclsReportsTheLowestBit : enabled.Ready ∧ enabled.sched = [] ∧
    (∀ b : ErrBit, enabled.regs.intr.getLsbD (errPos b) = false) ∧
    (0xC9E : Word).getLsbD (errPos .ipCmdGe) = true ∧ (∀ b' : ErrBit, ¬ errPos b' < errPos .ipCmdGe) ∧
    (0x800 : Word).getLsbD (errPos .seqTimeout) = true ∧
    (∀ b' : ErrBit, errPos b' < errPos .seqTimeout → (0x800 : Word).getLsbD (errPos b') = false) :=
  ⟨⟨rfl, rfl⟩, rfl, by intro b; cases b <;> decide, by decide, by intro b; cases b <;> decide, by decide,
    by intro b; cases b <;> decide⟩

theorem witness_InterruptOutput : enabled.fault = none ∧
    irq { enabled with regs.intr := 0x800, regs.inten := 0x800 } = true := by decide +kernel

theorem witness_XipRefusesBeforeAnyWrite : xip.params.modeTag = .xipBlocking ∧ xip.Ready ∧ xip.Safe :=
  ⟨rfl, ⟨rfl, rfl⟩, rfl⟩

/-- One request for each check and each operation it can refuse, at the edge of the range where there is one. -/
theorem witness_RefusalsArePrecise_when :
    (List.replicate 41 (0 : Word)).length ≠ 42 ∧ 15 < recordWord [16] 0 ∧
    1 < recordWord (List.replicate 41 0 ++ [2]) 41 ∧ 3 < recordWord [4, 0, 0, 0] 0 ∧ 1 < recordWord [3, 0, 0, 2] 3 ∧
    bindingWithin { illustrativeBinding with ardSeqId := 29, ardSeqCount := 2 } = false ∧
    (kindList.all fun k => decide (commandOf { enabled.params with cmdTable := Vector.replicate 16 none } k = none)) = true ∧
    windowAdmits 0x14000000 1 enabled = false ∧ windowAdmits 0x13FFFFFF (2 : Word).toNat enabled = false ∧
    Kind.fastRead ≠ .pageProgram ∧ 65535 < (65536 : Word).toNat ∧ (65535 : Word).toNat ≤ 65535 ∧
    ([1] : List Byte) ≠ [] ∧ 4 < (5 : Word).toNat ∧ 4 < ([1, 2, 3, 4, 5] : List Byte).length ∧
    commandOf enabled.params .readCfg3 = none ∧ commandOf enabled.params .writeCfg3 = none ∧
    (illustrativeTable.set 1 (some (plainCommand 0x05 none .write)))[1] = some (plainCommand 0x05 none .write) ∧
    (windowAccess (.winrd 0 0)).isSome = true ∧ (0 : Word) = 0 ∧ (2 : Word).toNat ≠ ([1] : List Byte).length := by
  decide +kernel

theorem witness_RefusalsArePrecise : operationPort (.regrd 2) = true ∧ State.reset.Ready ∧
    gate (.regrd 2) State.reset = some .badAccess ∧ gate (.rdcfg3) State.reset = some .unsupported ∧
    gate (.dllcalc []) State.reset = some .badOperand ∧ gate .wren xip = some .illegalInMode :=
  ⟨by decide, ⟨rfl, rfl⟩, by decide, by decide, by decide, by decide⟩

/-- The sticky fault, on an engine that polls. -/
def faulted : State :=
  { polling 0 none with fault := some .overlap }

theorem witness_AcceptanceAndOverlap : operationPort .wren = true ∧ faulted.fault ≠ none ∧
    (polling 0 none).fault = none ∧ (polling 0 none).eng.phase ≠ .idle := by decide

/-- V95: requests between two micro-steps, on port OP and on the window port, decodable and not, allowed and refused. -/
theorem witness_AcceptanceAndOverlap_between :
    onWindowPort ⟨0x3, 0, 0, .bytes []⟩ = false ∧ onWindowPort ⟨0x3F, 0, 0, .bytes []⟩ = false ∧
    onWindowPort ⟨0x20, 0x10000000, 1, .bytes []⟩ = true ∧
    decodeRequest ⟨0x20, 0x10000000, 1, .bytes []⟩ = .ok (.winrd 0x10000000 1) ∧
    decodeRequest ⟨0x120, 0x10000000, 1, .bytes []⟩ = .error .reservedField ∧
    onWindowPort ⟨0x120, 0x10000000, 1, .bytes []⟩ = true ∧ (polling 0 none).Safe ∧
    windowAccess (.winrd 0x10000000 1) = some (.read 0x10000000 1 []) ∧
    gate (.winrd 0x10000000 1) (polling 0 none) = none ∧ gate (.winrd 0 1) (polling 0 none) = some .badAccess ∧
    decodeRequest ⟨0x3, 0, 0, .bytes []⟩ = .ok .wren ∧ windowAccess .wren = none ∧
    (run { polling 0 none with sched := [.request ⟨0x3, 0, 0, .bytes []⟩] }).fault = some .overlap :=
  ⟨by decide, by decide, by decide, by decide, by decide, by decide, rfl, rfl, by decide +kernel, by decide +kernel,
    by decide, rfl, by decide +kernel⟩

/-- Under the sticky fault a window read still has its result. -/
theorem witness_FaultIsSticky_window : onWindowPort ⟨0x20, 0, 0, .bytes []⟩ = true ∧
    onWindowPort ⟨0x3, 0, 0, .bytes []⟩ = false ∧
    (nextOf (step { faulted with sched := [.request ⟨0x20, 0, 0, .bytes []⟩] }) faulted).eng.result =
      some ⟨0x00030004, 0, []⟩ := by decide +kernel

theorem witness_FaultIsSticky : step faulted = .next faulted ∧ faulted.fault ≠ none ∧
    faulted.sched.head? ≠ some .reset ∧ step { faulted with sched := [.reset] } = .next (envStep .reset faulted) ∧
    ({ faulted with sched := [.reset] } : State).sched.head? = some .reset :=
  ⟨rfl, by decide, by decide, rfl, by decide⟩

/-- Every guard failing, and the accesses be_ahb serves. -/
theorem witness_BackendMoves_guards : State.reset.inflight = none ∧ State.reset.regs.mcr0.getLsbD 1 = true ∧
    16 ≤ (List.replicate 16 idEntry).length ∧ some Dir.write ≠ some Dir.read ∧ (3 : BitVec 16).toNat ≤ 3 ∧
    2 < (3 : BitVec 16).toNat ∧ (playing (.ip 0) .read).inflight ≠ none ∧
    (∀ a : WinAccess, ({ enabled with win.waiting := [a] } : State).win.waiting[0]? = some a) ∧
    enabled.win.waiting.length ≤ 0 ∧ enabled.win.buffered.length ≤ 0 ∧ bufferable buffering = true ∧
    bufferable enabled = false ∧ Memory.wf enabled.win.flash = true ∧ enabled.params.flashModel = true ∧
    State.reset.params.flashModel = false ∧ enabled.Safe ∧ enabled.inflight = none ∧ enabled.win.buffered = [] ∧
    (windowKey enabled 0x10000000).isSome = true ∧ (windowKey enabled 0x14000000).isSome = false :=
  ⟨rfl, by decide, by decide, by decide, by decide, by decide, by decide, fun _ => rfl, by decide, by decide, by decide,
    by decide, rfl, rfl, rfl, rfl, rfl, rfl, by decide +kernel, by decide +kernel⟩

/-- A read in flight before its last byte and after it, and a write in flight. -/
theorem witness_BackendMoves : (playing (.ip 0) .read).inflight = some ⟨4, 0, 0, 3, ⟨0, 0, 0, 0⟩, [], some .read, 0⟩ ∧
    0 < (3 : BitVec 16).toNat ∧ (playing (.ip 0) .read).rxq.length < 16 ∧ (playing (.ip 0) .read).regs.mcr0.getLsbD 1 = false ∧
    (some Dir.write = some Dir.read → (3 : BitVec 16).toNat ≤ 0) ∧ enabled.inflight = none := by decide

theorem witness_BackendNeverWrites : (∀ r, Event.txPop ≠ .request r) ∧ (∀ n, Event.txPop ≠ .dmaPop n) ∧
    (∀ es, Event.txPop ≠ .dmaPush es) ∧ Event.txPop ≠ .reset ∧ Reg.mcr0 ≠ .intr ∧ readOnlyRegister .mcr0 = false := by
  simp [readOnlyRegister]

theorem witness_LutInstructionsPlay : playsCommand (playing (.ahbRead 7) .read).player.source = false ∧
    playsCommand (playing (.ip 7) .read).player.source = true ∧ rxPushEnabled (playing (.ip 0) .read) = true ∧
    rxPushEnabled (playing (.ip 0) .write) = false ∧ moduleDisabled (playing (.ip 0) .write) = false ∧
    moduleDisabled disabled = true := by decide

/-- Nothing to play (the module disabled), an opcode outside R112, an operation in progress, and none. -/
theorem witness_StepRunsTheDecodedInstruction_rest : fetchHalf 0 (.ip 0) State.reset = none ∧
    (fetchHalf 0 (.ahbRead 0) (placeHalf 0x0C00 State.reset)).map Prod.fst = some 0x0C00 ∧ decodeLut16 0x0C00 = none ∧
    (polling 0 none).fault = none ∧ (polling 0 none).eng.phase ≠ .idle ∧ faulted.fault ≠ none ∧
    State.reset.eng.phase = .idle :=
  ⟨by decide, by decide +kernel, by decide, rfl, by decide, by decide, rfl⟩

theorem witness_StepRunsTheDecodedInstruction : decodeRequest ⟨0x1E, 0, 0, .bytes []⟩ = .ok .errcls ∧
    decodeRequest ⟨0x3F, 0, 0, .bytes []⟩ = .error (.unknownOp 0x3F) ∧
    (fetchHalf 0 (.ahbRead 0) (placeHalf 0xA700 State.reset)).map Prod.fst = some 0xA700 ∧
    decodeLut16 0xA700 = some (.readDdr 3 0) ∧ (∀ r rest, State.reset.sched ≠ .request r :: rest) ∧
    (∀ k src rest, State.reset.sched ≠ .play k src :: rest) :=
  ⟨by decide, by decide, by decide +kernel, by decide, by simp [State.reset], by simp [State.reset]⟩

theorem witness_PlacedWordRuns : decodeTableWord 16 0xB000 = some (.dummyDdr 0 0) ∧
    decodeTableWord 32 0x21 = some (.winwr 0 0 []) := by decide

theorem witness_StepKeepsConsistency : enabled.Consistent ∧ step { enabled with sched := [.txPop] } = .next enabled ∧
    ({ enabled with sched := [.txPop] } : State).sched ≠ [] :=
  ⟨consistent_enabled, rfl, by simp⟩

/-- An engine in the middle of an operation. -/
theorem witness_StepKeepsControlCoherent : (polling 0 none).Coherent ∧ step (polling 0 none) = .next (polling 0 none) :=
  ⟨⟨by decide, by decide, fun _ => ⟨by decide, _, _, rfl, rfl⟩⟩, by rfl⟩

theorem witness_ParametersNeverChange : step State.reset = .next State.reset := by rfl

end Sys2Proof.Tests
end

/-!
PROOFS of O51 and O52. What BACKEND may write (R70), as one relation that every move of envStep meets, and the values after
reset (R71, R72).
-/

namespace Sys2Proof.Machine

/-! ## The moves R70 allows -/

/-- The state without the fields R63 to R69 and R92 let BACKEND write: two states with the same rest differ in those only. -/
def State.restOfBackend (s : State) : State :=
  { s with
    regs.intr := 0, regs.sts0 := 0, regs.sts1 := 0, regs.sts2 := 0, regs.ahbspndsts := 0
    seqptr := State.reset.seqptr, rxq := [], txq := [], inflight := none
    win := State.reset.win, player := State.reset.player, draws := 0 }

/-- `t` comes from `s` by moves R70 allows: outside BACKEND's fields nothing differs, no INTR bit is cleared, RXQ has only
grown, TXQ has only been popped, and the command in flight has ended, or goes on with another count of bytes delivered. -/
structure State.MovedByBackend (s t : State) : Prop where
  rest : t.restOfBackend = s.restOfBackend
  intr : s.regs.intr &&& t.regs.intr = s.regs.intr
  rxq : s.rxq <+: t.rxq
  txq : t.txq <:+ s.txq
  inflight : t.inflight = none ∨ ∃ c n, s.inflight = some c ∧ t.inflight = some { c with delivered := n }

/-- `t` comes from `s` by such moves, and a window access may have had its result at the end of them (R69, R360). -/
def State.ServedByBackend (s t : State) : Prop :=
  ∃ u r, s.MovedByBackend u ∧ t = { u with eng.result := r }

namespace State.MovedByBackend

/-- A move that touches neither INTR, nor the queues, nor the command in flight. -/
theorem of_same {s t : State} (rest : t.restOfBackend = s.restOfBackend := by rfl)
    (intr : t.regs.intr = s.regs.intr := by rfl) (rxq : t.rxq = s.rxq := by rfl) (txq : t.txq = s.txq := by rfl)
    (inflight : t.inflight = s.inflight := by rfl) : s.MovedByBackend t where
  rest := rest
  intr := by rw [intr, BitVec.and_self]
  rxq := by rw [rxq]
  txq := by rw [txq]
  inflight := by
    rw [inflight]
    cases s.inflight with
    | none => exact .inl rfl
    | some c => exact .inr ⟨c, c.delivered, rfl, rfl⟩

theorem refl (s : State) : s.MovedByBackend s := of_same

theorem trans {s t u : State} (h : s.MovedByBackend t) (h' : t.MovedByBackend u) : s.MovedByBackend u where
  rest := h'.rest.trans h.rest
  intr := by
    calc s.regs.intr &&& u.regs.intr
        = s.regs.intr &&& (t.regs.intr &&& u.regs.intr) := by rw [← BitVec.and_assoc, h.intr]
      _ = s.regs.intr := by rw [h'.intr, h.intr]
  rxq := h.rxq.trans h'.rxq
  txq := h'.txq.trans h.txq
  inflight := by
    rcases h'.inflight with hu | ⟨c', n', ht', hu⟩
    · exact .inl hu
    · rcases h.inflight with ht | ⟨c, n, hs, ht⟩
      · simp [ht] at ht'
      · obtain rfl : { c with delivered := n } = c' := Option.some.inj (ht.symm.trans ht')
        exact .inr ⟨c, n', hs, hu⟩

theorem eng {s t : State} (h : s.MovedByBackend t) : t.eng = s.eng := (congrArg State.eng h.rest :)

theorem served {s t : State} (h : s.MovedByBackend t) : s.ServedByBackend t :=
  ⟨t, t.eng.result, h, rfl⟩

end State.MovedByBackend

open State (MovedByBackend ServedByBackend)

/-! ## The moves R63 to R68 -/

theorem or_keeps_bits (x m : Word) : x &&& (x ||| m) = x := by
  ext i hi
  simp +contextual

theorem sizesDrawn_moved {s t : State} (h : s.MovedByBackend t) : s.MovedByBackend (sizesDrawn t) := by
  obtain ⟨d, hd⟩ := sizesDrawn_frame t
  rw [hd]
  exact h.trans .of_same

theorem beRxPush_moved (e : Entry) (s : State) : s.MovedByBackend (beRxPush e s) := by
  unfold beRxPush
  split
  next => exact .refl s
  next c hc =>
    split
    · exact { MovedByBackend.refl s with rest := rfl, rxq := ⟨[e], rfl⟩, inflight := .inr ⟨c, _, hc, rfl⟩ }
    · exact .refl s

theorem beTxPop_moved (s : State) : s.MovedByBackend (beTxPop s) := by
  unfold beTxPop
  split
  · exact .refl s
  · exact { MovedByBackend.refl s with rest := rfl, txq := List.drop_suffix 1 s.txq }

theorem beComplete_moved (device : List Host.Cell) (s : State) : s.MovedByBackend (beComplete device s) := by
  unfold beComplete
  split
  · exact .refl s
  · split
    · exact sizesDrawn_moved
        { MovedByBackend.refl s with rest := rfl, intr := or_keeps_bits _ _, inflight := .inl rfl }
    · exact .refl s

theorem beError_moved (b : ErrBit) (code : BitVec 4) (id : BitVec 5) (onAhb : Bool) (s : State) :
    s.MovedByBackend (beError b code id onAhb s) :=
  { MovedByBackend.refl s with rest := rfl, intr := or_keeps_bits _ _ }

theorem beArb_moved (seqIdle arbIdle : Bool) (src : BitVec 2) (s : State) :
    s.MovedByBackend (beArb seqIdle arbIdle src s) := by
  unfold beArb
  split
  · exact .of_same
  · exact .refl s

theorem beLock_moved (p : Fin 2) (slave reference : Bool) (s : State) :
    s.MovedByBackend (beLock p slave reference s) := by
  unfold beLock
  split
  · exact .refl s
  · exact .of_same

/-! ## be_ahb -/

theorem ahbMoves_moved {s t : State} (h : s.MovedByBackend t) : s.MovedByBackend (ahbMoves t) := h.trans .of_same

theorem landWrite_moved (addr : Word) (data : List Byte) (landed : Nat) (s : State) :
    s.MovedByBackend (landWrite addr data landed s) :=
  ahbMoves_moved (sizesDrawn_moved .of_same)

theorem memWrite_moved (addr : Word) (data : List Byte) (landed : Nat) (s : State) :
    s.MovedByBackend (memWrite addr data landed s) := by
  unfold memWrite
  split
  · exact .of_same
  · exact landWrite_moved addr data landed s

theorem serveAccess_served (a : WinAccess) (s : State) : s.ServedByBackend (serveAccess a s) := by
  cases a with
  | read addr n got => exact ⟨(memRead addr n got s).2, _, .of_same, rfl⟩
  | write addr data landed => exact ⟨memWrite addr data landed s, _, memWrite_moved addr data landed s, rfl⟩

theorem beAhbServe_served (i : Nat) (s : State) : s.ServedByBackend (beAhbServe i s) := by
  unfold beAhbServe
  split
  next => exact (ahbMoves_moved (.refl s)).served
  next a _ =>
    obtain ⟨u, r, hu, h⟩ := serveAccess_served a { s with win.waiting := s.win.waiting.eraseIdx i }
    exact ⟨u, r, .trans .of_same hu, h⟩

theorem beAhbByte_served (i : Nat) (s : State) : s.ServedByBackend (beAhbByte i s) := by
  unfold beAhbByte
  split
  next => exact (ahbMoves_moved (.refl s)).served
  next =>
    split
    · exact beAhbServe_served i s
    · exact (ahbMoves_moved .of_same).served
  next =>
    split
    · exact beAhbServe_served i s
    · exact (ahbMoves_moved (sizesDrawn_moved .of_same)).served

theorem beAhbLand_moved (i : Nat) (s : State) : s.MovedByBackend (beAhbLand i s) := by
  unfold beAhbLand
  split
  · exact ahbMoves_moved (.refl s)
  · exact .trans .of_same (landWrite_moved _ _ _ _)

theorem beAhbLandByte_moved (i : Nat) (s : State) : s.MovedByBackend (beAhbLandByte i s) := by
  unfold beAhbLandByte
  split
  · exact ahbMoves_moved (.refl s)
  · split
    · exact beAhbLand_moved i s
    · exact ahbMoves_moved (sizesDrawn_moved .of_same)

/-! ## Playing a LUT half -/

theorem moveSeqPtr_moved (s : State) : s.MovedByBackend (moveSeqPtr s) := .of_same

theorem beRxPushDrawn_moved (s : State) : s.MovedByBackend (beRxPushDrawn s) := by
  unfold beRxPushDrawn
  split
  · exact (beRxPush_moved (drawnEntry s.draws) s).trans .of_same
  · exact .refl s

theorem playPhase_moved (ph : LutPhase) (s : State) : s.MovedByBackend (playPhase ph s) := by
  have hm := moveSeqPtr_moved s
  cases ph with
  | dataRead =>
    simp only [playPhase]
    split
    · exact hm.trans (beRxPushDrawn_moved _)
    · exact hm
  | dataWrite =>
    simp only [playPhase]
    split
    · exact hm.trans (beTxPop_moved _)
    · exact hm
  | nothing | command | address | dummy => exact hm

theorem playUnknown_moved (slot : BitVec 5) (s : State) : s.MovedByBackend (playUnknown slot s) := by
  have hm := moveSeqPtr_moved s
  have hraise (b : ErrBit) (code : BitVec 4) : s.MovedByBackend
      (if Config.freeBool (moveSeqPtr s).draws then beError b code slot false (moveSeqPtr s) else moveSeqPtr s) := by
    split
    · exact hm.trans (beError_moved b code slot false _)
    · exact hm
  exact (hraise _ _).trans .of_same

/-- The fetch of a half changes nothing but the count of draws. -/
theorem fetchHalf_frame {k : Fin 4} {src : SeqSource} {s s1 : State} {h : Half} {slot : BitVec 5}
    (hf : fetchHalf k src s = some (h, slot, s1)) : ∃ d, s1 = { s with draws := d } := by
  cases src with
  | ip j =>
    simp only [fetchHalf] at hf
    repeat' split at hf
    all_goals simp only [reduceCtorEq, Option.some.injEq, Prod.mk.injEq] at hf
    obtain ⟨-, -, rfl⟩ := hf
    exact sizesDrawn_frame s
  | ahbRead j | ahbWrite j =>
    simp only [fetchHalf] at hf
    repeat' split at hf
    all_goals simp only [reduceCtorEq, Option.some.injEq, Prod.mk.injEq] at hf
    obtain ⟨-, -, rfl⟩ := hf
    exact fetchSlot_frame _ s

theorem bePlay_moved (k : Fin 4) (src : SeqSource) (s : State) : s.MovedByBackend (bePlay k src s) := by
  unfold bePlay
  split
  next => exact .refl s
  next h slot s1 hf =>
    have hfetch : s.MovedByBackend { s1 with player := ⟨k, src⟩ } := by
      obtain ⟨d, rfl⟩ := fetchHalf_frame hf
      exact .of_same
    split
    · exact hfetch.trans (playPhase_moved _ _)
    · exact hfetch.trans (playUnknown_moved _ _)

/-! ## Every move of BACKEND -/

/-- Every turn but a request, DMA's and RESET, and but the two that can end a window access, is a move R70 allows. -/
theorem envStep_moved {s : State} {ev : Event} (hreq : ∀ r, ev ≠ .request r) (hpop : ∀ n, ev ≠ .dmaPop n)
    (hpush : ∀ es, ev ≠ .dmaPush es) (hreset : ev ≠ .reset) (hserve : ∀ i, ev ≠ .ahbServe i ∧ ev ≠ .ahbByte i) :
    s.MovedByBackend (envStep ev s) := by
  cases ev with
  | engine => exact .refl s
  | request r => exact absurd rfl (hreq r)
  | access r => exact .refl s
  | rxPush e => exact beRxPush_moved e s
  | txPop => exact beTxPop_moved s
  | complete device => exact beComplete_moved device s
  | error b code id onAhb => exact beError_moved b code id onAhb s
  | arb seqIdle arbIdle src => exact beArb_moved seqIdle arbIdle src s
  | lock p slave reference => exact beLock_moved p slave reference s
  | ahbServe i => exact absurd rfl (hserve i).1
  | ahbByte i => exact absurd rfl (hserve i).2
  | ahbLand i => exact beAhbLand_moved i s
  | ahbLandByte i => exact beAhbLandByte_moved i s
  | play k src => exact bePlay_moved k src s
  | dmaPop n => exact absurd rfl (hpop n)
  | dmaPush es => exact absurd rfl (hpush es)
  | reset => exact absurd rfl hreset

/-- The two turns that can end a window access may give it its result besides. -/
theorem envStep_served {s : State} {ev : Event} (hreq : ∀ r, ev ≠ .request r) (hpop : ∀ n, ev ≠ .dmaPop n)
    (hpush : ∀ es, ev ≠ .dmaPush es) (hreset : ev ≠ .reset) : s.ServedByBackend (envStep ev s) := by
  cases ev with
  | ahbServe i => exact beAhbServe_served i s
  | ahbByte i => exact beAhbByte_served i s
  | _ => exact (envStep_moved hreq hpop hpush hreset (by simp)).served

/-! ## What a register that BACKEND may not write holds -/

/-- What a register BACKEND may not write shows and stores is decided by the rest of the state: no field of BACKEND's own
enters. -/
theorem regShows_restOfBackend {r : Reg} (hi : r ≠ .intr) (ho : readOnlyRegister r = false) (s : State) :
    regShows r s = regShows r s.restOfBackend ∧ regStored r s = regStored r s.restOfBackend := by
  cases r with
  | intr => exact absurd rfl hi
  | sts0 | sts1 | sts2 | ahbspndsts | iprxfsts | iptxfsts | rfdr => cases ho
  | _ => exact ⟨rfl, rfl⟩

theorem State.MovedByBackend.registers {s t : State} (h : s.MovedByBackend t) {r : Reg} (hi : r ≠ .intr)
    (ho : readOnlyRegister r = false) : regStored r t = regStored r s ∧ regShows r t = regShows r s := by
  obtain ⟨showsS, storedS⟩ := regShows_restOfBackend hi ho s
  obtain ⟨showsT, storedT⟩ := regShows_restOfBackend hi ho t
  exact ⟨by rw [storedT, h.rest, storedS], by rw [showsT, h.rest, showsS]⟩

/-- No register shows or stores anything of the engine. -/
theorem registers_eng (r : Reg) (e : Engine) (s : State) :
    regStored r { s with eng := e } = regStored r s ∧ regShows r { s with eng := e } = regShows r s := by
  cases r <;> exact ⟨rfl, rfl⟩

/-- Settles O51: every turn of BACKEND is a move R70 allows, but for the result of a window access. -/
theorem backendNeverWrites : Obligations.BackendNeverWrites := by
  intro s ev hreq hpop hpush hreset
  obtain ⟨u, r, hu, heq⟩ := envStep_served (s := s) hreq hpop hpush hreset
  have hquiet : (∀ i, ev ≠ .ahbServe i ∧ ev ≠ .ahbByte i) → (envStep ev s).eng = s.eng := fun hserve =>
    (envStep_moved hreq hpop hpush hreset hserve).eng
  rw [heq] at hquiet ⊢
  obtain ⟨pushed, hrx⟩ := hu.rxq
  obtain ⟨popped, htx⟩ := hu.txq
  have hrdcntr : u.rdcntr = s.rdcntr := (congrArg State.rdcntr hu.rest :)
  have hwrcntr : u.wrcntr = s.wrcntr := (congrArg State.wrcntr hu.rest :)
  have hfault : u.fault = s.fault := (congrArg State.fault hu.rest :)
  refine ⟨fun r' hi ho => ?registers, hu.intr, ⟨pushed, hrx.symm⟩, ⟨popped, htx.symm⟩,
    hrdcntr, hwrcntr, hfault, ⟨r, by rw [hu.eng]⟩, hquiet, hu.inflight⟩
  obtain ⟨hstored, hshows⟩ := registers_eng r' { u.eng with result := r } u
  obtain ⟨hstored', hshows'⟩ := hu.registers hi ho
  exact ⟨hstored.trans hstored', hshows.trans hshows'⟩

/-! ## The values after reset -/

/-- The registers that show 0 after reset: all but MCR0, INTR, STS0, LUTCR, and the unspecified LUT and RFDR (R21, R71). -/
theorem regShows_reset {r : Reg} (hr : r ∉ [Reg.mcr0, .intr, .sts0, .lutcr]) (hlut : ∀ i, r ≠ .lut i)
    (hrfdr : ∀ i, r ≠ .rfdr i) : regShows r State.reset = some 0 := by
  cases r with
  | mcr0 | intr | sts0 | lutcr => simp at hr
  | lut i => exact absurd rfl (hlut i)
  | rfdr i => exact absurd rfl (hrfdr i)
  | ahbrxbufcr0 i | flshcr0 i | flshcr1 i | flshcr2 i | dllcr i => simp [regShows, State.reset, Regs.reset]
  | _ => rfl

/-- Settles O52, register by register; every other value is State.reset's own. -/
theorem resetValues : Obligations.ResetValues :=
  ⟨rfl, by decide, rfl, fun _ => regShows_reset, by decide, rfl, rfl, rfl, rfl, rfl, rfl, rfl, rfl, by decide⟩

end Sys2Proof.Machine

/-!
PROOFS of O4, O6 and O7. A LUT half as a number (R111), the words of a slot image (R115), and the fields of a DESC32 word,
which packing fills and unpacking reads (R121, R143).
-/

namespace Sys2Proof

/-! ## LUT16 -/

theorem toNat_lutHalf (op : BitVec 6) (p : BitVec 2) (x : Byte) :
    (lutHalf op p x).toNat = (op.toNat <<< 10) ||| (p.toNat <<< 8) ||| x.toNat := by
  simp only [lutHalf, BitVec.toNat_append, Nat.shiftLeft_or_distrib, ← Nat.shiftLeft_add]

/-- Settles O4, from the laws of a LUT half's fields. -/
theorem lut16Fields : Obligations.Lut16Fields :=
  ⟨fun op p x => ⟨toNat_lutHalf op p x, lutHalf_opcode op p x, lutHalf_pads op p x, lutHalf_operand op p x⟩,
    rfl, rfl, rfl, rfl⟩

/-! ## Well-formed descriptors -/

/-- The ranges of R124. -/
theorem LogicalCommand.wellFormed_iff (c : LogicalCommand) :
    c.wellFormed = true ↔
      (∀ n, c.aw = some n → 1 ≤ n ∧ n ≤ 4) ∧ (c.width = 1 ∨ c.width = 2 ∨ c.width = 4 ∨ c.width = 8) := by
  cases h : c.aw <;> simp [LogicalCommand.wellFormed, h, or_assoc]

/-- R116, for the legal widths: the pads code is the width's logarithm. -/
theorem two_pow_padsCode {width : Nat} (h : width = 1 ∨ width = 2 ∨ width = 4 ∨ width = 8) :
    2 ^ (padsCode width).toNat = width := by
  rcases h with rfl | rfl | rfl | rfl <;> rfl

theorem padsCode_two_pow : ∀ p : BitVec 2, padsCode (2 ^ p.toNat) = p := by decide

theorem two_pow_pads_legal : ∀ p : BitVec 2,
    2 ^ p.toNat = 1 ∨ 2 ^ p.toNat = 2 ∨ 2 ^ p.toNat = 4 ∨ 2 ^ p.toNat = 8 := by decide

/-! ## The fields of a packed descriptor (R121) -/

section Fields
variable (c : LogicalCommand)

theorem packDescriptor_oplo : (packDescriptor c).extractLsb' 0 8 = c.oplo :=
  BitVec.extractLsb'_append_eq_right

theorem packDescriptor_ophi : (packDescriptor c).extractLsb' 8 8 = c.ophi := by
  refine (BitVec.extractLsb'_append_eq_of_le (by decide)).trans ?_
  exact BitVec.extractLsb'_append_eq_right

theorem packDescriptor_aw : (packDescriptor c).extractLsb' 16 3 = BitVec.ofNat 3 (c.aw.getD 0) := by
  iterate 2 refine (BitVec.extractLsb'_append_eq_of_le (by decide)).trans ?_
  exact BitVec.extractLsb'_append_eq_right

theorem packDescriptor_dump : (packDescriptor c).getLsbD 19 = c.dummy.isSome := by
  simp only [packDescriptor, BitVec.getLsbD_append]
  simp

theorem packDescriptor_ddr : (packDescriptor c).getLsbD 20 = (c.mode == .ddr) := by
  simp only [packDescriptor, BitVec.getLsbD_append]
  simp

theorem packDescriptor_dir : (packDescriptor c).getLsbD 21 = (c.dir == .write) := by
  simp only [packDescriptor, BitVec.getLsbD_append]
  simp

theorem packDescriptor_pads : (packDescriptor c).extractLsb' 22 2 = padsCode c.width := by
  iterate 6 refine (BitVec.extractLsb'_append_eq_of_le (by decide)).trans ?_
  exact BitVec.extractLsb'_append_eq_right

theorem packDescriptor_dummy : (packDescriptor c).extractLsb' 24 8 = c.dummy.getD 0 := by
  iterate 6 refine (BitVec.extractLsb'_append_eq_of_le (by decide)).trans ?_
  exact BitVec.extractLsb'_append_eq_left

end Fields

theorem ofBool_getLsbD (w : Word) (i : Nat) : BitVec.ofBool (w.getLsbD i) = w.extractLsb' i 1 := by
  ext j hj
  obtain rfl : j = 0 := by omega
  simp

/-- The fields of R121 are all of a DESC32 word. -/
theorem append_descriptorFields (w : Word) :
    w.extractLsb' 24 8 ++ w.extractLsb' 22 2 ++ BitVec.ofBool (w.getLsbD 21) ++ BitVec.ofBool (w.getLsbD 20) ++
      BitVec.ofBool (w.getLsbD 19) ++ w.extractLsb' 16 3 ++ w.extractLsb' 8 8 ++ w.extractLsb' 0 8 = w := by
  have join {start next len len' : Nat} (h : next = start + len) :
      w.extractLsb' next len' ++ w.extractLsb' start len = w.extractLsb' start (len' + len) :=
    BitVec.extractLsb'_append_extractLsb'_eq_extractLsb' h
  simp only [ofBool_getLsbD]
  rw [join (show 24 = 22 + 2 from rfl), join (show 22 = 21 + 1 from rfl), join (show 21 = 20 + 1 from rfl),
    join (show 20 = 19 + 1 from rfl), join (show 19 = 16 + 3 from rfl), join (show 16 = 8 + 8 from rfl),
    join (show 8 = 0 + 8 from rfl)]
  exact BitVec.extractLsb'_eq_self

/-! ## Unpacking -/

/-- The reserved values of R143: AW 5..7, and DUMMY not 0 with DUMP = 0. -/
def ReservedDescriptor (w : Word) : Prop :=
  4 < (w.extractLsb' 16 3).toNat ∨ (w.getLsbD 19 = false ∧ w.extractLsb' 24 8 ≠ 0)

/-- The command whose members the fields of the word give (R121), whatever they hold. -/
def fieldsOfDescriptor (w : Word) : LogicalCommand where
  oplo := w.extractLsb' 0 8
  ophi := w.extractLsb' 8 8
  aw := if (w.extractLsb' 16 3).toNat = 0 then none else some (w.extractLsb' 16 3).toNat
  mode := if w.getLsbD 20 then .ddr else .sdr
  dummy := if w.getLsbD 19 then some (w.extractLsb' 24 8) else none
  dir := if w.getLsbD 21 then .write else .read
  width := 2 ^ (w.extractLsb' 22 2).toNat

theorem unpackDescriptor_of_reserved {w : Word} (h : ReservedDescriptor w) : unpackDescriptor w = none :=
  if_pos (by simpa [ReservedDescriptor] using h)

theorem unpackDescriptor_of_not_reserved {w : Word} (h : ¬ ReservedDescriptor w) :
    unpackDescriptor w = some (fieldsOfDescriptor w) :=
  if_neg (by simpa [ReservedDescriptor] using h)

theorem unpackDescriptor_eq_none_iff (w : Word) : unpackDescriptor w = none ↔ ReservedDescriptor w := by
  refine ⟨fun hnone => ?_, unpackDescriptor_of_reserved⟩
  by_contra h
  simp [unpackDescriptor_of_not_reserved h] at hnone

theorem unpackDescriptor_eq_some_iff (w : Word) (c : LogicalCommand) :
    unpackDescriptor w = some c ↔ ¬ ReservedDescriptor w ∧ fieldsOfDescriptor w = c := by
  by_cases h : ReservedDescriptor w
  · simp [unpackDescriptor_of_reserved h, h]
  · simp [unpackDescriptor_of_not_reserved h, h]

/-! ## Packing and unpacking -/

/-- An address width in R124's range fits the three bits of AW. -/
theorem toNat_awField {c : LogicalCommand} (h : c.wellFormed = true) :
    (BitVec.ofNat 3 (c.aw.getD 0)).toNat = c.aw.getD 0 ∧ c.aw.getD 0 ≤ 4 := by
  obtain ⟨haw, -⟩ := c.wellFormed_iff.mp h
  have hle : c.aw.getD 0 ≤ 4 := by
    cases hc : c.aw with
    | none => simp
    | some n => exact (haw n hc).2
  exact ⟨Nat.mod_eq_of_lt (by omega), hle⟩

theorem packDescriptor_not_reserved {c : LogicalCommand} (h : c.wellFormed = true) :
    ¬ ReservedDescriptor (packDescriptor c) := by
  obtain ⟨hfield, hle⟩ := toNat_awField h
  rintro (hbig | ⟨hdump, hcount⟩)
  · rw [packDescriptor_aw, hfield] at hbig
    omega
  · rw [packDescriptor_dump] at hdump
    rw [packDescriptor_dummy] at hcount
    simp [Option.isNone_iff_eq_none.mp (Option.isSome_eq_false_iff.mp hdump)] at hcount

theorem fieldsOfDescriptor_packDescriptor {c : LogicalCommand} (h : c.wellFormed = true) :
    fieldsOfDescriptor (packDescriptor c) = c := by
  obtain ⟨haw, hwidth⟩ := c.wellFormed_iff.mp h
  obtain ⟨hfield, -⟩ := toNat_awField h
  obtain ⟨oplo, ophi, aw, mode, dummy, dir, width⟩ := c
  simp only [fieldsOfDescriptor, packDescriptor_oplo, packDescriptor_ophi, packDescriptor_aw, packDescriptor_dump,
    packDescriptor_ddr, packDescriptor_dir, packDescriptor_pads, packDescriptor_dummy, hfield,
    two_pow_padsCode hwidth, LogicalCommand.mk.injEq, true_and, and_true]
  refine ⟨?aw, ?mode, ?dummy, ?dir⟩
  case aw =>
    cases aw with
    | none => rfl
    | some n => simp [show n ≠ 0 by have := haw n rfl; omega]
  case mode => cases mode <;> rfl
  case dummy => cases dummy <;> rfl
  case dir => cases dir <;> rfl

theorem fieldsOfDescriptor_wellFormed {w : Word} (h : ¬ ReservedDescriptor w) :
    (fieldsOfDescriptor w).wellFormed = true := by
  refine (LogicalCommand.wellFormed_iff _).mpr ⟨fun n hn => ?_, two_pow_pads_legal _⟩
  have hle : (w.extractLsb' 16 3).toNat ≤ 4 := Nat.not_lt.mp fun hbig => h (.inl hbig)
  obtain ⟨hpos, rfl⟩ : (w.extractLsb' 16 3).toNat ≠ 0 ∧ (w.extractLsb' 16 3).toNat = n := by
    simpa [fieldsOfDescriptor] using hn
  omega

theorem fieldsOfDescriptor_aw_getD (w : Word) : (fieldsOfDescriptor w).aw.getD 0 = (w.extractLsb' 16 3).toNat := by
  simp only [fieldsOfDescriptor]
  split
  next hzero => exact hzero.symm
  next => rfl

theorem packDescriptor_fieldsOfDescriptor {w : Word} (h : ¬ ReservedDescriptor w) :
    packDescriptor (fieldsOfDescriptor w) = w := by
  have haw : BitVec.ofNat 3 ((fieldsOfDescriptor w).aw.getD 0) = w.extractLsb' 16 3 := by
    rw [fieldsOfDescriptor_aw_getD, BitVec.ofNat_toNat, BitVec.setWidth_eq]
  have hdummy : (fieldsOfDescriptor w).dummy.getD 0 = w.extractLsb' 24 8 := by
    simp only [fieldsOfDescriptor]
    cases hd : w.getLsbD 19 with
    | true => rfl
    | false => exact (not_not.mp fun hcount => h (.inr ⟨hd, hcount⟩)).symm
  have hdump : (fieldsOfDescriptor w).dummy.isSome = w.getLsbD 19 := by
    simp only [fieldsOfDescriptor]
    cases w.getLsbD 19 <;> rfl
  have hmode : ((fieldsOfDescriptor w).mode == .ddr) = w.getLsbD 20 := by
    simp only [fieldsOfDescriptor]
    cases w.getLsbD 20 <;> rfl
  have hdir : ((fieldsOfDescriptor w).dir == .write) = w.getLsbD 21 := by
    simp only [fieldsOfDescriptor]
    cases w.getLsbD 21 <;> rfl
  have hpads : padsCode (fieldsOfDescriptor w).width = w.extractLsb' 22 2 := padsCode_two_pow _
  rw [packDescriptor, haw, hdummy, hdump, hmode, hdir, hpads]
  exact append_descriptorFields w

/-- Settles O7, through the fields of the word. -/
theorem descriptorRoundTrip : Obligations.DescriptorRoundTrip := by
  refine ⟨fun c hc => ?_, fun w c h => ?_, unpackDescriptor_eq_none_iff⟩
  · exact (unpackDescriptor_eq_some_iff _ _).mpr
      ⟨packDescriptor_not_reserved hc, fieldsOfDescriptor_packDescriptor hc⟩
  · obtain ⟨hvalid, rfl⟩ := (unpackDescriptor_eq_some_iff w c).mp h
    exact ⟨fieldsOfDescriptor_wellFormed hvalid, packDescriptor_fieldsOfDescriptor hvalid⟩

end Sys2Proof

namespace Sys2Proof.Machine

/-! ## The slot image (R115) -/

theorem toNat_lowHalf (h : Half) : (lowHalf h).toNat = h.toNat := by
  rw [lowHalf, BitVec.toNat_append]
  simp

/-- R115's `m`: bit 5 of the opcode is set in DDR mode. -/
theorem toNat_rateOpcode (c : LogicalCommand) {op : BitVec 6} (h : op.toNat < 0x20) :
    (rateOpcode c op).toNat = op.toNat + if c.mode = .ddr then 0x20 else 0 := by
  cases hm : c.mode with
  | sdr => simp [rateOpcode, hm]
  | ddr =>
    have hor : op.toNat ||| 2 ^ 5 = op.toNat + 2 ^ 5 := by
      rw [Nat.or_comm, Nat.add_comm]
      exact (Nat.two_pow_add_eq_or_of_lt (i := 5) h 1).symm
    simpa [rateOpcode, hm] using hor

/-- R115's `I(op + m, p, x)`. -/
theorem toNat_phaseHalf (c : LogicalCommand) {op : BitVec 6} (h : op.toNat < 0x20) (x : Byte) :
    (phaseHalf c op x).toNat =
      ((op.toNat + if c.mode = .ddr then 0x20 else 0) <<< 10) ||| ((padsCode c.width).toNat <<< 8) ||| x.toNat := by
  rw [phaseHalf, toNat_lutHalf, toNat_rateOpcode c h]

/-- An address width in R124's range, in bits, fits the operand byte (R117). -/
theorem toNat_addressOperand {n : Nat} (h : n ≤ 4) : (BitVec.ofNat 8 (8 * n)).toNat = 8 * n :=
  Nat.mod_eq_of_lt (by omega)

/-- Settles O6, word by word. -/
theorem slotImageWords : Obligations.SlotImageWords := by
  intro c hc m p I
  obtain ⟨haw, -⟩ := c.wellFormed_iff.mp hc
  have half (op : BitVec 6) (h : op.toNat < 0x20) (x : Byte) :
      (phaseHalf c op x).toNat = I (op.toNat + m) x.toNat := toNat_phaseHalf c h x
  refine ⟨?command, ?address, ?dummy, ?data⟩
  case command =>
    simp only [image, BitVec.toNat_append, half 0x01 (by decide)]
    rfl
  case address =>
    cases h : c.aw with
    | none => simp only [image, h]; rfl
    | some n =>
      obtain ⟨-, hle⟩ := haw n h
      have hword := (toNat_lowHalf _).trans (half 0x02 (by decide) (BitVec.ofNat 8 (8 * n)))
      rw [toNat_addressOperand hle] at hword
      simp only [image, h]
      exact hword
  case dummy =>
    cases h : c.dummy with
    | none => simp only [image, h]; rfl
    | some n =>
      simp only [image, h]
      exact (toNat_lowHalf _).trans (half 0x0C (by decide) n)
  case data =>
    cases h : c.dir with
    | read =>
      simp only [image, h]
      exact (toNat_lowHalf _).trans (half 0x09 (by decide) 0)
    | write =>
      simp only [image, h]
      exact (toNat_lowHalf _).trans (half 0x08 (by decide) 0)

end Sys2Proof.Machine

/-!
PROOF of O23. A refused request of port OP changes nothing but the result (R325); WRDI, LOCK and UNLOCK pass the mode check
under `RamBlocking` only (R324) and have no command kind (R186, R201, R202).
-/

namespace Sys2Proof.Machine

/-! ## Refusals on port OP -/

/-- A request that a check refuses has that result and starts nothing (R325). -/
theorem accept_refused {i : Instr} {go : State → State} {s : State} {c : Code} (h : s.Ready) (hg : gate i s = some c) :
    accept i go s = .next (refuse c s) := by
  simp [accept, h.1, h.2, hg]

theorem exec_refused {i : Instr} (hop : operationPort i = true) {s : State} {c : Code} (h : s.Ready)
    (hg : gate i s = some c) : exec i s = .next (refuse c s) := by
  obtain ⟨go, hexec⟩ := exec_accept hop
  rw [hexec, accept_refused h hg]

/-! ## The checks that fail -/

/-- The mode check comes first (R320 step 2): under `XipBlocking` it refuses all that R324 allows in `RamBlocking` only. -/
theorem gate_of_ramOnly_xip {i : Instr} (hram : ramOnly i = true) {s : State} (htag : s.params.modeTag = .xipBlocking) :
    gate i s = some .illegalInMode := by
  have hmode : modeAllows i s.params = false := by simp [modeAllows, hram, htag]
  simp [gate, hmode]

/-- The kind check comes after the mode and the operands (R320 step 4). -/
theorem gate_of_not_kindOk {i : Instr} {s : State} (hmode : modeAllows i s.params = true)
    (hoperands : operandsOk i s.params = true) (hkind : kindOk i s.params = false) : gate i s = some .unsupported := by
  simp [gate, hmode, hoperands, hkind]

theorem modeAllows_of_ramBlocking {i : Instr} (hbulk : bulkWrite i = false) {p : Params}
    (htag : p.modeTag = .ramBlocking) : modeAllows i p = true := by
  simp [modeAllows, hbulk, htag]

/-! ## WRDI, LOCK and UNLOCK -/

/-- The operations that have a name and no kind (D25). -/
def kindless : List Instr :=
  [.wrdi, .lock, .unlock]

/-- An operation without a kind is one of port OP's, allowed in `RamBlocking` only and no bulk write. -/
theorem kindless_class {i : Instr} (hi : i ∈ kindless) :
    operationPort i = true ∧ ramOnly i = true ∧ bulkWrite i = false := by
  revert i; decide

/-- It has no operands that could be wrong, and no command table gives it a kind. -/
theorem kindless_checks {i : Instr} (hi : i ∈ kindless) (p : Params) :
    operandsOk i p = true ∧ kindOk i p = false := by
  obtain rfl | rfl | rfl : i = .wrdi ∨ i = .lock ∨ i = .unlock := by simpa [kindless] using hi
  all_goals exact ⟨rfl, rfl⟩

/-- Settles O23: the first check that fails is the kind's under `RamBlocking` and the mode's under `XipBlocking`. -/
theorem operationsWithoutKind : Obligations.OperationsWithoutKind := by
  refine ⟨rfl, rfl, rfl, fun i hi s hready => ?_⟩
  obtain ⟨hop, hram, hbulk⟩ := kindless_class hi
  obtain ⟨hoperands, hkind⟩ := kindless_checks hi s.params
  constructor
  · intro htag
    exact exec_refused hop hready (gate_of_not_kindOk (modeAllows_of_ramBlocking hbulk htag) hoperands hkind)
  · intro htag
    exact exec_refused hop hready (gate_of_ramOnly_xip hram htag)

end Sys2Proof.Machine

/-!
PROOFS of O24, O25 and O26. What a write of INTR is for each value of bits 5 and 6 (R27, R214, R216), the clear bits of the
FIFO control registers (R217), and what INTR, the status registers and the RX window show of the queues (R213, R215, R218).
-/

namespace Sys2Proof.Machine

/-! ## Masking one bit away -/

theorem getLsbD_and_not_twoPow (v : Word) (k i : Nat) :
    (v &&& ~~~BitVec.twoPow 32 k).getLsbD i = (v.getLsbD i && decide (i ≠ k)) := by
  by_cases hi : i < 32
  · simp [hi]
  · simp [BitVec.getLsbD_of_ge v i (by omega)]

/-- Masking away a bit that is 0 changes nothing. -/
theorem and_not_twoPow_of_clear {v : Word} {k : Nat} (h : v.getLsbD k = false) : v &&& ~~~BitVec.twoPow 32 k = v := by
  apply BitVec.eq_of_getLsbD_eq
  intro i _
  rw [getLsbD_and_not_twoPow]
  by_cases hk : i = k
  · simp [hk, h]
  · simp [hk]

/-- Clearing the bits of `v` but bit `k`, then bit `k`, clears those of `v`, if bit `k` is one of them. -/
theorem and_not_twoPow_last {v : Word} {k : Nat} (h : v.getLsbD k = true) (x : Word) :
    x &&& ~~~(v &&& ~~~BitVec.twoPow 32 k) &&& ~~~BitVec.twoPow 32 k = x &&& ~~~v := by
  apply BitVec.eq_of_getLsbD_eq
  intro i _
  rw [getLsbD_and_not_twoPow, BitVec.getLsbD_and, BitVec.getLsbD_not, getLsbD_and_not_twoPow, BitVec.getLsbD_and,
    BitVec.getLsbD_not]
  by_cases hk : i = k
  · simp [hk, h]
  · simp [hk]

/-! ## The FIFO control registers (R217) -/

theorem regWrite_iprxfcr_clear {v : Word} (h : v.getLsbD 0 = true) (s : State) :
    regWrite .iprxfcr v s = { s with regs.iprxfcr := v &&& ~~~1, rxq := [], rdcntr := 0 } :=
  if_pos h

theorem regWrite_iptxfcr_clear {v : Word} (h : v.getLsbD 0 = true) (s : State) :
    regWrite .iptxfcr v s = { s with
      regs.iptxfcr := v &&& ~~~1, txq := [], wrcntr := 0, regs.tfdr := Vector.replicate 32 0 } :=
  if_pos h

theorem regWrite_iprxfcr_keep {v : Word} (h : v.getLsbD 0 = false) (s : State) :
    regWrite .iprxfcr v s = { s with regs.iprxfcr := v } := by
  have hv : v &&& ~~~1 = v := and_not_twoPow_of_clear (k := 0) h
  simp only [regWrite, h, hv, Bool.false_eq_true, ↓reduceIte]

theorem regWrite_iptxfcr_keep {v : Word} (h : v.getLsbD 0 = false) (s : State) :
    regWrite .iptxfcr v s = { s with regs.iptxfcr := v } := by
  have hv : v &&& ~~~1 = v := and_not_twoPow_of_clear (k := 0) h
  simp only [regWrite, h, hv, Bool.false_eq_true, ↓reduceIte]

/-- Settles O25, from the two values of the clear bit in each control register. -/
theorem clearBitsEmptyTheQueues : Obligations.ClearBitsEmptyTheQueues := fun s v =>
  ⟨fun h => ⟨regWrite_iprxfcr_clear h s, regWrite_iptxfcr_clear h s⟩,
    fun h => ⟨regWrite_iprxfcr_keep h s, regWrite_iptxfcr_keep h s⟩, by simp⟩

/-! ## Bits 5 and 6 of INTR (R213, R215) -/

/-- No stored bit of INTR stands at bit 5: the bit is the RX watermark alone. -/
theorem intrRead_bit5 (s : State) : (intrRead s).getLsbD 5 = rxWatermarkReached s := by
  have hrx (b : Bool) : (if b then (0x20 : Word) else 0).getLsbD 5 = b := by cases b <;> rfl
  have htx (b : Bool) : (if b then (0x40 : Word) else 0).getLsbD 5 = false := by cases b <;> rfl
  simp only [intrRead, BitVec.getLsbD_or, BitVec.getLsbD_and, hrx, htx]
  simp [intrSticky]

/-- No stored bit of INTR stands at bit 6: the bit is the room in TXQ alone. -/
theorem intrRead_bit6 (s : State) : (intrRead s).getLsbD 6 = txWritable s := by
  have hrx (b : Bool) : (if b then (0x20 : Word) else 0).getLsbD 6 = false := by cases b <;> rfl
  have htx (b : Bool) : (if b then (0x40 : Word) else 0).getLsbD 6 = b := by cases b <;> rfl
  simp only [intrRead, BitVec.getLsbD_or, BitVec.getLsbD_and, hrx, htx]
  simp [intrSticky]

theorem regRead_intr {s : State} (hf : s.fault = none) : regRead .intr s = (intrRead s, s) :=
  regRead_shows hf rfl

/-! ## A write of INTR by its bits 5 and 6 (R27, R214, R216, R297) -/

section IntrWrite
variable {v : Word} (s : State)

theorem regWrite_intr_none (h5 : v.getLsbD 5 = false) (h6 : v.getLsbD 6 = false) :
    regWrite .intr v s = { s with regs.intr := s.regs.intr &&& ~~~v } := by
  simp only [regWrite, intrWrite, h5, h6, Bool.false_eq_true, ↓reduceIte]

theorem regWrite_intr_pop (h5 : v.getLsbD 5 = true) (h6 : v.getLsbD 6 = false) :
    regWrite .intr v s = rxPop { s with regs.intr := s.regs.intr &&& ~~~v } := by
  simp only [regWrite, intrWrite, h5, h6, Bool.false_eq_true, ↓reduceIte]

theorem regWrite_intr_push (h5 : v.getLsbD 5 = false) (h6 : v.getLsbD 6 = true) :
    regWrite .intr v s = txPush { s with regs.intr := s.regs.intr &&& ~~~v } := by
  simp only [regWrite, intrWrite, h5, h6, Bool.false_eq_true, ↓reduceIte]

/-- With both bits 1 the pop comes first, then the push: bits act in ascending order (R297). -/
theorem regWrite_intr_both (h5 : v.getLsbD 5 = true) (h6 : v.getLsbD 6 = true) :
    regWrite .intr v s = txPush (rxPop { s with regs.intr := s.regs.intr &&& ~~~v }) := by
  simp only [regWrite, intrWrite, h5, h6, ↓reduceIte]

end IntrWrite

/-- A pop of a watermark's worth leaves less than that behind, unless two of them were there (R214). -/
theorem rxWatermarkReached_rxPop {s : State} (h : s.rxq.length < 2 * watermarkEntries s.regs.iprxfcr) :
    rxWatermarkReached (rxPop s) = false := by
  simp only [rxWatermarkReached, rxPop_spec, List.length_drop, decide_eq_false_iff_not]
  omega

/-- Both bits in one write are bit 5 in a first write and bit 6 in a second (R297). -/
theorem regWrite_intr_both_in_turn {v : Word} (h5 : v.getLsbD 5 = true) (h6 : v.getLsbD 6 = true) (s : State) :
    regWrite .intr v s = regWrite .intr 0x40 (regWrite .intr (v &&& ~~~0x40) s) := by
  rw [regWrite_intr_both s h5 h6, regWrite_intr_push _ (by decide) (by decide),
    regWrite_intr_pop s (by simp [h5]) (by simp), rxPop_spec, rxPop_spec]
  simp only [show (0x40 : Word) = BitVec.twoPow 32 6 from rfl, and_not_twoPow_last h6]

/-! ## The staged entries (R216) -/

/-- Entry `j` of a push is TFDR[2j] and TFDR[2j + 1], low bytes first. -/
theorem stagedEntries_bytes (tfdr : Vector Word 32) (n j : Nat) (h : 2 * j + 1 < 32)
    (hj : j < (stagedEntries tfdr n).length) :
    let e := (stagedEntries tfdr n)[j]
    bytesLe tfdr[2 * j] = [e.b0, e.b1, e.b2, e.b3] ∧ bytesLe tfdr[2 * j + 1] = [e.b4, e.b5, e.b6, e.b7] := by
  have hlow : 2 * j < 32 := by omega
  simp [stagedEntries, entryOfWords, bytesLe, hlow, h]

/-- Settles O24, by the four values of bits 5 and 6. -/
theorem intrWriteMovesTheQueues : Obligations.IntrWriteMovesTheQueues := by
  refine ⟨fun s v h5 h6 => ?pop, fun s v h5 h6 => regWrite_intr_both_in_turn h5 h6 s,
    fun s v h5 h6 => regWrite_intr_none s h5 h6, fun s v h5 h6 => ?push⟩
  case pop =>
    refine ⟨regWrite_intr_pop s h5 h6, fun hf hlen => ?_⟩
    have hfault : (regWrite .intr v s).fault = none := by rw [(regWrite_quiet (by simp) v s).1, hf]
    rw [regRead_intr hfault, intrRead_bit5, regWrite_intr_pop s h5 h6]
    exact rxWatermarkReached_rxPop hlen
  case push =>
    rw [regWrite_intr_push s h5 h6]
    obtain ⟨hfull, heq⟩ | ⟨hroom, heq⟩ := txPush_spec { s with regs.intr := s.regs.intr &&& ~~~v }
    · exact ⟨fun _ => heq, fun hroom => absurd hfull (Nat.not_lt.mpr hroom)⟩
    · exact ⟨fun hfull => absurd hfull (Nat.not_lt.mpr hroom),
        fun _ => ⟨_, stagedEntries_length _ _, fun j h hj => stagedEntries_bytes _ _ j h hj, heq⟩⟩

/-! ## The status registers (R46, R47, R218) -/

/-- A status word: the fill level `n` in bits 7:0, the counter in bits 31:16 (R46, R47). -/
def statusWord (cntr : BitVec 16) (n : Nat) : Word :=
  BitVec.zeroExtend 32 cntr <<< 16 ||| (BitVec.ofNat 32 n &&& 0xFF)

theorem regShows_iprxfsts (s : State) : regShows .iprxfsts s = some (statusWord s.rdcntr s.rxq.length) := rfl

theorem regShows_iptxfsts (s : State) : regShows .iptxfsts s = some (statusWord s.wrcntr s.txq.length) := rfl

theorem statusWord_fill (cntr : BitVec 16) {n : Nat} (h : n < 256) :
    ((statusWord cntr n).extractLsb' 0 8).toNat = n := by
  have hlow : (statusWord cntr n).extractLsb' 0 8 = BitVec.ofNat 8 n := by
    have hmask : ∀ i < 8, (0xFF : Word).getLsbD i = true := by decide
    apply BitVec.eq_of_getLsbD_eq
    intro i hi
    have hi16 : i < 16 := by omega
    have hi32 : i < 32 := by omega
    simp only [statusWord, BitVec.getLsbD_extractLsb', BitVec.getLsbD_or, BitVec.getLsbD_and, Nat.zero_add, hmask i hi]
    simp only [BitVec.getLsbD_shiftLeft, BitVec.getLsbD_ofNat, hi, hi16, hi32]
    simp
  rw [hlow, BitVec.toNat_ofNat, Nat.mod_eq_of_lt h]

theorem statusWord_counter (cntr : BitVec 16) (n : Nat) :
    (statusWord cntr n).extractLsb' 16 16 = cntr := by
  have hmask : ∀ i < 16, (0xFF : Word).getLsbD (16 + i) = false := by decide
  apply BitVec.eq_of_getLsbD_eq
  intro i hi
  have hi32 : 16 + i < 32 := by omega
  simp only [statusWord, BitVec.getLsbD_extractLsb', BitVec.getLsbD_or, BitVec.getLsbD_and, hmask i hi]
  simp [hi, hi32]

/-! ## The RX window (R48, R218) -/

/-- A read of a register that shows nothing is a draw (R296). -/
theorem regRead_shows_none {r : Reg} {s : State} (h : regShows r s = none) :
    regRead r s = (Config.freeWord s.draws, { s with draws := s.draws + 1 }) := by
  simp [regRead, regPeek, readDraws, h]

/-- Word `i` of the window is a half of entry `i / 2`, the low one first. -/
theorem rxWord_of_entry {q : List Entry} {i : Fin 32} {e : Entry} (h : q[i.val / 2]? = some e) :
    ∃ w, rxWord q i = some w ∧
      bytesLe w = if i.val % 2 = 0 then [e.b0, e.b1, e.b2, e.b3] else [e.b4, e.b5, e.b6, e.b7] := by
  refine ⟨if i.val % 2 = 0 then e.lowWord else e.highWord, by simp [rxWord, h], ?_⟩
  split
  · exact bytesLe_lowWord e
  · exact bytesLe_highWord e

theorem rxWord_beyond {q : List Entry} {i : Fin 32} (h : q.length ≤ i.val / 2) : rxWord q i = none := by
  simp [rxWord, h]

/-- Settles O26: each register shows its part of the queues, and a read of it changes nothing. -/
theorem fifoStatusAndWindow : Obligations.FifoStatusAndWindow := by
  intro s hf hrx htx
  refine ⟨?rxBit, ?txBit,
    ⟨_, regRead_shows hf (regShows_iprxfsts s), statusWord_fill _ (by omega), statusWord_counter _ _⟩,
    ⟨_, regRead_shows hf (regShows_iptxfsts s), statusWord_fill _ (by omega), statusWord_counter _ _⟩, fun i e he => ?word,
    fun i hi => ⟨_, regRead_shows_none (rxWord_beyond hi)⟩, fun i => regRead_shows hf rfl⟩
  case rxBit =>
    rw [regRead_intr hf, intrRead_bit5]
    exact decide_eq_true_iff
  case txBit =>
    rw [regRead_intr hf, intrRead_bit6]
    exact decide_eq_true_iff
  case word =>
    obtain ⟨w, hw, hbytes⟩ := rxWord_of_entry he
    exact ⟨w, regRead_shows hf hw, hbytes⟩

end Sys2Proof.Machine

/-!
PROOFS of O34 and O35. The arithmetic of `dll_value`, which never wraps (R263, R264), and DLLCALC, which ends at once with
that value or with the refusal of its record (R260).
-/

namespace Sys2Proof.Machine

/-! ## The arithmetic of R264 -/

/-- `ceil_div` rounds up, by less than one divisor (R14). -/
theorem ceilDiv_bounds (a : Nat) {b : Nat} (hb : 0 < b) : b * ceilDiv a b < a + b ∧ a ≤ b * ceilDiv a b := by
  unfold ceilDiv
  have hdiv := Nat.div_add_mod (a + b - 1) b
  have hmod := Nat.mod_lt (a + b - 1) hb
  omega

/-- The mask of R263 keeps bits 6:3 and drops the rest. -/
theorem and_dllMask (raw : Nat) : raw &&& 0x78 = (raw / 8 % 16) * 8 := by
  have hlow : (raw &&& 0x78) % 8 = 0 :=
    calc (raw &&& 0x78) % 8
        = raw % 8 &&& 0 := Nat.and_mod_two_pow (n := 3)
      _ = 0 := Nat.and_zero _
  have hhigh : (raw &&& 0x78) / 8 = raw / 8 % 16 :=
    calc (raw &&& 0x78) / 8
        = raw / 8 &&& 15 := Nat.and_div_two_pow (n := 3)
      _ = raw / 8 % 16 := Nat.and_two_pow_sub_one_eq_mod (raw / 8) 4
  omega

/-- The masked bits shifted to 15:12 lie clear of bit 8, so the disjunction of R263 is a sum. -/
theorem or_shiftLeft_dllMask (raw : Nat) :
    0x100 ||| ((raw &&& 0x78) <<< 9) = 0x100 + (raw / 8 % 16) * 2 ^ 12 := by
  have hshift : (raw &&& 0x78) <<< 9 = 2 ^ 12 * (raw / 8 % 16) := by
    rw [and_dllMask, Nat.shiftLeft_eq]
    omega
  calc 0x100 ||| ((raw &&& 0x78) <<< 9)
      = 2 ^ 12 * (raw / 8 % 16) ||| 0x100 := by rw [hshift, Nat.or_comm]
    _ = 2 ^ 12 * (raw / 8 % 16) + 0x100 := (Nat.two_pow_add_eq_or_of_lt (by decide) _).symm
    _ = 0x100 + (raw / 8 % 16) * 2 ^ 12 := by omega

/-! ## The three branches of dll_value (R263) -/

section Branches
variable {c : ControllerRecord}

/-- The loopback modes, and mode 3 without the secondary clock. -/
theorem dllValue_of_no_calibration (h : c.sampleMode ≤ 2 ∨ (c.sampleMode = 3 ∧ c.secondaryClockEn = 0)) :
    dllValue c = 0x00000100 :=
  if_pos h

/-- With the secondary clock, from 100 MHz up. -/
theorem dllValue_of_fast (hmode : c.sampleMode = 3) (hen : c.secondaryClockEn = 1)
    (hhz : 100000000 ≤ c.rootClockHz) : dllValue c = 0x00000079 := by
  simp [dllValue, hmode, hen, hhz]

/-- With the secondary clock, below 100 MHz: the 32 bits hold the whole value. -/
theorem toNat_dllValue_of_slow (hmode : c.sampleMode = 3) (hen : c.secondaryClockEn = 1)
    (hhz : c.rootClockHz < 100000000) :
    (dllValue c).toNat = 0x100 + (ceilDiv (c.dataValidTimeNs * 1000) 75 / 8 % 16) * 2 ^ 12 := by
  have hbranch : dllValue c =
      BitVec.ofNat 32 (0x100 ||| ((ceilDiv (c.dataValidTimeNs * 1000) 75 &&& 0x78) <<< 9)) := by
    simp [dllValue, hmode, hen, Nat.not_le.mpr hhz]
  rw [hbranch, or_shiftLeft_dllMask, BitVec.toNat_ofNat, Nat.mod_eq_of_lt (by omega)]

end Branches

/-- Settles O34, branch by branch; `raw` is the rounded-up quotient. -/
theorem dllValueFormula : Obligations.DllValueFormula := by
  refine ⟨fun c hmode _ _ => ⟨fun h => ?constant, dllValue_of_fast, fun hmode3 hen hhz => ?slow⟩,
    fun _ _ _ => dllValue_of_no_calibration (.inl (Nat.zero_le 2)),
    fun _ _ => dllValue_of_no_calibration (.inr ⟨rfl, rfl⟩),
    fun _ => dllValue_of_fast rfl rfl (show 100000000 ≤ 200000000 by decide), by decide⟩
  case constant => exact dllValue_of_no_calibration (by omega)
  case slow =>
    obtain ⟨hlt, hle⟩ := ceilDiv_bounds (c.dataValidTimeNs * 1000) (b := 75) (by decide)
    exact ⟨_, hlt, hle, toNat_dllValue_of_slow hmode3 hen hhz⟩

/-! ## DLLCALC (R260) -/

/-- The operand check comes after the mode's (R320 step 3). -/
theorem gate_of_not_operandsOk {i : Instr} {s : State} (hmode : modeAllows i s.params = true)
    (hoperands : operandsOk i s.params = false) : gate i s = some .badOperand := by
  simp [gate, hmode, hoperands]

/-- An operation that ends where it starts takes no turn. -/
theorem run_finish (r : Result) (s : State) : run (finish r s) = finish r s :=
  drive_settled (settled_of_idle rfl) _

/-- Only the sampling mode and the clock-enable can be out of range: the other two words take every value (R134). -/
theorem recordOk_controllerBounds (mode hz ns en : Word) :
    recordOk controllerBounds [mode, hz, ns, en] = true ↔ mode.toNat ≤ 3 ∧ en.toNat ≤ 1 := by
  have hhz : hz.toNat ≤ 2 ^ 32 - 1 := Nat.le_pred_of_lt hz.isLt
  have hns : ns.toNat ≤ 2 ^ 32 - 1 := Nat.le_pred_of_lt ns.isLt
  simp only [recordOk, controllerBounds, List.length_cons, List.length_nil, List.zip_cons_cons, List.zip_nil_left,
    List.all_cons, List.all_nil, Bool.and_eq_true, decide_eq_true_eq, hhz, hns]
  simp

/-- Both tags allow DLLCALC (R324). -/
theorem modeAllows_dllcalc (record : List Word) (p : Params) : modeAllows (.dllcalc record) p = true := by
  simp [modeAllows, ramOnly, bulkWrite]

/-- The only check DLLCALC can fail is its record's. -/
theorem gate_dllcalc_of_recordOk {record : List Word} (h : recordOk controllerBounds record = true) (s : State) :
    gate (.dllcalc record) s = none := by
  simp [gate, modeAllows_dllcalc, operandsOk, kindOk, addressOk, h]

theorem exec_dllcalc_of_recordOk {record : List Word} (h : recordOk controllerBounds record = true) {s : State}
    (hready : s.Ready) :
    exec (.dllcalc record) s = .next (finish (resultOf .ok (dllValue (controllerRecord record)) []) s) :=
  calc exec (.dllcalc record) s
      = .next (run (finish (resultOf .ok (dllValue (controllerRecord record)) []) s)) :=
        accept_run hready (gate_dllcalc_of_recordOk h s)
    _ = .next (finish (resultOf .ok (dllValue (controllerRecord record)) []) s) := by rw [run_finish]

theorem exec_dllcalc_of_not_recordOk {record : List Word} (h : recordOk controllerBounds record = false) {s : State}
    (hready : s.Ready) : exec (.dllcalc record) s = .next (refuse .badOperand s) :=
  exec_refused rfl hready (gate_of_not_operandsOk (modeAllows_dllcalc record s.params) h)

/-- Settles O35, by whether the record is in range. -/
theorem dllcalcReturnsTheValue : Obligations.DllcalcReturnsTheValue := by
  intro s mode hz ns en hready
  have hrange := recordOk_controllerBounds mode hz ns en
  refine ⟨rfl, fun hmode hen => ?accepted, fun hbad => ?refused⟩
  case accepted => exact exec_dllcalc_of_recordOk (hrange.mpr ⟨hmode, hen⟩) hready
  case refused =>
    have hout : recordOk controllerBounds [mode, hz, ns, en] = false := by
      rw [Bool.eq_false_iff, ne_eq, hrange]
      omega
    exact exec_dllcalc_of_not_recordOk hout hready

end Sys2Proof.Machine

/-!
PROOFS of O37 and O38. A register's offset is its one address (R292), and what is no register's offset is refused before
the access starts (R295, R320 step 5).
-/

namespace Sys2Proof.Machine

/-! ## An array's index (R292) -/

theorem arrayIndex_at (base : Nat) {n : Nat} (i : Fin n) : arrayIndex (base + 4 * i.val) base n = some i := by
  simp [arrayIndex]

/-- Off the array's words, on either side. -/
theorem arrayIndex_outside {off base n : Nat} (h : off < base ∨ base + 4 * n ≤ off) : arrayIndex off base n = none :=
  dif_neg (by omega)

/-- An aligned offset in an array is the offset of the word it has there. -/
theorem offset_of_arrayIndex {off base n : Nat} {i : Fin n} (hoff : off % 4 = 0) (hbase : base % 4 = 0)
    (h : arrayIndex off base n = some i) : off = base + 4 * i.val := by
  obtain ⟨⟨hle, -⟩, rfl⟩ : ∃ hin : base ≤ off ∧ (off - base) / 4 < n, ⟨(off - base) / 4, hin.2⟩ = i := by
    simpa [arrayIndex] using h
  show off = base + 4 * ((off - base) / 4)
  omega

/-! ## The offsets of R21 -/

/-- The offsets R295 refuses: the misaligned ones, the holes and all from 0x3E0 up. -/
def BadOffset (off : Nat) : Prop :=
  off % 4 ≠ 0 ∨ (0x040 ≤ off ∧ off ≤ 0x05C) ∨ off ∈ [0x090, 0x098, 0x09C, 0x0A8, 0x0AC, 0x0F8, 0x0FC] ∨
    (0x0C8 ≤ off ∧ off ≤ 0x0DC) ∨ 0x3E0 ≤ off

/-- The table leaves the misaligned offsets and the holes free. -/
theorem regOffset_not_bad (r : Reg) : ¬ BadOffset (regOffset r) := by
  simp only [BadOffset, List.mem_cons, List.not_mem_nil, or_false]
  cases r <;> simp only [regOffset] <;> omega

theorem regOffset_aligned (r : Reg) : regOffset r % 4 = 0 :=
  Decidable.not_not.mp fun hne => regOffset_not_bad r (.inl hne)

theorem regOffset_lt (r : Reg) : regOffset r < 0x3E0 :=
  Nat.lt_of_not_le fun hle => regOffset_not_bad r (.inr (.inr (.inr (.inr hle))))

/-! ## The decode table (R292) -/

/-- Every register decodes from its own offset: a single register by its row, a word of an array by its index, as the offset
meets no row and lies outside the other arrays. -/
theorem decodeAligned_regOffset (r : Reg) : decodeAligned (regOffset r) = some r := by
  cases r
  case ahbrxbufcr0 i | flshcr0 i | flshcr1 i | flshcr2 i | dllcr i | rfdr i | tfdr i | lut i =>
    simp only [regOffset]
    unfold decodeAligned
    split
    case h_22 => simp (disch := omega) [arrayIndex_at, arrayIndex_outside]
    all_goals omega
  all_goals rfl

/-- What an aligned offset decodes to has that offset. -/
theorem offset_of_decodeAligned {off : Nat} (hoff : off % 4 = 0) {r : Reg} (h : decodeAligned off = some r) :
    off = regOffset r := by
  unfold decodeAligned at h
  split at h
  case h_22 =>
    simp only [Option.orElse_eq_or, Option.or_eq_some_iff, Option.map_eq_some_iff] at h
    rcases h with h | ⟨-, h | ⟨-, h | ⟨-, h | ⟨-, h | ⟨-, h | ⟨-, h | ⟨-, h⟩⟩⟩⟩⟩⟩⟩
    all_goals
      obtain ⟨i, hi, rfl⟩ := h
      exact offset_of_arrayIndex hoff rfl hi
  all_goals
    cases h
    rfl

/-- R292 in one line: the offsets that decode are the registers' own. -/
theorem decodeReg_eq_some_iff {off : Word} {r : Reg} : decodeReg off = some r ↔ off.toNat = regOffset r := by
  constructor
  · intro h
    obtain ⟨hoff, hreg⟩ : off.toNat % 4 = 0 ∧ decodeAligned off.toNat = some r := by simpa [decodeReg] using h
    exact offset_of_decodeAligned hoff hreg
  · intro h
    simp [decodeReg, h, regOffset_aligned, decodeAligned_regOffset]

theorem decodeReg_eq_none {off : Word} (h : BadOffset off.toNat) : decodeReg off = none := by
  refine Option.eq_none_iff_forall_ne_some.mpr fun r hr => regOffset_not_bad r ?_
  rwa [← decodeReg_eq_some_iff.mp hr]

/-- A register decodes from its offset written as the sum of two words, an array's base and the place in it. -/
theorem decodeReg_of_offset {r : Reg} {base i : Nat} (h : regOffset r = base + i) :
    decodeReg (BitVec.ofNat 32 base + BitVec.ofNat 32 i) = some r := by
  have hlt : base + i < 2 ^ 32 := h ▸ Nat.lt_trans (regOffset_lt r) (by decide)
  rw [decodeReg_eq_some_iff, ← BitVec.ofNat_add, BitVec.toNat_ofNat, Nat.mod_eq_of_lt hlt, h]

theorem mem_allRegs (r : Reg) : r ∈ allRegs := by
  cases r <;> simp [allRegs]

/-- Settles O37: every clause is an offset of R21 read off `regOffset`. -/
theorem offsetsDecodeByTheTable : Obligations.OffsetsDecodeByTheTable := by
  refine ⟨fun x hx => decodeReg_eq_some_iff.mpr ?rows, fun i => decodeReg_of_offset rfl,
    fun k => ⟨decodeReg_of_offset rfl, decodeReg_of_offset rfl, decodeReg_of_offset rfl⟩,
    fun i => ⟨decodeReg_of_offset rfl, decodeReg_of_offset rfl⟩, fun i => decodeReg_of_offset rfl,
    fun _ _ => decodeReg_eq_some_iff.mp, rfl, mem_allRegs⟩
  case rows => revert x; decide

/-! ## The refusal (R295) -/

/-- The address check is the last (R320 step 5). -/
theorem gate_of_not_addressOk {i : Instr} {s : State} (hmode : modeAllows i s.params = true)
    (hoperands : operandsOk i s.params = true) (hkind : kindOk i s.params = true) (haddress : addressOk i s = false) :
    gate i s = some .badAccess := by
  simp [gate, hmode, hoperands, hkind, haddress]

/-- REGRD and REGWR pass every check before the address's: both tags allow them (R324), and they take any operands. -/
theorem exec_demux_unmapped {i : Instr} {off v : Word} (hi : i = .regrd off ∨ i = .regwr off v)
    (hdecode : decodeReg off = none) {s : State} (hready : s.Ready) : exec i s = .next (refuse .badAccess s) := by
  have hmode : modeAllows i s.params = true := by obtain rfl | rfl := hi <;> simp [modeAllows, ramOnly, bulkWrite]
  have haddress : addressOk i s = false := by obtain rfl | rfl := hi <;> simp [addressOk, hdecode]
  obtain rfl | rfl := hi
  all_goals exact exec_refused rfl hready (gate_of_not_addressOk hmode rfl rfl haddress)

/-- Settles O38: a bad offset decodes to no register, and the address check refuses it. -/
theorem badOffsetsAreRefused : Obligations.BadOffsetsAreRefused := fun _ _ v hready hbad =>
  have hdecode := decodeReg_eq_none hbad
  ⟨exec_demux_unmapped (v := v) (.inl rfl) hdecode hready, exec_demux_unmapped (.inr rfl) hdecode hready⟩

end Sys2Proof.Machine

/-!
PROOFS of O1, O2, O3 and O5. The fields of a half and of a request header are all of it (R111, R130), and a request decodes
exactly where each field its operation does not use is 0 and its payload is of the operation's form (R130 to R132, R141).
-/

namespace Sys2Proof

/-! ## LUT halves -/

/-- The three fields of R111 are all of a half. -/
theorem lutHalf_fields (h : Half) : lutHalf (h.extractLsb' 10 6) (h.extractLsb' 8 2) (h.extractLsb' 0 8) = h := by
  rw [lutHalf, BitVec.extractLsb'_append_extractLsb'_eq_extractLsb' (show 10 = 8 + 2 from rfl),
    BitVec.extractLsb'_append_extractLsb'_eq_extractLsb' (show 8 = 0 + 8 from rfl)]
  exact BitVec.extractLsb'_eq_self

/-- The opcodes of R112. -/
def lutOpcodes : List (BitVec 6) :=
  [0x00, 0x01, 0x21, 0x02, 0x22, 0x08, 0x28, 0x09, 0x29, 0x0C, 0x2C]

theorem decodeLut16_eq_none_iff (h : Half) : decodeLut16 h = none ↔ h.extractLsb' 10 6 ∉ lutOpcodes := by
  have htoNat : h.extractLsb' 10 6 ∈ lutOpcodes ↔ (h.extractLsb' 10 6).toNat ∈ lutOpcodes.map BitVec.toNat := by
    simp [lutOpcodes, BitVec.toNat_eq]
  rw [htoNat]
  unfold decodeLut16
  split <;> simp_all [lutOpcodes]

/-- A half that decodes is the encoding of what it decodes to: its opcode is the instruction's, its other fields the
operands (R112). -/
theorem encode_of_decodeLut16 {h : Half} {i : Instr} (hd : decodeLut16 h = some i) : encode i = .half h := by
  have hop {n : Nat} (hn : (h.extractLsb' 10 6).toNat = n) : h.extractLsb' 10 6 = BitVec.ofNat 6 n := by
    rw [← hn, BitVec.ofNat_toNat, BitVec.setWidth_eq]
  unfold decodeLut16 at hd
  split at hd
  case h_12 => cases hd
  all_goals
    cases hd
    rename_i hn
    exact congrArg Encoded.half ((congrArg (lutHalf · _ _) (hop hn)).symm.trans (lutHalf_fields h))

/-- Settles O3, by the opcode. -/
theorem halfDecodesByOpcode : Obligations.HalfDecodesByOpcode :=
  ⟨fun _ _ => encode_of_decodeLut16, decodeLut16_eq_none_iff⟩

/-! ## Requests -/

/-- The fields of a request that its operation does not use are 0 (R130, R131, R141). -/
structure UnusedFieldsZero (sh : OpShape) (r : Request) : Prop where
  header : headerZero sh r = true
  operands : operandsZero sh r = true

/-- R130 to R132 in one line: what decodes, and to what. -/
theorem decodeRequest_eq_ok_iff {r : Request} {i : Instr} :
    decodeRequest r = .ok i ↔ ∃ sh data record, opShape (reqOp r) = some sh ∧ UnusedFieldsZero sh r ∧
      payloadFor sh.payload r.payload = some (data, record) ∧
      makeOp (reqOp r) (reqKind r) (reqAp r) r.req1 r.req2 data record = some i := by
  constructor
  · intro h
    unfold decodeRequest at h
    split at h
    next => cases h
    next sh hsh =>
      split at h
      next => cases h
      next hheader =>
        split at h
        next => cases h
        next hoperands =>
          split at h
          next data record hp =>
            split at h
            next hm =>
              cases h
              exact ⟨sh, data, record, hsh, ⟨by simpa using hheader, by simpa using hoperands⟩, hp, hm⟩
            next => cases h
          next => split at h <;> cases h
  · rintro ⟨sh, data, record, hsh, ⟨hheader, hoperands⟩, hp, hm⟩
    simp [decodeRequest, hsh, hheader, hoperands, hp, hm]

/-! ## Decoding what was encoded -/

theorem reqOp_header (op : BitVec 6) (kind : BitVec 5) (ap : Bool) (r1 r2 : Word) (p : Payload) :
    reqOp ⟨header op kind ap, r1, r2, p⟩ = op := header_op op kind ap

theorem reqKind_header (op : BitVec 6) (kind : BitVec 5) (ap : Bool) (r1 r2 : Word) (p : Payload) :
    reqKind ⟨header op kind ap, r1, r2, p⟩ = kind := header_kind op kind ap

theorem reqAp_header (op : BitVec 6) (kind : BitVec 5) (ap : Bool) (r1 r2 : Word) (p : Payload) :
    reqAp ⟨header op kind ap, r1, r2, p⟩ = ap := header_ap op kind ap

theorem reservedZero_header (op : BitVec 6) (kind : BitVec 5) (ap : Bool) (r1 r2 : Word) (p : Payload) :
    reservedZero ⟨header op kind ap, r1, r2, p⟩ = true := by
  obtain ⟨h1, h2, h3⟩ := header_reserved op kind ap
  simp only [reservedZero, h1, h2, h3]
  rfl

/-- A request written with `header` decodes to its operation, where it uses no field its operation does not have. -/
theorem decodeRequest_header {op : BitVec 6} {kind : BitVec 5} {ap : Bool} {r1 r2 : Word} {p : Payload} {sh : OpShape}
    {data : List Byte} {record : List Word} {i : Instr} (hshape : opShape op = some sh)
    (hkind : (sh.kind || kind == 0) = true) (hap : (sh.ap || !ap) = true)
    (hreq1 : (sh.req1 && (!sh.ap || ap) || r1 == 0) = true) (hreq2 : (sh.req2 || r2 == 0) = true)
    (hpayload : payloadFor sh.payload p = some (data, record)) (hmake : makeOp op kind ap r1 r2 data record = some i) :
    decodeRequest ⟨header op kind ap, r1, r2, p⟩ = .ok i := by
  refine decodeRequest_eq_ok_iff.mpr ⟨sh, data, record, ?_, ⟨?_, ?_⟩, hpayload, ?_⟩
  · rwa [reqOp_header]
  · simp only [headerZero, reservedZero_header, reqKind_header, reqAp_header, hkind, hap, Bool.and_self]
  · simp only [operandsZero, reqAp_header, hreq1, hreq2, Bool.and_self]
  · rwa [reqOp_header, reqKind_header, reqAp_header]

theorem decode_encode_half {op : BitVec 6} {p : BitVec 2} {x : Byte} {i : Instr}
    (h : decodeLut16 (lutHalf op p x) = some i) : decode (.half (lutHalf op p x)) = .ok i := by
  simp only [decode, h]

/-- Settles O1: each instruction's encoding has the fields of its own row and no other. -/
theorem decodeEncodeRoundTrip : Obligations.DecodeEncodeRoundTrip := by
  intro i
  cases i with
  | stop p x | cmdSdr p x | cmdDdr p x | raddrSdr p x | raddrDdr p x | writeSdr p x | writeDdr p x | readSdr p x
  | readDdr p x | dummySdr p x | dummyDdr p x =>
    refine decode_encode_half ?_
    simp only [decodeLut16, lutHalf_opcode, lutHalf_pads, lutHalf_operand]
    rfl
  | ipx kind addr size data =>
    cases addr with
    | none => exact decodeRequest_header (sh := ⟨true, true, true, true, .bytes⟩) rfl rfl rfl rfl rfl rfl rfl
    | some a => exact decodeRequest_header (sh := ⟨true, true, true, true, .bytes⟩) rfl rfl rfl rfl rfl rfl rfl
  | _ =>
    simp only [decode, encode, plainRequest]
    apply decodeRequest_header <;> rfl

/-! ## Encoding what was decoded -/

/-- A header word with its reserved bits 0 is its three fields (R130). -/
theorem header_fields {r : Request} (h : reservedZero r = true) : header (reqOp r) (reqKind r) (reqAp r) = r.req0 := by
  obtain ⟨⟨h6, h13⟩, h17⟩ : (r.req0.extractLsb' 6 2 = 0 ∧ r.req0.extractLsb' 13 3 = 0) ∧ r.req0.extractLsb' 17 15 = 0 := by
    simpa [reservedZero] using h
  have join {start next len len' : Nat} (h : next = start + len) :
      r.req0.extractLsb' next len' ++ r.req0.extractLsb' start len = r.req0.extractLsb' start (len' + len) :=
    BitVec.extractLsb'_append_extractLsb'_eq_extractLsb' h
  rw [header, reqOp, reqKind, reqAp, ofBool_getLsbD, ← h6, ← h13, ← h17, join (show 17 = 16 + 1 from rfl),
    join (show 16 = 13 + 3 from rfl), join (show 13 = 8 + 5 from rfl), join (show 8 = 6 + 2 from rfl),
    join (show 6 = 0 + 6 from rfl)]
  exact BitVec.extractLsb'_eq_self

/-- The payload an operation takes, written as bytes or as record words, is the one that came but for the spelling of an
empty one (R130). -/
def Payload.Respelled (pl p : Payload) : Prop :=
  pl.asBytes = p.asBytes ∧ pl.asWords = p.asWords

theorem Payload.respelled_bytes {p : Payload} {data : List Byte} (h : p.asBytes = some data) :
    (Payload.bytes data).Respelled p :=
  match p, h with
  | .bytes _, rfl => ⟨rfl, rfl⟩
  | .words [], rfl => ⟨rfl, rfl⟩

theorem Payload.respelled_words {p : Payload} {record : List Word} (h : p.asWords = some record) :
    (Payload.words record).Respelled p :=
  match p, h with
  | .words _, rfl => ⟨rfl, rfl⟩
  | .bytes [], rfl => ⟨rfl, rfl⟩

/-- What an operation's form makes of a payload: bytes of it, words of it, or nothing of an empty one. -/
theorem payloadFor_respelled {form : PayloadForm} {p : Payload} {data : List Byte} {record : List Word}
    (h : payloadFor form p = some (data, record)) :
    (form ≠ .words → (Payload.bytes data).Respelled p) ∧ (form = .words → (Payload.words record).Respelled p) := by
  cases form with
  | none =>
    obtain ⟨hb, rfl, rfl⟩ : p.asBytes = some [] ∧ [] = data ∧ [] = record := by simpa [payloadFor] using h
    exact ⟨fun _ => Payload.respelled_bytes hb, fun hne => by cases hne⟩
  | bytes =>
    obtain ⟨hb, -⟩ : p.asBytes = some data ∧ [] = record := by simpa [payloadFor] using h
    exact ⟨fun _ => Payload.respelled_bytes hb, fun hne => by cases hne⟩
  | words =>
    obtain ⟨hw, -⟩ : p.asWords = some record ∧ [] = data := by simpa [payloadFor, and_comm] using h
    exact ⟨fun hne => absurd rfl hne, fun _ => Payload.respelled_words hw⟩

/-- The operand words an operation does not use read 0 (R131). -/
theorem UnusedFieldsZero.fields {sh : OpShape} {r : Request} (h : UnusedFieldsZero sh r) :
    reservedZero r = true ∧ (sh.kind = false → reqKind r = 0) ∧ (sh.ap = false → reqAp r = false) ∧
    (sh.req1 = false ∨ (sh.ap = true ∧ reqAp r = false) → r.req1 = 0) ∧ (sh.req2 = false → r.req2 = 0) := by
  obtain ⟨hheader, hoperands⟩ := h
  simp only [headerZero, operandsZero, Bool.and_eq_true, Bool.or_eq_true, beq_iff_eq, Bool.not_eq_true'] at hheader hoperands
  grind

/-- The encoding of an operation made of some operands is the request with those operands in its fields (R132). -/
theorem encode_of_makeOp {op : BitVec 6} {kind : BitVec 5} {ap : Bool} {r1 r2 : Word} {data : List Byte}
    {record : List Word} {i : Instr} {sh : OpShape} (hmake : makeOp op kind ap r1 r2 data record = some i)
    (hshape : opShape op = some sh) (hkind : sh.kind = false → kind = 0) (hap : sh.ap = false → ap = false)
    (hreq1 : sh.req1 = false ∨ (sh.ap = true ∧ ap = false) → r1 = 0) (hreq2 : sh.req2 = false → r2 = 0)
    (hnone : sh.payload = .none → data = []) :
    encode i = .request ⟨header op kind ap, r1, r2, if sh.payload = .words then .words record else .bytes data⟩ := by
  have hop {n : Nat} (hn : op.toNat = n) : op = BitVec.ofNat 6 n := by
    rw [← hn, BitVec.ofNat_toNat, BitVec.setWidth_eq]
  unfold makeOp at hmake
  split at hmake
  case h_29 => cases hmake
  all_goals
    rename_i hn
    obtain rfl := hop hn
    obtain rfl := Option.some.inj hmake
    obtain rfl := Option.some.inj hshape
  case h_2 =>
    cases ap with
    | false =>
      obtain rfl := hreq1 (.inr ⟨rfl, rfl⟩)
      rfl
    | true => rfl
  all_goals simp_all [encode, plainRequest]

/-- An operation that takes no payload is made of no bytes. -/
theorem payloadFor_none {p : Payload} {data : List Byte} {record : List Word}
    (h : payloadFor .none p = some (data, record)) : data = [] := by
  obtain ⟨-, rfl, -⟩ : p.asBytes = some [] ∧ [] = data ∧ [] = record := by simpa [payloadFor] using h
  rfl

/-- Settles O2: the request's fields are the operands of what it decodes to, and the others are 0. -/
theorem decodedRequestReencodes : Obligations.DecodedRequestReencodes := by
  intro r i h
  obtain ⟨sh, data, record, hshape, hzero, hpayload, hmake⟩ := decodeRequest_eq_ok_iff.mp h
  obtain ⟨hreserved, hkind, hap, hreq1, hreq2⟩ := hzero.fields
  have hencode := encode_of_makeOp hmake hshape hkind hap hreq1 hreq2
    fun hnone => payloadFor_none (hnone ▸ hpayload)
  rw [header_fields hreserved] at hencode
  obtain ⟨hbytes, hwords⟩ := payloadFor_respelled hpayload
  refine ⟨_, hencode, ?_⟩
  split
  next hform => exact hwords hform
  next hform => exact hbytes hform

/-! ## Words of the spec -/

/-- Settles O5: each word is decoded. -/
theorem specWordsDecode : Obligations.SpecWordsDecode := by
  unfold Obligations.SpecWordsDecode
  decide

end Sys2Proof

/-!
PROOF of O60, and the laws O57 and O58 use with it. What one micro-step, one turn and one step can do, each said once
(R9, R15, R320): a property of states kept by the machine's few moves is kept by every step.
-/

namespace Sys2Proof.Machine

/-! ## Moves of the engine's own state -/

/-- `t` comes from `s` by a change of the engine's own state and the draws taken, and of nothing else. -/
def State.EngineMoved (s t : State) : Prop :=
  ∃ e d, t = { s with eng := e, draws := d }

theorem State.EngineMoved.refl (s : State) : s.EngineMoved s := ⟨s.eng, s.draws, rfl⟩

theorem State.EngineMoved.trans {s t u : State} (h : s.EngineMoved t) (h' : t.EngineMoved u) : s.EngineMoved u := by
  obtain ⟨e, d, rfl⟩ := h
  obtain ⟨e', d', rfl⟩ := h'
  exact ⟨e', d', rfl⟩

theorem regRead_engineMoved (r : Reg) (s : State) : s.EngineMoved (regRead r s).2 := by
  obtain ⟨d, hd⟩ := regRead_frame r s
  exact ⟨s.eng, d, hd⟩

/-- What ERASE does after one of its commands: it ends, or goes on with a read-status command (R190). -/
theorem eraseEnd_cases (s : State) :
    ∃ d, (∃ r, eraseEnd s = { finish r s with draws := d }) ∨ ∃ n, eraseEnd s = { eraseNextStatus n s with draws := d } := by
  unfold eraseEnd
  by_cases hn : s.eng.count = 0
  · exact ⟨s.draws, .inr ⟨1, if_pos hn⟩⟩
  · obtain ⟨d, hd⟩ : ∃ d, (if (collected s).isEmpty then { s with draws := s.draws + 1 } else s) = { s with draws := d } := by
      split
      · exact ⟨_, rfl⟩
      · exact ⟨s.draws, rfl⟩
    refine ⟨d, ?_⟩
    simp only [hn, if_false, hd]
    split
    · exact .inl ⟨_, rfl⟩
    · split
      · exact .inr ⟨_, rfl⟩
      · split
        · exact .inl ⟨_, rfl⟩
        · exact .inr ⟨_, rfl⟩

theorem eraseEnd_engineMoved (s : State) : s.EngineMoved (eraseEnd s) := by
  obtain ⟨d, ⟨r, h⟩ | ⟨n, h⟩⟩ := eraseEnd_cases s
  · exact ⟨_, d, h⟩
  · exact ⟨_, d, h⟩

/-- The end of an operation, or of a part of it, is the engine's own (R360). -/
theorem endOperation_engineMoved (s : State) : s.EngineMoved (endOperation s) := by
  unfold endOperation
  split
  · exact ⟨_, s.draws, rfl⟩
  · exact ⟨_, s.draws, rfl⟩
  · exact eraseEnd_engineMoved s
  · unfold classifyEnd
    split
    · exact ⟨_, s.draws, rfl⟩
    · exact ⟨_, s.draws, rfl⟩
  · unfold classifiedEnd
    split
    · exact ⟨_, s.draws, rfl⟩
    · exact ⟨_, s.draws, rfl⟩

theorem proceed_engineMoved (rest : List Micro) (s : State) : s.EngineMoved (proceed rest s) := by
  cases rest with
  | nil => exact endOperation_engineMoved s
  | cons m ms => exact ⟨_, s.draws, rfl⟩

/-- The limit on a poll is reached with its `n`-th read (R362). -/
def LimitReached (p : Params) (n : Nat) : Prop :=
  ∃ limit, p.pollLimit = some limit ∧ limit ≤ n

/-- One read of a poll (R362): its condition holds and the operation goes on, or the limit ends it, or the poll stays. -/
theorem pollStep_cases (r : Reg) (c : PollCond) (rest : List Micro) (s : State) :
    (c.holds (regPeek r s) = true ∧ pollStep r c rest s = proceed rest (regRead r s).2) ∨
    (c.holds (regPeek r s) = false ∧ LimitReached s.params (s.eng.polls + 1) ∧
      pollStep r c rest s = raise .timeout (BitVec.ofNat 32 (s.eng.polls + 1)) (regRead r s).2) ∨
    (c.holds (regPeek r s) = false ∧ ¬ LimitReached s.params (s.eng.polls + 1) ∧
      pollStep r c rest s = { (regRead r s).2 with eng := { (regRead r s).2.eng with polls := s.eng.polls + 1 } }) := by
  have hv : (regRead r s).1 = regPeek r s := rfl
  simp only [pollStep, hv]
  cases hc : c.holds (regPeek r s) with
  | true => exact .inl ⟨rfl, rfl⟩
  | false =>
    refine .inr ?_
    cases hl : s.params.pollLimit with
    | none => exact .inr ⟨rfl, by simp [LimitReached, hl], rfl⟩
    | some limit =>
      by_cases hn : limit ≤ s.eng.polls + 1
      · exact .inl ⟨rfl, ⟨limit, hl, hn⟩, by simp [hn]⟩
      · exact .inr ⟨rfl, by simpa [LimitReached, hl] using hn, by simp [hn]⟩

theorem pollStep_engineMoved (r : Reg) (c : PollCond) (rest : List Micro) (s : State) :
    s.EngineMoved (pollStep r c rest s) := by
  have hread := regRead_engineMoved r s
  obtain ⟨-, h⟩ | ⟨-, -, h⟩ | ⟨-, -, h⟩ := pollStep_cases r c rest s
  · exact h ▸ hread.trans (proceed_engineMoved rest _)
  · exact h ▸ hread.trans ⟨_, _, rfl⟩
  · exact h ▸ hread.trans ⟨_, _, rfl⟩

/-! ## One micro-step -/

/-- What a micro-step does outside the engine: nothing, one register write, or the store of one byte (R15). -/
inductive State.Accessed (s : State) : State → Prop where
  | quiet : s.Accessed s
  | write (r : Reg) (v : Word) : s.Accessed (regWrite r v s)
  | store (addr : Word) (b : Byte) : s.Accessed (memWrite addr [b] 0 s)

theorem popLongStep_cases (rest : List Micro) (s : State) : (regWrite .intr 0x20 s).EngineMoved (popLongStep rest s) := by
  have hcount : (regWrite .intr 0x20 s).EngineMoved
      (onSession (fun x => { x with remaining := x.remaining - x.wm }) (regWrite .intr 0x20 s)) := ⟨_, _, rfl⟩
  unfold popLongStep
  simp only
  split
  · exact hcount.trans (proceed_engineMoved rest _)
  · split
    · exact hcount.trans (proceed_engineMoved _ _)
    · exact (hcount.trans ⟨_, _, rfl⟩).trans (proceed_engineMoved rest _)

/-- A micro-step is one access and then a change of the engine's own state (R15, R90). -/
theorem actStep_cases (a : Act) (rest : List Micro) (s : State) :
    ∃ u, s.Accessed u ∧ u.EngineMoved (actStep a rest s) := by
  cases a with
  | write r v =>
    refine ⟨_, .write r v, ?_⟩
    simp only [actStep]
    split
    · exact .refl _
    · exact proceed_engineMoved rest _
  | field r mask bits => exact ⟨_, .write r _, proceed_engineMoved rest _⟩
  | poll r c => exact ⟨s, .quiet, pollStep_engineMoved r c rest s⟩
  | readValue r =>
    exact ⟨s, .quiet, ((regRead_engineMoved r s).trans ⟨_, _, rfl⟩).trans (proceed_engineMoved rest _)⟩
  | readModuleDisable =>
    refine ⟨s, .quiet, ?_⟩
    simp only [actStep]
    split
    · exact (regRead_engineMoved _ s).trans (proceed_engineMoved rest _)
    · exact (regRead_engineMoved _ s).trans ⟨_, _, rfl⟩
  | readRx i =>
    exact ⟨s, .quiet, ((regRead_engineMoved _ s).trans ⟨_, _, rfl⟩).trans (proceed_engineMoved rest _)⟩
  | popShort size =>
    have hkeep : (regWrite .intr 0x20 s).EngineMoved
      (onSession (fun x => { x with out := x.out.take size }) (regWrite .intr 0x20 s)) := ⟨_, _, rfl⟩
    exact ⟨_, .write .intr 0x20, hkeep.trans (proceed_engineMoved rest _)⟩
  | popLong => exact ⟨_, .write .intr 0x20, popLongStep_cases rest s⟩
  | store addr b =>
    simp only [actStep]
    split
    · exact ⟨s, .quiet, .refl s⟩
    · exact ⟨_, .store addr b, proceed_engineMoved rest _⟩
  | delay cycles => exact ⟨s, .quiet, proceed_engineMoved rest s⟩

/-- ENGINE's turn is one micro-step, or nothing (R366). -/
theorem engStep_cases (s : State) : ∃ u, s.Accessed u ∧ u.EngineMoved (engStep s) := by
  unfold engStep
  split
  · exact ⟨s, .quiet, .refl s⟩
  · split
    · exact ⟨s, .quiet, .refl s⟩
    · exact actStep_cases _ _ s

/-! ## The start of an operation -/

/-- An operation that passed its checks has ended at once, or has micro-steps before it, none of them of phase `Idle`
(R55). -/
inductive Started (i : Instr) (s : State) : State → Prop where
  | ended (r : Result) : Started i s (finish r s)
  | program (x : Option Session) (prog : List Micro) (e : Ending) (steps : prog ≠ [])
      (phases : ∀ m ∈ prog, m.phase ≠ .idle) : Started i s (begin i x prog e s)

theorem gate_eq_none {i : Instr} {s : State} (h : gate i s = none) :
    modeAllows i s.params = true ∧ operandsOk i s.params = true ∧ kindOk i s.params = true ∧ addressOk i s = true := by
  unfold gate at h
  split at h
  · cases h
  · split at h
    · cases h
    · split at h
      · cases h
      · split at h
        · cases h
        · simp_all

theorem plain_phase {ms : List Micro} (h : ms.all Micro.plain = true) : ∀ m ∈ ms, m.phase ≠ .idle := by
  intro m hm
  have := List.all_eq_true.mp h m hm
  simp only [Micro.plain, Bool.and_eq_true, bne_iff_ne] at this
  exact this.1

theorem rxDrain_phase (p : Params) (size : Nat) : ∀ m ∈ rxDrain p size, m.phase = .drainOrFill := by
  intro m hm
  unfold rxDrain shortDrain longDrain readWindow at hm
  split at hm
  all_goals
    simp only [List.cons_append, List.mem_cons, List.mem_append, List.mem_map, List.not_mem_nil, or_false] at hm
    obtain rfl | ⟨_, _, rfl⟩ | rfl := hm
    all_goals rfl

/-- The data phase is all of one phase (R171, R180). -/
theorem dataPhase_phase (p : Params) (k : Kind) (size : Nat) (data : List Byte) :
    ∀ m ∈ dataPhase p k size data, m.phase = .drainOrFill := by
  intro m hm
  unfold dataPhase at hm
  split at hm
  · cases hm
  · split at hm
    · cases hm
    · split at hm
      · exact rxDrain_phase p size m hm
      · simp only [txFill, List.mem_cons, List.not_mem_nil, or_false] at hm
        obtain rfl | rfl | rfl := hm
        all_goals rfl

theorem issue_phase (p : Params) (k : Kind) (addr : Option Word) (size : BitVec 16) (data : List Byte) :
    ∀ m ∈ issue p k addr size data, m.phase ≠ .idle := by
  intro m hm
  simp only [issue_eq, List.mem_append, List.mem_cons] at hm
  obtain hm | rfl | rfl | rfl | hm := hm
  · exact plain_phase (programWrites_plain p k addr size) m hm
  · simp
  · simp
  · simp
  · simp [dataPhase_phase p k size.toNat data m hm]

theorem issue_ne_nil (p : Params) (k : Kind) (addr : Option Word) (size : BitVec 16) (data : List Byte) :
    issue p k addr size data ≠ [] := by
  simp [issue_eq]

theorem issueOperation_started (i : Instr) (k : Kind) (addr : Option Word) (size : BitVec 16) (data : List Byte)
    (e : Ending) (s : State) : Started i s (issueOperation i k addr size data e s) :=
  .program _ _ _ (issue_ne_nil _ _ _ _ _) (issue_phase _ _ _ _ _)

/-- The micro-steps of a configuring operation. -/
def Configuring (prog : List Micro) : Prop :=
  prog ≠ [] ∧ ∀ m ∈ prog, m.phase = .configuring

theorem Configuring.started {prog : List Micro} (h : Configuring prog) (i : Instr) (e : Ending) (s : State) :
    Started i s (configureOperation i prog e s) :=
  .program _ _ _ h.1 fun m hm => by simp [h.2 m hm]

theorem build_phase {p : Params} {ph : Phase} {k : Kind} : ∀ m ∈ build p ph k, m.phase = ph := by
  intro m hm
  unfold build at hm
  split at hm
  · cases hm
  · simp only [buildSlot, buildWord, resetPointer, List.cons_append, List.nil_append, List.mem_cons, List.not_mem_nil,
      or_false] at hm
    obtain rfl | rfl | rfl | rfl | rfl | rfl | rfl | rfl | rfl | rfl | rfl | rfl | rfl | rfl | rfl | rfl := hm
    all_goals rfl

theorem build_configuring {p : Params} {k : Kind} {c : LogicalCommand} (hc : commandOf p k = some c) :
    Configuring (build p .configuring k) := by
  refine ⟨fun h => ?_, build_phase⟩
  have := build_length (ph := .configuring) hc
  simp [h] at this

theorem xwrite_configuring (p : Params) (addr : Word) (b : Byte) :
    Configuring (build p .configuring .pageProgram ++ [⟨.configuring, .store addr b⟩]) := by
  refine ⟨by simp, fun m hm => ?_⟩
  obtain hm | hm := List.mem_append.mp hm
  · exact build_phase m hm
  · rw [List.mem_singleton.mp hm]

theorem ahbConfigure_configuring (record : List Word) : Configuring (ahbConfigure record) := by
  refine ⟨by simp [ahbConfigure], fun m hm => ?_⟩
  simp only [ahbConfigure, List.cons_append, List.mem_cons, List.mem_append, List.mem_map, List.not_mem_nil, or_false] at hm
  obtain rfl | ⟨_, _, rfl⟩ | rfl | rfl | rfl | rfl := hm
  all_goals rfl

theorem readSequence_phase (b : Binding) : ∀ m ∈ readSequence b, m.phase = .configuring := by
  unfold readSequence
  split <;> simp

theorem writeSequence_phase (b : Binding) : ∀ m ∈ writeSequence b, m.phase = .configuring := by
  unfold writeSequence
  split <;> simp

theorem deviceConfigure_configuring (p : Params) (c : ControllerRecord) : Configuring (deviceConfigure p c) := by
  refine ⟨by simp [deviceConfigure], fun m hm => ?_⟩
  simp only [deviceConfigure, List.mem_append, List.mem_cons, List.not_mem_nil, or_false] at hm
  obtain (((rfl | rfl | rfl | rfl | rfl | rfl) | hread) | hwrite) | rfl | rfl | rfl := hm
  case inl.inl.inr => exact readSequence_phase _ m hread
  case inl.inr => exact writeSequence_phase _ m hwrite
  all_goals rfl

/-- What a host operation on port OP is: an acceptance of a start (R320). -/
theorem exec_started {i : Instr} (h : operationPort i = true) :
    ∃ go, (∀ s, exec i s = accept i go s) ∧ ∀ s, gate i s = none → Started i s (go s) := by
  cases i with
  | stop | cmdSdr | cmdDdr | raddrSdr | raddrDdr | writeSdr | writeDdr | readSdr | readDdr | dummySdr | dummyDdr
  | winrd | winwr => cases h
  | wrdi | lock | unlock =>
    refine ⟨_, fun s => rfl, fun s hg => ?_⟩
    obtain ⟨-, -, hkind, -⟩ := gate_eq_none hg
    cases hkind
  | lutb kind =>
    refine ⟨_, fun s => rfl, fun s hg => ?_⟩
    obtain ⟨-, -, hkind, -⟩ := gate_eq_none hg
    cases hk : kindOfCode kind with
    | none => simp [kindOk, hk] at hkind
    | some k =>
      obtain ⟨c, hc⟩ : ∃ c, commandOf s.params k = some c := by
        simpa [kindOk, hk, Option.isSome_iff_exists] using hkind
      simp only
      exact (build_configuring hc).started _ _ _
  | ipx kind addr size data =>
    refine ⟨_, fun s => rfl, fun s hg => ?_⟩
    obtain ⟨-, -, hkind, -⟩ := gate_eq_none hg
    cases hk : kindOfCode kind with
    | none => simp [kindOk, hk] at hkind
    | some k =>
      simp only
      exact issueOperation_started ..
  | xwrite addr data => exact ⟨_, fun s => rfl, fun s _ => (xwrite_configuring s.params _ _).started _ _ _⟩
  | ahbcfg record => exact ⟨_, fun s => rfl, fun s _ => (ahbConfigure_configuring record).started _ _ _⟩
  | devcfg record => exact ⟨_, fun s => rfl, fun s _ => (deviceConfigure_configuring s.params _).started _ _ _⟩
  | dllcalc record => exact ⟨_, fun s => rfl, fun s _ => .ended _⟩
  | regrd off =>
    refine ⟨_, fun s => rfl, fun s hg => ?_⟩
    obtain ⟨-, -, -, haddress⟩ := gate_eq_none hg
    obtain ⟨r, hr⟩ := Option.isSome_iff_exists.mp (show (decodeReg off).isSome = true from haddress)
    simp only [hr]
    exact Configuring.started ⟨by simp, by simp⟩ _ _ _
  | regwr off val =>
    refine ⟨_, fun s => rfl, fun s hg => ?_⟩
    obtain ⟨-, -, -, haddress⟩ := gate_eq_none hg
    obtain ⟨r, hr⟩ := Option.isSome_iff_exists.mp (show (decodeReg off).isSome = true from haddress)
    simp only [hr]
    exact Configuring.started ⟨by simp, by simp⟩ _ _ _
  | errcls => exact ⟨_, fun s => rfl, fun s _ => Configuring.started ⟨by simp [errorReads], by simp [errorReads]⟩ _ _ _⟩
  | wren | rdsr | rdid | erase | rsten | rst | rdcfg1 | rdcfg2 | rdcfg3 | wrcfg1 | wrcfg2 | wrcfg3 | pwrup | pwrdn =>
    exact ⟨_, fun s => rfl, fun s _ => issueOperation_started ..⟩

theorem Started.engineMoved {i : Instr} {s t : State} (h : Started i s t) : s.EngineMoved t := by
  cases h with
  | ended r => exact ⟨_, s.draws, rfl⟩
  | program x prog e _ _ => exact ⟨_, s.draws, rfl⟩

/-- What an instruction is: a LUT instruction played, a window request, or an operation of port OP (R112, R132). -/
theorem exec_cases (i : Instr) :
    (∃ ph, ∀ s, exec i s = .next (playPhase ph s)) ∨
    (∃ a, windowAccess i = some a ∧ ∀ s, exec i s = .next (windowRequest i (admitAccess a) s)) ∨
    operationPort i = true := by
  cases hp : lutPhase i with
  | some ph => exact .inl ⟨ph, exec_played hp⟩
  | none =>
    cases ha : windowAccess i with
    | none => exact .inr (.inr (by simp [operationPort, hp, ha]))
    | some a =>
      refine .inr (.inl ⟨a, rfl, fun s => ?_⟩)
      cases i with
      | winrd | winwr =>
        cases ha
        rfl
      | _ => cases ha

/-! ## A property kept by every step -/

/-- A property of states that each of the machine's moves keeps. -/
structure StepClosed (P : State → Prop) : Prop where
  sched : ∀ {s} q, P s → P { s with sched := q }
  draws : ∀ {s} d, P s → P { s with draws := d }
  player : ∀ {s} p, P s → P { s with player := p }
  overlap : ∀ {s}, P s → P (overlap s)
  refuse : ∀ {s} c, P s → P (refuse c s)
  start : ∀ {i s t}, s.Ready → gate i s = none → Started i s t → P s → P t
  engine : ∀ {s}, P s → P (engStep s)
  serve : ∀ {s} a, P s → P (serveAccess a s)
  queue : ∀ {s} a, P s → P (queueAccess a s)
  env : ∀ {s} ev, P s → P (envStep ev s)
  play : ∀ {s} ph, P s → P (playPhase ph s)
  unknown : ∀ {s} slot, P s → P (playUnknown slot s)

namespace StepClosed
variable {P : State → Prop} (h : StepClosed P)
include h

theorem sizes {s : State} (hs : P s) : P (sizesDrawn s) := by
  obtain ⟨d, hd⟩ := sizesDrawn_frame s
  rw [hd]
  exact h.draws d hs

theorem window {i : Instr} {go : State → State} (hgo : ∀ {s}, P s → P (go s)) {s : State} (hs : P s) :
    P (windowRequest i go s) := by
  unfold windowRequest
  split
  · exact h.refuse _ (h.sizes hs)
  · exact hgo (h.sizes hs)

theorem admission (a : WinAccess) {s : State} (hs : P s) : P (admitAccess a s) := by
  unfold admitAccess
  split
  · exact h.queue a hs
  · exact h.serve a hs

theorem reject (r : Request) (e : Reject) {s : State} (hs : P s) : P (rejectRequest r e s) := by
  unfold rejectRequest
  split
  · exact h.refuse _ hs
  · split
    · exact hs
    · split
      · exact h.overlap hs
      · exact h.refuse _ hs

theorem requestWhileBusy (r : Request) {s : State} (hs : P s) : P (requestWhileBusy r s) := by
  unfold Machine.requestWhileBusy
  split
  · exact h.reject r _ hs
  · split
    · exact h.window (h.admission _) hs
    · split
      · exact hs
      · exact h.overlap hs

theorem requestToWait (r : Request) {s : State} (hs : P s) : P (requestToWait r s) := by
  unfold Machine.requestToWait
  split
  · exact hs
  · split
    · exact h.window (h.queue _) hs
    · exact hs

theorem tick {s : State} (hs : P s) : P (tick s) := by
  unfold Machine.tick
  split
  · exact h.engine hs
  · exact h.engine (h.sched _ hs)
  · exact h.requestWhileBusy _ (h.sched _ hs)
  · exact h.requestToWait _ (h.sched _ hs)
  · exact h.env _ (h.sched _ hs)

theorem drive (n : Nat) {s : State} (hs : P s) : P (drive n s) := by
  induction n generalizing s with
  | zero => exact hs
  | succ n ih =>
    unfold Machine.drive
    split
    · exact hs
    · exact ih (h.tick hs)

theorem exec {i : Instr} {s t : State} (hs : P s) (ht : exec i s = .next t) : P t := by
  obtain ⟨ph, hexec⟩ | ⟨a, -, hexec⟩ | hop := exec_cases i
  · rw [hexec] at ht
    cases ht
    exact h.play ph hs
  · rw [hexec] at ht
    cases ht
    exact h.window (h.admission a) hs
  · obtain ⟨go, hexec, hgo⟩ := exec_started hop
    rw [hexec] at ht
    obtain ⟨-, ha⟩ | ⟨-, -, ha⟩ | ⟨-, c, -, ha⟩ | ⟨hready, hg, ha⟩ := accept_cases i go s
    all_goals
      rw [ha] at ht
      cases ht
    · exact hs
    · exact h.overlap hs
    · exact h.refuse c hs
    · exact h.drive _ (h.start hready hg (hgo s hg) hs)

theorem step {s t : State} (hs : P s) (ht : step s = .next t) : P t := by
  unfold Machine.step at ht
  split at ht
  next i s1 hturn =>
    refine h.exec ?_ ht
    unfold nextTurn at hturn
    split at hturn
    next r rest _ =>
      unfold fetchRequest at hturn
      split at hturn
      · cases hturn
        exact h.sched rest hs
      · cases hturn
    next k src rest _ =>
      unfold fetchPlayed at hturn
      split at hturn
      next => cases hturn
      next half slot s2 hfetch =>
        obtain ⟨d, rfl⟩ := fetchHalf_frame hfetch
        split at hturn
        · cases hturn
          exact h.player _ (h.draws d (h.sched rest hs))
        · cases hturn
    next => cases hturn
  next s1 hturn =>
    cases ht
    unfold nextTurn at hturn
    split at hturn
    next r rest _ =>
      unfold fetchRequest at hturn
      split at hturn
      · cases hturn
      · cases hturn
        exact h.reject r _ (h.sched rest hs)
    next k src rest _ =>
      unfold fetchPlayed at hturn
      split at hturn
      next =>
        cases hturn
        exact h.sched rest hs
      next half slot s2 hfetch =>
        obtain ⟨d, rfl⟩ := fetchHalf_frame hfetch
        split at hturn
        · cases hturn
        · cases hturn
          exact h.unknown slot (h.player _ (h.draws d (h.sched rest hs)))
    next =>
      cases hturn
      unfold moveOn
      split
      · exact h.drive _ hs
      · exact h.tick hs

end StepClosed

/-- A property into which neither the engine's own state, nor the schedule, nor the draws enter, and which the other moves
keep. -/
structure SurfaceInvariant (P : State → Prop) : Prop where
  blind : ∀ {s} e q p d, P s → P { s with eng := e, sched := q, player := p, draws := d }
  overlap : ∀ {s}, P s → P (overlap s)
  write : ∀ {s} r v, P s → P (regWrite r v s)
  store : ∀ {s} addr data landed, P s → P (memWrite addr data landed s)
  serve : ∀ {s} a, P s → P (serveAccess a s)
  queue : ∀ {s} a, P s → P (queueAccess a s)
  env : ∀ {s} ev, P s → P (envStep ev s)
  play : ∀ {s} ph, P s → P (playPhase ph s)
  unknown : ∀ {s} slot, P s → P (playUnknown slot s)

/-- Such a property is kept by every step. -/
theorem SurfaceInvariant.closed {P : State → Prop} (h : SurfaceInvariant P) : StepClosed P where
  sched q hs := h.blind _ q _ _ hs
  draws d hs := h.blind _ _ _ d hs
  player p hs := h.blind _ _ p _ hs
  overlap := h.overlap
  refuse _ hs := h.blind _ _ _ _ hs
  start _ _ hstart hs := by
    obtain ⟨e, d, rfl⟩ := hstart.engineMoved
    exact h.blind e _ _ d hs
  engine {s} hs := by
    obtain ⟨u, haccess, e, d, heq⟩ := engStep_cases s
    rw [heq]
    cases haccess with
    | quiet => exact h.blind e _ _ d hs
    | write r v => exact h.blind e _ _ d (h.write r v hs)
    | store addr b => exact h.blind e _ _ d (h.store addr _ _ hs)
  serve := h.serve
  queue := h.queue
  env := h.env
  play := h.play
  unknown := h.unknown

/-! ## The parameters -/

theorem State.MovedByBackend.params {s t : State} (h : s.MovedByBackend t) : t.params = s.params :=
  (congrArg State.params h.rest :)

theorem State.ServedByBackend.params {s t : State} (h : s.ServedByBackend t) : t.params = s.params := by
  obtain ⟨u, r, hu, rfl⟩ := h
  exact hu.params

theorem dmaPop_params (n : Nat) (s : State) : (dmaPop n s).params = s.params := by
  unfold dmaPop
  split <;> rfl

theorem dmaPush_params (es : List Entry) (s : State) : (dmaPush es s).params = s.params := by
  unfold dmaPush
  split <;> rfl

/-- No turn of another agent writes a parameter, RESET's neither (R392). -/
theorem envStep_params (ev : Event) (s : State) : (envStep ev s).params = s.params := by
  cases ev with
  | request r => rfl
  | dmaPop n => exact dmaPop_params n s
  | dmaPush es => exact dmaPush_params es s
  | reset => rfl
  | _ => exact (envStep_served (by simp) (by simp) (by simp) (by simp)).params

theorem params_invariant (p : Params) : SurfaceInvariant fun s => s.params = p where
  blind _ _ _ _ hs := hs
  overlap hs := hs
  write r v hs := (regWrite_params r v _).trans hs
  store addr data landed hs := (memWrite_moved addr data landed _).params.trans hs
  serve a hs := (serveAccess_served a _).params.trans hs
  queue _ hs := hs
  env ev hs := (envStep_params ev _).trans hs
  play ph hs := (playPhase_moved ph _).params.trans hs
  unknown slot hs := (playUnknown_moved slot _).params.trans hs

/-- Settles O60: the parameters are one of the properties every move keeps. -/
theorem parametersNeverChange : Obligations.ParametersNeverChange := fun s _ hstep =>
  (params_invariant s.params).closed.step rfl hstep

end Sys2Proof.Machine

/-!
PROOFS of O57 and of the first half of O59. Consistency is a property of the queues, of nine registers, of the command in
flight and of the flash model; every move that writes one of these keeps its clause.
-/

namespace Sys2Proof.Machine

/-! ## Masks -/

theorem and_eq_zero_of_and {x n : Word} (h : x &&& n = 0) (m : Word) : (x &&& m) &&& n = 0 := by
  rw [BitVec.and_assoc, BitVec.and_comm m, ← BitVec.and_assoc, h]
  exact BitVec.zero_and

theorem and_eq_zero_of_or {x y n : Word} (hx : x &&& n = 0) (hy : y &&& n = 0) : (x ||| y) &&& n = 0 := by
  ext i hi
  have h1 := congrArg (fun w => w.getLsbD i) hx
  have h2 := congrArg (fun w => w.getLsbD i) hy
  simp [BitVec.getLsbD] at h1 h2
  simp
  grind

theorem arbiterStatus_within : ∀ seqIdle arbIdle src, arbiterStatus seqIdle arbIdle src &&& ~~~0x0000000F = 0 := by
  decide

theorem lockMask_within : ∀ p, lockMask p &&& ~~~allLockMask = 0 := by decide

theorem lockBits_within : ∀ p slave reference, lockBits p slave reference &&& ~~~allLockMask = 0 := by decide

/-! ## What consistency speaks of -/

/-- Two states that agree on all that consistency speaks of are consistent together. -/
theorem State.Consistent.of_same {s t : State} (h : s.Consistent) (rxq : t.rxq = s.rxq := by rfl)
    (txq : t.txq = s.txq := by rfl) (mcr0 : t.regs.mcr0 = s.regs.mcr0 := by rfl)
    (intr : t.regs.intr = s.regs.intr := by rfl) (flshcr2 : t.regs.flshcr2 = s.regs.flshcr2 := by rfl)
    (iprxfcr : t.regs.iprxfcr = s.regs.iprxfcr := by rfl) (iptxfcr : t.regs.iptxfcr = s.regs.iptxfcr := by rfl)
    (sts0 : t.regs.sts0 = s.regs.sts0 := by rfl) (sts1 : t.regs.sts1 = s.regs.sts1 := by rfl)
    (sts2 : t.regs.sts2 = s.regs.sts2 := by rfl) (inflight : t.inflight = s.inflight := by rfl)
    (flash : t.win.flash = s.win.flash := by rfl) : t.Consistent where
  rxq := rxq ▸ h.rxq
  txq := txq ▸ h.txq
  intr := intr ▸ h.intr
  flshcr2 := flshcr2 ▸ h.flshcr2
  iprxfcr := iprxfcr ▸ h.iprxfcr
  iptxfcr := iptxfcr ▸ h.iptxfcr
  sts0 := sts0 ▸ h.sts0
  sts1 := sts1 ▸ h.sts1
  sts2 := sts2 ▸ h.sts2
  unlocked hm := by
    rw [sts2]
    exact h.unlocked (by rw [moduleDisabled, mcr0] at hm; exact hm)
  inflight c hc := by
    rw [sts0]
    exact h.inflight c (inflight ▸ hc)
  flash := flash ▸ h.flash

/-- The machine after reset is consistent (R71, R72). -/
theorem consistent_reset : State.reset.Consistent where
  rxq := by decide
  txq := by decide
  intr := by decide
  flshcr2 := by decide
  iprxfcr := by decide
  iptxfcr := by decide
  sts0 := by decide
  sts1 := by decide
  sts2 := by decide
  unlocked := fun _ => rfl
  inflight := fun _ hc => by cases hc
  flash := rfl

namespace State.Consistent

/-! ## Register writes -/

/-- Clearing stored bits of INTR sets none. -/
theorem intrCleared {s : State} (h : s.Consistent) (v : Word) :
    ({ s with regs.intr := s.regs.intr &&& ~~~v } : State).Consistent :=
  { h with intr := and_eq_zero_of_and h.intr _ }

theorem rxPopped {s : State} (h : s.Consistent) : (rxPop s).Consistent :=
  { h with
    rxq := by
      rw [rxPop_spec, List.length_drop]
      exact (Nat.sub_le _ _).trans h.rxq }

theorem txPushed {s : State} (h : s.Consistent) : (txPush s).Consistent := by
  obtain ⟨-, heq⟩ | ⟨hroom, heq⟩ := txPush_spec s
  · rwa [heq]
  · rw [heq]
    exact { h with
      txq := by
        have := h.txq
        rw [List.length_append, stagedEntries_length]
        omega }

theorem intrWritten {s : State} (h : s.Consistent) (v : Word) : (intrWrite v s).Consistent := by
  have hclear := h.intrCleared v
  unfold intrWrite
  cases v.getLsbD 5 <;> cases v.getLsbD 6
  · exact hclear
  · exact hclear.txPushed
  · exact hclear.rxPopped
  · exact hclear.rxPopped.txPushed

/-- A write of MCR0 with MDIS = 1 clears the lock bits, one with MDIS = 0 enables the module (R68, R297). -/
theorem mcr0Written {s : State} (h : s.Consistent) (v : Word) : (regWrite .mcr0 v s).Consistent := by
  cases hv : v.getLsbD 1 with
  | true =>
    simp only [regWrite, hv, if_true]
    exact { h with sts2 := and_eq_zero_of_and h.sts2 _, unlocked := fun _ => h.sts2 }
  | false =>
    simp only [regWrite, hv]
    exact { h with unlocked := fun hm => absurd (hv.symm.trans hm) (by decide) }

theorem flshcr2Written {s : State} (h : s.Consistent) (k : Fin 4) (v : Word) : (regWrite (.flshcr2 k) v s).Consistent :=
  { h with
    flshcr2 := fun j => by
      show (s.regs.flshcr2.set k (v &&& 0x7FFFFFFF))[j].getLsbD 31 = false
      simp only [Fin.getElem_fin, Vector.getElem_set]
      split
      · simp
      · exact h.flshcr2 j }

/-- The trigger puts a command in flight that has delivered nothing, and makes the arbiter busy (R37, R42). -/
theorem triggered {s : State} (h : s.Consistent) : (trigger s).Consistent := by
  obtain ⟨-, heq⟩ | ⟨-, w, s1, l, s2, hfirst, hlater, heq⟩ := trigger_cases s
  · rw [heq]
    exact h.of_same
  · obtain ⟨d, hd⟩ := fetchSlot_frame (slice s.regs.ipcr1 16 5) s
    obtain rfl : s1 = { s with draws := d } := by rw [← hd, hfirst]
    obtain ⟨d', hd'⟩ := fetchLater_frame (slice s.regs.ipcr1 16 5) (slice s.regs.ipcr1 24 3) { s with draws := d }
    obtain rfl : s2 = { s with draws := d' } := by rw [hlater] at hd'; exact hd'
    rw [heq]
    exact { h with
      sts0 := show arbiterStatus false false 2 &&& ~~~0x0000000F = 0 by decide
      inflight := fun c hc => by
        obtain rfl := Option.some.inj hc
        exact ⟨Nat.zero_le _, rfl, show arbiterStatus false false 2 = 8 by decide⟩ }

/-- A FIFO control word is stored with its clear bit 0 (R39, R40). -/
theorem clearBit_stored (v : Word) : (v &&& ~~~1).getLsbD 0 = false := by simp

theorem iprxfcrWritten {s : State} (h : s.Consistent) (v : Word) : (regWrite .iprxfcr v s).Consistent := by
  simp only [regWrite]
  split
  · exact { h with rxq := Nat.zero_le _, iprxfcr := clearBit_stored v }
  · exact { h with iprxfcr := clearBit_stored v }

theorem iptxfcrWritten {s : State} (h : s.Consistent) (v : Word) : (regWrite .iptxfcr v s).Consistent := by
  simp only [regWrite]
  split
  · exact { h with txq := Nat.zero_le _, iptxfcr := clearBit_stored v }
  · exact { h with iptxfcr := clearBit_stored v }

theorem dllcrWritten {s : State} (h : s.Consistent) (p : Fin 2) (v : Word) : (regWrite (.dllcr p) v s).Consistent :=
  { h with
    sts2 := and_eq_zero_of_and h.sts2 _
    unlocked := fun hm => by
      show s.regs.sts2 &&& ~~~lockMask p = 0
      rw [h.unlocked hm]
      exact BitVec.zero_and }

theorem lutcrWritten {s : State} (h : s.Consistent) (v : Word) : (lutcrWrite v s).Consistent := by
  unfold lutcrWrite
  split
  · exact h
  · split
    · exact h.of_same
    · split
      · exact h.of_same
      · exact h

/-- Every register write keeps the machine consistent (R297). -/
theorem written {s : State} (h : s.Consistent) (r : Reg) (v : Word) : (regWrite r v s).Consistent := by
  cases r with
  | mcr0 => exact h.mcr0Written v
  | intr => exact h.intrWritten v
  | lutcr => exact h.lutcrWritten v
  | flshcr2 k => exact h.flshcr2Written k v
  | ipcmd =>
    simp only [regWrite]
    split
    · exact h.triggered
    · exact h
  | iprxfcr => exact h.iprxfcrWritten v
  | iptxfcr => exact h.iptxfcrWritten v
  | dllcr p => exact h.dllcrWritten p v
  | lut i =>
    simp only [regWrite]
    split
    · exact h.of_same
    · exact h
  | _ => exact h.of_same

/-! ## The moves R63 to R68 -/

theorem sized {s : State} (h : s.Consistent) : (sizesDrawn s).Consistent := by
  obtain ⟨d, hd⟩ := sizesDrawn_frame s
  rw [hd]
  exact h.of_same

theorem rxDelivered {s : State} (h : s.Consistent) (e : Entry) : (beRxPush e s).Consistent := by
  unfold beRxPush
  split
  next => exact h
  next c hc =>
    split
    next hen =>
      have hroom : s.rxq.length < 16 := by
        simp only [rxPushEnabled, hc, Bool.and_eq_true, decide_eq_true_eq] at hen
        exact hen.1.2
      obtain ⟨-, hdir, hsts0⟩ := h.inflight c hc
      exact { h with
        rxq := by simpa using hroom
        inflight := fun c' hc' => by
          obtain rfl := Option.some.inj hc'
          exact ⟨Nat.min_le_right _ _, hdir, hsts0⟩ }
    next => exact h

theorem txTaken {s : State} (h : s.Consistent) : (beTxPop s).Consistent := by
  unfold beTxPop
  split
  · exact h
  · exact { h with
      txq := by
        rw [List.length_drop]
        exact (Nat.sub_le _ _).trans h.txq }

theorem completed {s : State} (h : s.Consistent) (device : List Host.Cell) : (beComplete device s).Consistent := by
  unfold beComplete
  split
  · exact h
  · split
    · exact sized { h with
        intr := and_eq_zero_of_or h.intr (by decide)
        sts0 := and_eq_zero_of_or h.sts0 (by decide)
        inflight := fun _ hc => by cases hc
        flash := by
          dsimp only
          split
          · exact Memory.wf_writeCells _ h.flash
          · exact h.flash }
    · exact h

/-- The bits an error can leave in STS1 (R43). -/
theorem errStatus_mask (b : ErrBit) (code : BitVec 4) (id : BitVec 5) (onAhb : Bool) {sts1 : Word}
    (h : sts1 &&& ~~~0x0F1F0F1F = 0) : errStatus b code id onAhb sts1 &&& ~~~0x0F1F0F1F = 0 := by
  have hip (c : BitVec 4) : setIpCode sts1 c &&& ~~~0x0F1F0F1F = 0 := by
    have hc : place c.toNat 24 &&& ~~~0x0F1F0F1F = 0 := by revert c; decide
    exact (setBits_and (by decide) hc _).trans h
  have hahb (c : BitVec 4) : setAhbCode sts1 c &&& ~~~0x0F1F0F1F = 0 := by
    have hc : place c.toNat 8 &&& ~~~0x0F1F0F1F = 0 := by revert c; decide
    exact (setBits_and (by decide) hc _).trans h
  cases b with
  | ipCmdErr =>
    have hid : place id.toNat 16 &&& ~~~0x0F1F0F1F = 0 := by revert id; decide
    exact (setBits_and (by decide) hid _).trans (hip code)
  | ahbCmdErr =>
    have hid : place id.toNat 0 &&& ~~~0x0F1F0F1F = 0 := by revert id; decide
    exact (setBits_and (by decide) hid _).trans (hahb code)
  | seqTimeout =>
    simp only [errStatus]
    split
    · exact hahb _
    · exact hip _
  | ipCmdGe | ahbCmdGe | dataLearnFail | ahbBusTimeout => exact h

theorem erred {s : State} (h : s.Consistent) (b : ErrBit) (code : BitVec 4) (id : BitVec 5) (onAhb : Bool) :
    (beError b code id onAhb s).Consistent :=
  { h with
    intr := and_eq_zero_of_or h.intr (by cases b <;> decide)
    sts1 := errStatus_mask b code id onAhb h.sts1 }

theorem arbitrated {s : State} (h : s.Consistent) (seqIdle arbIdle : Bool) (src : BitVec 2) :
    (beArb seqIdle arbIdle src s).Consistent := by
  unfold beArb
  split
  next hi =>
    exact { h with
      sts0 := arbiterStatus_within seqIdle arbIdle src
      inflight := fun c hc => by simp [show s.inflight = some c from hc] at hi }
  next => exact h

theorem locked {s : State} (h : s.Consistent) (p : Fin 2) (slave reference : Bool) :
    (beLock p slave reference s).Consistent := by
  unfold beLock
  split
  next => exact h
  next hm =>
    exact { h with
      sts2 := (setBits_and (lockMask_within p) (lockBits_within p slave reference) _).trans h.sts2
      unlocked := fun hd => absurd hd hm }

/-! ## The window -/

theorem ahbMoved {s : State} (h : s.Consistent) : (ahbMoves s).Consistent := h.of_same

/-- The bytes of a write land, whatever becomes of the lists of accesses (R93). -/
theorem bytesLanded {s : State} (h : s.Consistent) (addr : Word) (data : List Byte) (n : Nat) (waiting : List WinAccess)
    (buffered : List BufferedWrite) :
    (ahbMoves (sizesDrawn { s with win := ⟨waiting, buffered, landBytes addr data n s⟩ })).Consistent := by
  obtain ⟨hw, -⟩ := landBytes_spec addr data n h.flash
  have hlanded : ({ s with win := ⟨waiting, buffered, landBytes addr data n s⟩ } : State).Consistent :=
    { h with flash := hw }
  exact hlanded.sized.ahbMoved

theorem memWritten {s : State} (h : s.Consistent) (addr : Word) (data : List Byte) (n : Nat) :
    (memWrite addr data n s).Consistent := by
  unfold memWrite
  split
  · exact h.of_same
  · exact h.bytesLanded addr data n _ _

theorem served {s : State} (h : s.Consistent) (a : WinAccess) : (serveAccess a s).Consistent := by
  cases a with
  | read addr n got => exact h.of_same
  | write addr data n => exact (h.memWritten addr data n).of_same

theorem ahbServed {s : State} (h : s.Consistent) (i : Nat) : (beAhbServe i s).Consistent := by
  unfold beAhbServe
  split
  · exact h.ahbMoved
  · exact served (h.of_same) _

theorem ahbByteServed {s : State} (h : s.Consistent) (i : Nat) : (beAhbByte i s).Consistent := by
  unfold beAhbByte
  split
  next => exact h.ahbMoved
  next =>
    split
    · exact h.ahbServed i
    · exact h.of_same
  next =>
    split
    · exact h.ahbServed i
    · exact h.bytesLanded _ _ _ _ _

theorem ahbLanded {s : State} (h : s.Consistent) (i : Nat) : (beAhbLand i s).Consistent := by
  unfold beAhbLand
  split
  · exact h.ahbMoved
  · exact h.bytesLanded _ _ _ _ _

theorem ahbByteLanded {s : State} (h : s.Consistent) (i : Nat) : (beAhbLandByte i s).Consistent := by
  unfold beAhbLandByte
  split
  · exact h.ahbMoved
  · split
    · exact h.ahbLanded i
    · exact h.bytesLanded _ _ _ _ _

/-! ## Playing a LUT half -/

theorem rxDrawnDelivered {s : State} (h : s.Consistent) : (beRxPushDrawn s).Consistent := by
  unfold beRxPushDrawn
  split
  · exact (h.rxDelivered _).of_same
  · exact h

theorem phasePlayed {s : State} (h : s.Consistent) (ph : LutPhase) : (playPhase ph s).Consistent := by
  have hm : (moveSeqPtr s).Consistent := h.of_same
  cases ph with
  | dataRead =>
    simp only [playPhase]
    split
    · exact hm.rxDrawnDelivered
    · exact hm
  | dataWrite =>
    simp only [playPhase]
    split
    · exact hm.txTaken
    · exact hm
  | nothing | command | address | dummy => exact hm

theorem unknownPlayed {s : State} (h : s.Consistent) (slot : BitVec 5) : (playUnknown slot s).Consistent := by
  have hm : (moveSeqPtr s).Consistent := h.of_same
  have hraise (b : ErrBit) (code : BitVec 4) :
      (if Config.freeBool (moveSeqPtr s).draws then beError b code slot false (moveSeqPtr s) else moveSeqPtr s).Consistent := by
    split
    · exact hm.erred b code slot false
    · exact hm
  exact (hraise _ _).of_same

theorem played {s : State} (h : s.Consistent) (k : Fin 4) (src : SeqSource) : (bePlay k src s).Consistent := by
  unfold bePlay
  split
  next => exact h
  next half slot s1 hf =>
    obtain ⟨d, rfl⟩ := fetchHalf_frame hf
    split
    · exact phasePlayed (h.of_same) _
    · exact unknownPlayed (h.of_same) _

/-! ## DMA, RESET and every turn -/

theorem dmaPopped {s : State} (h : s.Consistent) (n : Nat) : (dmaPop n s).Consistent := by
  unfold dmaPop
  split
  · exact { h with
      rxq := by
        rw [List.length_drop]
        exact (Nat.sub_le _ _).trans h.rxq }
  · exact h

theorem dmaPushed {s : State} (h : s.Consistent) (es : List Entry) : (dmaPush es s).Consistent := by
  unfold dmaPush
  split
  · exact { h with
      txq := by
        have := h.txq
        rw [List.length_append, List.length_take]
        omega }
  · exact h

theorem afterReset {s : State} (h : s.Consistent) : (resetEvent s).Consistent :=
  { consistent_reset with flash := h.flash }

theorem afterTurn {s : State} (h : s.Consistent) (ev : Event) : (envStep ev s).Consistent := by
  cases ev with
  | engine | request r | access r => exact h
  | rxPush e => exact h.rxDelivered e
  | txPop => exact h.txTaken
  | complete device => exact h.completed device
  | error b code id onAhb => exact h.erred b code id onAhb
  | arb seqIdle arbIdle src => exact h.arbitrated seqIdle arbIdle src
  | lock p slave reference => exact h.locked p slave reference
  | ahbServe i => exact h.ahbServed i
  | ahbByte i => exact h.ahbByteServed i
  | ahbLand i => exact h.ahbLanded i
  | ahbLandByte i => exact h.ahbByteLanded i
  | play k src => exact h.played k src
  | dmaPop n => exact h.dmaPopped n
  | dmaPush es => exact h.dmaPushed es
  | reset => exact h.afterReset

end State.Consistent

theorem consistent_invariant : SurfaceInvariant State.Consistent where
  blind _ _ _ _ h := h.of_same
  overlap h := h.of_same
  write r v h := h.written r v
  store addr data landed h := h.memWritten addr data landed
  serve a h := h.served a
  queue _ h := h.of_same
  env ev h := h.afterTurn ev
  play ph h := h.phasePlayed ph
  unknown slot h := h.unknownPlayed slot

/-- Settles O57: consistency is one of the properties every move keeps. -/
theorem stepKeepsConsistency : Obligations.StepKeepsConsistency := fun _ _ h hstep =>
  consistent_invariant.closed.step h hstep

end Sys2Proof.Machine

/-!
PROOFS of O58 and O59. The engine's control state (R55 to R57): an operation ends in `Idle` with nothing left of it, or stands
before its next micro-step in that micro-step's phase.
-/

namespace Sys2Proof.Machine

/-! ## The two pieces a control state can be -/

/-- Coherence looks at the engine's micro-steps, phase, operation and session alone. -/
theorem State.Coherent.of_same {s t : State} (h : s.Coherent) (cont : t.eng.cont = s.eng.cont := by rfl)
    (phase : t.eng.phase = s.eng.phase := by rfl) (op : t.eng.op = s.eng.op := by rfl)
    (session : t.eng.session = s.eng.session := by rfl) : t.Coherent where
  steps := cont ▸ h.steps
  idle := by
    rw [phase, cont, op, session]
    exact h.idle
  busy := by
    rw [phase, cont, op]
    exact h.busy

/-- An engine that has ended its operation, or never had one. -/
theorem coherent_of_idle {s : State} {r : Option Result} (h : s.eng = Engine.idle r) : s.Coherent where
  steps := by simp [h]
  idle := by simp [h]
  busy := by simp [h]

/-- An engine with an operation, in the phase of its next micro-step. -/
theorem coherent_of_program {s : State} {e : Engine} {prog : List Micro} (h : s.eng = e.withProgram prog)
    (hop : e.op ≠ none) (hne : prog ≠ []) (hphase : ∀ m ∈ prog, m.phase ≠ .idle) : s.Coherent := by
  obtain ⟨m, rest, rfl⟩ := List.exists_cons_of_ne_nil hne
  have hm : m.phase ≠ .idle := hphase m List.mem_cons_self
  exact {
    steps := by simpa [h] using hphase
    idle := fun hi => absurd (by simpa [h] using hi) hm
    busy := fun _ => by simpa [h] using hop }

/-! ## The micro-steps -/

theorem issue_withProgram_coherent {s : State} {e : Engine} {p : Params} {k : Kind} {addr : Option Word}
    {size : BitVec 16} {data : List Byte} (h : s.eng = e.withProgram (issue p k addr size data)) (hop : e.op ≠ none) :
    s.Coherent :=
  coherent_of_program h hop (issue_ne_nil _ _ _ _ _) (issue_phase _ _ _ _ _)

/-- The end of an operation leaves the engine `Idle`, or before what ERASE and ERRCLS have yet to do (R190, R350). -/
theorem endOperation_coherent {s : State} (hop : s.eng.op ≠ none) : (endOperation s).Coherent := by
  unfold endOperation
  split
  · exact coherent_of_idle rfl
  · exact coherent_of_idle rfl
  · obtain ⟨d, ⟨r, h⟩ | ⟨n, h⟩⟩ := eraseEnd_cases s
    · exact h ▸ coherent_of_idle rfl
    · exact h ▸ issue_withProgram_coherent rfl hop
  · unfold classifyEnd
    split
    · exact coherent_of_idle rfl
    next b _ =>
      exact coherent_of_program (e := { s.eng with ending := .classified })
        (prog := [⟨.configuring, .write .intr (errMask b)⟩]) rfl hop (by simp) (by simp)
  · unfold classifiedEnd
    split
    · exact coherent_of_idle rfl
    · exact coherent_of_idle rfl

theorem proceed_coherent {rest : List Micro} {s : State} (hop : s.eng.op ≠ none) (hrest : ∀ m ∈ rest, m.phase ≠ .idle) :
    (proceed rest s).Coherent := by
  cases rest with
  | nil => exact endOperation_coherent hop
  | cons m ms => exact coherent_of_program rfl hop (by simp) hrest

@[simp] theorem regRead_eng (r : Reg) (s : State) : (regRead r s).2.eng = s.eng := by
  obtain ⟨d, hd⟩ := regRead_frame r s
  rw [hd]

theorem longDrain_phase (p : Params) : ∀ m ∈ longDrain p, m.phase = .drainOrFill := by
  intro m hm
  simp only [longDrain, readWindow, List.cons_append, List.mem_cons, List.mem_append, List.mem_map, List.not_mem_nil,
    or_false] at hm
  obtain rfl | ⟨_, _, rfl⟩ | rfl := hm
  all_goals rfl

theorem popLongStep_coherent {rest : List Micro} {s : State} (hop : s.eng.op ≠ none)
    (hrest : ∀ m ∈ rest, m.phase ≠ .idle) : (popLongStep rest s).Coherent := by
  unfold popLongStep
  simp only
  split
  · exact proceed_coherent (by simpa using hop) hrest
  · split
    · refine proceed_coherent (by simpa using hop) fun m hm => ?_
      obtain hm | hm := List.mem_append.mp hm
      · simp [longDrain_phase _ m hm]
      · exact hrest m hm
    · exact proceed_coherent (by simpa using hop) hrest

/-- A micro-step of an operation in progress leaves the control state of one piece. -/
theorem actStep_coherent {a : Act} {rest : List Micro} {s : State} (h : s.Coherent) (hop : s.eng.op ≠ none)
    (hrest : ∀ m ∈ rest, m.phase ≠ .idle) : (actStep a rest s).Coherent := by
  cases a with
  | write r v =>
    simp only [actStep]
    split
    · exact h.of_same (by simp) (by simp) (by simp) (by simp)
    · exact proceed_coherent (by simpa using hop) hrest
  | field r mask bits => exact proceed_coherent (by simpa using hop) hrest
  | poll r c =>
    simp only [actStep]
    obtain ⟨-, heq⟩ | ⟨-, -, heq⟩ | ⟨-, -, heq⟩ := pollStep_cases r c rest s
    · exact heq ▸ proceed_coherent (by simpa using hop) hrest
    · exact heq ▸ coherent_of_idle rfl
    · exact heq ▸ h.of_same (by simp) (by simp) (by simp) (by simp)
  | readValue r => exact proceed_coherent (by simpa using hop) hrest
  | readModuleDisable =>
    simp only [actStep]
    split
    · exact proceed_coherent (by simpa using hop) hrest
    · exact coherent_of_idle rfl
  | readRx i => exact proceed_coherent (by simpa using hop) hrest
  | popShort size => exact proceed_coherent (by simpa using hop) hrest
  | popLong => exact popLongStep_coherent hop hrest
  | store addr b =>
    simp only [actStep]
    split
    · exact h
    · exact proceed_coherent (by rwa [(memWrite_moved _ _ _ s).eng]) hrest
  | delay cycles => exact proceed_coherent hop hrest

theorem engStep_coherent {s : State} (h : s.Coherent) : (engStep s).Coherent := by
  unfold engStep
  split
  · exact h
  · split
    next => exact h
    next m rest hcont =>
      have hbusy : s.eng.phase ≠ .idle := fun hi => by
        obtain ⟨hnil, -, -⟩ := h.idle hi
        simp [hnil] at hcont
      obtain ⟨hop, -⟩ := h.busy hbusy
      exact actStep_coherent h hop fun m' hm' => h.steps m' (by simp [hcont, hm'])

/-! ## Every step -/

theorem State.Coherent.served {s t : State} (h : s.Coherent) (hst : s.ServedByBackend t) : t.Coherent := by
  obtain ⟨u, r, hu, rfl⟩ := hst
  have he := hu.eng
  exact h.of_same (congrArg Engine.cont he :) (congrArg Engine.phase he :) (congrArg Engine.op he :)
    (congrArg Engine.session he :)

theorem dmaPop_eng (n : Nat) (s : State) : (dmaPop n s).eng = s.eng := by
  unfold dmaPop
  split <;> rfl

theorem dmaPush_eng (es : List Entry) (s : State) : (dmaPush es s).eng = s.eng := by
  unfold dmaPush
  split <;> rfl

theorem State.Coherent.afterTurn {s : State} (h : s.Coherent) (ev : Event) : (envStep ev s).Coherent := by
  have same {t : State} (he : t.eng = s.eng) : t.Coherent :=
    h.of_same (congrArg Engine.cont he) (congrArg Engine.phase he) (congrArg Engine.op he) (congrArg Engine.session he)
  cases ev with
  | request r => exact h
  | dmaPop n => exact same (dmaPop_eng n s)
  | dmaPush es => exact same (dmaPush_eng es s)
  | reset => exact coherent_of_idle rfl
  | _ => exact h.served (envStep_served (by simp) (by simp) (by simp) (by simp))

theorem Started.coherent {i : Instr} {s t : State} (h : Started i s t) : t.Coherent := by
  cases h with
  | ended r => exact coherent_of_idle rfl
  | program x prog e steps phases => exact coherent_of_program rfl (by simp) steps phases

theorem coherent_closed : StepClosed State.Coherent where
  sched _ h := h.of_same
  draws _ h := h.of_same
  player _ h := h.of_same
  overlap h := h.of_same
  refuse _ h := h.of_same
  start _ _ hstart _ := hstart.coherent
  engine := engStep_coherent
  serve a h := h.served (serveAccess_served a _)
  queue _ h := h.of_same
  env ev h := h.afterTurn ev
  play ph h := h.served (playPhase_moved ph _).served
  unknown slot h := h.served (playUnknown_moved slot _).served

/-- Settles O58: coherence is one of the properties every move keeps. -/
theorem stepKeepsControlCoherent : Obligations.StepKeepsControlCoherent := fun _ _ h hstep =>
  coherent_closed.step h hstep

/-- Settles O59: consistent clause by clause, and coherent since the engine is idle. -/
theorem resetIsConsistentAndCoherent : Obligations.ResetIsConsistentAndCoherent :=
  ⟨consistent_reset, coherent_of_idle rfl⟩

end Sys2Proof.Machine

/-!
PROOFS of O49, O53, O55 and O56. One step by the turn it takes (R9, R130, R320): a request, a LUT half BACKEND plays, or
another turn; and what each can do under `FAULT` (R366).
-/

namespace Sys2Proof.Machine

/-! ## A step by its turn -/

theorem step_request_ok {s : State} {r : Request} {rest : List Event} {i : Instr} (hs : s.sched = .request r :: rest)
    (hd : decodeRequest r = .ok i) : step s = exec i { s with sched := rest } := by
  simp [step, nextTurn, hs, fetchRequest, hd]

theorem step_request_error {s : State} {r : Request} {rest : List Event} {e : Reject}
    (hs : s.sched = .request r :: rest) (hd : decodeRequest r = .error e) :
    step s = .next (rejectRequest r e { s with sched := rest }) := by
  simp [step, nextTurn, hs, fetchRequest, hd]

theorem step_play_none {s : State} {k : Fin 4} {src : SeqSource} {rest : List Event} (hs : s.sched = .play k src :: rest)
    (hf : fetchHalf k src { s with sched := rest } = none) : step s = .next { s with sched := rest } := by
  simp [step, nextTurn, hs, fetchPlayed, hf]

theorem step_play_ok {s s1 : State} {k : Fin 4} {src : SeqSource} {rest : List Event} {h : Half} {slot : BitVec 5}
    {i : Instr} (hs : s.sched = .play k src :: rest) (hf : fetchHalf k src { s with sched := rest } = some (h, slot, s1))
    (hd : decodeLut16 h = some i) : step s = exec i { s1 with player := ⟨k, src⟩ } := by
  simp [step, nextTurn, hs, fetchPlayed, hf, hd]

theorem step_play_unknown {s s1 : State} {k : Fin 4} {src : SeqSource} {rest : List Event} {h : Half} {slot : BitVec 5}
    (hs : s.sched = .play k src :: rest) (hf : fetchHalf k src { s with sched := rest } = some (h, slot, s1))
    (hd : decodeLut16 h = none) : step s = .next (playUnknown slot { s1 with player := ⟨k, src⟩ }) := by
  simp [step, nextTurn, hs, fetchPlayed, hf, hd]

/-- Before any other turn the machine moves on (R9). -/
theorem step_moveOn {s : State} (hreq : ∀ r rest, s.sched ≠ .request r :: rest)
    (hplay : ∀ k src rest, s.sched ≠ .play k src :: rest) : step s = .next (moveOn s) := by
  have hturn : nextTurn s = .moved (moveOn s) := by
    unfold nextTurn
    split
    next h => exact absurd h (hreq _ _)
    next h => exact absurd h (hplay _ _ _)
    next => rfl
  simp [step, hturn]

theorem moveOn_busy {s : State} (hf : s.fault = none) (hp : s.eng.phase ≠ .idle) : moveOn s = run s := by
  simp [moveOn, hf, hp]

theorem moveOn_tick {s : State} (h : s.fault ≠ none ∨ s.eng.phase = .idle) : moveOn s = tick s := by
  obtain h | h := h
  · simp [moveOn, h]
  · simp [moveOn, h]

/-- Settles O55, turn by turn. -/
theorem stepRunsTheDecodedInstruction : Obligations.StepRunsTheDecodedInstruction := by
  refine ⟨fun s r rest hs => ⟨fun i => step_request_ok hs, fun e => step_request_error hs⟩,
    fun s k src rest hs => ⟨step_play_none hs, fun h slot s1 hf => ⟨fun i => step_play_ok hs hf, step_play_unknown hs hf⟩⟩,
    fun s hreq hplay => ⟨fun hf hp => ?_, fun h => ?_⟩⟩
  · rw [step_moveOn hreq hplay, moveOn_busy hf hp]
  · rw [step_moveOn hreq hplay, moveOn_tick h]

/-! ## The placed instruction -/

theorem decodeTableWord_half {w : Nat} {i : Instr} (h : decodeTableWord 16 w = some i) :
    decodeLut16 (BitVec.ofNat 16 w) = some i := by
  simp only [decodeTableWord, encodedOfNat, if_true, decode] at h
  cases hd : decodeLut16 (BitVec.ofNat 16 w) with
  | none => simp [hd] at h
  | some j => simpa [hd] using h

theorem decodeTableWord_request {nbits w : Nat} {i : Instr} (hn : nbits ≠ 16) (h : decodeTableWord nbits w = some i) :
    decodeRequest (requestOfNat w) = .ok i := by
  simp only [decodeTableWord, encodedOfNat, hn, if_false, decode] at h
  cases hd : decodeRequest (requestOfNat w) with
  | error e => simp [hd] at h
  | ok j => simpa [hd] using h

/-- The state in which a placed half runs: the half in place, its turn taken, BACKEND playing it. -/
def halfPlaced (w : Nat) (s : State) : State :=
  { placeHalf w s with sched := s.sched, player := ⟨0, .ahbRead 0⟩ }

theorem half_placed (w : Nat) (s : State) : (placeHalf w s).regs.lut[0].extractLsb' 0 16 = BitVec.ofNat 16 w := by
  have h : (placeHalf w s).regs.lut[0] = lowHalf (BitVec.ofNat 16 w) := Vector.getElem_set_self _
  rw [h]
  exact (half_of_append 0 _).1

/-- The window's first read slot of bank 0 is slot 0, and its position half 0 (R53, R92, R114). -/
theorem fetchHalf_placed (w : Nat) (s : State) :
    fetchHalf 0 (.ahbRead 0) { placeHalf w s with sched := s.sched } =
      some (BitVec.ofNat 16 w, 0, { placeHalf w s with sched := s.sched }) := by
  set t : State := { placeHalf w s with sched := s.sched }
  have henabled : moduleDisabled t = false := by
    show (setBits s.regs.mcr0 2 0).getLsbD 1 = false
    simp [setBits]
  have hseq : slice (windowSequences 0 t) 0 5 = (0 : Fin 30).val := by
    have hword : windowSequences 0 t = setBits s.regs.flshcr2[0] 0x1F 0 := by
      simp only [windowSequences, ite_self]
      exact Vector.getElem_set_self _
    have hzero : (setBits s.regs.flshcr2[0] 0x1F 0).extractLsb' 0 5 = 0 := by
      ext i hi
      simp only [setBits, BitVec.getElem_extractLsb']
      interval_cases i <;> simp
    rw [hword, slice, hzero]
    rfl
  have hhalf : (slotOf t.regs.lut 0).half t.seqptr[(0 : Fin 4)] = BitVec.ofNat 16 w := by
    have hpos : t.seqptr[(0 : Fin 4)] = 0 := Vector.getElem_set_self _
    rw [hpos]
    exact half_placed w s
  rw [fetchHalf_window henabled rfl hseq, hhalf]
  rfl

theorem nextTurn_half {w : Nat} {i : Instr} (h : decodeTableWord 16 w = some i) (s : State) :
    nextTurn (s.withFetchWord 16 w) = .instruction i (halfPlaced w s) := by
  have hturn : nextTurn (s.withFetchWord 16 w) = fetchPlayed 0 (.ahbRead 0) { placeHalf w s with sched := s.sched } := rfl
  rw [hturn, fetchPlayed, fetchHalf_placed]
  simp only [decodeTableWord_half h]
  rfl

theorem nextTurn_request {nbits w : Nat} {i : Instr} (hn : nbits ≠ 16) (h : decodeTableWord nbits w = some i) (s : State) :
    nextTurn (s.withFetchWord nbits w) = .instruction i s := by
  have hplace : s.withFetchWord nbits w = placeRequest w s := if_neg hn
  have hturn : nextTurn (placeRequest w s) = fetchRequest (requestOfNat w) s := rfl
  rw [hplace, hturn, fetchRequest, decodeTableWord_request hn h]

theorem step_of_instruction {s t : State} {i : Instr} (h : nextTurn s = .instruction i t) : step s = exec i t := by
  simp [step, h]

/-- Settles O56, by the kind of the table's row. -/
theorem placedWordRuns : Obligations.PlacedWordRuns := by
  refine fun s nbits w i h => ⟨fun hn => ?_, fun hn => ?_⟩
  · subst hn
    exact ⟨half_placed w s, nextTurn_half h s, step_of_instruction (nextTurn_half h s)⟩
  · exact ⟨nextTurn_request hn h s, step_of_instruction (nextTurn_request hn h s)⟩

/-! ## RESET -/

theorem keptWrites_sublist (n : Nat) (ws : List BufferedWrite) : (keptWrites n ws).Sublist ws := by
  induction ws generalizing n with
  | nil => exact .slnil
  | cons w rest ih =>
    unfold keptWrites
    split
    · exact (ih (n + 1)).cons_cons w
    · exact (ih (n + 1)).cons w

/-! ## Under FAULT -/

/-- Of `FAULT` and of the engine nothing has changed but perhaps `ENG.result`. -/
def State.StuckWith (s t : State) : Prop :=
  t.fault = s.fault ∧ ∃ r, t.eng = { s.eng with result := r }

theorem State.MovedByBackend.fault {s t : State} (h : s.MovedByBackend t) : t.fault = s.fault :=
  (congrArg State.fault h.rest :)

theorem State.ServedByBackend.stuck {s t : State} (h : s.ServedByBackend t) : s.StuckWith t := by
  obtain ⟨u, r, hu, rfl⟩ := h
  exact ⟨hu.fault, r, by rw [hu.eng]⟩

theorem State.StuckWith.of_eng {s t : State} (hf : t.fault = s.fault) (he : t.eng = s.eng) : s.StuckWith t :=
  ⟨hf, s.eng.result, he⟩

/-- A window request has its result, or joins the waiting accesses; nothing else of the engine changes (R331). -/
theorem windowRequest_stuck (i : Instr) (a : WinAccess) {go : State → State}
    (hgo : go = admitAccess a ∨ go = queueAccess a) (s : State) : s.StuckWith (windowRequest i go s) := by
  obtain ⟨d, hd⟩ := sizesDrawn_frame s
  unfold windowRequest
  split
  · rw [hd]
    exact ⟨rfl, _, rfl⟩
  · rw [hd]
    obtain rfl | rfl := hgo
    · unfold admitAccess
      split
      · exact ⟨rfl, _, rfl⟩
      · exact (serveAccess_served a { s with draws := d }).stuck
    · exact ⟨rfl, _, rfl⟩

/-- A request decoded or not: nothing under `FAULT` on port OP, a result on the window port (R321, R331). -/
theorem step_request_fault {s t : State} {r : Request} {rest : List Event} (hs : s.sched = .request r :: rest)
    (hf : s.fault ≠ none) (ht : step s = .next t) :
    s.StuckWith t ∧ (onWindowPort r = false → t.eng = s.eng) := by
  cases hd : decodeRequest r with
  | error e =>
    rw [step_request_error hs hd] at ht
    cases ht
    unfold rejectRequest
    split
    next hport => exact ⟨⟨rfl, _, rfl⟩, fun h => by simp [h] at hport⟩
    next =>
      simp only [Option.isSome_iff_ne_none.mpr hf, if_true]
      exact ⟨.of_eng rfl rfl, fun _ => trivial⟩
  | ok i =>
    rw [step_request_ok hs hd] at ht
    have hport := windowAccess_of_decode hd
    obtain ⟨ph, hexec⟩ | ⟨a, ha, hexec⟩ | hop := exec_cases i
    · rw [hexec] at ht
      cases ht
      have hm := playPhase_moved ph { s with sched := rest }
      exact ⟨.of_eng hm.fault hm.eng, fun _ => hm.eng⟩
    · rw [hexec] at ht
      cases ht
      exact ⟨windowRequest_stuck i a (.inl rfl) { s with sched := rest }, fun h => by simp [ha, h] at hport⟩
    · obtain ⟨go, hexec⟩ := exec_accept hop
      have hidle : accept i go { s with sched := rest } = .next { s with sched := rest } := by
        simp [accept, Option.isSome_iff_ne_none, hf]
      rw [hexec, hidle] at ht
      cases ht
      exact ⟨⟨rfl, _, rfl⟩, fun _ => rfl⟩

/-- A LUT half decodes to an instruction BACKEND plays (R112). -/
theorem lutPhase_of_decodeLut16 {h : Half} {i : Instr} (hd : decodeLut16 h = some i) : ∃ ph, lutPhase i = some ph := by
  unfold decodeLut16 at hd
  split at hd
  case h_12 => cases hd
  all_goals
    cases hd
    exact ⟨_, rfl⟩

/-- A half BACKEND plays moves nothing of the engine (R70). -/
theorem step_play_eng {s t : State} {k : Fin 4} {src : SeqSource} {rest : List Event} (hs : s.sched = .play k src :: rest)
    (ht : step s = .next t) : t.fault = s.fault ∧ t.eng = s.eng := by
  cases hf : fetchHalf k src { s with sched := rest } with
  | none =>
    rw [step_play_none hs hf] at ht
    cases ht
    exact ⟨rfl, rfl⟩
  | some f =>
    obtain ⟨h, slot, s1⟩ := f
    obtain ⟨d, rfl⟩ := fetchHalf_frame hf
    cases hd : decodeLut16 h with
    | none =>
      rw [step_play_unknown hs hf hd] at ht
      cases ht
      have hm := playUnknown_moved slot { s with sched := rest, draws := d, player := ⟨k, src⟩ }
      exact ⟨hm.fault, hm.eng⟩
    | some i =>
      obtain ⟨ph, hph⟩ := lutPhase_of_decodeLut16 hd
      rw [step_play_ok hs hf hd, exec_played hph] at ht
      cases ht
      have hm := playPhase_moved ph { s with sched := rest, draws := d, player := ⟨k, src⟩ }
      exact ⟨hm.fault, hm.eng⟩

theorem engStep_fault {s : State} (hf : s.fault ≠ none) : engStep s = s := by
  simp [engStep, Option.isSome_iff_ne_none, hf]

theorem requestToWait_stuck (r : Request) (s : State) : s.StuckWith (requestToWait r s) := by
  unfold requestToWait
  split
  · exact .of_eng rfl rfl
  · split
    next a _ => exact windowRequest_stuck _ a (.inr rfl) s
    next => exact .of_eng rfl rfl

theorem dmaPop_fault (n : Nat) (s : State) : (dmaPop n s).fault = s.fault := by
  unfold dmaPop
  split <;> rfl

theorem dmaPush_fault (es : List Entry) (s : State) : (dmaPush es s).fault = s.fault := by
  unfold dmaPush
  split <;> rfl

/-- The turn of an agent other than ENGINE and the hosts. -/
theorem tick_event {s : State} {ev : Event} {rest : List Event} (hs : s.sched = ev :: rest) (heng : ev ≠ .engine)
    (hreq : ∀ r, ev ≠ .request r ∧ ev ≠ .access r) : tick s = envStep ev { s with sched := rest } := by
  unfold tick
  split
  next h => simp [h] at hs
  next h => exact absurd (List.cons.inj (hs.symm.trans h)).1 heng
  next h => exact absurd (List.cons.inj (hs.symm.trans h)).1 (hreq _).1
  next h => exact absurd (List.cons.inj (hs.symm.trans h)).1 (hreq _).2
  next h =>
    obtain ⟨rfl, rfl⟩ := List.cons.inj (hs.symm.trans h)
    rfl

/-- No turn but RESET moves `FAULT`, and none but those that end a window access anything of the engine (R70). -/
theorem envStep_stuck {ev : Event} (hreset : ev ≠ .reset) (s : State) :
    s.StuckWith (envStep ev s) ∧ ((∀ i, ev ≠ .ahbServe i ∧ ev ≠ .ahbByte i) → (envStep ev s).eng = s.eng) := by
  cases ev with
  | request r => exact ⟨.of_eng rfl rfl, fun _ => rfl⟩
  | dmaPop n => exact ⟨.of_eng (dmaPop_fault n s) (dmaPop_eng n s), fun _ => dmaPop_eng n s⟩
  | dmaPush es => exact ⟨.of_eng (dmaPush_fault es s) (dmaPush_eng es s), fun _ => dmaPush_eng es s⟩
  | reset => exact absurd rfl hreset
  | _ =>
    exact ⟨(envStep_served (by simp) (by simp) (by simp) (by simp)).stuck,
      fun h => (envStep_moved (by simp) (by simp) (by simp) (by simp) h).eng⟩

/-- A turn under `FAULT`, but a request and RESET: the engine stands still, and only what ends a window access can give a
result (R366, log entries 8 and 12). -/
theorem tick_fault {s : State} (hf : s.fault ≠ none) (hreq : ∀ r rest, s.sched ≠ .request r :: rest)
    (hreset : s.sched.head? ≠ some .reset) :
    s.StuckWith (tick s) ∧ ((∀ r, s.sched.head? ≠ some (.access r)) →
      (∀ i, s.sched.head? ≠ some (.ahbServe i) ∧ s.sched.head? ≠ some (.ahbByte i)) → (tick s).eng = s.eng) := by
  cases hs : s.sched with
  | nil =>
    have ht : tick s = s := by
      rw [tick, hs]
      exact engStep_fault hf
    rw [ht]
    exact ⟨.of_eng rfl rfl, fun _ _ => rfl⟩
  | cons ev rest =>
    rw [hs, List.head?_cons, ne_eq, Option.some.injEq] at hreset
    by_cases heng : ev = .engine
    · have ht : tick s = { s with sched := rest } := by
        rw [tick, hs, heng]
        exact engStep_fault hf
      rw [ht]
      exact ⟨.of_eng rfl rfl, fun _ _ => rfl⟩
    by_cases haccess : ∃ r, ev = .access r
    · obtain ⟨r, rfl⟩ := haccess
      have ht : tick s = requestToWait r { s with sched := rest } := by rw [tick, hs]
      rw [ht]
      exact ⟨requestToWait_stuck r { s with sched := rest }, fun h _ => absurd rfl (h r)⟩
    · rw [tick_event hs heng fun r => ⟨fun h => hreq r rest (h ▸ hs), fun h => haccess ⟨r, h⟩⟩]
      obtain ⟨hstuck, hquiet⟩ := envStep_stuck hreset { s with sched := rest }
      exact ⟨hstuck, fun _ h => hquiet (by simpa using h)⟩

/-- Settles O49, by the turn of the step. -/
theorem faultIsSticky : Obligations.FaultIsSticky := by
  intro s t ht
  refine ⟨fun hf hreset => ?stuck, fun hf hhead => ?reset⟩
  case stuck =>
    by_cases hreq : ∃ r rest, s.sched = .request r :: rest
    · obtain ⟨r, rest, hs⟩ := hreq
      obtain ⟨⟨hfault, heng⟩, hquiet⟩ := step_request_fault hs hf ht
      exact ⟨hfault, heng, fun hport _ _ => hquiet (hport r (by rw [hs]; rfl))⟩
    by_cases hplay : ∃ k src rest, s.sched = .play k src :: rest
    · obtain ⟨k, src, rest, hs⟩ := hplay
      obtain ⟨hfault, heng⟩ := step_play_eng hs ht
      exact ⟨hfault, ⟨s.eng.result, heng⟩, fun _ _ _ => heng⟩
    simp only [not_exists] at hreq hplay
    rw [step_moveOn hreq hplay, moveOn_tick (.inl hf)] at ht
    cases ht
    obtain ⟨⟨hfault, heng⟩, hquiet⟩ := tick_fault hf hreq hreset
    exact ⟨hfault, heng, fun _ => hquiet⟩
  case reset =>
    obtain ⟨rest, hs⟩ : ∃ rest, s.sched = .reset :: rest := by
      cases h : s.sched with
      | nil => simp [h] at hhead
      | cons ev rest => exact ⟨rest, by simpa [h] using hhead⟩
    rw [step_moveOn (by simp [hs]) (by simp [hs]), moveOn_tick (.inl hf)] at ht
    cases ht
    rw [tick, hs]
    rfl

end Sys2Proof.Machine

namespace Sys2Proof

/-- Settles O53: the free parts are the draws of RESET itself. -/
theorem resetEvent : Obligations.ResetEvent := fun s =>
  ⟨_, _, _, _, Machine.keptWrites_sublist (s.draws + 1) s.win.buffered, rfl⟩

end Sys2Proof

/-!
PROOFS of O8, O46, O47 and O48. When each check of R320 fails and with which code; what a request finds that comes to a
faulted or a busy machine, or between two micro-steps (R321, R322).
-/

namespace Sys2Proof.Machine

/-! ## Refused requests -/

/-- A window request that a check refuses (R331). -/
theorem exec_window_refused {i : Instr} (hw : (windowAccess i).isSome = true) {s : State} {c : Code} (hsafe : s.Safe)
    (hg : gate i s = some c) : exec i s = .next (refuse c s) := by
  obtain ⟨ph, hexec⟩ | ⟨a, -, hexec⟩ | hop := exec_cases i
  · cases i with
    | winrd | winwr => exact congrArg Host.Outcome.next (windowRequest_refused _ hsafe hg)
    | _ => cases hw
  · rw [hexec, windowRequest_refused _ hsafe hg]
  · simp only [operationPort, Bool.and_eq_true, Option.isNone_iff_eq_none] at hop
    simp [hop.2] at hw

theorem refuses_of_gate {i : Instr} (hop : operationPort i = true) {s : State} {c : Code} (hready : s.Ready)
    (hg : gate i s = some c) : s.refuses i (rsp0 c .noPath 0) :=
  exec_refused hop hready hg

theorem window_refuses_of_gate {i : Instr} (hw : (windowAccess i).isSome = true) {s : State} {c : Code} (hsafe : s.Safe)
    (hg : gate i s = some c) : s.refuses i (rsp0 c .noPath 0) :=
  exec_window_refused hw hsafe hg

theorem gate_of_not_modeAllows {i : Instr} {s : State} (h : modeAllows i s.params = false) :
    gate i s = some .illegalInMode := by
  simp [gate, h]

/-- Both tags allow what R324 does not keep to `RamBlocking`, but for the bulk write (R328). -/
theorem modeAllows_of_not_ramOnly {i : Instr} (hram : ramOnly i = false) (hbulk : bulkWrite i = false) (p : Params) :
    modeAllows i p = true := by
  simp [modeAllows, hram, hbulk]

/-! ## The kinds -/

theorem kindOfCode_code (k : Kind) : kindOfCode (BitVec.ofNat 5 (kindCode k).val) = some k := by
  cases k <;> rfl

theorem kindCode_le (k : Kind) : (BitVec.ofNat 5 (kindCode k).val).toNat ≤ 15 := by
  cases k <;> decide

theorem kindOfCode_reserved {c : BitVec 5} (h : 16 ≤ c.toNat) : kindOfCode c = none :=
  List.getElem?_eq_none h

theorem bulkWrite_ipx {k : Kind} (h : k ≠ .pageProgram) (addr : Option Word) (size : Word) (data : List Byte) :
    bulkWrite (.ipx (BitVec.ofNat 5 (kindCode k).val) addr size data) = false := by
  simpa [bulkWrite, kindOfCode_code] using h

/-! ## Reserved encodings (R141) -/

/-- The fields the operation codes of R132 have. -/
theorem opShape_fields : ∀ op : BitVec 6, ∀ sh, opShape op = some sh →
    ((1 ≤ op.toNat ∧ op.toNat ≤ 0x14) ∨ (0x18 ≤ op.toNat ∧ op.toNat ≤ 0x1A) ∨
      (0x1C ≤ op.toNat ∧ op.toNat ≤ 0x1E) ∨ op.toNat = 0x20 ∨ op.toNat = 0x21) ∧
    (op.toNat ∉ [0x01, 0x02] → sh.kind = false) ∧ (op.toNat ≠ 0x02 → sh.ap = false) ∧ (op.toNat = 0x02 → sh.ap = true) ∧
    (op.toNat ∉ [0x02, 0x07, 0x14, 0x1C, 0x1D, 0x20, 0x21] → sh.req1 = false) ∧
    (op.toNat ∉ [0x02, 0x0D, 0x0E, 0x0F, 0x1D, 0x20, 0x21] → sh.req2 = false) := by
  intro op sh h
  unfold opShape at h
  split at h
  case h_29 => cases h
  all_goals
    rename_i hn
    cases h
    simp [hn]

/-- A request with a field its operation does not have not 0, or of no operation, decodes to nothing, by `BadOp`. -/
theorem decodeRequest_badOp {r : Request}
    (h : ∀ sh, opShape (reqOp r) = some sh → ¬ UnusedFieldsZero sh r) :
    ∃ e, decodeRequest r = .error e ∧ ∀ p, rejectCode e p = .badOp := by
  cases hsh : opShape (reqOp r) with
  | none => exact ⟨.unknownOp (reqOp r), by simp [decodeRequest, hsh], fun _ => rfl⟩
  | some sh =>
    cases hheader : headerZero sh r with
    | false => exact ⟨.reservedField, by simp [decodeRequest, hsh, hheader], fun _ => rfl⟩
    | true =>
      cases hoperands : operandsZero sh r with
      | false => exact ⟨.operandNotZero, by simp [decodeRequest, hsh, hheader, hoperands], fun _ => rfl⟩
      | true => exact absurd ⟨hheader, hoperands⟩ (h sh hsh)

/-- A machine that accepts a request answers one that does not decode, on either port. -/
theorem rejectRequest_ready {s : State} (h : s.Ready) (r : Request) (e : Reject) :
    rejectRequest r e s = refuse (rejectCode e s.params) s := by
  simp [rejectRequest, h.1, h.2]

/-- A kind code above 15 is refused with `BadOperand` (R122, R320 step 3). -/
theorem gate_reserved_kind {kind : BitVec 5} (h : 16 ≤ kind.toNat) (s : State) :
    gate (.lutb kind) s = some .badOperand ∧
    ∀ (addr : Option Word) (size : Word) (data : List Byte), s.params.modeTag = .ramBlocking →
      gate (.ipx kind addr size data) s = some .badOperand := by
  have hle : ¬ kind.toNat ≤ 15 := by omega
  refine ⟨gate_of_not_operandsOk (modeAllows_of_not_ramOnly rfl rfl _) (by simp [operandsOk, hle]), ?_⟩
  intro addr size data htag
  refine gate_of_not_operandsOk (modeAllows_of_ramBlocking ?_ htag) (by simp [operandsOk, hle])
  simp [bulkWrite, kindOfCode_reserved h]

/-- Settles O8: the reserved encodings decode to nothing, the reserved kinds fail the operand check. -/
theorem reservedRequestIsRefused : Obligations.ReservedRequestIsRefused := by
  refine ⟨fun s r rest hready hs hbad => ?_, fun s kind hready hkind => ?_⟩
  · obtain ⟨e, hd, hcode⟩ := decodeRequest_badOp (r := r) fun sh hsh hzero => by
      obtain ⟨hreserved, hkind, hap, hreq1, hreq2⟩ := hzero.fields
      obtain ⟨hop, hnokind, hnoap, hasap, hnoreq1, hnoreq2⟩ := opShape_fields (reqOp r) sh hsh
      simp only [reservedZero, Bool.and_eq_true, beq_iff_eq] at hreserved
      obtain ⟨⟨h6, h13⟩, h17⟩ := hreserved
      rcases hbad with h | h | h | h | h | h | h | h | h
      · exact h hop
      · exact h h6
      · exact h h13
      · exact h h17
      · exact h.1 (hkind (hnokind h.2))
      · exact absurd (hap (hnoap h.2)) (by simp [h.1])
      · exact h.1 (hreq1 (.inl (hnoreq1 h.2)))
      · exact h.1 (hreq1 (.inr ⟨hasap h.2.1, h.2.2⟩))
      · exact h.1 (hreq2 (hnoreq2 h.2))
    rw [step_request_error hs hd, rejectRequest_ready (s := { s with sched := rest }) hready, hcode]
    rfl
  · obtain ⟨hlutb, hipx⟩ := gate_reserved_kind hkind s
    exact ⟨exec_refused rfl hready hlutb, fun addr size data htag => exec_refused rfl hready (hipx addr size data htag)⟩

/-! ## The mode (R324) -/

/-- Settles O46: the mode check comes first. -/
theorem xipRefusesBeforeAnyWrite : Obligations.XipRefusesBeforeAnyWrite := by
  refine fun s htag => ⟨fun i hready hi => ?_, fun addr len data hsafe => ?_⟩
  · have hclass : operationPort i = true ∧ ramOnly i = true := by
      rcases hi with ⟨_, _, _, _, rfl⟩ | ⟨_, rfl⟩ | ⟨_, _, rfl | rfl | rfl⟩ | hi
      case inr.inr.inr => revert i; decide
      all_goals exact ⟨rfl, rfl⟩
    exact exec_refused hclass.1 hready (gate_of_ramOnly_xip hclass.2 htag)
  · exact exec_window_refused rfl hsafe (gate_of_ramOnly_xip rfl htag)

/-! ## Records (R134) -/

/-- A record is in range word by word. -/
theorem recordOk_iff (bounds : List Nat) (record : List Word) :
    recordOk bounds record = true ↔
      record.length = bounds.length ∧ ∀ i < bounds.length, recordWord record i ≤ bounds.getD i 0 := by
  induction bounds generalizing record with
  | nil => cases record <;> simp [recordOk]
  | cons b bounds ih =>
    cases record with
    | nil => simp [recordOk]
    | cons w record =>
      have htail := ih record
      simp only [recordOk, Bool.and_eq_true, beq_iff_eq] at htail
      simp only [recordOk, List.length_cons, List.zip_cons_cons, List.all_cons, Bool.and_eq_true, beq_iff_eq,
        decide_eq_true_eq, Nat.add_right_cancel_iff]
      constructor
      · rintro ⟨hlen, hw, hall⟩
        refine ⟨hlen, fun i hi => ?_⟩
        cases i with
        | zero => exact hw
        | succ i => exact (htail.mp ⟨hlen, hall⟩).2 i (by omega)
      · rintro ⟨hlen, hle⟩
        exact ⟨hlen, hle 0 (by omega), (htail.mpr ⟨hlen, fun i hi => hle (i + 1) (by omega)⟩).2⟩

/-- The ranges of the AHB record (R134), by name. -/
structure AhbRecordWithin (r : List Word) : Prop where
  length : r.length = 42
  buffers : ∀ i < 8, recordWord r (4 * i) ≤ 15 ∧ recordWord r (4 * i + 1) ≤ 255 ∧ recordWord r (4 * i + 2) ≤ 7 ∧
    recordWord r (4 * i + 3) ≤ 1
  grant : recordWord r 32 ≤ 255
  bus : recordWord r 33 ≤ 65535
  resume : recordWord r 34 ≤ 255
  flags : ∀ i, 35 ≤ i → i ≤ 41 → recordWord r i ≤ 1

theorem ahbRecordWithin {r : List Word} (h : recordOk ahbBounds r = true) : AhbRecordWithin r := by
  obtain ⟨hlen, hle⟩ := (recordOk_iff _ _).mp h
  have hwords : ahbBounds.length = 42 := rfl
  rw [hwords] at hlen hle
  have hbuffer : ∀ i < 8, ahbBounds.getD (4 * i) 0 = 15 ∧ ahbBounds.getD (4 * i + 1) 0 = 255 ∧
      ahbBounds.getD (4 * i + 2) 0 = 7 ∧ ahbBounds.getD (4 * i + 3) 0 = 1 := by decide
  have hflag : ∀ i ≤ 41, 35 ≤ i → ahbBounds.getD i 0 = 1 := by decide
  exact {
    length := hlen
    buffers := fun i hi => by
      obtain ⟨h0, h1, h2, h3⟩ := hbuffer i hi
      rw [← h0, ← h1, ← h2, ← h3]
      exact ⟨hle _ (by omega), hle _ (by omega), hle _ (by omega), hle _ (by omega)⟩
    grant := hle 32 (by decide)
    bus := hle 33 (by decide)
    resume := hle 34 (by decide)
    flags := fun i h35 h41 => hflag i h41 h35 ▸ hle i (by omega) }

theorem controllerRecordWithin {r : List Word} (h : recordOk controllerBounds r = true) :
    r.length = 4 ∧ recordWord r 0 ≤ 3 ∧ recordWord r 3 ≤ 1 := by
  obtain ⟨hlen, hle⟩ := (recordOk_iff _ _).mp h
  exact ⟨hlen, hle 0 (by decide), hle 3 (by decide)⟩

/-! ## The codes of the later checks -/

/-- A kind the table does not define with a direction (R183, R323). -/
theorem kindWithDir_eq_false {p : Params} {k : Kind} {d : Dir} (h : lacksKind p k d) : kindWithDir p k d = false := by
  unfold kindWithDir
  split
  next => rfl
  next c hc => simpa using h c hc

theorem kindDefined_eq_false {p : Params} {k : Kind} (h : commandOf p k = none) : kindDefined p k = false := by
  simp [kindDefined, h]

section Refusals
variable {s : State}

theorem refuses_mode {i : Instr} (hop : operationPort i = true) (hready : s.Ready)
    (h : modeAllows i s.params = false) : s.refuses i 0x00030002 :=
  refuses_of_gate hop hready (gate_of_not_modeAllows h)

theorem refuses_operands {i : Instr} (hop : operationPort i = true) (hready : s.Ready)
    (hmode : modeAllows i s.params = true) (h : operandsOk i s.params = false) : s.refuses i 0x00030004 :=
  refuses_of_gate hop hready (gate_of_not_operandsOk hmode h)

theorem refuses_kind {i : Instr} (hop : operationPort i = true) (hready : s.Ready)
    (hmode : modeAllows i s.params = true) (hoperands : operandsOk i s.params = true)
    (h : kindOk i s.params = false) : s.refuses i 0x00030003 :=
  refuses_of_gate hop hready (gate_of_not_kindOk hmode hoperands h)

theorem refuses_address {i : Instr} (hop : operationPort i = true) (hready : s.Ready)
    (hmode : modeAllows i s.params = true) (hoperands : operandsOk i s.params = true)
    (hkind : kindOk i s.params = true) (h : addressOk i s = false) : s.refuses i 0x00030005 :=
  refuses_of_gate hop hready (gate_of_not_addressOk hmode hoperands hkind h)

end Refusals

/-- The refusals of the operations both tags allow (R134, R250, R260, R262, R320). -/
theorem refusals_of_both_tags {s : State} (hready : s.Ready) :
    (∀ r : List Word, ¬ AhbRecordWithin r → s.refuses (.ahbcfg r) 0x00030004) ∧
    (∀ r : List Word, recordOk controllerBounds r = false →
      s.refuses (.dllcalc r) 0x00030004 ∧ s.refuses (.devcfg r) 0x00030004) ∧
    (∀ r : List Word, bindingWithin s.params.binding = false → s.refuses (.devcfg r) 0x00030004) ∧
    (∀ (addr : Word) (data : List Byte), data.length ≠ 1 → s.refuses (.xwrite addr data) 0x00030004) ∧
    (∀ (addr : Word) (b : Byte), commandOf s.params .pageProgram = none → s.refuses (.xwrite addr [b]) 0x00030003) ∧
    (∀ (addr : Word) (b : Byte) (c : LogicalCommand), commandOf s.params .pageProgram = some c →
      windowAdmits addr 1 s = false → s.refuses (.xwrite addr [b]) 0x00030005) ∧
    (∀ k : Kind, commandOf s.params k = none → s.refuses (.lutb (BitVec.ofNat 5 (kindCode k).val)) 0x00030003) := by
  have mode {i : Instr} (hram : ramOnly i = false) (hbulk : bulkWrite i = false) : modeAllows i s.params = true :=
    modeAllows_of_not_ramOnly hram hbulk s.params
  refine ⟨fun r h => ?ahbcfg, fun r h => ?record, fun r h => ?binding, fun addr data h => ?length, fun addr b h => ?kind,
    fun addr b c hc h => ?address, fun k h => ?lutb⟩
  case ahbcfg =>
    refine refuses_operands rfl hready (mode rfl rfl) ?_
    exact Bool.eq_false_iff.mpr fun hok => h (ahbRecordWithin hok)
  case record =>
    exact ⟨refuses_operands rfl hready (mode rfl rfl) h,
      refuses_operands rfl hready (mode rfl rfl) (by simp [operandsOk, h])⟩
  case binding => exact refuses_operands rfl hready (mode rfl rfl) (by simp [operandsOk, h])
  case length => exact refuses_operands rfl hready (mode rfl rfl) (by simp [operandsOk, h])
  case kind => exact refuses_kind rfl hready (mode rfl rfl) rfl (kindDefined_eq_false h)
  case address => exact refuses_address rfl hready (mode rfl rfl) rfl (by simp [kindOk, kindDefined, hc]) h
  case lutb =>
    exact refuses_kind rfl hready (mode rfl rfl) (decide_eq_true (kindCode_le k)) (by simp [kindOk, kindOfCode_code, h])

/-- The refusals of the IP commands under `RamBlocking` (R170, R183, R196, R323). -/
theorem refusals_of_ramBlocking {s : State} (hready : s.Ready) (htag : s.params.modeTag = .ramBlocking) :
    (∀ (k : Kind) (addr : Option Word) (size : Word) (data : List Byte), k ≠ .pageProgram →
      (65535 < size.toNat → s.refuses (.ipx (BitVec.ofNat 5 (kindCode k).val) addr size data) 0x00030004) ∧
      (∀ c, commandOf s.params k = some c →
        (c.dir = .read ∧ data ≠ [] ∨ c.dir = .write ∧ (data.length ≠ size.toNat ∨ 4 < size.toNat)) →
        s.refuses (.ipx (BitVec.ofNat 5 (kindCode k).val) addr size data) 0x00030004) ∧
      (commandOf s.params k = none → size.toNat ≤ 65535 →
        s.refuses (.ipx (BitVec.ofNat 5 (kindCode k).val) addr size data) 0x00030003)) ∧
    (∀ (len : Word) (data : List Byte), len.toNat ≠ data.length ∨ data.length = 0 ∨ 4 < data.length →
      s.refuses (.wrcfg1 len data) 0x00030004 ∧ s.refuses (.wrcfg2 len data) 0x00030004 ∧
      s.refuses (.wrcfg3 len data) 0x00030004) ∧
    (∀ (len : Word) (data : List Byte), len.toNat = data.length → 1 ≤ data.length → data.length ≤ 4 →
      (lacksKind s.params .writeCfg1 .write → s.refuses (.wrcfg1 len data) 0x00030003) ∧
      (lacksKind s.params .writeCfg2 .write → s.refuses (.wrcfg2 len data) 0x00030003) ∧
      (lacksKind s.params .writeCfg3 .write → s.refuses (.wrcfg3 len data) 0x00030003)) ∧
    (∀ x ∈ ([(.wren, .writeEnable), (.rsten, .resetEnable), (.rst, .resetDevice), (.pwrup, .powerUp),
        (.pwrdn, .powerDown)] : List (Instr × Kind)), commandOf s.params x.2 = none → s.refuses x.1 0x00030003) ∧
    (∀ x ∈ readOperations, lacksKind s.params x.2.1 .read → s.refuses x.1 0x00030003) ∧
    (∀ addr : Word, commandOf s.params .eraseSector = none ∨ lacksKind s.params .readStatus .read →
      s.refuses (.erase addr) 0x00030003) := by
  have mode {i : Instr} (hbulk : bulkWrite i = false) : modeAllows i s.params = true :=
    modeAllows_of_ramBlocking hbulk htag
  refine ⟨fun k addr size data hk => ⟨fun h => ?size, fun c hc h => ?data, fun h hsize => ?ipxKind⟩,
    fun len data h => ?length, fun len data hlen hmin hmax => ?cfgKind, fun x hx h => ?plain, fun x hx h => ?read,
    fun addr h => ?erase⟩
  case size =>
    exact refuses_operands rfl hready (mode (bulkWrite_ipx hk _ _ _)) (by simp [operandsOk, Nat.not_le.mpr h])
  case data =>
    refine refuses_operands rfl hready (mode (bulkWrite_ipx hk _ _ _)) ?_
    have hdata : ipxDataOk c.dir size data = false := by
      obtain ⟨hdir, h⟩ | ⟨hdir, h⟩ := h
      · simpa [ipxDataOk, hdir] using h
      · simp only [ipxDataOk, hdir, Bool.and_eq_false_iff, decide_eq_false_iff_not]
        omega
    simp [operandsOk, kindOfCode_code, hc, hdata]
  case ipxKind =>
    refine refuses_kind rfl hready (mode (bulkWrite_ipx hk _ _ _)) ?_ (by simp [kindOk, kindOfCode_code, h])
    simp only [operandsOk, decide_eq_true (kindCode_le k), hsize, kindOfCode_code, h, Option.bind_some, decide_true,
      Bool.and_self]
  case length =>
    have hbad : (decide (len.toNat = data.length) && decide (1 ≤ data.length) && decide (data.length ≤ 4)) = false := by
      simp only [Bool.and_eq_false_iff, decide_eq_false_iff_not]
      omega
    exact ⟨refuses_operands rfl hready (mode rfl) hbad, refuses_operands rfl hready (mode rfl) hbad,
      refuses_operands rfl hready (mode rfl) hbad⟩
  case cfgKind =>
    have hok : (decide (len.toNat = data.length) && decide (1 ≤ data.length) && decide (data.length ≤ 4)) = true := by
      simp [hlen, hmin, hmax]
    exact ⟨fun h => refuses_kind rfl hready (mode rfl) hok (kindWithDir_eq_false h),
      fun h => refuses_kind rfl hready (mode rfl) hok (kindWithDir_eq_false h),
      fun h => refuses_kind rfl hready (mode rfl) hok (kindWithDir_eq_false h)⟩
  case plain =>
    simp only [List.mem_cons, List.not_mem_nil, or_false] at hx
    obtain rfl | rfl | rfl | rfl | rfl := hx
    all_goals exact refuses_kind rfl hready (mode rfl) rfl (kindDefined_eq_false h)
  case read =>
    simp only [readOperations, List.mem_cons, List.not_mem_nil, or_false] at hx
    obtain rfl | rfl | rfl | rfl | rfl := hx
    all_goals exact refuses_kind rfl hready (mode rfl) rfl (kindWithDir_eq_false h)
  case erase =>
    refine refuses_kind rfl hready (mode rfl) rfl ?_
    obtain h | h := h
    · simp [kindOk, kindDefined_eq_false h]
    · simp [kindOk, kindWithDir_eq_false h]

/-- The refusals of the window operations (R92, R247, R248). -/
theorem refusals_of_window {s : State} (hsafe : s.Safe) :
    (∀ addr : Word, s.refuses (.winrd addr 0) 0x00030004) ∧
    (∀ addr n : Word, n ≠ 0 → windowAdmits addr n.toNat s = false → s.refuses (.winrd addr n) 0x00030005) ∧
    (s.params.modeTag = .ramBlocking → ∀ (addr len : Word) (data : List Byte),
      (len = 0 ∨ len.toNat ≠ data.length → s.refuses (.winwr addr len data) 0x00030004) ∧
      (len ≠ 0 → len.toNat = data.length → windowAdmits addr len.toNat s = false →
        s.refuses (.winwr addr len data) 0x00030005)) := by
  have size {n : Word} (hn : n ≠ 0) : n.toNat ≠ 0 := fun h => hn (BitVec.eq_of_toNat_eq h)
  have mode {addr n : Word} : modeAllows (.winrd addr n) s.params = true := modeAllows_of_not_ramOnly rfl rfl _
  refine ⟨fun addr => ?_, fun addr n hn h => ?_, fun htag addr len data => ⟨fun h => ?_, fun hlen hdata h => ?_⟩⟩
  · exact window_refuses_of_gate rfl hsafe (gate_of_not_operandsOk mode rfl)
  · exact window_refuses_of_gate rfl hsafe (gate_of_not_addressOk mode (by simp [operandsOk, size hn]) rfl h)
  · refine window_refuses_of_gate rfl hsafe (gate_of_not_operandsOk (modeAllows_of_ramBlocking rfl htag) ?_)
    obtain rfl | h := h
    · rfl
    · simp [operandsOk, h]
  · exact window_refuses_of_gate rfl hsafe (gate_of_not_addressOk (i := .winwr addr len data)
      (modeAllows_of_ramBlocking rfl htag) (Bool.and_eq_true_iff.mpr
        ⟨decide_eq_true (size hlen), decide_eq_true hdata⟩) rfl h)

/-- Settles O47: the refusals of each class of operations. -/
theorem refusalsArePrecise : Obligations.RefusalsArePrecise := by
  refine ⟨fun s i c hg => ⟨fun hop hready => exec_refused hop hready hg,
      fun hw hsafe => exec_window_refused hw hsafe hg⟩,
    fun s addr size data hready => refuses_mode rfl hready (by simp [modeAllows, bulkWrite, kindOfCode, kindList]),
    fun s hready => ?_, fun s hready htag => refusals_of_ramBlocking hready htag, fun s hsafe => refusals_of_window hsafe⟩
  obtain ⟨hahb, hrecord, hrest⟩ := refusals_of_both_tags hready
  refine ⟨fun r h => hahb r fun hin => ?_, fun r h => hrecord r (Bool.eq_false_iff.mpr fun hok => ?_), hrest⟩
  · obtain h | ⟨i, hi, h⟩ | h | h | h | ⟨i, h35, h41, h⟩ := h
    · exact h hin.length
    · have := hin.buffers i hi
      omega
    · have := hin.grant
      omega
    · have := hin.bus
      omega
    · have := hin.resume
      omega
    · have := hin.flags i h35 h41
      omega
  · obtain ⟨hlen, hmode, hen⟩ := controllerRecordWithin hok
    omega

/-! ## Acceptance and overlap (R321, R322) -/

theorem tick_request {s : State} {r : Request} {rest : List Event} (hs : s.sched = .request r :: rest) :
    tick s = requestWhileBusy r { s with sched := rest } := by
  rw [tick, hs]

theorem tick_access {s : State} {r : Request} {rest : List Event} (hs : s.sched = .access r :: rest) :
    tick s = requestToWait r { s with sched := rest } := by
  rw [tick, hs]

/-- A request off the window port, decodable or not: nothing under `FAULT`, the overlap on a busy engine. -/
theorem requestWhileBusy_operationPort {r : Request} (hport : onWindowPort r = false) {s : State} :
    (s.fault ≠ none → requestWhileBusy r s = s) ∧
    (s.fault = none → s.eng.phase ≠ .idle → requestWhileBusy r s = overlap s) := by
  unfold requestWhileBusy
  split
  next e _ =>
    simp only [rejectRequest, hport]
    exact ⟨fun hf => by simp [Option.isSome_iff_ne_none, hf], fun hf hp => by simp [hf, hp]⟩
  next i hd =>
    have ha : windowAccess i = none := by
      rw [← Option.not_isSome_iff_eq_none, windowAccess_of_decode hd, hport]
      simp
    simp only [ha]
    exact ⟨fun hf => by simp [Option.isSome_iff_ne_none, hf], fun hf _ => by simp [hf]⟩

/-- A run before which an agent has a turn begins with that turn. -/
theorem run_tick {s : State} {ev : Event} {rest : List Event} (hs : s.sched = ev :: rest) (hf : s.fault = none)
    (hp : s.eng.phase ≠ .idle) : run s = drive (budget s - 1) (tick s) := by
  obtain ⟨n, hn⟩ : ∃ n, budget s = n + 1 := ⟨511 + (64 + s.params.pollLimit.getD 0) * (s.sched.length + 1), by
    rw [budget]; omega⟩
  rw [run, hn, drive_tick (not_settled_of_sched hf hp (by simp [hs])), Nat.add_sub_cancel]

/-- A window request is served between two micro-steps as at any other time (R321). -/
theorem requestWhileBusy_windowPort {r : Request} {i : Instr} (hport : onWindowPort r = true) (hd : decodeRequest r = .ok i)
    (s : State) : exec i s = .next (requestWhileBusy r s) := by
  obtain ⟨a, ha⟩ : ∃ a, windowAccess i = some a :=
    Option.isSome_iff_exists.mp ((windowAccess_of_decode hd).trans hport)
  simp only [requestWhileBusy, hd, ha]
  cases i with
  | winrd | winwr =>
    cases ha
    rfl
  | _ => cases ha

/-- Settles O48: acceptance on port OP, the turn of a request, and the turn of a request that waits. -/
theorem acceptanceAndOverlap : Obligations.AcceptanceAndOverlap := by
  refine ⟨fun s i hop => ?accept, fun s ev rest hs hf hp => run_tick hs hf hp, fun s r rest hs => ?request,
    fun s r rest hs => ?access⟩
  case accept =>
    obtain ⟨go, hexec⟩ := exec_accept hop
    rw [hexec]
    exact ⟨fun hf => by simp [accept, Option.isSome_iff_ne_none, hf], fun hf hp => by simp [accept, hf, hp, overlap]⟩
  case request =>
    rw [tick_request hs]
    refine ⟨fun hport => ?_, fun hport => ⟨fun i hd => requestWhileBusy_windowPort hport hd _, fun e hd => ?_⟩⟩
    · obtain ⟨hfault, hbusy⟩ := requestWhileBusy_operationPort hport (s := { s with sched := rest })
      refine ⟨hfault, fun hf hp => ⟨hbusy hf hp, ?_⟩⟩
      rw [run_tick hs hf hp, tick_request hs, hbusy hf hp]
      exact drive_settled (settled_of_fault (by simp)) _
    · simp only [requestWhileBusy, hd, rejectRequest, hport, if_true]
      rfl
  case access =>
    rw [tick_access hs]
    refine ⟨fun i a hd ha hsafe => ?_, fun h => ?_⟩
    · have hwait : requestToWait r { s with sched := rest } = windowRequest i (queueAccess a) { s with sched := rest } := by
        simp only [requestToWait, hd, ha]
      rw [hwait]
      exact ⟨fun hg => windowRequest_passed _ hsafe ((gate_sched i s rest).trans hg),
        fun c hg => windowRequest_refused _ hsafe ((gate_sched i s rest).trans hg)⟩
    · unfold requestToWait
      split
      next => rfl
      next i hd => simp only [h i hd]

end Sys2Proof.Machine

/-!
PROOFS of O11, O41, O42, O44, O45 and O54. The bits of a word that is put together from fields (R14, R298), and with them
what single register writes, field updates and BACKEND's plays leave in the registers.
-/

namespace Sys2Proof.Machine

/-! ## Fields of a word -/

theorem testBit_slice (w : Word) (lo len i : Nat) : (slice w lo len).testBit i = (decide (i < len) && w.getLsbD (lo + i)) := by
  rw [slice, BitVec.testBit_toNat, BitVec.getLsbD_extractLsb']

theorem getLsbD_place (n lo i : Nat) : (place n lo).getLsbD i = (decide (i < 32) && decide (lo ≤ i) && n.testBit (i - lo)) := by
  rw [place, BitVec.getLsbD_shiftLeft, BitVec.getLsbD_ofNat]
  by_cases hi : i < 32
  · by_cases hl : lo ≤ i
    · simp [hi, hl, show i - lo < 32 by omega, Nat.not_lt.mpr hl]
    · simp [hl, Nat.lt_of_not_le hl]
  · simp [hi]

theorem slice_or (a b : Word) (lo len : Nat) : slice (a ||| b) lo len = slice a lo len ||| slice b lo len := by
  rw [slice, BitVec.extractLsb'_or, BitVec.toNat_or, slice, slice]

/-- A mask without a bit in the field clears it. -/
theorem slice_and_clear (a : Word) {m : Word} {lo len : Nat} (h : m.extractLsb' lo len = 0) : slice (a &&& m) lo len = 0 := by
  rw [slice, BitVec.extractLsb'_and, h]
  simp

/-- A mask with every bit of the field keeps it. -/
theorem slice_and_keep (a : Word) {m : Word} {lo len : Nat} (h : m.extractLsb' lo len = BitVec.allOnes len) :
    slice (a &&& m) lo len = slice a lo len := by
  rw [slice, BitVec.extractLsb'_and, h, BitVec.and_allOnes, slice]

theorem slice_place_same {n lo len : Nat} (hn : n < 2 ^ len) (hlen : lo + len ≤ 32) : slice (place n lo) lo len = n := by
  apply Nat.eq_of_testBit_eq
  intro i
  rw [testBit_slice, getLsbD_place]
  by_cases hi : i < len
  · simp [hi, show lo + i < 32 by omega]
  · simp [hi, Nat.testBit_lt_two_pow (Nat.lt_of_lt_of_le hn (Nat.pow_le_pow_right (by decide) (Nat.not_lt.mp hi)))]

theorem slice_place_other {n lo w lo' len' : Nat} (hn : n < 2 ^ w) (h : lo' + len' ≤ lo ∨ lo + w ≤ lo') :
    slice (place n lo) lo' len' = 0 := by
  apply Nat.eq_of_testBit_eq
  intro i
  rw [testBit_slice, getLsbD_place, Nat.zero_testBit]
  by_cases hi : i < len'
  · obtain h | h := h
    · simp [show ¬ lo ≤ lo' + i by omega]
    · simp [Nat.testBit_lt_two_pow (Nat.lt_of_lt_of_le hn (Nat.pow_le_pow_right (by decide) (by omega : w ≤ lo' + i - lo)))]
  · simp [hi]

/-- A number that fits its field meets no bit outside it. -/
theorem place_and {n lo len : Nat} {m : Word} (hn : n < 2 ^ len) (hm : m.extractLsb' lo len = 0) : place n lo &&& m = 0 := by
  apply BitVec.eq_of_getLsbD_eq
  intro i _
  rw [BitVec.getLsbD_and, getLsbD_place, show (0 : Word).getLsbD i = false from BitVec.getLsbD_zero]
  by_cases hl : lo ≤ i
  · by_cases hw : i - lo < len
    · have hbit : m.getLsbD (lo + (i - lo)) = false := by
        have := congrArg (fun x => x.getLsbD (i - lo)) hm
        simpa [hw] using this
      rw [show lo + (i - lo) = i by omega] at hbit
      simp [hbit]
    · simp [Nat.testBit_lt_two_pow (Nat.lt_of_lt_of_le hn (Nat.pow_le_pow_right (by decide) (Nat.not_lt.mp hw)))]
  · simp [hl]

/-- The field a field update replaces (R298). -/
theorem slice_setBits_field (old : Word) {n lo len : Nat} (hn : n < 2 ^ len) (hlen : lo + len ≤ 32) :
    slice (setBits old (fieldMask lo len) (place n lo)) lo len = n := by
  have hclear : slice (old &&& ~~~fieldMask lo len) lo len = 0 := by
    apply Nat.eq_of_testBit_eq
    intro i
    have hmask : fieldMask lo len = place (2 ^ len - 1) lo := rfl
    rw [testBit_slice, BitVec.getLsbD_and, BitVec.getLsbD_not, hmask, getLsbD_place, Nat.zero_testBit]
    by_cases hi : i < len
    · simp [hi, show lo + i < 32 by omega]
    · simp [hi]
  rw [setBits, slice_or, hclear, slice_place_same hn hlen, Nat.zero_or]

theorem getLsbD_setBits (old mask bits : Word) (i : Nat) (hi : i < 32) :
    (setBits old mask bits).getLsbD i = ((old.getLsbD i && !mask.getLsbD i) || bits.getLsbD i) := by
  simp [setBits, hi]

/-- Bits within the mask are 0 where the mask is. -/
theorem getLsbD_of_within {mask bits : Word} (h : bits &&& ~~~mask = 0) {i : Nat} (hi : i < 32)
    (hm : mask.getLsbD i = false) : bits.getLsbD i = false := by
  have hbit : (bits &&& ~~~mask).getLsbD i = false := by rw [h]; exact BitVec.getLsbD_zero
  rw [BitVec.getLsbD_and, BitVec.getLsbD_not, hm] at hbit
  simpa only [hi, decide_true, Bool.not_false, Bool.and_true] using hbit

/-- A word without bit 31 is its low 31 bits. -/
theorem and_low31 {v : Word} (h : v.getLsbD 31 = false) : v &&& 0x7FFFFFFF = v :=
  and_not_twoPow_of_clear (k := 31) h

/-! ## The LUT store's lock (R29, R50) -/

theorem regWrite_lutcr_wrongKey {s : State} (h : s.regs.lutkey ≠ s.params.lutKey) (v : Word) : regWrite .lutcr v s = s :=
  if_pos h

/-- Under the key the low two bits decide (R29). -/
theorem regWrite_lutcr_underKey {s : State} (h : s.regs.lutkey = s.params.lutKey) (v : Word) :
    regWrite .lutcr v s = if v.extractLsb' 0 2 = 2 then { s with lutUnlocked := true }
      else if v.extractLsb' 0 2 = 1 then { s with lutUnlocked := false } else s := by
  have h2 : slice v 0 2 = 2 ↔ v.extractLsb' 0 2 = 2 := BitVec.toNat_inj (y := 2#2)
  have h1 : slice v 0 2 = 1 ↔ v.extractLsb' 0 2 = 1 := BitVec.toNat_inj (y := 1#2)
  simp only [regWrite, lutcrWrite, h, ne_eq, not_true_eq_false, ↓reduceIte, h2, h1]

/-- Settles O11, by the key, the two bits of LUTCR and the lock. -/
theorem lutStoreIsLocked : Obligations.LutStoreIsLocked := by
  intro s v i
  refine ⟨fun hkey => regWrite_lutcr_wrongKey hkey v, fun hkey => ?_, fun hf => regRead_shows hf rfl,
    fun hopen => if_pos hopen, fun hlocked => if_neg (by simp [hlocked])⟩
  rw [regWrite_lutcr_underKey hkey]
  refine ⟨fun h => if_pos h, fun h => by simp [h], fun h => ?_⟩
  obtain h | h := h <;> simp [h]

/-! ## What the errors are reported as -/

/-- RSP0 is the sum of its fields (R133). -/
theorem toNat_rsp0 (c : Code) (p : Path) (x : Byte) :
    (rsp0 c p x).toNat = (pathCode p).toNat * 2 ^ 16 + x.toNat * 2 ^ 8 + (codeByte c).toNat := by
  rw [rsp0, BitVec.toNat_append, BitVec.toNat_append, BitVec.toNat_append, ← Nat.shiftLeft_add_eq_or_of_lt (codeByte c).isLt,
    ← Nat.shiftLeft_add_eq_or_of_lt x.isLt, ← Nat.shiftLeft_add_eq_or_of_lt (pathCode p).isLt]
  simp only [Nat.shiftLeft_eq, show (0 : BitVec 14).toNat = 0 from rfl]
  omega

/-- The path of the errors that name it by ARBCMDSRC (R356), for each of its four values. -/
theorem pathCode_errPath (sts0 : Word) :
    (∀ b ∈ [ErrBit.ahbCmdGe, .ahbCmdErr, .ahbBusTimeout],
      pathCode (errPath b sts0) = if sts0.extractLsb' 2 2 = 1 then 1 else 0) ∧
    ∀ b ∈ [ErrBit.dataLearnFail, .seqTimeout],
      pathCode (errPath b sts0) = if sts0.extractLsb' 2 2 = 3 then 0 else sts0.extractLsb' 2 2 := by
  have source {b : ErrBit} : errPath b sts0 = errPath b (place (sts0.extractLsb' 2 2).toNat 2) := by
    have h : arbSource (place (sts0.extractLsb' 2 2).toNat 2) = arbSource sts0 :=
      slice_place_same (sts0.extractLsb' 2 2).isLt (by decide)
    cases b <;> simp only [errPath, h]
  have table : ∀ src : BitVec 2, (∀ b ∈ [ErrBit.ahbCmdGe, .ahbCmdErr, .ahbBusTimeout],
      pathCode (errPath b (place src.toNat 2)) = if src = 1 then 1 else 0) ∧
      ∀ b ∈ [ErrBit.dataLearnFail, .seqTimeout],
        pathCode (errPath b (place src.toNat 2)) = if src = 3 then 0 else src := by decide
  obtain ⟨hahb, hany⟩ := table (sts0.extractLsb' 2 2)
  exact ⟨fun b hb => source ▸ hahb b hb, fun b hb => source ▸ hany b hb⟩

/-- Settles O44, field by field. -/
theorem errorClassification : Obligations.ErrorClassification := by
  refine ⟨toNat_rsp0, by decide, fun sts0 sts1 => ?_⟩
  obtain ⟨hahb, hany⟩ := pathCode_errPath sts0
  have code (w : BitVec 4) : (BitVec.zeroExtend 8 w).toNat = w.toNat :=
    BitVec.toNat_setWidth_of_le (by decide)
  refine ⟨?_, hahb, hany, code _, code _, rfl, ?_⟩
  · simp [errPath, pathCode]
  · simp [errCause]

/-! ## The interrupt output (R358) -/

theorem getLsbD_irqMask (i : Nat) : irqMask.getLsbD i = true ↔ i ∈ [0, 1, 2, 3, 4, 5, 6, 7, 10, 11] := by
  by_cases hi : i < 32
  · have table : ∀ i < 32, irqMask.getLsbD i = true ↔ i ∈ [0, 1, 2, 3, 4, 5, 6, 7, 10, 11] := by decide
    exact table i hi
  · rw [BitVec.getLsbD_of_ge _ _ (Nat.not_lt.mp hi)]
    simp only [List.mem_cons, List.not_mem_nil, or_false, Bool.false_eq_true, false_iff]
    omega

theorem ne_zero_iff_getLsbD (w : Word) : w ≠ 0 ↔ ∃ i, w.getLsbD i = true := by
  constructor
  · intro h
    by_contra hno
    refine h (BitVec.eq_of_getLsbD_eq fun i _ => ?_)
    rw [show (0 : Word).getLsbD i = false from BitVec.getLsbD_zero, Bool.eq_false_iff]
    exact fun hi => hno ⟨i, hi⟩
  · rintro ⟨i, hi⟩ rfl
    rw [show (0 : Word).getLsbD i = false from BitVec.getLsbD_zero] at hi
    cases hi

/-- Settles O45: a bit of the output's word is a bit of INTR, of INTEN and of the mask. -/
theorem interruptOutput : Obligations.InterruptOutput := by
  intro s hf
  have hirq : irq s = true ↔ intrRead s &&& s.regs.inten &&& irqMask ≠ 0 := by simp [irq, hf]
  rw [hirq, ne_zero_iff_getLsbD, regRead_intr hf]
  refine exists_congr fun i => ?_
  rw [BitVec.getLsbD_and, BitVec.getLsbD_and, Bool.and_eq_true, Bool.and_eq_true, getLsbD_irqMask]
  exact and_comm

/-! ## Plain and read-only registers (R21, R297) -/

/-- A plain register holds what is written, and the write is in the registers only. -/
theorem regWrite_plain {r : Reg} (h : plainRegister r = true) (v : Word) (s : State) :
    regWrite r v s = { s with regs := (regWrite r v s).regs } ∧ regShows r (regWrite r v s) = some v := by
  cases r with
  | ahbrxbufcr0 i | flshcr0 i | flshcr1 i => exact ⟨rfl, by simp [regWrite, regShows]⟩
  | mcr1 | inten | lutkey | flshcr4 | ipcr0 | ipcr1 | dlpr => exact ⟨rfl, rfl⟩
  | _ => cases h

/-- The write reaches no other register. -/
theorem regWrite_plain_other {r r' : Reg} (h : plainRegister r = true) (hne : r' ≠ r) (v : Word) (s : State) :
    regStored r' (regWrite r v s) = regStored r' s ∧ regShows r' (regWrite r v s) = regShows r' s := by
  cases r with
  | ahbrxbufcr0 i =>
    cases r' with
    | ahbrxbufcr0 j =>
      have hval : i.val ≠ j.val := fun he => hne (congrArg Reg.ahbrxbufcr0 (Fin.ext he.symm))
      simp [regWrite, regStored, regShows, hval]
    | _ => exact ⟨rfl, rfl⟩
  | flshcr0 i =>
    cases r' with
    | flshcr0 j =>
      have hval : i.val ≠ j.val := fun he => hne (congrArg Reg.flshcr0 (Fin.ext he.symm))
      simp [regWrite, regStored, regShows, hval]
    | _ => exact ⟨rfl, rfl⟩
  | flshcr1 i =>
    cases r' with
    | flshcr1 j =>
      have hval : i.val ≠ j.val := fun he => hne (congrArg Reg.flshcr1 (Fin.ext he.symm))
      simp [regWrite, regStored, regShows, hval]
    | _ => exact ⟨rfl, rfl⟩
  | mcr1 | inten | lutkey | flshcr4 | ipcr0 | ipcr1 | dlpr =>
    cases r' with
    | mcr1 | inten | lutkey | flshcr4 | ipcr0 | ipcr1 | dlpr => first | exact absurd rfl hne | exact ⟨rfl, rfl⟩
    | _ => exact ⟨rfl, rfl⟩
  | _ => cases h

theorem regWrite_readOnly {r : Reg} (h : readOnlyRegister r = true) (v : Word) (s : State) : regWrite r v s = s := by
  cases r with
  | sts0 | sts1 | sts2 | ahbspndsts | iprxfsts | iptxfsts | rfdr => rfl
  | _ => cases h

/-! ## Registers with an action (R22, R33, R38, R68) -/

theorem regWrite_mcr0_enable {v : Word} (h : v.getLsbD 1 = false) (s : State) :
    regWrite .mcr0 v s = { s with regs.mcr0 := v } := by
  simp only [regWrite, h, Bool.false_eq_true, ↓reduceIte]

theorem regWrite_mcr0_disable {v : Word} (h : v.getLsbD 1 = true) (s : State) :
    regWrite .mcr0 v s = { s with regs.mcr0 := v, regs.sts2 := s.regs.sts2 &&& 0xFFFCFFFC } := by
  simp only [regWrite, h, ↓reduceIte]
  rfl

theorem regWrite_flshcr2_keep {v : Word} (h : v.getLsbD 31 = false) (k : Fin 4) (s : State) :
    regWrite (.flshcr2 k) v s = { s with regs.flshcr2 := s.regs.flshcr2.set k v } := by
  simp only [regWrite, h, and_low31 h, Bool.false_eq_true, ↓reduceIte]

theorem regWrite_flshcr2_reset {v : Word} (h : v.getLsbD 31 = true) (k : Fin 4) (s : State) :
    regWrite (.flshcr2 k) v s =
      { s with regs.flshcr2 := s.regs.flshcr2.set k (v &&& 0x7FFFFFFF), seqptr := s.seqptr.set k 0 } := by
  simp only [regWrite, h, ↓reduceIte]

/-! ## The trigger (R36, R37) -/

theorem fetchSlot_absent {s : State} {n : Nat} (h : s.fault ≠ none ∨ 30 ≤ n) :
    (fetchSlot n s).2 = { s with draws := s.draws + 4 } := by
  have hno : ¬ (n < 30 ∧ s.fault.isNone = true) := by
    rw [Option.isNone_iff_eq_none]
    rintro ⟨hn, hf⟩
    obtain h | h := h
    · exact h hf
    · omega
  rw [fetchSlot, dif_neg hno]

/-- Slots that exist, on a surface that is specified, take no draw. -/
theorem fetchLater_present {s : State} (hf : s.fault = none) {slot n : Nat} (h : slot + n < 30) :
    (fetchLater slot n s).2 = s := by
  induction n generalizing slot with
  | zero => rfl
  | succ n ih =>
    rw [fetchLater, fetchSlot_slot ⟨slot + 1, by omega⟩ hf]
    exact ih (by omega)

/-- Slots that do not exist, and all under `FAULT`, take four draws each. -/
theorem fetchLater_absent {s : State} {slot : Nat} (h : s.fault ≠ none ∨ 29 ≤ slot) (n : Nat) :
    (fetchLater slot n s).2 = { s with draws := s.draws + 4 * n } := by
  induction n generalizing slot s with
  | zero => rfl
  | succ n ih =>
    have habsent := fetchSlot_absent (s := s) (n := slot + 1) (h.imp_right (by omega))
    rw [fetchLater]
    simp only [habsent]
    rw [ih (s := { s with draws := s.draws + 4 }) (slot := slot + 1) (h.imp_right (by omega))]
    simp only [show s.draws + 4 + 4 * n = s.draws + 4 * (n + 1) by omega]

/-- The trigger with nothing in flight: the command, and the draws its slots take. -/
theorem regWrite_trigger {v : Word} (hv : v.getLsbD 0 = true) {s : State} (hi : s.inflight = none) :
    ∃ (w : SlotWords) (l : List SlotWords) (d : Nat),
      regWrite .ipcmd v s = { s with
        inflight := some {
          slot := s.regs.ipcr1.extractLsb' 16 5, seqnum := s.regs.ipcr1.extractLsb' 24 3, addr := s.regs.ipcr0
          datsz := s.regs.ipcr1.extractLsb' 0 16, words := w, later := l, dir := dirOf w, delivered := 0 }
        regs.sts0 := 0x00000008, draws := d } ∧
      l.length = (s.regs.ipcr1.extractLsb' 24 3).toNat ∧
      (∀ n : Fin 30, s.fault = none → (s.regs.ipcr1.extractLsb' 16 5).toNat = n.val → w = slotOf s.regs.lut n) ∧
      (∀ (j : Nat) (n : Fin 30), s.fault = none → j < l.length →
        (s.regs.ipcr1.extractLsb' 16 5).toNat + 1 + j = n.val → l[j]? = some (slotOf s.regs.lut n)) ∧
      (s.fault = none → (s.regs.ipcr1.extractLsb' 16 5).toNat + l.length < 30 → d = s.draws) ∧
      (s.fault ≠ none ∨ 30 ≤ (s.regs.ipcr1.extractLsb' 16 5).toNat → d = s.draws + 4 * (l.length + 1)) := by
  obtain ⟨hbusy, -⟩ | ⟨-, w, s1, l, s2, hw, hl, htrigger⟩ := trigger_cases s
  · exact absurd hi hbusy
  obtain ⟨d1, h1⟩ := fetchSlot_frame (slice s.regs.ipcr1 16 5) s
  obtain ⟨d2, h2⟩ := fetchLater_frame (slice s.regs.ipcr1 16 5) (slice s.regs.ipcr1 24 3) s1
  have hlength := fetchLater_length (slice s.regs.ipcr1 16 5) (slice s.regs.ipcr1 24 3) s1
  rw [hw] at h1
  rw [hl] at h2 hlength
  replace hlength : l.length = slice s.regs.ipcr1 24 3 := hlength
  obtain rfl : s1 = { s with draws := d1 } := h1
  obtain rfl : s2 = { s with draws := d2 } := h2
  refine ⟨w, l, d2, (if_pos hv).trans htrigger, hlength, fun n hf hn => ?first, fun j n hf hj hn => ?later,
    fun hf hfit => ?present, fun habsent => ?absent⟩
  case first =>
    have hfetch := fetchSlot_slot (s := s) n hf
    rw [← hn] at hfetch
    exact (congrArg Prod.fst (hw.symm.trans hfetch) :)
  case later =>
    have hlt : slice s.regs.ipcr1 16 5 + 1 + j < 30 := Nat.lt_of_le_of_lt (Nat.le_of_eq hn) n.isLt
    have hslot : n = ⟨slice s.regs.ipcr1 16 5 + 1 + j, hlt⟩ := Fin.ext hn.symm
    have hfetch := fetchLater_slot (s := { s with draws := d1 }) (slot := slice s.regs.ipcr1 16 5)
      (n := slice s.regs.ipcr1 24 3) (j := j) hf (hlength ▸ hj) hlt
    rwa [hl, ← hslot] at hfetch
  case present =>
    have hslot : slice s.regs.ipcr1 16 5 + l.length < 30 := hfit
    have hfetch := fetchSlot_slot (s := s) ⟨slice s.regs.ipcr1 16 5, by omega⟩ hf
    obtain rfl : d1 = s.draws := (congrArg (fun x => x.2.draws) (hw.symm.trans hfetch) :)
    have hpresent := fetchLater_present (s := { s with draws := s.draws }) hf
      (show slice s.regs.ipcr1 16 5 + slice s.regs.ipcr1 24 3 < 30 by omega)
    rw [hl] at hpresent
    exact (congrArg State.draws hpresent :)
  case absent =>
    have hfirst := fetchSlot_absent (s := s) (n := slice s.regs.ipcr1 16 5) habsent
    rw [hw] at hfirst
    obtain rfl : d1 = s.draws + 4 := (congrArg State.draws hfirst :)
    have hslots := fetchLater_absent (s := { s with draws := s.draws + 4 }) (slot := slice s.regs.ipcr1 16 5)
      (habsent.imp_right fun h => Nat.le_trans (by decide) h) (slice s.regs.ipcr1 24 3)
    rw [hl] at hslots
    have hd : d2 = s.draws + 4 + 4 * slice s.regs.ipcr1 24 3 := (congrArg State.draws hslots :)
    omega

/-- Settles O41, register by register. -/
theorem registerWritesAreReadBack : Obligations.RegisterWritesAreReadBack := by
  intro s r v
  refine ⟨fun h => ?plain, rfl, rfl, fun h => regWrite_readOnly h v s, fun h => regWrite_mcr0_enable h s,
    fun h => regWrite_mcr0_disable h s, rfl, rfl, fun i => rfl,
    fun k => ⟨fun h => regWrite_flshcr2_keep h k s, fun h => regWrite_flshcr2_reset h k s⟩,
    fun h => if_neg (by rw [h]; decide), fun h hbusy => ?overlap, fun h => regWrite_trigger h⟩
  case plain =>
    obtain ⟨hregs, hshows⟩ := regWrite_plain h v s
    refine ⟨(regWrite r v s).regs, hregs, ?_, fun r' hne => ?_⟩
    · rwa [← hregs]
    · rw [← hregs]
      exact regWrite_plain_other h hne v s
  case overlap =>
    obtain ⟨-, htrigger⟩ | ⟨hfree, -⟩ := trigger_cases s
    · exact (if_pos h).trans htrigger
    · exact absurd hfree hbusy

/-! ## Field updates (R298) -/

theorem regField_flshcr2_keep {s : State} (hs : s.Consistent) {mask bits : Word} (hb : bits &&& ~~~mask = 0) (k : Fin 4)
    (hm : mask.getLsbD 31 = false) : regField (.flshcr2 k) mask bits s =
      { s with regs.flshcr2 := s.regs.flshcr2.set k ((s.regs.flshcr2[k] &&& ~~~mask) ||| bits) } := by
  refine regWrite_flshcr2_keep ?_ k s
  rw [getLsbD_setBits _ _ _ 31 (by decide), getLsbD_of_within hb (by decide) hm]
  show ((s.regs.flshcr2[k]).getLsbD 31 && _ || false) = false
  rw [hs.flshcr2 k]
  rfl

/-- CLRINSTRPTR alone resets the bank's position; the stored bits were without bit 31 (R33). -/
theorem regField_clrInstrPtr {s : State} (hs : s.Consistent) (k : Fin 4) :
    regField (.flshcr2 k) 0x80000000 0x80000000 s = { s with seqptr := s.seqptr.set k 0 } := by
  have hstored : setBits s.regs.flshcr2[k] 0x80000000 0x80000000 &&& 0x7FFFFFFF = s.regs.flshcr2[k] :=
    (setBits_and (by decide) (by decide) _).trans (and_low31 (hs.flshcr2 k))
  have hset : s.regs.flshcr2.set k s.regs.flshcr2[k] = s.regs.flshcr2 := Vector.set_getElem_self k.isLt
  refine (regWrite_flshcr2_reset (v := setBits s.regs.flshcr2[k] 0x80000000 0x80000000) ?_ k s).trans ?_
  · rw [getLsbD_setBits _ _ _ 31 (by decide)]
    simp
  · rw [hstored, hset]

/-- Where MDIS is not named with 1, no lock bit changes: with MDIS at 1 they are 0 already (log entry 24). -/
theorem regField_mcr0_keep {s : State} (hs : s.Consistent) {mask bits : Word} (hb : bits &&& ~~~mask = 0)
    (h : mask.getLsbD 1 = false ∨ bits.getLsbD 1 = false) : regField .mcr0 mask bits s =
      { s with regs.mcr0 := (s.regs.mcr0 &&& ~~~mask) ||| bits } := by
  have hbit : bits.getLsbD 1 = false := h.elim (getLsbD_of_within hb (by decide)) id
  have hnew : (setBits s.regs.mcr0 mask bits).getLsbD 1 = (moduleDisabled s && !mask.getLsbD 1) := by
    rw [getLsbD_setBits _ _ _ 1 (by decide), hbit, Bool.or_false]
    rfl
  cases hd : (setBits s.regs.mcr0 mask bits).getLsbD 1 with
  | false => exact regWrite_mcr0_enable hd s
  | true =>
    have hdisabled : moduleDisabled s = true := (Bool.and_eq_true_iff.mp (hnew.symm.trans hd)).1
    refine (regWrite_mcr0_disable hd s).trans ?_
    rw [hs.unlocked hdisabled, show (0 : Word) &&& 0xFFFCFFFC = 0 from BitVec.zero_and, ← hs.unlocked hdisabled]
    rfl

/-- Settles O42, register by register. -/
theorem fieldUpdateFiresNothingElse : Obligations.FieldUpdateFiresNothingElse := by
  intro s mask bits hs hb
  have clearBit {old : Word} (hold : old.getLsbD 0 = false) : (setBits old mask bits).getLsbD 0 = bits.getLsbD 0 := by
    rw [getLsbD_setBits _ _ _ 0 (by decide), hold, Bool.false_and, Bool.false_or]
  refine ⟨fun k => regField_flshcr2_keep hs hb k, fun k => regField_clrInstrPtr hs k, regField_mcr0_keep hs hb,
    fun h => ?disable, rfl, rfl, rfl, fun k => rfl, rfl, fun h => ?rxKeep, fun h => ?rxClear, fun h => ?txKeep, fun h => ?txClear⟩
  case disable =>
    refine regWrite_mcr0_disable ?_ s
    rw [getLsbD_setBits _ _ _ 1 (by decide), h, Bool.or_true]
  case rxKeep => exact regWrite_iprxfcr_keep ((clearBit hs.iprxfcr).trans h) s
  case rxClear => exact regWrite_iprxfcr_clear ((clearBit hs.iprxfcr).trans h) s
  case txKeep => exact regWrite_iptxfcr_keep ((clearBit hs.iptxfcr).trans h) s
  case txClear => exact regWrite_iptxfcr_clear ((clearBit hs.iptxfcr).trans h) s

/-! ## STS1 after an error (R43, R66) -/

/-- The IP command's failure: the code at 27:24, the slot at 20:16, the AHB half as it was. -/
theorem errStatus_ipCmdErr (code : BitVec 4) (id : BitVec 5) (onAhb : Bool) (sts1 : Word) :
    (errStatus .ipCmdErr code id onAhb sts1).extractLsb' 24 4 = code ∧
    (errStatus .ipCmdErr code id onAhb sts1).extractLsb' 16 5 = id ∧
    errStatus .ipCmdErr code id onAhb sts1 &&& 0xF0E0FFFF = sts1 &&& 0xF0E0FFFF := by
  have hslot : slice (errStatus .ipCmdErr code id onAhb sts1) 16 5 = id.toNat := slice_setBits_field _ id.isLt (by decide)
  have hcode : slice (errStatus .ipCmdErr code id onAhb sts1) 24 4 = code.toNat := by
    rw [errStatus, setBits, slice_or, slice_and_keep _ (by decide), slice_place_other id.isLt (by decide), Nat.or_zero]
    exact slice_setBits_field _ code.isLt (by decide)
  refine ⟨BitVec.eq_of_toNat_eq hcode, BitVec.eq_of_toNat_eq hslot, ?_⟩
  rw [errStatus, setBits_and (by decide) (place_and id.isLt (by decide)), setIpCode,
    setBits_and (by decide) (place_and code.isLt (by decide))]

/-- The AHB command's failure: the code at 11:8, the slot at 4:0, the IP half as it was. -/
theorem errStatus_ahbCmdErr (code : BitVec 4) (id : BitVec 5) (onAhb : Bool) (sts1 : Word) :
    (errStatus .ahbCmdErr code id onAhb sts1).extractLsb' 8 4 = code ∧
    (errStatus .ahbCmdErr code id onAhb sts1).extractLsb' 0 5 = id ∧
    errStatus .ahbCmdErr code id onAhb sts1 &&& 0xFFFFF0E0 = sts1 &&& 0xFFFFF0E0 := by
  have hslot : slice (errStatus .ahbCmdErr code id onAhb sts1) 0 5 = id.toNat := slice_setBits_field _ id.isLt (by decide)
  have hcode : slice (errStatus .ahbCmdErr code id onAhb sts1) 8 4 = code.toNat := by
    rw [errStatus, setBits, slice_or, slice_and_keep _ (by decide), slice_place_other id.isLt (by decide), Nat.or_zero]
    exact slice_setBits_field _ code.isLt (by decide)
  refine ⟨BitVec.eq_of_toNat_eq hcode, BitVec.eq_of_toNat_eq hslot, ?_⟩
  rw [errStatus, setBits_and (by decide) (place_and id.isLt (by decide)), setAhbCode,
    setBits_and (by decide) (place_and code.isLt (by decide))]

/-! ## Playing a LUT instruction (R53, R112, R113) -/

/-- The phases that only move the position. -/
theorem playPhase_moves {ph : LutPhase} (hr : ph ≠ .dataRead) (hw : ph ≠ .dataWrite) (s : State) :
    playPhase ph s = moveSeqPtr s := by
  cases ph <;> first | rfl | contradiction

theorem playPhase_dataRead_idle {s : State} (h : playsCommand s.player.source = false ∨ rxPushEnabled s = false) :
    playPhase .dataRead s = moveSeqPtr s := by
  have hpush (he : rxPushEnabled s = false) : beRxPushDrawn (moveSeqPtr s) = moveSeqPtr s :=
    if_neg (by rw [show rxPushEnabled (moveSeqPtr s) = rxPushEnabled s from rfl, he]; decide)
  obtain h | h := h
  · simp [playPhase, h]
  · simp [playPhase, hpush h]

/-- In the data phase of an IP command a read instruction delivers one free entry under be_rx_push's guard (R63). -/
theorem playPhase_dataRead_push {s : State} {c : Inflight} (hplays : playsCommand s.player.source = true)
    (hc : s.inflight = some c) (he : rxPushEnabled s = true) :
    playPhase .dataRead s = { s with
      seqptr := s.seqptr.set s.player.bank (Config.freePtr s.draws), draws := s.draws + 9
      rxq := s.rxq ++ [drawnEntry (s.draws + 1)]
      inflight := some { c with delivered := min (c.delivered + 8) c.datsz.toNat } } := by
  have hc' : (moveSeqPtr s).inflight = some c := hc
  have he' : rxPushEnabled (moveSeqPtr s) = true := he
  simp only [playPhase, hplays, ↓reduceIte, beRxPushDrawn, beRxPush, hc', he']
  rfl

theorem playPhase_dataWrite_idle {s : State} (h : playsCommand s.player.source = false ∨ moduleDisabled s = true) :
    playPhase .dataWrite s = moveSeqPtr s := by
  have hpop (hd : moduleDisabled s = true) : beTxPop (moveSeqPtr s) = moveSeqPtr s := if_pos hd
  obtain h | h := h
  · simp [playPhase, h]
  · simp [playPhase, hpop h]

theorem beTxPop_enabled {s : State} (h : moduleDisabled s = false) : beTxPop s = { s with txq := s.txq.tail } := by
  simp [beTxPop, h]

theorem playPhase_dataWrite_pop {s : State} (hplays : playsCommand s.player.source = true)
    (hd : moduleDisabled s = false) : playPhase .dataWrite s = { moveSeqPtr s with txq := s.txq.tail } := by
  rw [playPhase, if_pos hplays]
  exact beTxPop_enabled (s := moveSeqPtr s) hd

theorem playUnknown_quiet {s : State} (h : Config.freeBool (s.draws + 1) = false) (slot : BitVec 5) :
    playUnknown slot s = { moveSeqPtr s with draws := s.draws + 2 } := by
  have h' : Config.freeBool (moveSeqPtr s).draws = false := h
  simp only [playUnknown, h', Bool.false_eq_true, ↓reduceIte]
  rfl

/-- The CommandCheck error of the path played, with a drawn code (R66, R113). -/
theorem playUnknown_error {s : State} (h : Config.freeBool (s.draws + 1) = true) (slot : BitVec 5) :
    ∃ code : BitVec 4, playUnknown slot s = { beError (if playsCommand s.player.source then .ipCmdErr else .ahbCmdErr)
      code slot false (moveSeqPtr s) with draws := s.draws + 2 } := by
  have h' : Config.freeBool (moveSeqPtr s).draws = true := h
  exact ⟨_, by simp only [playUnknown, h', ↓reduceIte]; rfl⟩

/-- Settles O54, phase by phase. -/
theorem lutInstructionsPlay : Obligations.LutInstructionsPlay := by
  intro s p x
  have moves {i : Instr} {ph : LutPhase} (hi : lutPhase i = some ph) (h : playPhase ph s = moveSeqPtr s) : ∃ q : Fin 8,
      exec i s = .next { s with seqptr := s.seqptr.set s.player.bank q, draws := s.draws + 1 } :=
    ⟨_, (exec_played hi s).trans (congrArg Host.Outcome.next h)⟩
  refine ⟨fun i hi => ?quiet, fun i hi => ?read, fun i hi => ?write, fun slot => ⟨Config.freePtr s.draws,
    fun h => playUnknown_quiet h slot, fun h => ?unknown⟩⟩
  case quiet =>
    obtain ⟨ph, hphase, hread, hwrite⟩ : ∃ ph, lutPhase i = some ph ∧ ph ≠ .dataRead ∧ ph ≠ .dataWrite := by
      simp only [List.mem_cons, List.not_mem_nil, or_false] at hi
      rcases hi with rfl | rfl | rfl | rfl | rfl | rfl | rfl <;> exact ⟨_, rfl, by decide, by decide⟩
    exact moves hphase (playPhase_moves hread hwrite s)
  case read =>
    have hphase : lutPhase i = some .dataRead := by
      simp only [List.mem_cons, List.not_mem_nil, or_false] at hi
      rcases hi with rfl | rfl <;> rfl
    exact ⟨fun h => moves hphase (playPhase_dataRead_idle h), fun c hplays hc he =>
      ⟨_, _, (exec_played hphase s).trans (congrArg Host.Outcome.next (playPhase_dataRead_push hplays hc he))⟩⟩
  case write =>
    have hphase : lutPhase i = some .dataWrite := by
      simp only [List.mem_cons, List.not_mem_nil, or_false] at hi
      rcases hi with rfl | rfl <;> rfl
    exact ⟨fun h => moves hphase (playPhase_dataWrite_idle h), fun hplays hd =>
      ⟨_, (exec_played hphase s).trans (congrArg Host.Outcome.next (playPhase_dataWrite_pop hplays hd))⟩⟩
  case unknown =>
    obtain ⟨code, heq⟩ := playUnknown_error h slot
    rw [heq]
    cases hplays : playsCommand s.player.source with
    | true =>
      obtain ⟨-, hslot, hkept⟩ := errStatus_ipCmdErr code slot false s.regs.sts1
      refine ⟨errStatus .ipCmdErr code slot false s.regs.sts1, rfl, fun _ => ⟨hslot, hkept⟩, nofun⟩
    | false =>
      obtain ⟨-, hslot, hkept⟩ := errStatus_ahbCmdErr code slot false s.regs.sts1
      refine ⟨errStatus .ahbCmdErr code slot false s.regs.sts1, rfl, nofun, fun _ => ⟨hslot, hkept⟩⟩

end Sys2Proof.Machine

/-!
PROOFS of O9, O10, O12, O20, O39, O40 and O43. The run of an operation with no other agent moving, one lemma for each kind of
micro-step, and the operations made of a few of them: LUTB, REGRD, REGWR and ERRCLS.
-/

namespace Sys2Proof.Machine

/-! ## The start of an operation -/

/-- The engine with an operation accepted, before its micro-steps are laid down (R57). -/
def Engine.opened (e : Engine) (i : Instr) (x : Option Session) (en : Ending) : Engine :=
  { e with op := some i, session := x, ending := en, vals := [], count := 0 }

@[simp] theorem opened_ending (e : Engine) (i : Instr) (x : Option Session) (en : Ending) :
    (e.opened i x en).ending = en := rfl
@[simp] theorem opened_session (e : Engine) (i : Instr) (x : Option Session) (en : Ending) :
    (e.opened i x en).session = x := rfl
@[simp] theorem opened_result (e : Engine) (i : Instr) (x : Option Session) (en : Ending) :
    (e.opened i x en).result = e.result := rfl
@[simp] theorem opened_op (e : Engine) (i : Instr) (x : Option Session) (en : Ending) :
    (e.opened i x en).op = some i := rfl

theorem begin_at (i : Instr) (x : Option Session) (prog : List Micro) (en : Ending) (s : State) :
    begin i x prog en s = s.at ((s.eng.opened i x en).withProgram prog) s.sched := rfl

/-- A run takes any number of turns up to its budget. -/
theorem run_eq_drive {s : State} {k : Nat} (h : k ≤ budget s) : ∃ n, run s = drive (n + k) s :=
  ⟨budget s - k, by rw [Nat.sub_add_cancel h, run]⟩

theorem le_budget (s : State) : 512 + s.params.pollLimit.getD 0 + 64 * s.sched.length ≤ budget s := by
  have hmul : 64 * (s.sched.length + 1) ≤ (64 + s.params.pollLimit.getD 0) * (s.sched.length + 1) :=
    Nat.mul_le_mul_right _ (by omega)
  have hlimit : s.params.pollLimit.getD 0 * 1 ≤ s.params.pollLimit.getD 0 * (s.sched.length + 1) :=
    Nat.mul_le_mul_left _ (by omega)
  have heq : (64 + s.params.pollLimit.getD 0) * (s.sched.length + 1) =
      64 * (s.sched.length + 1) + s.params.pollLimit.getD 0 * (s.sched.length + 1) := Nat.add_mul _ _ _
  unfold budget
  omega

/-- An operation that has ended stands in the state it left, with its result. -/
theorem at_idle {s : State} {q : List Event} (h : s.sched = q) (r : Result) :
    s.at (Engine.idle (some r)) q = s.answered r := by
  subst h
  rfl

/-! ## Engine turns -/

/-- The engine moves in the next `n` turns: they are scheduled, or none is. -/
def EngineTurns (n : Nat) (q q' : List Event) : Prop :=
  q = List.replicate n .engine ++ q' ∨ (q = [] ∧ q' = [])

theorem EngineTurns.alone (n : Nat) : EngineTurns n [] [] := .inr ⟨rfl, rfl⟩

theorem EngineTurn.alone : EngineTurn [] [] := .inr ⟨rfl, rfl⟩

theorem EngineTurns.first {n : Nat} {q q' : List Event} (h : EngineTurns (n + 1) q q') :
    ∃ q1, EngineTurn q q1 ∧ EngineTurns n q1 q' := by
  obtain rfl | ⟨rfl, rfl⟩ := h
  · exact ⟨List.replicate n .engine ++ q', .inl (by rw [List.replicate_succ]; rfl), .inl rfl⟩
  · exact ⟨[], .alone, .alone n⟩

theorem EngineTurns.last {n : Nat} {q q' : List Event} (h : EngineTurns (n + 1) q q') :
    ∃ q1, EngineTurns n q q1 ∧ EngineTurn q1 q' := by
  obtain rfl | ⟨rfl, rfl⟩ := h
  · exact ⟨.engine :: q', .inl (by rw [List.replicate_succ', List.append_assoc]; rfl), .inl rfl⟩
  · exact ⟨[], .alone n, .alone⟩

theorem EngineTurns.zero {q q' : List Event} (h : EngineTurns 0 q q') : q = q' := by
  obtain rfl | ⟨rfl, rfl⟩ := h <;> rfl

/-- A plain micro-step is neither a poll nor a store: the engine does not wait before it. -/
theorem waiting_plain {m : Micro} (h : m.plain = true) (s : State) (e : Engine) (ms : List Micro) :
    waiting (s.at (e.withProgram (m :: ms)) []) = false := by
  refine waiting_other s e m ms ⟨fun r c hact => ?_, fun a b hact => ?_⟩
  all_goals simp [Micro.plain, hact] at h

theorem plain_phase_ne {m : Micro} (h : m.plain = true) : m.phase ≠ .idle :=
  plain_phase (ms := [m]) (by simp [h]) m (by simp)

/-- A plain micro-step, in the engine's turn. -/
theorem drive_plainStep {m : Micro} (h : m.plain = true) (s : State) (e : Engine) (q q' : List Event) (n : Nat)
    (rest : List Micro) (hf : s.fault = none) (ht : EngineTurn q q') :
    drive (n + 1) (s.at (e.withProgram (m :: rest)) q) =
      drive n (proceed rest ((m.apply s).at (e.withProgram (m :: rest)) q')) := by
  rw [drive_turn s _ q q' n hf (plain_phase_ne h) ht (waiting_plain h s e rest), engStep_cons _ _ _ _ _ hf]
  obtain ⟨ph, a⟩ := m
  cases a <;> simp [Micro.plain] at h
  · exact congrArg (drive n) (actStep_write _ _ _ _ _ _ (by rw [(regWrite_quiet h.2 _ _).1, hf]))
  · simp only [actStep, regField_at]
    rfl

/-- A list of plain micro-steps with a micro-step behind them. -/
theorem drive_writes {ws : List Micro} (h : ws.all Micro.plain = true) (s : State) (e : Engine) (q q' : List Event)
    (m : Micro) (ms : List Micro) (n : Nat) (hf : s.fault = none) (ht : EngineTurns ws.length q q') :
    drive (n + ws.length) (s.at (e.withProgram (ws ++ m :: ms)) q) =
      drive n ((applyAll ws s).at (e.withProgram (m :: ms)) q') := by
  induction ws generalizing s q with
  | nil =>
    obtain rfl := ht.zero
    rfl
  | cons w ws ih =>
    obtain ⟨q1, hfirst, hrest⟩ := ht.first
    obtain ⟨hw, hws⟩ : w.plain = true ∧ ws.all Micro.plain = true := by simpa using h
    obtain ⟨m', ms', hnext⟩ : ∃ m' ms', ws ++ m :: ms = m' :: ms' := by cases ws <;> exact ⟨_, _, rfl⟩
    have hstep := ih hws (w.apply s) q1 ((apply_fault hw s).trans hf) hrest
    rw [List.length_cons, ← Nat.add_assoc, List.cons_append, drive_plainStep hw s e q q1 _ _ hf hfirst, hnext, proceed_cons,
      withProgram_withProgram, ← hnext, hstep]
    rfl

/-- An operation of plain micro-steps only, with no session, ends with `Ok` and nothing else. -/
theorem drive_writes_done {ws : List Micro} (h : ws.all Micro.plain = true) (hne : ws ≠ []) (s : State) {e : Engine}
    (hen : e.ending = .done) (hx : e.session = none) (q q' : List Event) (n : Nat) (hf : s.fault = none)
    (ht : EngineTurns ws.length q q') :
    drive (n + ws.length) (s.at (e.withProgram ws) q) =
      (applyAll ws s).at (Engine.idle (some (resultOf .ok 0 []))) q' := by
  induction ws generalizing s q with
  | nil => exact absurd rfl hne
  | cons w ws ih =>
    obtain ⟨q1, hfirst, hrest⟩ := ht.first
    obtain ⟨hw, hws⟩ : w.plain = true ∧ ws.all Micro.plain = true := by simpa using h
    have hf' := (apply_fault hw s).trans hf
    rw [List.length_cons, ← Nat.add_assoc, drive_plainStep hw s e q q1 _ _ hf hfirst]
    cases ws with
    | nil =>
      obtain rfl := hrest.zero
      rw [proceed_nil_done _ _ _ (by exact hen), drive_idle]
      simp [hx, applyAll]
    | cons w' ws' => exact ih hws (by simp) (w.apply s) q1 hf' hrest

/-! ## Reads -/

/-- A read looks at neither the engine nor the schedule (R296). -/
theorem regRead_at (r : Reg) (s : State) (e : Engine) (q : List Event) :
    regRead r (s.at e q) = ((regRead r s).1, (regRead r s).2.at e q) := by
  have hshows : regShows r (s.at e q) = regShows r s := by cases r <;> rfl
  have hpeek : regPeek r (s.at e q) = regPeek r s := by rw [regPeek, hshows, regPeek]; rfl
  have hdraws : readDraws r (s.at e q) = readDraws r s := by rw [readDraws, hshows, readDraws]; rfl
  rw [regRead, hpeek, hdraws, regRead]
  cases readDraws r s <;> rfl

/-- The engine with one more value read. -/
def Engine.withValue (e : Engine) (v : Word) : Engine :=
  { e with vals := e.vals ++ [v] }

/-- A read whose value the operation keeps (R290, R350). -/
theorem drive_readValue (s : State) (e : Engine) (q q' : List Event) (n : Nat) (ph : Phase) (r : Reg) (rest : List Micro)
    (hf : s.fault = none) (hp : ph ≠ .idle) (ht : EngineTurn q q') :
    drive (n + 1) (s.at (e.withProgram (⟨ph, .readValue r⟩ :: rest)) q) =
      drive n (proceed rest ((regRead r s).2.at
        ((e.withValue (regRead r s).1).withProgram (⟨ph, .readValue r⟩ :: rest)) q')) := by
  rw [drive_turn s _ q q' n hf hp ht (waiting_other _ _ _ _ (by simp)), engStep_cons _ _ _ _ _ hf]
  simp only [actStep, regRead_at]
  rfl

/-- An operation that ends with the value it has read (R290). -/
theorem proceed_nil_value (s : State) (e : Engine) (q : List Event) (h : e.ending = .value) :
    proceed [] (s.at e q) = s.at (Engine.idle (some (resultOf .ok (e.vals.getD 0 0) []))) q := by
  simp only [proceed, endOperation, at_eng, h]
  rfl

/-! ## The completion poll (R178) -/

/-- Bit 0 of INTR is the stored one: the computed bits are 5 and 6 (R27). -/
theorem done_bit_clear (s : State) (h : s.regs.intr.getLsbD 0 = false) : PollCond.holds (.bits 1) (intrRead s) = false := by
  have hrx (b : Bool) : (if b then (0x20 : Word) else 0).getLsbD 0 = false := by cases b <;> rfl
  have htx (b : Bool) : (if b then (0x40 : Word) else 0).getLsbD 0 = false := by cases b <;> rfl
  have hbit : (intrRead s).getLsbD 0 = false := by
    simp only [intrRead, BitVec.getLsbD_or, BitVec.getLsbD_and, h, hrx, htx]
    rfl
  rw [PollCond.holds, beq_eq_false_iff_ne]
  intro heq
  have := congrArg (fun w => w.getLsbD 0) heq
  simp only [BitVec.getLsbD_and, hbit] at this
  cases this

/-- Settles O20: the poll's read has one of three outcomes, and changes nothing. -/
theorem completionPollOnlyReads : Obligations.CompletionPollOnlyReads := by
  intro s ph m rest hf hcont
  have hstep : engStep s = pollStep .intr (.bits 1) (m :: rest) s := by
    simp [engStep, hcont, actStep, show s.fault = none from hf]
  have hpeek : regPeek .intr s = intrRead s := regPeek_shows hf rfl
  have hread : (regRead .intr s).2 = s := by rw [regRead_intr hf]
  have hcases := pollStep_cases .intr (.bits 1) (m :: rest) s
  rw [hpeek, hread, ← hstep] at hcases
  refine ⟨fun hbit hlimit => ?endless, fun hbit limit hlimit => ?limited, fun hbit => ?done⟩
  case endless =>
    obtain ⟨hholds, -⟩ | ⟨-, hreached, -⟩ | ⟨-, -, heq⟩ := hcases
    · exact absurd hholds (by rw [done_bit_clear s hbit]; decide)
    · simp [LimitReached, hlimit] at hreached
    · exact heq
  case limited =>
    obtain ⟨hholds, -⟩ | ⟨-, hreached, heq⟩ | ⟨-, hreached, heq⟩ := hcases
    · exact absurd hholds (by rw [done_bit_clear s hbit]; decide)
    · have hle : limit ≤ s.eng.polls + 1 := by simpa [LimitReached, hlimit] using hreached
      rw [heq, if_pos hle]
      rfl
    · have hle : ¬ limit ≤ s.eng.polls + 1 := by simpa [LimitReached, hlimit] using hreached
      rw [heq, if_neg hle]
  case done =>
    obtain ⟨-, heq⟩ | ⟨hholds, -⟩ | ⟨hholds, -⟩ := hcases
    · exact heq
    · exact absurd hholds (by rw [done_bit s hbit]; decide)
    · exact absurd hholds (by rw [done_bit s hbit]; decide)

/-! ## The phases of ISSUE (R171) -/

theorem programWrites_phase (p : Params) (k : Kind) (addr : Option Word) (size : BitVec 16) :
    ∀ m ∈ programWrites p k addr size, m.phase = .programSequence := by
  intro m hm
  simp only [programWrites, fifoSetup, List.mem_append, List.mem_cons, List.not_mem_nil, or_false] at hm
  obtain (hm | rfl | rfl) | rfl | rfl := hm
  · exact build_phase m hm
  all_goals rfl

/-- A command with data has a data phase, one without has none (R180). -/
theorem dataPhase_eq_nil {p : Params} {k : Kind} {c : LogicalCommand} (hc : commandOf p k = some c) (size : Nat)
    (data : List Byte) : dataPhase p k size data = [] ↔ size = 0 := by
  unfold dataPhase
  by_cases hsize : size = 0
  · simp [hsize]
  · cases hd : c.dir with
    | read => by_cases hle : size ≤ watermarkBytes p <;> simp [hsize, hc, hd, rxDrain, hle, shortDrain, longDrain]
    | write => simp [hsize, hc, hd, txFill]

theorem plain_writes {m : Micro} (h : m.plain = true) : ∃ r v, m.act = .write r v ∨ ∃ mask, m.act = .field r mask v := by
  obtain ⟨ph, a⟩ := m
  cases a <;> simp [Micro.plain] at h ⊢

/-- Settles O12: ISSUE is twenty plain writes, the trigger, the poll, the clear and the data phase. -/
theorem issuePhases : Obligations.IssuePhases := by
  intro p k c addr size data hc
  have hlen := programWrites_length addr size hc
  have hsplit := issue_eq p k addr size data
  have hdata := dataPhase_eq_nil hc size.toNat data
  have hzero : size = 0 ↔ size.toNat = 0 := BitVec.toNat_inj.symm
  refine ⟨(dataPhase p k size.toNat data).length, ?phases, ?none, ?some, ?writes, ?trigger, ?poll, ?clear⟩
  case phases =>
    have hprogram : (programWrites p k addr size).map Micro.phase = List.replicate 20 .programSequence :=
      List.eq_replicate_iff.mpr ⟨by simp [hlen], fun ph hph => by
        obtain ⟨m, hm, rfl⟩ := List.mem_map.mp hph
        exact programWrites_phase p k addr size m hm⟩
    have hphase : (dataPhase p k size.toNat data).map Micro.phase =
        List.replicate (dataPhase p k size.toNat data).length .drainOrFill :=
      List.eq_replicate_iff.mpr ⟨by simp, fun ph hph => by
        obtain ⟨m, hm, rfl⟩ := List.mem_map.mp hph
        exact dataPhase_phase p k size.toNat data m hm⟩
    rw [hsplit, List.map_append, List.map_cons, List.map_cons, List.map_cons, hprogram, hphase]
    simp
  case none => exact fun h => List.length_eq_zero_iff.mpr (hdata.mpr (hzero.mp h))
  case some => exact fun h => List.length_pos_iff.mpr fun hnil => h (hzero.mpr (hdata.mp hnil))
  case writes =>
    intro m hm
    rw [hsplit, List.take_append, hlen, List.take_of_length_le (by omega)] at hm
    obtain hm | hm := List.mem_append.mp hm
    · exact plain_writes (List.all_eq_true.mp (programWrites_plain p k addr size) m hm)
    · obtain rfl : m = ⟨.triggered, .write .ipcmd 1⟩ := by simpa using hm
      exact ⟨_, _, .inl rfl⟩
  all_goals
    rw [hsplit, List.getElem?_append_right (by omega), hlen]
    rfl

/-! ## LUTB (R150 to R158) -/

/-- An operation both tags allow that starts a configuration. -/
theorem exec_lutb {s : State} {k : Kind} {c : LogicalCommand} (hready : s.Ready) (hc : commandOf s.params k = some c) :
    exec (.lutb (BitVec.ofNat 5 (kindCode k).val)) s = .next (run (configureOperation
      (.lutb (BitVec.ofNat 5 (kindCode k).val)) (build s.params .configuring k) .done s)) := by
  have hgate : gate (.lutb (BitVec.ofNat 5 (kindCode k).val)) s = none := by
    have hmode : modeAllows (.lutb (BitVec.ofNat 5 (kindCode k).val)) s.params = true := modeAllows_of_not_ramOnly rfl rfl _
    have hoperands : operandsOk (.lutb (BitVec.ofNat 5 (kindCode k).val)) s.params = true := decide_eq_true (kindCode_le k)
    have hkind : kindOk (.lutb (BitVec.ofNat 5 (kindCode k).val)) s.params = true := by
      simp only [kindOk, kindOfCode_code, Option.bind_some, hc, Option.isSome_some]
    simp [gate, hmode, hoperands, hkind, addressOk]
  simp only [exec, execLutb, accept_run hready hgate, kindOfCode_code]

/-- Settles O9: the sixteen writes of BUILD, then the end. -/
theorem lutbBuildsItsSlot : Obligations.LutbBuildsItsSlot := by
  intro s k c hready hsched hc
  have hlen := build_length (ph := .configuring) hc
  rw [exec_lutb hready hc, configureOperation]
  obtain ⟨n, hrun⟩ := run_eq_drive (s := begin (.lutb (BitVec.ofNat 5 (kindCode k).val)) none
    (build s.params .configuring k) .done s) (k := (build s.params .configuring k).length)
    (by rw [hlen]; exact Nat.le_trans (by omega) (le_budget _))
  rw [hrun, begin_at, hsched, drive_writes_done (build_plain (by decide)) (by intro hnil; simp [hnil] at hlen) s rfl rfl _ []
    n hready.1 (.alone _), applyAll_build hc]
  exact congrArg Host.Outcome.next (at_idle (s := s.built k c) hsched _)

theorem setSlot_setSlot (lut : Vector Word 120) (n : Fin 30) (w : SlotWords) :
    setSlot (setSlot lut n w) n w = setSlot lut n w := by
  ext i hi
  simp only [setSlot, Vector.getElem_set]
  grind

/-- A slot built twice is built once (R158). -/
theorem built_built (k : Kind) (c : LogicalCommand) (r : Result) (s : State) :
    ((s.built k c).answered r).built k c = (s.built k c).answered r := by
  have hmask : (s.regs.flshcr2.map (· &&& 0x7FFFFFFF)).map (· &&& 0x7FFFFFFF) = s.regs.flshcr2.map (· &&& (0x7FFFFFFF : Word)) := by
    ext i hi
    simp [BitVec.and_assoc]
  simp only [State.built, State.answered, setSlot_setSlot, hmask]

/-- Settles O10, from what BUILD leaves. -/
theorem lutbOverwritesOneSlot : Obligations.LutbOverwritesOneSlot := by
  intro s k c hready hsched hc
  have other (n : Fin 30) (hn : n ≠ slotOfKind s.params k) :
      slotOf (setSlot s.regs.lut (slotOfKind s.params k) (image c)) n = slotOf s.regs.lut n :=
    slotOf_setSlot_other _ _ hn.symm
  refine ⟨_, lutbBuildsItsSlot s k c hready hsched hc, slotOf_setSlot_same _ _ _, other,
    fun hinj k' hk => other _ fun heq => hk (hinj _ _ heq), ?_⟩
  rw [lutbBuildsItsSlot ((s.built k c).answered (resultOf .ok 0 [])) k c ⟨hready.1, rfl⟩ hsched hc, built_built]
  rfl

/-! ## REGRD and REGWR (R290, R291) -/

theorem exec_regrd {s : State} {off : Word} {r : Reg} (hready : s.Ready) (hr : decodeReg off = some r) :
    exec (.regrd off) s =
      .next (run (configureOperation (.regrd off) [⟨.configuring, .readValue r⟩] .value s)) := by
  have hgate : gate (.regrd off) s = none := by
    simp [gate, modeAllows_of_not_ramOnly (i := .regrd off) rfl rfl s.params, operandsOk, kindOk, addressOk, hr]
  simp only [exec, execRegrd, accept_run hready hgate, hr]

theorem exec_regwr {s : State} {off v : Word} {r : Reg} (hready : s.Ready) (hr : decodeReg off = some r) :
    exec (.regwr off v) s =
      .next (run (configureOperation (.regwr off v) [⟨.configuring, .write r v⟩] .done s)) := by
  have hgate : gate (.regwr off v) s = none := by
    simp [gate, modeAllows_of_not_ramOnly (i := .regwr off v) rfl rfl s.params, operandsOk, kindOk, addressOk, hr]
  simp only [exec, execRegwr, accept_run hready hgate, hr]

/-- REGRD reads once and ends with the value. -/
theorem exec_regrd_value {s : State} {off : Word} {r : Reg} (hready : s.Ready) (hsched : s.sched = [])
    (hr : decodeReg off = some r) :
    exec (.regrd off) s = .next ((regRead r s).2.answered (resultOf .ok (regRead r s).1 [])) := by
  have hsched' : (regRead r s).2.sched = [] := by
    obtain ⟨d, hd⟩ := regRead_frame r s
    rw [hd, hsched]
  rw [exec_regrd hready hr, configureOperation]
  obtain ⟨n, hrun⟩ := run_eq_drive (s := begin (.regrd off) none [⟨.configuring, .readValue r⟩] .value s) (k := 1)
    (Nat.le_trans (by omega) (le_budget _))
  rw [hrun, begin_at, hsched, drive_readValue s _ [] [] n _ r [] hready.1 (by decide) .alone, proceed_nil_value _ _ _ rfl,
    drive_idle, at_idle hsched']
  rfl

/-- Settles O39: the one read, with the value or a draw. -/
theorem regrdReadsTheRegister : Obligations.RegrdReadsTheRegister := by
  intro s off r hready hsched hr
  have hexec := exec_regrd_value hready hsched hr
  refine ⟨fun v hv => ?_, fun hnone => ⟨Config.freeWord s.draws, ?_⟩⟩
  · rw [hexec, regRead_shows hready.1 hv]
  · rw [hexec, regRead_shows_none hnone]

/-- A register write that sets no `FAULT` ends REGWR with `Ok`. -/
theorem exec_regwr_ok {s : State} {off v : Word} {r : Reg} (hready : s.Ready) (hsched : s.sched = [])
    (hr : decodeReg off = some r) (hf : (regWrite r v s).fault = none) :
    exec (.regwr off v) s = .next ((regWrite r v s).answered (resultOf .ok 0 [])) := by
  rw [exec_regwr hready hr, configureOperation]
  obtain ⟨n, hrun⟩ := run_eq_drive (s := begin (.regwr off v) none [⟨.configuring, .write r v⟩] .done s) (k := 1)
    (Nat.le_trans (by omega) (le_budget _))
  rw [hrun, begin_at, hsched, drive_turn s _ [] [] n hready.1 (by simp) .alone (waiting_other _ _ _ _ (by simp)),
    engStep_cons _ _ _ _ _ hready.1, actStep_write _ _ _ _ _ _ hf, proceed_nil_done _ _ _ rfl, drive_idle]
  exact congrArg Host.Outcome.next (at_idle ((regWrite_sched r v s).trans hsched) _)

/-- Only a trigger with a command in flight sets `FAULT` (R37). -/
theorem regWrite_fault_none {s : State} {r : Reg} {v : Word} (hf : s.fault = none)
    (h : ¬ (r = .ipcmd ∧ v.getLsbD 0 = true ∧ s.inflight ≠ none)) : (regWrite r v s).fault = none := by
  by_cases hr : r = .ipcmd
  · subst hr
    cases hv : v.getLsbD 0 with
    | false => rw [regWrite, if_neg (by rw [hv]; decide), hf]
    | true =>
      have hfree : s.inflight = none := Decidable.not_not.mp fun hbusy => h ⟨rfl, hv, hbusy⟩
      obtain ⟨w, l, d, heq, -⟩ := regWrite_trigger hv hfree
      rw [heq, hf]
  · rw [(regWrite_quiet hr v s).1, hf]

/-- The overlapping trigger of a register write stops the engine where it stands (R37, R366). -/
theorem drive_overlap (s : State) (e : Engine) (q q' : List Event) (n : Nat) (ph : Phase) (rest : List Micro)
    (hf : s.fault = none) (hp : ph ≠ .idle) (ht : EngineTurn q q') {v : Word} (hv : v.getLsbD 0 = true)
    (hbusy : s.inflight ≠ none) :
    drive (n + 1) (s.at (e.withProgram (⟨ph, .write .ipcmd v⟩ :: rest)) q) =
      (overlap s).at (e.withProgram (⟨ph, .write .ipcmd v⟩ :: rest)) q' := by
  have hwrite : regWrite .ipcmd v s = overlap s := by
    obtain ⟨-, htrigger⟩ | ⟨hfree, -⟩ := trigger_cases s
    · exact (if_pos hv).trans htrigger
    · exact absurd hfree hbusy
  rw [drive_turn s _ q q' n hf hp ht (waiting_other _ _ _ _ (by simp)), engStep_cons _ _ _ _ _ hf]
  simp only [actStep, regWrite_at, hwrite]
  exact drive_settled (settled_of_fault (by simp)) n

/-- Settles O40, by whether the write is a trigger that overlaps. -/
theorem regwrWritesTheRegister : Obligations.RegwrWritesTheRegister := by
  intro s off v r hready hsched hr
  refine ⟨fun h => exec_regwr_ok hready hsched hr (regWrite_fault_none hready.1 h), fun hipcmd hv hbusy => ?_⟩
  subst hipcmd
  rw [exec_regwr hready hr, configureOperation]
  obtain ⟨n, hrun⟩ := run_eq_drive (s := begin (.regwr off v) none [⟨.configuring, .write .ipcmd v⟩] .done s) (k := 1)
    (Nat.le_trans (by omega) (le_budget _))
  rw [hrun, begin_at, hsched, drive_overlap s _ [] [] n _ [] hready.1 (by decide) .alone hv hbusy]
  refine ⟨(s.eng.opened (.regwr off v) none .done).withProgram [⟨.configuring, .write .ipcmd v⟩], rfl, ?_⟩
  rw [← hsched]
  rfl

/-! ## ERRCLS (R350, R367) -/

/-- The error bits of INTR are stored ones (R27). -/
theorem getLsbD_intrRead_errPos (b : ErrBit) (s : State) : (intrRead s).getLsbD (errPos b) = s.regs.intr.getLsbD (errPos b) := by
  have hrx : ∀ (b : ErrBit) (x : Bool), (if x then (0x20 : Word) else 0).getLsbD (errPos b) = false := by
    intro b x; cases b <;> cases x <;> rfl
  have htx : ∀ (b : ErrBit) (x : Bool), (if x then (0x40 : Word) else 0).getLsbD (errPos b) = false := by
    intro b x; cases b <;> cases x <;> rfl
  have hsticky : intrSticky.getLsbD (errPos b) = true := by cases b <;> rfl
  simp only [intrRead, BitVec.getLsbD_or, BitVec.getLsbD_and, hrx, htx, hsticky, Bool.and_true, Bool.or_false]

theorem lowestError_eq_none {s : State} (h : ∀ b, s.regs.intr.getLsbD (errPos b) = false) :
    lowestError (intrRead s) = none :=
  List.find?_eq_none.mpr fun b _ => by simp [getLsbD_intrRead_errPos, h b]

/-- The bits are looked for in the order of their positions. -/
theorem lowestError_eq_some {s : State} {b : ErrBit} (h : s.regs.intr.getLsbD (errPos b) = true)
    (hlow : ∀ b', errPos b' < errPos b → s.regs.intr.getLsbD (errPos b') = false) :
    lowestError (intrRead s) = some b := by
  have hlow' (b' : ErrBit) (hlt : errPos b' < errPos b) : (intrRead s).getLsbD (errPos b') = false :=
    (getLsbD_intrRead_errPos b' s).trans (hlow b' hlt)
  have hb : (intrRead s).getLsbD (errPos b) = true := (getLsbD_intrRead_errPos b s).trans h
  have sorted : errBits.Pairwise fun b b' => errPos b < errPos b' := by decide
  obtain ⟨pre, post, hsplit⟩ := List.append_of_mem (show b ∈ errBits by cases b <;> decide)
  rw [hsplit, List.pairwise_append] at sorted
  rw [lowestError, hsplit]
  refine List.find?_eq_some_iff_append.mpr ⟨hb, pre, post, rfl, fun b' hb' => ?_⟩
  simp [hlow' b' (sorted.2.2 b' hb' b (by simp))]

/-- The engine once ERRCLS has read its three registers. -/
def classifying (s : State) : Engine :=
  (((s.eng.opened .errcls none .classify).withValue (intrRead s)).withValue s.regs.sts0).withValue s.regs.sts1

theorem exec_errcls {s : State} (hready : s.Ready) :
    exec .errcls s = .next (run (configureOperation .errcls errorReads .classify s)) :=
  accept_run hready (by simp [gate, modeAllows_of_not_ramOnly (i := .errcls) rfl rfl s.params, operandsOk, kindOk, addressOk])

/-- ERRCLS reads INTR, STS0 and STS1 and then looks for the lowest error bit. -/
theorem exec_errcls_reads {s : State} (hready : s.Ready) (hsched : s.sched = []) :
    ∃ n, exec .errcls s = .next (drive (n + 1) (classifyEnd (s.at ((classifying s).withProgram
      [⟨.configuring, .readValue .sts1⟩]) []))) := by
  rw [exec_errcls hready, configureOperation]
  obtain ⟨n, hrun⟩ := run_eq_drive (s := begin .errcls none errorReads .classify s) (k := 4)
    (Nat.le_trans (by omega) (le_budget _))
  refine ⟨n, ?_⟩
  rw [hrun, begin_at, hsched, errorReads, drive_readValue s _ [] [] (n + 3) _ _ _ hready.1 (by decide) .alone,
    regRead_intr hready.1, proceed_cons, withProgram_withProgram,
    drive_readValue s _ [] [] (n + 2) _ _ _ hready.1 (by decide) .alone, regRead_shows hready.1 rfl, proceed_cons,
    withProgram_withProgram, drive_readValue s _ [] [] (n + 1) _ _ _ hready.1 (by decide) .alone,
    regRead_shows hready.1 rfl]
  rfl

/-- Settles O43: the reads, and with an error bit pending the one write that clears it. -/
theorem errclsReportsTheLowestBit : Obligations.ErrclsReportsTheLowestBit := by
  intro s hready hsched
  obtain ⟨n, hexec⟩ := exec_errcls_reads hready hsched
  refine ⟨fun hnone => ?quiet, fun b hb hlow => ?pending⟩
  case quiet =>
    have hfound : errorFound (s.at ((classifying s).withProgram [⟨.configuring, .readValue .sts1⟩]) []) = none :=
      lowestError_eq_none hnone
    rw [hexec, classifyEnd, hfound]
    refine congrArg Host.Outcome.next ((drive_settled (settled_of_idle rfl) _).trans ?_)
    exact at_idle hsched _
  case pending =>
    have hfound : errorFound (s.at ((classifying s).withProgram [⟨.configuring, .readValue .sts1⟩]) []) = some b :=
      lowestError_eq_some hb hlow
    have hwrite : regWrite .intr (errMask b) s = { s with regs.intr := s.regs.intr &&& ~~~errMask b } :=
      regWrite_intr_none s (by cases b <;> rfl) (by cases b <;> rfl)
    have hclear : classifyEnd (s.at ((classifying s).withProgram [⟨.configuring, .readValue .sts1⟩]) []) =
        s.at (({ classifying s with ending := .classified } : Engine).withProgram
          [⟨.configuring, .write .intr (errMask b)⟩]) [] := by
      rw [classifyEnd, hfound]
      rfl
    rw [hexec, hclear, drive_write s _ [] [] n _ _ _ _ hready.1 (by decide) .alone (by simp), hwrite]
    have hclassified : ∀ t : State, proceed [] (t.at (({ classifying s with ending := .classified } : Engine).withProgram
        [⟨.configuring, .write .intr (errMask b)⟩]) []) =
        t.at (Engine.idle (some (classify b s.regs.sts0 s.regs.sts1))) [] := by
      intro t
      have hagain : errorFound (t.at (({ classifying s with ending := .classified } : Engine).withProgram
        [⟨.configuring, .write .intr (errMask b)⟩]) []) = some b := lowestError_eq_some hb hlow
      simp only [proceed, endOperation, at_eng, withProgram_ending, classifiedEnd, hagain]
      rfl
    rw [hclassified, drive_idle]
    exact congrArg Host.Outcome.next (at_idle (s := { s with regs.intr := s.regs.intr &&& ~~~errMask b }) hsched _)

end Sys2Proof.Machine

/-!
PROOFS of O13, O15, O17, O18 and O19. An IP command operation as one of the operations that issue (R170, R183 to R200): up
to its trigger with no other agent moving, its waits, and what it does once BACKEND has answered.
-/

namespace Sys2Proof.Machine

/-! ## The operations that issue a command -/

/-- How an operation that issues goes on after its command: ERASE with the status reads (R190), the others not at all. -/
def endingOf : Instr → Ending
  | .erase _ => .eraseStatus
  | _ => .done

/-- An operation that issues and passes the checks runs ISSUE with its own operands (R184). -/
theorem exec_issued {s : State} {i : Instr} {k : Kind} {addr : Option Word} {n : BitVec 16} {data : List Byte}
    (h : issued s.params i = some (k, addr, n, data)) (hready : s.Ready) (hgate : gate i s = none) :
    exec i s = .next (run (issueOperation i k addr n data (endingOf i) s)) := by
  cases i with
  | ipx kind a size d =>
    obtain ⟨k', hk, hrest⟩ := Option.map_eq_some_iff.mp h
    cases hrest
    simp only [exec, execIpx, accept_run hready hgate, hk, endingOf]
  | wren | rdsr | rdid | erase | rsten | rst | rdcfg1 | rdcfg2 | rdcfg3 | wrcfg1 | wrcfg2 | wrcfg3 | pwrup | pwrdn =>
    cases h
    exact accept_run hready hgate
  | _ => cases h

/-- The engine that ISSUE starts with. -/
def issuing (s : State) (i : Instr) (addr : Option Word) (n : BitVec 16) (data : List Byte) : Engine :=
  s.eng.opened i (some (newSession s.params addr n data)) (endingOf i)

theorem issueOperation_at (i : Instr) (k : Kind) (addr : Option Word) (n : BitVec 16) (data : List Byte) (s : State) :
    issueOperation i k addr n data (endingOf i) s =
      s.at ((issuing s i addr n data).withProgram (issue s.params k addr n data)) s.sched := rfl

/-- The run of an operation that issues, with any number of turns its budget has. -/
theorem exec_issued_drive {s : State} {i : Instr} {k : Kind} {addr : Option Word} {n : BitVec 16} {data : List Byte}
    (h : issued s.params i = some (k, addr, n, data)) (hready : s.Ready) (hgate : gate i s = none) {j : Nat}
    (hj : j ≤ budget s) :
    ∃ m, exec i s = .next (drive (m + j) (s.at ((issuing s i addr n data).withProgram (issue s.params k addr n data))
      s.sched)) := by
  obtain ⟨m, hrun⟩ := run_eq_drive (s := issueOperation i k addr n data (endingOf i) s) (k := j) hj
  exact ⟨m, by rw [exec_issued h hready hgate, hrun, issueOperation_at]⟩

/-! ## Up to the trigger (R173 to R177) -/

/-- What lies behind the trigger. -/
def afterTrigger (p : Params) (k : Kind) (n : BitVec 16) (data : List Byte) : List Micro :=
  ⟨.pollingCompletion, .poll .intr (.bits 1)⟩ :: ⟨.pollingCompletion, .write .intr 1⟩ :: dataPhase p k n.toNat data

/-- The twenty writes of ProgramSequence, with no other agent moving. -/
theorem drive_program {k : Kind} {c : LogicalCommand} {s : State} (addr : Option Word) (n : BitVec 16) (data : List Byte)
    (e : Engine) (m : Nat) (hf : s.fault = none) (hc : commandOf s.params k = some c) :
    drive (m + 20) (s.at (e.withProgram (issue s.params k addr n data)) []) =
      drive m ((s.programmed k c addr n).at
        (e.withProgram (⟨.triggered, .write .ipcmd 1⟩ :: afterTrigger s.params k n data)) []) := by
  have hdrive := drive_writes (programWrites_plain s.params k addr n) s e [] [] ⟨.triggered, .write .ipcmd 1⟩
    (afterTrigger s.params k n data) m hf (.alone _)
  rw [programWrites_length addr n hc, applyAll_programWrites addr n hc] at hdrive
  rw [issue_eq]
  exact hdrive

/-- The trigger with nothing in flight. -/
theorem drive_trigger {k : Kind} {c : LogicalCommand} {s : State} (addr : Option Word) (n : BitVec 16) (data : List Byte)
    (e : Engine) (m : Nat) (hf : s.fault = none) (hi : s.inflight = none) (hc : commandOf s.params k = some c) :
    drive (m + 21) (s.at (e.withProgram (issue s.params k addr n data)) []) =
      drive m ((s.triggered k c addr n).at (e.withProgram (afterTrigger s.params k n data)) []) := by
  have htrigger : regWrite .ipcmd 1 (s.programmed k c addr n) = s.triggered k c addr n := trigger_programmed hf hi
  rw [show m + 21 = (m + 1) + 20 by omega, drive_program addr n data e (m + 1) hf hc,
    drive_turn (s.programmed k c addr n) _ [] [] m hf (by simp) .alone (waiting_other _ _ _ _ (by simp)),
    engStep_cons _ _ _ _ _ (by exact hf), actStep_write _ _ _ _ _ _ (by rw [htrigger]; exact hf), htrigger]
  rfl

/-! ## Polls that do not end (R362) -/

/-- Without a limit a poll whose condition fails waits. -/
theorem settled_wait (s : State) (e : Engine) (ph : Phase) {r : Reg} {c : PollCond} {v : Word} (rest : List Micro)
    (hf : s.fault = none) (hl : s.params.pollLimit = none) (hr : regShows r s = some v) (hc : c.holds v = false) :
    settled (s.at (e.withProgram (⟨ph, .poll r c⟩ :: rest)) []) = true := by
  have hpeek : regPeek r (s.at (e.withProgram (⟨ph, .poll r c⟩ :: rest)) []) = v :=
    regPeek_shows hf (by rw [← hr]; cases r <;> rfl)
  simp [settled, waiting, hpeek, hc, hl]

/-- A machine whose operation waits does nothing in its next step. -/
theorem step_settled {s : State} (hf : s.fault = none) (hp : s.eng.phase ≠ .idle) (hq : s.sched = [])
    (h : settled s = true) : step s = .next s := by
  rw [step_moveOn (by simp [hq]) (by simp [hq]), moveOn_busy hf hp, run, drive_settled h]

/-- The engine in the middle of a poll. -/
def Engine.polled (e : Engine) (m : Nat) : Engine :=
  { e with polls := m }

/-- One read of a poll with a limit whose condition fails: `Timeout` where the limit is reached, else the count. -/
theorem drive_failedRead (s : State) (e : Engine) (ph : Phase) {r : Reg} {c : PollCond} {v : Word} (rest : List Micro)
    {limit : Nat} (n m : Nat) (hf : s.fault = none) (hp : ph ≠ .idle) (hl : s.params.pollLimit = some limit)
    (hr : regShows r s = some v) (hc : c.holds v = false) :
    drive (n + 1) (s.at ((e.withProgram (⟨ph, .poll r c⟩ :: rest)).polled m) []) =
      if limit ≤ m + 1 then s.at (Engine.idle (some (resultOf .timeout (BitVec.ofNat 32 (m + 1)) []))) []
      else drive n (s.at ((e.withProgram (⟨ph, .poll r c⟩ :: rest)).polled (m + 1)) []) := by
  have hread : regRead r (s.at ((e.withProgram (⟨ph, .poll r c⟩ :: rest)).polled m) []) = (v, _) :=
    regRead_shows hf (by rw [← hr]; cases r <;> rfl)
  have hpeek : regPeek r (s.at ((e.withProgram (⟨ph, .poll r c⟩ :: rest)).polled m) []) = v := congrArg Prod.fst hread
  have hact : engStep (s.at ((e.withProgram (⟨ph, .poll r c⟩ :: rest)).polled m) []) =
      pollStep r c rest (s.at ((e.withProgram (⟨ph, .poll r c⟩ :: rest)).polled m) []) := by
    simp [engStep, hf, Engine.polled, actStep]
  have hstep := pollStep_cases r c rest (s.at ((e.withProgram (⟨ph, .poll r c⟩ :: rest)).polled m) [])
  rw [hpeek, hread, ← hact] at hstep
  rw [drive_alone s _ n hf hp (by simp [waiting, hl, Engine.polled])]
  obtain ⟨hholds, -⟩ | ⟨-, hreached, heq⟩ | ⟨-, hreached, heq⟩ := hstep
  · rw [hc] at hholds
    cases hholds
  · have hle : limit ≤ m + 1 := by simpa [LimitReached, hl, Engine.polled] using hreached
    rw [heq, if_pos hle]
    exact drive_settled (settled_of_idle rfl) n
  · have hle : ¬ limit ≤ m + 1 := by simpa [LimitReached, hl, Engine.polled] using hreached
    rw [heq, if_neg hle]
    rfl

/-- With a limit a poll whose condition fails ends with `Timeout` and the number of its reads; it reads once at least. -/
theorem drive_timeout (s : State) (e : Engine) (ph : Phase) {r : Reg} {c : PollCond} {v : Word} (rest : List Micro)
    {limit : Nat} (n : Nat) (hf : s.fault = none) (hp : ph ≠ .idle) (hl : s.params.pollLimit = some limit)
    (hr : regShows r s = some v) (hc : c.holds v = false) :
    drive (n + max limit 1) (s.at (e.withProgram (⟨ph, .poll r c⟩ :: rest)) []) =
      s.at (Engine.idle (some (resultOf .timeout (BitVec.ofNat 32 (max limit 1)) []))) [] := by
  have hcount (j : Nat) : ∀ m, m + j + 1 = max limit 1 →
      drive (n + (j + 1)) (s.at ((e.withProgram (⟨ph, .poll r c⟩ :: rest)).polled m) []) =
        s.at (Engine.idle (some (resultOf .timeout (BitVec.ofNat 32 (max limit 1)) []))) [] := by
    induction j with
    | zero =>
      intro m hm
      rw [drive_failedRead s e ph rest (n + 0) m hf hp hl hr hc, if_pos (by omega), ← hm]
    | succ j ih =>
      intro m hm
      rw [← Nat.add_assoc, drive_failedRead s e ph rest (n + (j + 1)) m hf hp hl hr hc, if_neg (by omega)]
      exact ih (m + 1) (by omega)
  obtain ⟨j, hj⟩ : ∃ j, max limit 1 = j + 1 := ⟨max limit 1 - 1, by omega⟩
  have hrun := hcount j 0 (by omega)
  rwa [← hj] at hrun

/-! ## A command BACKEND does not answer -/

/-- With no other agent moving the operation comes to its completion poll, with the command in flight. -/
theorem exec_unanswered {s : State} {i : Instr} {k : Kind} {c : LogicalCommand} {addr : Option Word} {n : BitVec 16}
    {data : List Byte} (h : issued s.params i = some (k, addr, n, data)) (hready : s.Ready) (hgate : gate i s = none)
    (hc : commandOf s.params k = some c) (hi : s.inflight = none) (hsched : s.sched = []) {j : Nat}
    (hj : j + 21 ≤ budget s) :
    ∃ m, exec i s = .next (drive (m + j) ((s.triggered k c addr n).at
      ((issuing s i addr n data).withProgram (afterTrigger s.params k n data)) [])) := by
  obtain ⟨m, hexec⟩ := exec_issued_drive h hready hgate hj
  refine ⟨m, ?_⟩
  rw [hexec, hsched, ← Nat.add_assoc, drive_trigger addr n data _ (m + j) hready.1 hi hc]

/-- Settles O17: before the trigger there are writes only, and behind it the poll never sees its bit. -/
theorem unansweredCommandWaits : Obligations.UnansweredCommandWaits := by
  intro s i k c addr n data h hready hgate hc hi hsched hbit
  have hfuel := le_budget s
  have hclear : PollCond.holds (.bits 1) (intrRead (s.triggered k c addr n)) = false := done_bit_clear _ hbit
  refine ⟨fun hlimit => ?endless, fun limit hlimit => ?limited⟩
  case endless =>
    obtain ⟨m, hexec⟩ := exec_unanswered h hready hgate hc hi hsched (j := 0) (by omega)
    have hwait := settled_wait (r := .intr) (s.triggered k c addr n) (issuing s i addr n data) .pollingCompletion
      (⟨.pollingCompletion, .write .intr 1⟩ :: dataPhase s.params k n.toNat data) hready.1 hlimit rfl hclear
    have hat : (s.triggered k c addr n).at ((issuing s i addr n data).withProgram (afterTrigger s.params k n data)) [] =
        { s.triggered k c addr n with
          eng := (issuing s i addr n data).withProgram (afterTrigger s.params k n data) } := by
      rw [← hsched]
      rfl
    rw [drive_settled (by exact hwait), hat] at hexec
    refine ⟨(issuing s i addr n data).withProgram (afterTrigger s.params k n data), rfl, rfl, rfl, hexec, step_settled hready.1 (by simp [afterTrigger]) hsched ?_⟩
    rw [← hat]
    exact hwait
  case limited =>
    rw [hlimit, Option.getD_some] at hfuel
    obtain ⟨m, hexec⟩ := exec_unanswered h hready hgate hc hi hsched (j := max limit 1) (by omega)
    rw [hexec, afterTrigger, drive_timeout (s.triggered k c addr n) _ _ _ m hready.1 (by decide) hlimit rfl hclear]
    exact congrArg Host.Outcome.next (at_idle (s := s.triggered k c addr n) hsched _)

/-- The result of an operation with nothing left to do and no bytes collected. -/
theorem proceed_nil_empty (s : State) (e : Engine) (q : List Event) (h : e.ending = .done)
    (hx : ∀ x, e.session = some x → x.out = []) :
    proceed [] (s.at e q) = s.at (Engine.idle (some (resultOf .ok 0 []))) q := by
  rw [proceed_nil_done s e q h]
  cases hsession : e.session with
  | none => rfl
  | some x => simp [hx x hsession]

theorem endingOf_done {i : Instr} (h : ∀ a, i ≠ .erase a) : endingOf i = .done := by
  cases i with
  | erase a => exact absurd rfl (h a)
  | _ => rfl

/-- Settles O18: the poll's first read sees the stale bit, and the command stays in flight. -/
theorem staleDoneBitEndsThePoll : Obligations.StaleDoneBitEndsThePoll := by
  intro s i k c addr h herase hready hgate hc hi hsched hbit
  obtain ⟨m, hexec⟩ := exec_unanswered h hready hgate hc hi hsched (j := 2)
    (Nat.le_trans (by omega) (le_budget s))
  have hdata : dataPhase s.params k (0 : BitVec 16).toNat [] = [] := (dataPhase_eq_nil hc _ _).mpr rfl
  rw [hexec, afterTrigger, hdata, drive_done (s.triggered k c addr 0) _ [] [] [] m [] hready.1 .alone .alone hbit,
    proceed_nil_empty _ _ _ (endingOf_done herase) (by rintro x ⟨⟩; rfl), drive_idle]
  exact congrArg Host.Outcome.next (at_idle (s := { s.triggered k c addr 0 with regs.intr := s.regs.intr &&& ~~~1 }) hsched _)

/-- Settles O19: the writes of ProgramSequence, then the overlap. -/
theorem triggerWhileInFlightFaults : Obligations.TriggerWhileInFlightFaults := by
  intro s i k c addr n data h hready hgate hc hbusy hsched
  obtain ⟨m, hexec⟩ := exec_issued_drive h hready hgate (j := 21) (Nat.le_trans (by omega) (le_budget s))
  refine ⟨(issuing s i addr n data).withProgram (⟨.triggered, .write .ipcmd 1⟩ :: afterTrigger s.params k n data), rfl, rfl, ?_⟩
  rw [hexec, hsched, show m + 21 = (m + 1) + 20 by omega, drive_program addr n data _ (m + 1) hready.1 hc,
    drive_overlap (s.programmed k c addr n) _ [] [] m .triggered _ hready.1 (by decide) .alone (by decide) hbusy, ← hsched]
  rfl

/-! ## A command BACKEND answers -/

/-- An operation accepted that issues a command BACKEND can answer. -/
structure State.Issues (s : State) (i : Instr) (k : Kind) (c : LogicalCommand) (addr : Option Word) (n : BitVec 16)
    (data : List Byte) : Prop where
  can : s.CanIssue k c
  issued : issued s.params i = some (k, addr, n, data)
  gate : gate i s = none

theorem gate_none {i : Instr} {s : State} (hmode : modeAllows i s.params = true) (hoperands : operandsOk i s.params = true)
    (hkind : kindOk i s.params = true) (haddress : addressOk i s = true) : gate i s = none := by
  simp [gate, hmode, hoperands, hkind, haddress]

theorem kindDefined_of_some {p : Params} {k : Kind} {c : LogicalCommand} (hc : commandOf p k = some c) :
    kindDefined p k = true := by
  simp [kindDefined, hc]

theorem kindWithDir_of_some {p : Params} {k : Kind} {c : LogicalCommand} (hc : commandOf p k = some c) :
    kindWithDir p k c.dir = true := by
  simp [kindWithDir, hc]

/-- The named operations without data (R185, R191, R192, R199, R200). -/
theorem issues_plain {x : Instr × Kind} (hx : x ∈ ([(.wren, .writeEnable), (.rsten, .resetEnable), (.rst, .resetDevice),
    (.pwrup, .powerUp), (.pwrdn, .powerDown)] : List (Instr × Kind))) {s : State} {c : LogicalCommand}
    (hs : s.CanIssue x.2 c) : s.Issues x.1 x.2 c none 0 [] ∧ endingOf x.1 = .done := by
  have hkind := kindDefined_of_some hs.kind
  simp only [List.mem_cons, List.not_mem_nil, or_false] at hx
  rcases hx with rfl | rfl | rfl | rfl | rfl
  all_goals exact ⟨⟨hs, rfl, gate_none (modeAllows_of_ramBlocking rfl hs.mode) rfl hkind rfl⟩, rfl⟩

/-- The named reads (R188, R189, R193 to R195). -/
theorem issues_read {i : Instr} {k : Kind} {len : Params → BitVec 16} (hx : (i, k, len) ∈ readOperations) {s : State}
    {c : LogicalCommand} (hs : s.CanIssue k c) (hd : c.dir = .read) :
    s.Issues i k c none (len s.params) [] ∧ endingOf i = .done := by
  have hkind : kindWithDir s.params k .read = true := hd ▸ kindWithDir_of_some hs.kind
  simp only [readOperations, List.mem_cons, Prod.mk.injEq, List.not_mem_nil, or_false] at hx
  rcases hx with ⟨rfl, rfl, rfl⟩ | ⟨rfl, rfl, rfl⟩ | ⟨rfl, rfl, rfl⟩ | ⟨rfl, rfl, rfl⟩ | ⟨rfl, rfl, rfl⟩
  all_goals exact ⟨⟨hs, rfl, gate_none (modeAllows_of_ramBlocking rfl hs.mode) rfl hkind rfl⟩, rfl⟩

theorem issued_ipx (p : Params) (kind : BitVec 5) (addr : Option Word) (size : Word) (data : List Byte) :
    issued p (.ipx kind addr size data) =
      (kindOfCode kind).map fun k => (k, addr, BitVec.truncate 16 size, data) := rfl

/-- IPX of any kind but page-program, with data that suits the kind's direction (R170). -/
theorem issues_ipx {k : Kind} {addr : Option Word} {n : BitVec 16} {data : List Byte} (hk : k ≠ .pageProgram) {s : State}
    {c : LogicalCommand} (hs : s.CanIssue k c) (hdata : ipxDataOk c.dir (BitVec.zeroExtend 32 n) data = true) :
    s.Issues (.ipx (BitVec.ofNat 5 (kindCode k).val) addr (BitVec.zeroExtend 32 n) data) k c addr n data ∧
    endingOf (.ipx (BitVec.ofNat 5 (kindCode k).val) addr (BitVec.zeroExtend 32 n) data) = .done := by
  have hsize : (BitVec.zeroExtend 32 n).toNat ≤ 65535 := by
    have hlt := n.isLt
    rw [BitVec.toNat_setWidth_of_le (by decide)]
    omega
  have hoperands : operandsOk (.ipx (BitVec.ofNat 5 (kindCode k).val) addr (BitVec.zeroExtend 32 n) data) s.params = true := by
    simp only [operandsOk, decide_eq_true (kindCode_le k), decide_eq_true hsize, kindOfCode_code, Option.bind_some, hs.kind,
      hdata, Bool.and_self]
  have hkind : kindOk (.ipx (BitVec.ofNat 5 (kindCode k).val) addr (BitVec.zeroExtend 32 n) data) s.params = true := by
    simp only [kindOk, kindOfCode_code, Option.bind_some, hs.kind, Option.isSome_some]
  have htrunc : BitVec.truncate 16 (BitVec.zeroExtend 32 n) = n := by
    apply BitVec.eq_of_toNat_eq
    simp
  have hmode : modeAllows (.ipx (BitVec.ofNat 5 (kindCode k).val) addr (BitVec.zeroExtend 32 n) data) s.params = true :=
    modeAllows_of_ramBlocking (bulkWrite_ipx hk _ _ _) hs.mode
  have hissued : issued s.params (.ipx (BitVec.ofNat 5 (kindCode k).val) addr (BitVec.zeroExtend 32 n) data) =
      some (k, addr, n, data) := by
    rw [issued_ipx, kindOfCode_code, Option.map_some, htrunc]
  exact ⟨⟨hs, hissued, gate_none (s := s) hmode hoperands hkind rfl⟩, rfl⟩

/-- WRCFG1 to WRCFG3 of 1 to 4 bytes (R196 to R198). -/
theorem issues_write {i : Instr} {k : Kind} {data : List Byte} {s : State} {c : LogicalCommand} (hs : s.CanIssue k c)
    (hd : c.dir = .write) (h1 : 1 ≤ data.length) (h4 : data.length ≤ 4)
    (hi : (k = .writeCfg1 ∧ i = .wrcfg1 (BitVec.ofNat 32 data.length) data) ∨
      (k = .writeCfg2 ∧ i = .wrcfg2 (BitVec.ofNat 32 data.length) data) ∨
      (k = .writeCfg3 ∧ i = .wrcfg3 (BitVec.ofNat 32 data.length) data)) :
    s.Issues i k c none (BitVec.ofNat 16 data.length) data ∧ endingOf i = .done := by
  have hkind : kindWithDir s.params k .write = true := hd ▸ kindWithDir_of_some hs.kind
  have hlen : (decide ((BitVec.ofNat 32 data.length).toNat = data.length) && decide (1 ≤ data.length) &&
      decide (data.length ≤ 4)) = true := by
    rw [BitVec.toNat_ofNat, Nat.mod_eq_of_lt (by omega)]
    simp [h1, h4]
  rcases hi with ⟨rfl, rfl⟩ | ⟨rfl, rfl⟩ | ⟨rfl, rfl⟩
  all_goals exact ⟨⟨hs, rfl, gate_none (modeAllows_of_ramBlocking rfl hs.mode) hlen hkind rfl⟩, rfl⟩

/-- The state once BACKEND has answered and the done bit is cleared, before the data phase (R63, R65, R179). -/
def State.answeredBy (es : List Entry) (k : Kind) (c : LogicalCommand) (addr : Option Word) (n : BitVec 16) (s : State) : State :=
  { s.commanded k c addr n with rxq := es }

/-- A command BACKEND answers comes to its data phase. -/
theorem drive_answered {k : Kind} {c : LogicalCommand} {s : State} {es : List Entry} (addr : Option Word) (n : BitVec 16)
    (data : List Byte) (e : Engine) {q q' : List Event} (m : Nat) (hf : s.fault = none) (hi : s.inflight = none)
    (hm : moduleDisabled s = false) (hc : commandOf s.params k = some c) (ha : Answers c n es) (ht : EngineTurns 2 q q') :
    drive (m + es.length + 24) (s.at (e.withProgram (issue s.params k addr n data)) (answerTurns es ++ q)) =
      drive m (proceed (dataPhase s.params k n.toNat data) ((s.answeredBy es k c addr n).at
        (e.withProgram (⟨.pollingCompletion, .write .intr 1⟩ :: dataPhase s.params k n.toNat data)) q')) := by
  obtain ⟨q1, hpoll, hrest⟩ := ht.first
  obtain ⟨q2, hclear, hlast⟩ := hrest.first
  obtain rfl := hlast.zero
  rw [show m + es.length + 24 = m + 2 + es.length + 22 by omega, drive_issue addr n data e q (m + 2) hf hi hm hc ha,
    drive_done { s.programmed k c addr n with
      rxq := es, inflight := none, regs.intr := s.regs.intr ||| 1, regs.sts0 := 0xB } e q q1 q2 m _ hf hpoll hclear (by simp)]
  rfl

/-- So does an operation that issues one. -/
theorem exec_answered {s : State} {i : Instr} {k : Kind} {c : LogicalCommand} {addr : Option Word} {n : BitVec 16}
    {data : List Byte} {es : List Entry} (h : s.Issues i k c addr n data) (ha : Answers c n es)
    (hsched : s.sched = answerTurns es) {j : Nat} (hj : j ≤ 128) :
    ∃ m, exec i s = .next (drive (m + j) (proceed (dataPhase s.params k n.toNat data) ((s.answeredBy es k c addr n).at
      ((issuing s i addr n data).withProgram
        (⟨.pollingCompletion, .write .intr 1⟩ :: dataPhase s.params k n.toNat data)) []))) := by
  obtain ⟨hready, -, hc, hi, hm⟩ := h.can
  obtain ⟨m, hexec⟩ := exec_issued_drive h.issued hready h.gate (j := j + es.length + 24)
    (Nat.le_trans (by have := ha.fits; omega) (le_budget s))
  refine ⟨m, ?_⟩
  have hdrive := drive_answered addr n data (issuing s i addr n data) (m + j) hready.1 hi hm hc ha (.alone 2)
  rw [List.append_nil] at hdrive
  rw [hexec, hsched, ← hdrive, Nat.add_assoc m, Nat.add_assoc m]

/-! ## Commands without data (R177 to R184) -/

theorem answers_nothing (c : LogicalCommand) : Answers c 0 [] :=
  ⟨by simp, fun _ => rfl, fun _ => rfl⟩

theorem exec_withoutData {s : State} {i : Instr} {k : Kind} {c : LogicalCommand} {addr : Option Word}
    (h : s.Issues i k c addr 0 []) (hdone : endingOf i = .done) (hsched : s.sched = answerTurns []) :
    exec i s = .next (({ s.commanded k c addr 0 with sched := [] } : State).answered (resultOf .ok 0 [])) := by
  obtain ⟨m, hexec⟩ := exec_answered h (answers_nothing c) hsched (j := 0) (by omega)
  have hdata : dataPhase s.params k (0 : BitVec 16).toNat [] = [] := (dataPhase_eq_nil h.can.kind _ _).mpr rfl
  rw [hexec, hdata, proceed_nil_empty _ _ _ hdone (by rintro x ⟨⟩; rfl), drive_idle]
  rfl

/-- Settles O13: every operation without data is one of those that issue. -/
theorem commandWithoutDataCompletes : Obligations.CommandWithoutDataCompletes := by
  refine ⟨fun x hx s c hs hsched => ?plain, fun x hx s c hs hd hlen hsched => ?read, fun s k c addr hs hk hsched => ?ipx⟩
  case plain =>
    obtain ⟨hissues, hdone⟩ := issues_plain hx hs
    exact exec_withoutData hissues hdone hsched
  case read =>
    obtain ⟨hissues, hdone⟩ := issues_read (i := x.1) (k := x.2.1) (len := x.2.2) hx hs hd
    rw [hlen] at hissues
    exact exec_withoutData hissues hdone hsched
  case ipx =>
    have hdata : ipxDataOk c.dir (BitVec.zeroExtend 32 (0 : BitVec 16)) [] = true := by
      cases hd : c.dir <;> simp [ipxDataOk]
    obtain ⟨hissues, hdone⟩ := issues_ipx (addr := addr) (n := 0) hk hs hdata
    exact exec_withoutData hissues hdone hsched

/-! ## Writes (R224, R406) -/

/-- The watermark FIFO_SETUP leaves, in entries (R39, R40, R220). -/
theorem watermarkEntries_place (wm : Fin 16) : watermarkEntries (place wm.val 2) = wm.val + 1 := by
  rw [watermarkEntries, slice_place_same (len := 4) wm.isLt (by decide)]

/-- A poll for one bit sees that bit. -/
theorem holds_twoPow (v : Word) {k : Nat} (hk : k < 32) : PollCond.holds (.bits (BitVec.twoPow 32 k)) v = v.getLsbD k := by
  have hne : BitVec.twoPow 32 k ≠ 0#32 := by
    intro h
    have := congrArg (fun w => w.getLsbD k) h
    simp [hk] at this
  rw [PollCond.holds, BitVec.and_twoPow]
  cases v.getLsbD k <;> simp [hne.symm]

theorem dataPhase_write {p : Params} {k : Kind} {c : LogicalCommand} (hc : commandOf p k = some c) (hd : c.dir = .write)
    {size : Nat} (hsize : size ≠ 0) (data : List Byte) : dataPhase p k size data = txFill data := by
  simp only [dataPhase, hsize, ↓reduceIte, hc, hd]

/-- TX_FILL on a queue with room: the word staged, a watermark's worth of entries pushed (R224). -/
theorem drive_txFill {s : State} {e : Engine} (data : List Byte) (m : Nat) (hf : s.fault = none) (he : e.ending = .done)
    (hx : ∀ x, e.session = some x → x.out = []) (hwm : s.regs.iptxfcr = place s.params.wm.val 2) (hq : s.txq = []) :
    drive (m + 3) (s.at (e.withProgram (txFill data)) []) =
      (s.filled data).at (Engine.idle (some (resultOf .ok 0 []))) [] := by
  have hentries : watermarkEntries s.regs.iptxfcr = s.params.wm.val + 1 := by rw [hwm, watermarkEntries_place]
  have hroom : s.params.wm.val + 1 ≤ 16 - s.txq.length := by
    have := s.params.wm.isLt
    simp only [hq, List.length_nil]
    omega
  have hready : PollCond.holds (.bits 0x40) (intrRead s) = true :=
    (holds_twoPow (intrRead s) (k := 6) (by decide)).trans ((intrRead_bit6 s).trans (decide_eq_true (by rw [hentries]; exact hroom)))
  have hpush : regWrite .intr 0x40 (regWrite (.tfdr 0) (wordLe data) s) = s.filled data := by
    rw [regWrite_intr_push _ (by decide) (by decide)]
    obtain ⟨hfull, -⟩ | ⟨-, heq⟩ := txPush_spec { s with
      regs.tfdr := s.regs.tfdr.set 0 (wordLe data), regs.intr := s.regs.intr &&& ~~~0x40 }
    · have hfull' : 16 - s.txq.length < watermarkEntries s.regs.iptxfcr := hfull
      omega
    · refine Eq.trans heq ?_
      simp only [hentries, hq, List.nil_append, State.filled]
  rw [txFill, show m + 3 = m + 2 + 1 by omega, drive_poll s e [] [] (m + 2) _ _ _ _ _ hf (by decide) .alone rfl hready,
    proceed_cons, withProgram_withProgram, drive_write s e [] [] (m + 1) _ _ _ _ hf (by decide) .alone (by simp), proceed_cons,
    withProgram_withProgram, drive_write (regWrite (.tfdr 0) (wordLe data) s) e [] [] m _ _ _ _ hf (by decide) .alone (by simp), hpush,
    proceed_nil_empty (s.filled data) (e.withProgram [⟨.drainOrFill, .write .intr 0x40⟩]) [] he hx, drive_idle]

/-- A write that BACKEND completes fills TXQ behind the completion. -/
theorem exec_write {s : State} {i : Instr} {k : Kind} {c : LogicalCommand} {addr : Option Word} {data : List Byte}
    (h : s.Issues i k c addr (BitVec.ofNat 16 data.length) data) (hdone : endingOf i = .done) (hd : c.dir = .write)
    (h1 : 1 ≤ data.length) (h4 : data.length ≤ 4) (hsched : s.sched = answerTurns []) :
    exec i s = .next ((({ s.commanded k c addr (BitVec.ofNat 16 data.length) with sched := [] } : State).filled
      data).answered (resultOf .ok 0 [])) := by
  have ha : Answers c (BitVec.ofNat 16 data.length) [] := ⟨by simp, fun hr => by simp [hd] at hr, fun _ => rfl⟩
  have hsize : (BitVec.ofNat 16 data.length).toNat ≠ 0 := by
    rw [BitVec.toNat_ofNat, Nat.mod_eq_of_lt (by omega)]
    omega
  obtain ⟨m, hexec⟩ := exec_answered h ha hsched (j := 3) (by omega)
  rw [hexec, dataPhase_write h.can.kind hd hsize data]
  refine congrArg Host.Outcome.next ((drive_txFill
    (s := s.answeredBy [] k c addr (BitVec.ofNat 16 data.length)) (e := issuing s i addr (BitVec.ofNat 16 data.length) data) data m
    h.can.ready.1 hdone (by rintro x ⟨⟩; rfl) rfl rfl).trans ?_)
  rfl

/-- Settles O15: the named writes and IPX are writes that issue. -/
theorem writeFillsAfterCompletion : Obligations.WriteFillsAfterCompletion := by
  intro s i k c addr data hs hd h1 h4 hi hsched
  obtain ⟨haddr, hnamed⟩ | ⟨hk, hipx⟩ := hi
  · subst haddr
    obtain ⟨hissues, hdone⟩ := issues_write hs hd h1 h4 hnamed
    exact exec_write hissues hdone hd h1 h4 hsched
  · have hlen : (BitVec.ofNat 16 data.length).toNat = data.length := by
      rw [BitVec.toNat_ofNat, Nat.mod_eq_of_lt (by omega)]
    have hword : BitVec.ofNat 32 data.length = BitVec.zeroExtend 32 (BitVec.ofNat 16 data.length) := by
      apply BitVec.eq_of_toNat_eq
      rw [BitVec.toNat_setWidth_of_le (by decide), hlen, BitVec.toNat_ofNat, Nat.mod_eq_of_lt (by omega)]
    have hdata : ipxDataOk c.dir (BitVec.zeroExtend 32 (BitVec.ofNat 16 data.length)) data = true := by
      rw [hd, ipxDataOk, BitVec.toNat_setWidth_of_le (by decide), hlen]
      simp [h4]
    obtain ⟨hissues, hdone⟩ := issues_ipx (addr := addr) hk hs hdata
    rw [hipx, hword]
    exact exec_write hissues hdone hd h1 h4 hsched

end Sys2Proof.Machine

/-!
PROOFS of O14, O16 and O22. The drains of RXQ (R221 to R223): the short one at once, the long one iteration by iteration, to
its end or to an iteration it cannot finish; and ERASE with its status reads (R190).
-/

namespace Sys2Proof.Machine

/-! ## What a drain takes -/

/-- RXQ with its first `n` entries popped, by writes of the watermark bit (R214). -/
def State.popped (n : Nat) (s : State) : State :=
  { s with regs.intr := s.regs.intr &&& ~~~0x20, rxq := s.rxq.drop n, rdcntr := s.rdcntr + BitVec.ofNat 16 n }

/-- The session with some bytes collected. -/
def Session.collect (x : Session) (bytes : List Byte) : Session :=
  { x with out := x.out ++ bytes }

/-- The session with some bytes counted off (R223). -/
def Session.countOff (x : Session) (n : Int) : Session :=
  { x with remaining := x.remaining - n }

theorem regWrite_pop (s : State) :
    regWrite .intr 0x20 s = s.popped (min (watermarkEntries s.regs.iprxfcr) s.rxq.length) :=
  regWrite_intr_pop s (by decide) (by decide)

theorem popped_popped (n m : Nat) (s : State) : (s.popped n).popped m = s.popped (n + m) := by
  have hmask : s.regs.intr &&& ~~~0x20 &&& ~~~0x20 = s.regs.intr &&& ~~~(0x20 : Word) := by
    rw [BitVec.and_assoc, BitVec.and_self]
  simp only [State.popped, hmask, List.drop_drop, BitVec.ofNat_add, BitVec.add_assoc]

/-- A queue popped whole. -/
theorem popped_all {s : State} {n : Nat} (h : s.rxq.length = n) : s.popped n = s.drained n := by
  have hnil : s.rxq.drop n = [] := List.drop_eq_nil_of_le (by omega)
  simp only [State.popped, State.drained, hnil]

theorem queueBytes_length (q : List Entry) : (queueBytes q).length = 8 * q.length := by
  induction q with
  | nil => rfl
  | cons e q ih =>
    show (e.bytes ++ queueBytes q).length = 8 * (q.length + 1)
    rw [List.length_append, ih]
    simp only [Entry.bytes, List.length_cons, List.length_nil]
    omega

theorem queueBytes_append (q q' : List Entry) : queueBytes (q ++ q') = queueBytes q ++ queueBytes q' :=
  List.flatMap_append

theorem queueBytes_take (q : List Entry) (n : Nat) : (queueBytes q).take (8 * n) = queueBytes (q.take n) := by
  by_cases h : n ≤ q.length
  · have hlen : (queueBytes (q.take n)).length = 8 * n := by rw [queueBytes_length, List.length_take, Nat.min_eq_left h]
    conv_lhs => rw [← List.take_append_drop n q, queueBytes_append, ← hlen]
    exact List.take_left
  · rw [List.take_of_length_le (by rw [queueBytes_length]; omega), List.take_of_length_le (by omega : q.length ≤ n)]

/-- The reads of the window collect the queue's first words. -/
theorem drive_readWindow (n : Nat) (s : State) (e : Engine) (x : Session) (m : Nat) (last : Micro) (rest : List Micro)
    {q q' : List Event} (hf : s.fault = none) (h16 : s.rxq.length ≤ 16) (hn : n ≤ 2 * s.rxq.length)
    (ht : EngineTurns n q q') :
    drive (m + n) (s.at ((e.withSession x).withProgram (readWindow n ++ last :: rest)) q) =
      drive m (s.at ((e.withSession (x.collect ((queueBytes s.rxq).take (4 * n)))).withProgram (last :: rest)) q') := by
  have hreads := drive_reads n s e x m last rest hf h16 0 q q' ht (by omega)
  simp only [Nat.mul_zero, List.take_zero, List.append_nil, Nat.zero_add, ← List.range_eq_range'] at hreads
  exact hreads

/-! ## The short read (R222) -/

/-- The fill level as IPRXFSTS shows it (R46). -/
theorem holds_fill {s : State} {size : Nat} (h16 : s.rxq.length ≤ 16) (h : size ≤ 8 * s.rxq.length) :
    PollCond.holds (.fill size) (rxStatus s) = true := by
  have hfill : slice (rxStatus s) 0 8 = s.rxq.length := statusWord_fill s.rdcntr (by omega)
  rw [PollCond.holds, hfill]
  exact decide_eq_true h

/-- The short read comes to its end with the first `size` bytes of the queue collected. -/
theorem drive_shortDrain {s : State} {e : Engine} {x : Session} {size : Nat} {q q' : List Event} (m : Nat)
    (hf : s.fault = none) (h16 : s.rxq.length ≤ 16) (hsize : size ≤ 8 * s.rxq.length) (hout : x.out = [])
    (ht : EngineTurns (ceilDiv size 4 + 2) q q') :
    drive (m + (ceilDiv size 4 + 2)) (s.at ((e.withSession x).withProgram (shortDrain size)) q) =
      drive m (proceed [] ((s.popped (min (watermarkEntries s.regs.iprxfcr) s.rxq.length)).at
        ((e.withSession (x.collect ((queueBytes s.rxq).take size))).withProgram [⟨.drainOrFill, .popShort size⟩]) q')) := by
  obtain ⟨hlt, hle⟩ := ceilDiv_bounds size (b := 4) (by decide)
  have hsplit : EngineTurns (1 + (ceilDiv size 4 + 1)) q q' := by
    rwa [show 1 + (ceilDiv size 4 + 1) = ceilDiv size 4 + 2 by omega]
  obtain ⟨q1, hpoll, hq1⟩ : ∃ q1, EngineTurn q q1 ∧ EngineTurns (ceilDiv size 4 + 1) q1 q' := ht.first
  obtain ⟨q2, hreads, hq2⟩ : ∃ q2, EngineTurns (ceilDiv size 4) q1 q2 ∧ EngineTurn q2 q' := hq1.last
  have hwindow := drive_readWindow (ceilDiv size 4) s e x (m + 1) ⟨.drainOrFill, .popShort size⟩ [] hf h16
    (by omega) hreads
  have htake : ((queueBytes s.rxq).take (4 * ceilDiv size 4)).take size = (queueBytes s.rxq).take size := by
    rw [List.take_take, Nat.min_eq_left hle]
  rw [shortDrain, show m + (ceilDiv size 4 + 2) = m + 1 + ceilDiv size 4 + 1 by omega, List.cons_append,
    drive_poll s _ q q1 _ _ _ _ _ _ hf (by decide) hpoll rfl (holds_fill h16 hsize)]
  have hproceed : proceed (readWindow (ceilDiv size 4) ++ [⟨.drainOrFill, .popShort size⟩])
      (s.at ((e.withSession x).withProgram (⟨.drainOrFill, .poll .iprxfsts (.fill size)⟩ ::
        (readWindow (ceilDiv size 4) ++ [⟨.drainOrFill, .popShort size⟩]))) q1) =
      s.at ((e.withSession x).withProgram (readWindow (ceilDiv size 4) ++ [⟨.drainOrFill, .popShort size⟩])) q1 := by
    cases readWindow (ceilDiv size 4) <;> rfl
  rw [hproceed, hwindow, drive_turn s _ q2 q' m hf (by simp) hq2 (waiting_other _ _ _ _ (by simp)), engStep_cons _ _ _ _ _ hf]
  have hpop := actStep_popShort size [] s
    (({ e with cont := [⟨.drainOrFill, .popShort size⟩], phase := .drainOrFill, polls := 0 } : Engine))
    (x.collect ((queueBytes s.rxq).take (4 * ceilDiv size 4))) q'
  refine congrArg (drive m) (hpop.trans ?_)
  rw [regWrite_pop]
  simp only [Session.collect, hout, List.nil_append, htake]
  rfl

/-! ## The long read (R223) -/

theorem readWindow_longDrain (p : Params) :
    longDrain p = ⟨.drainOrFill, .poll .intr (.bits 0x20)⟩ :: readWindow (2 * (p.wm.val + 1)) ++ [⟨.drainOrFill, .popLong⟩] := by
  rw [longDrain, show watermarkBytes p / 4 = 2 * (p.wm.val + 1) by unfold watermarkBytes; omega]

theorem holds_rxWatermark (s : State) : PollCond.holds (.bits 0x20) (intrRead s) = rxWatermarkReached s :=
  (holds_twoPow (intrRead s) (k := 5) (by decide)).trans (intrRead_bit5 s)

/-- The end of an iteration with bytes left over: another one (R223). -/
theorem popLongStep_more {s : State} {e : Engine} {x : Session} {q : List Event} (h : 0 < x.remaining - x.wm) :
    popLongStep [] (s.at (e.withSession x) q) =
      (regWrite .intr 0x20 s).at ((e.withSession (x.countOff x.wm)).withProgram (longDrain s.params)) q := by
  have hpos : 0 < (x.countOff x.wm).remaining := h
  have hsession : (onSession (fun x => x.countOff x.wm) (regWrite .intr 0x20 (s.at (e.withSession x) q))).eng.session =
      some (x.countOff x.wm) := by
    rw [onSession_eng, regWrite_eng]
    rfl
  unfold popLongStep
  simp only [show (fun x : Session => { x with remaining := x.remaining - x.wm }) = fun x => x.countOff x.wm from rfl,
    hsession, hpos, ↓reduceIte, List.append_nil]
  rw [regWrite_at]
  rfl

/-- The end of the last iteration: the first `count` bytes are kept (R223). -/
theorem popLongStep_last {s : State} {e : Engine} {x : Session} {q : List Event} (h : ¬ 0 < x.remaining - x.wm) :
    popLongStep [] (s.at (e.withSession x) q) = proceed [] ((regWrite .intr 0x20 s).at
      (e.withSession { x.countOff x.wm with out := x.out.take x.count.toNat }) q) := by
  have hpos : ¬ 0 < (x.countOff x.wm).remaining := h
  have hsession : (onSession (fun x => x.countOff x.wm) (regWrite .intr 0x20 (s.at (e.withSession x) q))).eng.session =
      some (x.countOff x.wm) := by
    rw [onSession_eng, regWrite_eng]
    rfl
  unfold popLongStep
  simp only [show (fun x : Session => { x with remaining := x.remaining - x.wm }) = fun x => x.countOff x.wm from rfl,
    hsession, hpos, ↓reduceIte]
  rw [regWrite_at]
  rfl

section LongDrain
variable {e : Engine} {m : Nat}

/-- One iteration, with a watermark's worth of entries there, up to its end. -/
theorem drive_longIteration {s : State} (x : Session) (m : Nat) (hf : s.fault = none) (h16 : s.rxq.length ≤ 16)
    (hwm : s.regs.iprxfcr = place s.params.wm.val 2) (hfill : s.params.wm.val + 1 ≤ s.rxq.length) :
    drive (m + (2 * (s.params.wm.val + 1) + 2)) (s.at ((e.withSession x).withProgram (longDrain s.params)) []) =
      drive m (popLongStep [] (s.at (((e.withSession (x.collect (queueBytes (s.rxq.take (s.params.wm.val + 1))))).withProgram
        [⟨.drainOrFill, .popLong⟩])) [])) := by
  have hreached : PollCond.holds (.bits 0x20) (intrRead s) = true := by
    rw [holds_rxWatermark, rxWatermarkReached, hwm, watermarkEntries_place]
    exact decide_eq_true hfill
  have hwindow := drive_readWindow (2 * (s.params.wm.val + 1)) s e x (m + 1) ⟨.drainOrFill, .popLong⟩ [] hf h16
    (by omega) (.alone _)
  have hproceed : proceed (readWindow (2 * (s.params.wm.val + 1)) ++ [⟨.drainOrFill, .popLong⟩])
      (s.at ((e.withSession x).withProgram (⟨.drainOrFill, .poll .intr (.bits 0x20)⟩ ::
        (readWindow (2 * (s.params.wm.val + 1)) ++ [⟨.drainOrFill, .popLong⟩]))) []) =
      s.at ((e.withSession x).withProgram (readWindow (2 * (s.params.wm.val + 1)) ++ [⟨.drainOrFill, .popLong⟩])) [] := by
    cases readWindow (2 * (s.params.wm.val + 1)) <;> rfl
  rw [readWindow_longDrain, show m + (2 * (s.params.wm.val + 1) + 2) = m + 1 + 2 * (s.params.wm.val + 1) + 1 by omega,
    List.cons_append, drive_poll s _ [] [] _ _ _ _ _ _ hf (by decide) .alone rfl hreached, hproceed, hwindow,
    drive_alone s _ m hf (by simp) (waiting_other _ _ _ _ (by simp)), engStep_cons _ _ _ _ _ hf,
    show 4 * (2 * (s.params.wm.val + 1)) = 8 * (s.params.wm.val + 1) by omega, queueBytes_take]
  rfl

/-- What one iteration pops (R214, R220). -/
theorem regWrite_pop_watermark {s : State} (hwm : s.regs.iprxfcr = place s.params.wm.val 2)
    (hfill : s.params.wm.val + 1 ≤ s.rxq.length) : regWrite .intr 0x20 s = s.popped (s.params.wm.val + 1) := by
  rw [regWrite_pop, hwm, watermarkEntries_place, Nat.min_eq_left hfill]

/-- `t + 1` iterations that all leave bytes over: as many watermarks of entries collected, counted off and popped. -/
theorem drive_longDrain {s : State} {x : Session} {w : Nat} (hw : s.params.wm.val + 1 = w) (hf : s.fault = none)
    (h16 : s.rxq.length ≤ 16) (hwm : s.regs.iprxfcr = place s.params.wm.val 2) (hx : x.wm = 8 * w) (t : Nat) (m : Nat)
    (hfill : w * (t + 1) ≤ s.rxq.length) (hmore : (8 * (w * (t + 1)) : Nat) < x.remaining) :
    drive (m + (t + 1) * (2 * w + 2)) (s.at ((e.withSession x).withProgram (longDrain s.params)) []) =
      drive m ((s.popped (w * (t + 1))).at ((e.withSession ((x.collect (queueBytes (s.rxq.take (w * (t + 1))))).countOff
        (8 * (w * (t + 1)) : Nat))).withProgram (longDrain s.params)) []) := by
  subst hw
  induction t generalizing m with
  | zero =>
    simp only [Nat.zero_add, Nat.mul_one, Nat.one_mul] at hfill hmore ⊢
    have hleft : 0 < (x.collect (queueBytes (s.rxq.take (s.params.wm.val + 1)))).remaining -
        (x.collect (queueBytes (s.rxq.take (s.params.wm.val + 1)))).wm := by
      show 0 < x.remaining - x.wm
      omega
    rw [drive_longIteration x m hf h16 hwm hfill]
    refine congrArg (drive m) ((popLongStep_more (e := e.withProgram [⟨.drainOrFill, .popLong⟩]) hleft).trans ?_)
    rw [regWrite_pop_watermark hwm hfill, ← hx]
    rfl
  | succ t ih =>
    have hsum : (s.params.wm.val + 1) * (t + 1 + 1) = (s.params.wm.val + 1) * (t + 1) + (s.params.wm.val + 1) :=
      Nat.mul_succ _ _
    generalize hdone : (s.params.wm.val + 1) * (t + 1) = done at ih hsum
    rw [hsum] at hfill hmore
    have hdrain := ih (m + (2 * (s.params.wm.val + 1) + 2)) (by omega) (by omega)
    have hfuel : m + (t + 1 + 1) * (2 * (s.params.wm.val + 1) + 2) =
        m + (2 * (s.params.wm.val + 1) + 2) + (t + 1) * (2 * (s.params.wm.val + 1) + 2) := by
      rw [Nat.succ_mul (t + 1)]
      omega
    have hlen : (s.popped done).rxq.length = s.rxq.length - done := List.length_drop
    have hnext := drive_longIteration (s := s.popped done) (e := e)
      ((x.collect (queueBytes (s.rxq.take done))).countOff (8 * done : Nat)) m hf (by omega) hwm
      (show s.params.wm.val + 1 ≤ _ by omega)
    have hleft : 0 < (((x.collect (queueBytes (s.rxq.take done))).countOff (8 * done : Nat)).collect
        (queueBytes ((s.popped done).rxq.take (s.params.wm.val + 1)))).remaining - (x.wm : Int) := by
      show 0 < x.remaining - (8 * done : Nat) - x.wm
      omega
    have hpop : regWrite .intr 0x20 (s.popped done) = s.popped (done + (s.params.wm.val + 1)) := by
      rw [regWrite_pop_watermark (s := s.popped done) hwm (by rw [hlen]; show s.params.wm.val + 1 ≤ _; omega)]
      exact popped_popped _ _ _
    have hbytes : queueBytes (s.rxq.take done) ++ queueBytes ((s.rxq.drop done).take (s.params.wm.val + 1)) =
        queueBytes (s.rxq.take (done + (s.params.wm.val + 1))) := by
      rw [← queueBytes_append]
      exact congrArg queueBytes List.take_add.symm
    have hcount : x.remaining - (8 * done : Nat) - x.wm = x.remaining - (8 * (done + (s.params.wm.val + 1)) : Nat) := by
      rw [hx]
      omega
    have hsession : (((x.collect (queueBytes (s.rxq.take done))).countOff (8 * done : Nat)).collect
        (queueBytes ((s.rxq.drop done).take (s.params.wm.val + 1)))).countOff x.wm =
        (x.collect (queueBytes (s.rxq.take (done + (s.params.wm.val + 1))))).countOff
          (8 * (done + (s.params.wm.val + 1)) : Nat) := by
      simp only [Session.collect, Session.countOff, List.append_assoc, hbytes, hcount]
    rw [hfuel, hdrain]
    refine hnext.trans (congrArg (drive m) ?_)
    refine (popLongStep_more (e := e.withProgram [⟨.drainOrFill, .popLong⟩]) hleft).trans ?_
    rw [hpop, hsum, ← hsession]
    rfl

/-- A queue of whole watermarks, drained to its last iteration: the session holds the first `count` bytes of it. -/
theorem drive_longDrain_whole {s : State} {x : Session} {w : Nat} (hw : s.params.wm.val + 1 = w) (hf : s.fault = none)
    (h16 : s.rxq.length ≤ 16) (hwm : s.regs.iprxfcr = place s.params.wm.val 2) (hx : x.wm = 8 * w) (hout : x.out = [])
    (t : Nat) (hlen : s.rxq.length = w * (t + 1) + w) (hmore : (8 * (w * (t + 1)) : Nat) < x.remaining)
    (hover : x.remaining ≤ (8 * s.rxq.length : Nat)) (m : Nat) :
    ∃ y : Session, y.out = (queueBytes s.rxq).take x.count.toNat ∧
      drive (m + (2 * w + 2) + (t + 1) * (2 * w + 2)) (s.at ((e.withSession x).withProgram (longDrain s.params)) []) =
        drive m (proceed [] ((s.popped s.rxq.length).at ((e.withProgram [⟨.drainOrFill, .popLong⟩]).withSession y) [])) := by
  subst hw
  have hdrain := drive_longDrain (e := e) rfl hf h16 hwm hx t (m + (2 * (s.params.wm.val + 1) + 2)) (by omega) hmore
  generalize (s.params.wm.val + 1) * (t + 1) = popped at hdrain hlen hmore
  have hleft : s.params.wm.val + 1 ≤ (s.popped popped).rxq.length := by
    show s.params.wm.val + 1 ≤ (s.rxq.drop popped).length
    rw [List.length_drop]
    omega
  have hlast := drive_longIteration (s := s.popped popped) (e := e)
    ((x.collect (queueBytes (s.rxq.take popped))).countOff (8 * popped : Nat)) m hf
    (show (s.rxq.drop popped).length ≤ 16 by rw [List.length_drop]; omega) hwm hleft
  have hend := popLongStep_last (s := s.popped popped) (e := e.withProgram [⟨.drainOrFill, .popLong⟩]) (q := [])
    (x := (((x.collect (queueBytes (s.rxq.take popped))).countOff (8 * popped : Nat)).collect
      (queueBytes ((s.popped popped).rxq.take (s.params.wm.val + 1)))))
    (show ¬ 0 < x.remaining - (8 * popped : Nat) - x.wm by omega)
  have hpop : regWrite .intr 0x20 (s.popped popped) = s.popped s.rxq.length := by
    rw [regWrite_pop_watermark (s := s.popped popped) hwm hleft, popped_popped, hlen]
    rfl
  rw [hpop] at hend
  refine ⟨_, ?_, hdrain.trans (hlast.trans (congrArg (drive m) hend))⟩
  show ((x.out ++ queueBytes (s.rxq.take popped)) ++ queueBytes ((s.rxq.drop popped).take (s.params.wm.val + 1))).take
    x.count.toNat = _
  rw [hout, List.nil_append, ← queueBytes_append, ← List.take_add, ← hlen, List.take_length]

end LongDrain

/-! ## Reads (R170, R180, R188, R189, R193 to R195) -/

theorem dataPhase_read {p : Params} {k : Kind} {c : LogicalCommand} (hc : commandOf p k = some c) (hd : c.dir = .read)
    {size : Nat} (hsize : size ≠ 0) (data : List Byte) : dataPhase p k size data = rxDrain p size := by
  simp only [dataPhase, hsize, ↓reduceIte, hc, hd]

/-- The named reads and IPX of a read kind are operations that issue. -/
theorem issues_anyRead {s : State} {i : Instr} {k : Kind} {c : LogicalCommand} {addr : Option Word} {n : BitVec 16}
    (hs : s.CanIssue k c) (hd : c.dir = .read)
    (hi : (addr = none ∧ ∃ len, (i, k, len) ∈ readOperations ∧ len s.params = n) ∨
      (k ≠ .pageProgram ∧ i = .ipx (BitVec.ofNat 5 (kindCode k).val) addr (BitVec.zeroExtend 32 n) [])) :
    s.Issues i k c addr n [] ∧ endingOf i = .done := by
  obtain ⟨rfl, len, hread, rfl⟩ | ⟨hk, rfl⟩ := hi
  · exact issues_read hread hs hd
  · exact issues_ipx hk hs (by rw [hd]; rfl)

theorem answers_read {c : LogicalCommand} {n : BitVec 16} {es : List Entry} (hd : c.dir = .read) (hn : n.toNat ≤ 128)
    (hlen : es.length = ceilDiv n.toNat 8) : Answers c n es := by
  obtain ⟨hlt, -⟩ := ceilDiv_bounds n.toNat (b := 8) (by decide)
  exact ⟨by omega, fun _ => hlen, fun hw => by rw [hd] at hw; cases hw⟩

/-- A read whose entries BACKEND delivers comes to its drain. -/
theorem exec_read {s : State} {i : Instr} {k : Kind} {c : LogicalCommand} {addr : Option Word} {n : BitVec 16}
    {es : List Entry} (h : s.Issues i k c addr n []) (hd : c.dir = .read) (h1 : 1 ≤ n.toNat) (h128 : n.toNat ≤ 128)
    (hlen : es.length = ceilDiv n.toNat 8) (hsched : s.sched = answerTurns es) {j : Nat} (hj : j ≤ 128) :
    ∃ m, exec i s = .next (drive (m + j) ((s.answeredBy es k c addr n).at
      (((issuing s i addr n []).withSession (newSession s.params addr n [])).withProgram (rxDrain s.params n.toNat)) [])) := by
  obtain ⟨m, hexec⟩ := exec_answered h (answers_read hd h128 hlen) hsched hj
  refine ⟨m, ?_⟩
  rw [hexec, dataPhase_read h.can.kind hd (by omega)]
  have hcons : ∃ a as, rxDrain s.params n.toNat = a :: as := by
    unfold rxDrain
    split
    · exact ⟨_, _, rfl⟩
    · exact ⟨_, _, rfl⟩
  obtain ⟨a, as, hcons⟩ := hcons
  rw [hcons]
  rfl

/-- The queue after a read's answer, and the bytes it needs (R212). -/
theorem entries_bounds {n : Nat} {es : List Entry} (h128 : n ≤ 128) (hlen : es.length = ceilDiv n 8) :
    es.length ≤ 16 ∧ n ≤ 8 * es.length ∧ 8 * es.length < n + 8 := by
  obtain ⟨hlt, hle⟩ := ceilDiv_bounds n (b := 8) (by decide)
  omega

/-- The end of a read: the entries popped, its bytes the first of the queue's. -/
theorem drive_readEnd {s : State} {k : Kind} {c : LogicalCommand} {addr : Option Word} {n : BitVec 16} {es : List Entry}
    {e : Engine} {x : Session} (hdone : e.ending = .done) (hx : e.session = some x)
    (hout : x.out = (queueBytes es).take n.toNat) (m : Nat) :
    drive m (proceed [] (((s.answeredBy es k c addr n).popped es.length).at e [])) =
      (({ s.commanded k c addr n with rxq := es, sched := [] } : State).drained es.length).answered
        (resultOf .ok 0 ((es.flatMap Entry.bytes).take n.toNat)) := by
  rw [proceed_nil_done _ e _ hdone, drive_idle, hx, popped_all (s := s.answeredBy es k c addr n) (n := es.length) rfl]
  simp only [hout]
  rfl

/-- Settles O14: the short drain, or the long one whose entries are whole watermarks. -/
theorem readReturnsItsBytes : Obligations.ReadReturnsItsBytes := by
  intro s i k c addr n es hs hd hi h1 h128 hlen hfit hsched
  obtain ⟨hissues, hdone⟩ := issues_anyRead hs hd hi
  obtain ⟨h16, hle, hlt⟩ := entries_bounds h128 hlen
  have hwm : (s.answeredBy es k c addr n).regs.iprxfcr = place s.params.wm.val 2 := rfl
  by_cases hshort : n.toNat ≤ watermarkBytes s.params
  case pos =>
    have hwords : ceilDiv n.toNat 4 ≤ 32 := by
      obtain ⟨hlt, -⟩ := ceilDiv_bounds n.toNat (b := 4) (by decide)
      omega
    have hpop : min (watermarkEntries (s.answeredBy es k c addr n).regs.iprxfcr) (s.answeredBy es k c addr n).rxq.length =
        es.length := by
      rw [hwm, watermarkEntries_place]
      refine Nat.min_eq_right (show es.length ≤ s.params.wm.val + 1 from ?_)
      unfold watermarkBytes at hshort
      omega
    obtain ⟨m, hexec⟩ := exec_read hissues hd h1 h128 hlen hsched (j := ceilDiv n.toNat 4 + 2) (by omega)
    rw [hexec, rxDrain, if_pos hshort, drive_shortDrain (s := s.answeredBy es k c addr n) m hs.ready.1 h16 hle rfl (.alone _),
      hpop]
    exact congrArg Host.Outcome.next (drive_readEnd hdone rfl (List.nil_append _) m)
  case neg =>
    obtain ⟨rounds, hrounds⟩ := hfit.resolve_left hshort
    generalize hw : s.params.wm.val + 1 = w at hrounds
    have hbytes : watermarkBytes s.params = 8 * w := by rw [← hw]; rfl
    have hpos : 1 ≤ w := by omega
    have htwo : 2 ≤ rounds := by
      by_contra hfew
      have : w * rounds ≤ w * 1 := Nat.mul_le_mul_left w (by omega)
      omega
    obtain ⟨t, rfl⟩ : ∃ t, rounds = t + 1 + 1 := ⟨rounds - 2, by omega⟩
    have hsum : w * (t + 1 + 1) = w * (t + 1) + w := Nat.mul_succ _ _
    have hfuel : 2 * w + 2 + (t + 1) * (2 * w + 2) ≤ 128 := by
      have hcount : t + 1 + 1 ≤ w * (t + 1 + 1) := Nat.le_mul_of_pos_left _ hpos
      have hexpand : 2 * w + 2 + (t + 1) * (2 * w + 2) = 2 * (w * (t + 1 + 1)) + 2 * (t + 1 + 1) := by ring
      omega
    have hremaining : (newSession s.params addr n []).remaining = (n.toNat : Int) := rfl
    obtain ⟨m, hexec⟩ := exec_read hissues hd h1 h128 hlen hsched hfuel
    obtain ⟨y, hout, hdrain⟩ := drive_longDrain_whole (s := s.answeredBy es k c addr n) (e := issuing s i addr n [])
      (x := newSession s.params addr n []) hw hs.ready.1 h16 hwm hbytes rfl t (hrounds.trans hsum)
      (by rw [hremaining]; omega) (by rw [hremaining]; exact Int.ofNat_le.mpr hle) m
    rw [hexec, rxDrain, if_neg hshort, ← Nat.add_assoc]
    exact congrArg Host.Outcome.next (hdrain.trans (drive_readEnd hdone rfl hout m))

/-- Settles O22: after the iterations that have a watermark's worth of entries, the poll of the next never ends. -/
theorem unevenLongReadWaits : Obligations.UnevenLongReadWaits := by
  intro s i k c addr n es hs hd hi hlong h128 hlen huneven hlimit hsched
  obtain ⟨hissues, hdone⟩ := issues_anyRead hs hd hi
  obtain ⟨h16, hle, hlt⟩ := entries_bounds h128 hlen
  set t := s.answeredBy es k c addr n with ht
  set e := issuing s i addr n [] with he
  have hwm : t.regs.iprxfcr = place t.params.wm.val 2 := rfl
  generalize hw : s.params.wm.val + 1 = w at huneven ⊢
  have hbytes : watermarkBytes s.params = 8 * w := by rw [← hw]; rfl
  have hpos : 0 < w := by omega
  have hdiv := Nat.div_add_mod es.length w
  have hmod := Nat.mod_lt es.length hpos
  have hrest : es.length % w ≠ 0 := fun h => huneven (Nat.dvd_of_mod_eq_zero h)
  obtain ⟨t', hrounds⟩ : ∃ t', es.length / w = t' + 1 := ⟨es.length / w - 1, by
    have : 1 ≤ es.length / w := (Nat.le_div_iff_mul_le hpos).mpr (by omega)
    omega⟩
  rw [hrounds] at hdiv ⊢
  have hfuel : (t' + 1) * (2 * w + 2) ≤ 128 := by
    have hcount : t' + 1 ≤ w * (t' + 1) := Nat.le_mul_of_pos_left _ hpos
    have hexpand : (t' + 1) * (2 * w + 2) = 2 * (w * (t' + 1)) + 2 * (t' + 1) := by ring
    omega
  generalize hpopped : w * (t' + 1) = popped at hdiv
  have hremaining : ((newSession s.params addr n []).remaining : Int) = n.toNat := rfl
  obtain ⟨m, hexec⟩ := exec_read hissues hd (by omega) h128 hlen hsched hfuel
  have hdrain := drive_longDrain (s := t) (e := e) (x := newSession s.params addr n []) hw hs.ready.1 h16 hwm hbytes t' m
    (by rw [hpopped]; show popped ≤ es.length; omega) (by rw [hpopped, hremaining]; omega)
  rw [hpopped] at hdrain
  have hclear : PollCond.holds (.bits 0x20) (intrRead (t.popped popped)) = false := by
    rw [holds_rxWatermark, rxWatermarkReached, show (t.popped popped).regs.iprxfcr = place s.params.wm.val 2 from rfl,
      watermarkEntries_place]
    refine decide_eq_false (show ¬ s.params.wm.val + 1 ≤ (es.drop popped).length from ?_)
    rw [List.length_drop]
    omega
  have hwait := settled_wait (r := .intr) (t.popped popped) (e.withSession
    (((newSession s.params addr n []).collect (queueBytes (t.rxq.take popped))).countOff (8 * popped : Nat))) .drainOrFill
    (readWindow (watermarkBytes s.params / 4) ++ [⟨.drainOrFill, .popLong⟩]) hs.ready.1 hlimit rfl hclear
  rw [rxDrain, if_neg (Nat.not_le.mpr hlong)] at hexec
  refine ⟨_, hexec.trans (congrArg Host.Outcome.next (hdrain.trans (drive_settled hwait m))), rfl, rfl, rfl, ?_⟩
  exact step_settled hs.ready.1 (by simp) rfl hwait

end Sys2Proof.Machine

/-!
PROOFS of O16 and O21. ERASE as one command and a loop of status reads (R190), and the read of more than 128 bytes that no
turn but a request or RESET can bring out of its completion poll (R203 (c)).
-/

namespace Sys2Proof.Machine

/-! ## The status reads of an ERASE (R190) -/

/-- The engine before the micro-steps of the `j`-th status read. -/
def Engine.forStatus (e : Engine) (p : Params) (j : Nat) : Engine :=
  { e with session := some (newSession p none p.statusLen []), count := j }

/-- The limit lets ERASE go on after its `j`-th status read. -/
def GoesOnAfter (p : Params) (j : Nat) : Prop :=
  ∀ limit, p.pollLimit = some limit → j < limit

theorem proceed_nil_erase (s : State) (e : Engine) (q : List Event) (h : e.ending = .eraseStatus) :
    proceed [] (s.at e q) = eraseEnd (s.at e q) := by
  simp only [proceed, endOperation, at_eng, h]

/-- What the end of the `j`-th status read comes to, once a byte has been read (R190). -/
theorem eraseEnd_status {s : State} {e : Engine} {q : List Event} {x : Session} {b : Byte} {bs : List Byte}
    (hcount : e.count ≠ 0) (hx : e.session = some x) (hout : x.out = b :: bs) :
    (writeInProgress s.params b = false → eraseEnd (s.at e q) =
      s.at (Engine.idle (some (resultOf .ok (BitVec.ofNat 32 e.count) []))) q) ∧
    (writeInProgress s.params b = true → GoesOnAfter s.params e.count →
      eraseEnd (s.at e q) = eraseNextStatus (e.count + 1) (s.at e q)) ∧
    (writeInProgress s.params b = true → ∀ limit, s.params.pollLimit = some limit → limit ≤ e.count →
      eraseEnd (s.at e q) = s.at (Engine.idle (some (resultOf .timeout (BitVec.ofNat 32 e.count) []))) q) := by
  have hcollected : collected (s.at e q) = b :: bs := by simp [collected, hx, hout]
  have hbyte : statusByte (s.at e q) = b := by simp [statusByte, hcollected]
  refine ⟨fun hw => ?_, fun hw hmore => ?_, fun hw limit hlimit hreached => ?_⟩
  · simp only [eraseEnd, at_eng, hcount, hcollected, hbyte, at_params, hw, Bool.not_false, List.isEmpty_cons,
      Bool.false_eq_true, ↓reduceIte]
    rfl
  · cases hl : s.params.pollLimit with
    | none =>
      simp only [eraseEnd, at_eng, hcount, hcollected, hbyte, at_params, hw, hl, Bool.not_true, List.isEmpty_cons,
        Bool.false_eq_true, ↓reduceIte]
    | some limit =>
      have hlt : ¬ limit ≤ e.count := Nat.not_le.mpr (hmore limit hl)
      simp only [eraseEnd, at_eng, hcount, hcollected, hbyte, at_params, hw, hl, hlt, Bool.not_true, List.isEmpty_cons,
        Bool.false_eq_true, ↓reduceIte]
  · simp only [eraseEnd, at_eng, hcount, hcollected, hbyte, at_params, hw, hlimit, hreached, Bool.not_true,
      List.isEmpty_cons, Bool.false_eq_true, ↓reduceIte]
    rfl

/-- The engine at the end of the `j`-th status read, answered with the entry `a`. -/
def Engine.statusDone (e : Engine) (p : Params) (j : Nat) (a : Entry) : Engine :=
  ((e.forStatus p j).withSession ((newSession p none p.statusLen []).collect
    ((queueBytes [a]).take p.statusLen.toNat))).withProgram [⟨.drainOrFill, .popShort p.statusLen.toNat⟩]

/-- The first byte of the entry is the status byte. -/
theorem statusDone_out (e : Engine) {p : Params} (h1 : 1 ≤ p.statusLen.toNat) (j : Nat) (a : Entry) :
    ∃ x bs, (e.statusDone p j a).session = some x ∧ x.out = a.b0 :: bs := by
  obtain ⟨n, hn⟩ : ∃ n, p.statusLen.toNat = n + 1 := ⟨_, (Nat.sub_add_cancel h1).symm⟩
  refine ⟨_, [a.b1, a.b2, a.b3, a.b4, a.b5, a.b6, a.b7].take n, rfl, ?_⟩
  show [] ++ (queueBytes [a]).take p.statusLen.toNat = _
  rw [hn]
  rfl

/-- What ERASE asks of the machine before each of its commands; no command of ERASE changes it. -/
structure State.CanPoll (cs : LogicalCommand) (t : State) : Prop where
  safe : t.fault = none
  free : t.inflight = none
  enabled : moduleDisabled t = false
  kind : commandOf t.params .readStatus = some cs
  dir : cs.dir = .read
  one : 1 ≤ t.params.statusLen.toNat
  four : t.params.statusLen.toNat ≤ 4

section EraseLoop
variable {cs : LogicalCommand} {t : State} {e : Engine}

theorem State.CanPoll.statusRead (h : t.CanPoll cs) (a : Entry) : (t.statusRead cs a).CanPoll cs :=
  { h with free := rfl, enabled := h.enabled }

/-- One status read BACKEND answers with the entry `a`, up to its end. -/
theorem drive_statusRead (h : t.CanPoll cs) (hen : e.ending = .eraseStatus) (a : Entry) (j : Nat) (q : List Event) (m : Nat) :
    drive (m + 28) (t.at ((e.forStatus t.params j).withProgram
      (issue t.params .readStatus none t.params.statusLen [])) (statusTurns a ++ q)) =
      drive m (eraseEnd ((t.statusRead cs a).at (e.statusDone t.params j a) q)) := by
  obtain ⟨hf, hi, hm, hc, hd, h1, h4⟩ := h
  set u := t.answeredBy [a] .readStatus cs none t.params.statusLen with hu
  have hentries : ceilDiv t.params.statusLen.toNat 8 = 1 := by unfold ceilDiv; omega
  have hwords : ceilDiv t.params.statusLen.toNat 4 = 1 := by unfold ceilDiv; omega
  have hanswers : Answers cs t.params.statusLen [a] := answers_read hd (by omega) (by rw [hentries]; rfl)
  have hturns : statusTurns a ++ q = answerTurns [a] ++ (List.replicate 2 .engine ++ (List.replicate 3 .engine ++ q)) := by
    simp [statusTurns, List.replicate]
  have hshort : rxDrain t.params t.params.statusLen.toNat = shortDrain t.params.statusLen.toNat :=
    if_pos (by unfold watermarkBytes; omega)
  have hanswered := drive_answered none t.params.statusLen [] (e.forStatus t.params j) (q := List.replicate 2 .engine ++
    (List.replicate 3 .engine ++ q)) (m + 3) hf hi hm hc hanswers (.inl rfl)
  have hdrain := drive_shortDrain (s := u) (e := e.forStatus t.params j) (x := newSession t.params none t.params.statusLen [])
    (size := t.params.statusLen.toNat) (q := List.replicate 3 .engine ++ q) (q' := q) m hf (by simp [hu, State.answeredBy])
    (by simp [hu, State.answeredBy]; omega) rfl (by rw [hwords]; exact .inl rfl)
  have hpop : min (watermarkEntries u.regs.iprxfcr) u.rxq.length = 1 := by
    rw [show u.regs.iprxfcr = place t.params.wm.val 2 from rfl, watermarkEntries_place]
    exact Nat.min_eq_right (Nat.succ_le_succ (Nat.zero_le _))
  rw [hwords, hpop, popped_all (s := u) (n := 1) rfl] at hdrain
  rw [dataPhase_read hc hd (by omega), hshort] at hanswered
  rw [hturns]
  refine hanswered.trans (Eq.trans ?_ (hdrain.trans (congrArg (drive m) ?_)))
  · rfl
  · exact proceed_nil_erase _ (e.statusDone t.params j a) _ hen

/-- Status reads that all read write-in-progress 1, with none of them at the limit. -/
theorem drive_statusReads (hen : e.ending = .eraseStatus) (es : List Entry) (q : List Event) (m : Nat) :
    ∀ (t : State) (j : Nat), t.CanPoll cs → (∀ a ∈ es, writeInProgress t.params a.b0 = true) → j ≠ 0 →
      (∀ i < es.length, GoesOnAfter t.params (j + i)) →
      drive (m + 28 * es.length) (t.at ((e.forStatus t.params j).withProgram
        (issue t.params .readStatus none t.params.statusLen [])) (es.flatMap statusTurns ++ q)) =
        drive m ((es.foldl (State.statusRead cs) t).at ((e.forStatus t.params (j + es.length)).withProgram
          (issue t.params .readStatus none t.params.statusLen [])) q) := by
  induction es with
  | nil => intro t j _ _ _ _; rfl
  | cons a es ih =>
    intro t j ht hbusy hj hlimit
    have hnext := ih (t.statusRead cs a) (j + 1) (ht.statusRead a) (fun b hb => hbusy b (List.mem_cons_of_mem a hb))
      (by omega) (fun i hi => by
        have := hlimit (i + 1) (by simpa using hi)
        rwa [show j + (i + 1) = j + 1 + i by omega] at this)
    obtain ⟨x, bs, hx, hout⟩ := statusDone_out e ht.one j a
    obtain ⟨-, hmore, -⟩ := eraseEnd_status (s := t.statusRead cs a) (q := es.flatMap statusTurns ++ q) hj hx hout
    rw [List.flatMap_cons, List.append_assoc, List.length_cons, show m + 28 * (es.length + 1) = m + 28 * es.length + 28 by omega,
      drive_statusRead ht hen a j _ _, hmore (hbusy a List.mem_cons_self) (hlimit 0 (by simp)),
      show j + (es.length + 1) = j + 1 + es.length by omega]
    exact hnext

end EraseLoop

theorem statusTurns_length (es : List Entry) : (es.flatMap statusTurns).length = 28 * es.length := by
  induction es with
  | nil => rfl
  | cons a es ih =>
    have hone : (statusTurns a).length = 28 := rfl
    rw [List.flatMap_cons, List.length_append, ih, hone, List.length_cons]
    omega

/-- ERASE up to the end of its erase-sector command: the first status read is next. -/
theorem exec_erase {s : State} {c cs : LogicalCommand} {addr : Word} (hs : s.CanIssue .eraseSector c)
    (hcs : commandOf s.params .readStatus = some cs) (hd : cs.dir = .read) (es : List Entry)
    (hsched : s.sched = eraseTurns es) :
    ∃ m, exec (.erase addr) s = .next (drive (m + 28 * es.length)
      ((s.commanded .eraseSector c (some addr) 0).at (((issuing s (.erase addr) (some addr) 0 []).forStatus s.params 1).withProgram
        (issue s.params .readStatus none s.params.statusLen [])) (es.flatMap statusTurns))) := by
  have hkind : kindOk (.erase addr) s.params = true := by
    rw [kindOk, kindDefined_of_some hs.kind, ← hd, kindWithDir_of_some hcs]
    rfl
  have hgate : gate (.erase addr) s = none := gate_none (modeAllows_of_ramBlocking rfl hs.mode) rfl hkind rfl
  have hlen : s.sched.length = 24 + 28 * es.length := by
    rw [hsched, eraseTurns, List.length_append, List.length_append, statusTurns_length]
    rfl
  obtain ⟨m, hexec⟩ := exec_issued_drive (k := .eraseSector) (addr := some addr) (n := 0) (data := []) (i := .erase addr) rfl
    hs.ready hgate (j := 28 * es.length + 24) (Nat.le_trans (by omega) (le_budget s))
  refine ⟨m, ?_⟩
  have hanswered := drive_answered (some addr) 0 [] (issuing s (.erase addr) (some addr) 0 []) (q := List.replicate 2 .engine ++
    es.flatMap statusTurns) (m + 28 * es.length) hs.ready.1 hs.free hs.enabled hs.kind (answers_nothing c) (.inl rfl)
  have hdata : dataPhase s.params .eraseSector (0 : BitVec 16).toNat [] = [] := (dataPhase_eq_nil hs.kind _ _).mpr rfl
  rw [hdata, proceed_nil_erase _ _ _ rfl] at hanswered
  rw [hexec, hsched, eraseTurns, List.append_assoc]
  exact congrArg Host.Outcome.next hanswered

theorem commanded_canPoll {s : State} {c cs : LogicalCommand} {addr : Word} (hs : s.CanIssue .eraseSector c)
    (hcs : commandOf s.params .readStatus = some cs) (hd : cs.dir = .read) (h1 : 1 ≤ s.params.statusLen.toNat)
    (h4 : s.params.statusLen.toNat ≤ 4) : (s.commanded .eraseSector c (some addr) 0).CanPoll cs :=
  ⟨hs.ready.1, rfl, hs.enabled, hcs, hd, h1, h4⟩

theorem foldl_statusRead_params (cs : LogicalCommand) (es : List Entry) (t : State) :
    (es.foldl (State.statusRead cs) t).params = t.params := by
  induction es generalizing t with
  | nil => rfl
  | cons a es ih => exact ih (t.statusRead cs a)

theorem foldl_statusRead_canPoll {cs : LogicalCommand} (es : List Entry) {t : State} (h : t.CanPoll cs) :
    (es.foldl (State.statusRead cs) t).CanPoll cs := by
  induction es generalizing t with
  | nil => exact h
  | cons a es ih => exact ih (h.statusRead a)

/-- ERASE up to the end of its last status read, with all before it reading write-in-progress 1. -/
theorem exec_erase_last {s : State} {c cs : LogicalCommand} {addr : Word} {es : List Entry} (last : Entry)
    (hs : s.CanIssue .eraseSector c) (hcs : commandOf s.params .readStatus = some cs) (hd : cs.dir = .read)
    (h1 : 1 ≤ s.params.statusLen.toNat) (h4 : s.params.statusLen.toNat ≤ 4)
    (hbusy : ∀ a ∈ es, writeInProgress s.params a.b0 = true) (hlimit : ∀ i < es.length, GoesOnAfter s.params (1 + i))
    (hsched : s.sched = eraseTurns (es ++ [last])) :
    ∃ m, exec (.erase addr) s = .next (drive m (eraseEnd
      (((es ++ [last]).foldl (State.statusRead cs) (s.commanded .eraseSector c (some addr) 0)).at
        ((issuing s (.erase addr) (some addr) 0 []).statusDone s.params (es.length + 1) last) []))) := by
  have hpoll := commanded_canPoll (addr := addr) hs hcs hd h1 h4
  obtain ⟨m, hexec⟩ := exec_erase (addr := addr) hs hcs hd (es ++ [last]) hsched
  have hreads := drive_statusReads (cs := cs) (e := issuing s (.erase addr) (some addr) 0 []) rfl es (statusTurns last)
    (m + 28) (s.commanded .eraseSector c (some addr) 0) 1 hpoll hbusy (by decide) hlimit
  have hlast := drive_statusRead (foldl_statusRead_canPoll es hpoll) (e := issuing s (.erase addr) (some addr) 0 []) rfl last
    (es.length + 1) [] m
  rw [foldl_statusRead_params] at hlast
  refine ⟨m, ?_⟩
  rw [hexec, List.length_append, List.length_singleton, show m + 28 * (es.length + 1) = m + 28 + 28 * es.length by omega,
    List.flatMap_append, List.flatMap_singleton, List.foldl_append]
  refine congrArg Host.Outcome.next (hreads.trans ?_)
  rw [Nat.add_comm 1, ← List.append_nil (statusTurns last)]
  exact hlast

/-- Settles O16: the status reads that go on, and the last one, which ends the operation either way. -/
theorem eraseCountsItsPolls : Obligations.EraseCountsItsPolls := by
  intro s c cs addr es hs hcs hd h1 h4 hbusy
  refine ⟨fun last hidle hlimit hsched => ?ends, fun limit hlimit hlen hsched => ?timeout⟩
  case ends =>
    have hgoes : ∀ i < es.length, GoesOnAfter s.params (1 + i) := by
      intro i hi limit hl
      obtain rfl | hlt := hlimit limit hl
      · exact absurd hi (Nat.not_lt_zero i)
      · omega
    obtain ⟨m, hexec⟩ := exec_erase_last (addr := addr) last hs hcs hd h1 h4 hbusy hgoes hsched
    obtain ⟨x, bs, hx, hout⟩ := statusDone_out (issuing s (.erase addr) (some addr) 0 []) h1 (es.length + 1) last
    obtain ⟨hok, -, -⟩ := eraseEnd_status (q := [])
      (s := (es ++ [last]).foldl (State.statusRead cs) (s.commanded .eraseSector c (some addr) 0)) (Nat.succ_ne_zero es.length)
      hx hout
    rw [foldl_statusRead_params] at hok
    rw [hexec, hok hidle, drive_idle]
    rfl
  case timeout =>
    obtain rfl | ⟨init, last, rfl⟩ := List.eq_nil_or_concat' es
    · simp only [List.length_nil] at hlen
      omega
    · rw [List.length_append, List.length_singleton] at hlen
      have hgoes : ∀ i < init.length, GoesOnAfter s.params (1 + i) := by
        intro i hi limit' hl
        obtain rfl : limit = limit' := Option.some.inj (hlimit.symm.trans hl)
        omega
      obtain ⟨m, hexec⟩ := exec_erase_last (addr := addr) last hs hcs hd h1 h4
        (fun a ha => hbusy a (List.mem_append_left _ ha)) hgoes hsched
      obtain ⟨x, bs, hx, hout⟩ := statusDone_out (issuing s (.erase addr) (some addr) 0 []) h1 (init.length + 1) last
      obtain ⟨-, -, htimeout⟩ := eraseEnd_status (q := [])
        (s := (init ++ [last]).foldl (State.statusRead cs) (s.commanded .eraseSector c (some addr) 0))
        (Nat.succ_ne_zero init.length) hx hout
      rw [foldl_statusRead_params] at htimeout
      rw [hexec, htimeout (hbusy last (by simp)) limit hlimit (show limit ≤ init.length + 1 by omega), drive_idle,
        List.length_append, List.length_singleton]
      rfl

/-! ## A read of more than 128 bytes (R203 (c), R405) -/

namespace State.Undeliverable

/-- A change of the fields that keep the read waiting is needed to end its wait. -/
theorem of_same {s t : State} (h : s.Undeliverable) (fault : t.fault = s.fault := by rfl)
    (phase : t.eng.phase = s.eng.phase := by rfl) (cont : t.eng.cont = s.eng.cont := by rfl)
    (params : t.params = s.params := by rfl) (intr : t.regs.intr.getLsbD 0 = s.regs.intr.getLsbD 0 := by rfl)
    (rxq : t.rxq = s.rxq := by rfl) (iprxfcr : t.regs.iprxfcr = s.regs.iprxfcr := by rfl)
    (inflight : t.inflight = s.inflight := by rfl) : t.Undeliverable where
  safe := fault.trans h.safe
  phase := phase.trans h.phase
  poll := by rw [cont]; exact h.poll
  unlimited := by rw [params]; exact h.unlimited
  undone := intr.trans h.undone
  capacity := by rw [rxq]; exact h.capacity
  noDma := by rw [iprxfcr]; exact h.noDma
  command := by rw [inflight, rxq]; exact h.command

variable {s : State}

/-- The engine's turn is one more read of the poll (R178). -/
theorem polled (h : s.Undeliverable) : (engStep s).Undeliverable := by
  obtain ⟨rest, hcont⟩ := h.poll
  have hstep : engStep s = pollStep .intr (.bits 1) rest s := by
    simp [engStep, hcont, actStep, show s.fault = none from h.safe]
  have hpeek : regPeek .intr s = intrRead s := regPeek_shows h.safe rfl
  have hread : (regRead .intr s).2 = s := by rw [regRead_intr h.safe]
  have hcases := pollStep_cases .intr (.bits 1) rest s
  rw [hpeek, hread, ← hstep, done_bit_clear s h.undone] at hcases
  obtain ⟨hholds, -⟩ | ⟨-, hreached, -⟩ | ⟨-, -, heq⟩ := hcases
  · cases hholds
  · simp [LimitReached, h.unlimited] at hreached
  · rw [heq]
    exact h.of_same

/-! ### The turns of BACKEND -/

/-- RXQ has room for 128 bytes only, so be_rx_push never delivers the last one (R63, R211). -/
theorem pushed (h : s.Undeliverable) (e : Entry) : (beRxPush e s).Undeliverable := by
  obtain ⟨c, hc, hd, hsize, hdelivered⟩ := h.command
  unfold beRxPush
  rw [hc]
  simp only
  split
  next henabled =>
    have hroom : s.rxq.length < 16 := by
      simp only [rxPushEnabled, hc, Bool.and_eq_true, decide_eq_true_eq] at henabled
      exact henabled.1.2
    exact { h with
      capacity := by
        rw [List.length_append, List.length_singleton]
        omega
      command := ⟨_, rfl, hd, hsize, by
        rw [List.length_append, List.length_singleton]
        show min (c.delivered + 8) c.datsz.toNat = _
        omega⟩ }
  next => exact h

/-- Nor does be_complete find its guard (R65). -/
theorem completed (h : s.Undeliverable) (device : List Host.Cell) : (beComplete device s).Undeliverable := by
  obtain ⟨c, hc, hd, hsize, hdelivered⟩ := h.command
  have hcapacity := h.capacity
  have hmore : ¬ c.datsz.toNat ≤ c.delivered := by omega
  have hguard : completeEnabled s = false := by simp [completeEnabled, hc, hd, hmore]
  have hstay : beComplete device s = s := by simp [beComplete, hc, hguard]
  rwa [hstay]

theorem erred (h : s.Undeliverable) (b : ErrBit) (code : BitVec 4) (id : BitVec 5) (onAhb : Bool) :
    (beError b code id onAhb s).Undeliverable := by
  have hmask : (errMask b).getLsbD 0 = false := by cases b <;> rfl
  exact h.of_same (intr := by
    show (s.regs.intr ||| errMask b).getLsbD 0 = _
    rw [BitVec.getLsbD_or, hmask, Bool.or_false])

theorem arbitrated (h : s.Undeliverable) (seqIdle arbIdle : Bool) (src : BitVec 2) :
    (beArb seqIdle arbIdle src s).Undeliverable := by
  unfold beArb
  split
  · exact h.of_same
  · exact h

theorem locked (h : s.Undeliverable) (p : Fin 2) (slave reference : Bool) : (beLock p slave reference s).Undeliverable := by
  unfold beLock
  split
  · exact h
  · exact h.of_same

theorem taken (h : s.Undeliverable) : (beTxPop s).Undeliverable := by
  unfold beTxPop
  split
  · exact h
  · exact h.of_same

/-! ### The window -/

theorem sized (h : s.Undeliverable) : (sizesDrawn s).Undeliverable := by
  obtain ⟨d, hd⟩ := sizesDrawn_frame s
  rw [hd]
  exact h.of_same

theorem ahbMoved (h : s.Undeliverable) : (ahbMoves s).Undeliverable := h.of_same

/-- Whatever waits, is buffered or has landed. -/
theorem windowed (h : s.Undeliverable) (w : Window) : ({ s with win := w } : State).Undeliverable := h.of_same

theorem stored (h : s.Undeliverable) (addr : Word) (data : List Byte) (landed : Nat) :
    (memWrite addr data landed s).Undeliverable := by
  unfold memWrite
  split
  · exact h.of_same
  · exact (h.windowed _).sized.ahbMoved

theorem served (h : s.Undeliverable) (a : WinAccess) : (serveAccess a s).Undeliverable := by
  cases a with
  | read addr n got => exact h.of_same
  | write addr data landed => exact (h.stored addr data landed).of_same

theorem ahbServed (h : s.Undeliverable) (i : Nat) : (beAhbServe i s).Undeliverable := by
  unfold beAhbServe
  split
  · exact h.ahbMoved
  · exact served (h.windowed _) _

theorem ahbByteServed (h : s.Undeliverable) (i : Nat) : (beAhbByte i s).Undeliverable := by
  unfold beAhbByte
  split
  next => exact h.ahbMoved
  next =>
    split
    · exact h.ahbServed i
    · exact h.of_same
  next =>
    split
    · exact h.ahbServed i
    · exact (h.windowed _).sized.ahbMoved

theorem ahbLanded (h : s.Undeliverable) (i : Nat) : (beAhbLand i s).Undeliverable := by
  unfold beAhbLand
  split
  · exact h.ahbMoved
  · exact (h.windowed _).sized.ahbMoved

theorem ahbByteLanded (h : s.Undeliverable) (i : Nat) : (beAhbLandByte i s).Undeliverable := by
  unfold beAhbLandByte
  split
  · exact h.ahbMoved
  · split
    · exact h.ahbLanded i
    · exact (h.windowed _).sized.ahbMoved

/-! ### Playing a LUT half -/

theorem phasePlayed (h : s.Undeliverable) (ph : LutPhase) : (playPhase ph s).Undeliverable := by
  have hmoved : (moveSeqPtr s).Undeliverable := h.of_same
  cases ph with
  | dataRead =>
    simp only [playPhase, beRxPushDrawn]
    split
    · split
      · exact (hmoved.pushed _).of_same
      · exact hmoved
    · exact hmoved
  | dataWrite =>
    simp only [playPhase]
    split
    · exact hmoved.taken
    · exact hmoved
  | nothing | command | address | dummy => exact hmoved

theorem unknownPlayed (h : s.Undeliverable) (slot : BitVec 5) : (playUnknown slot s).Undeliverable := by
  have hmoved : (moveSeqPtr s).Undeliverable := h.of_same
  unfold playUnknown
  simp only
  split
  · exact (hmoved.erred _ _ _ _).of_same
  · exact hmoved.of_same

theorem played (h : s.Undeliverable) (k : Fin 4) (src : SeqSource) : (bePlay k src s).Undeliverable := by
  unfold bePlay
  split
  next => exact h
  next hf =>
    obtain ⟨d, rfl⟩ := fetchHalf_frame hf
    split
    · exact phasePlayed h.of_same _
    · exact unknownPlayed h.of_same _

/-! ### DMA, and every turn -/

theorem dmaPopped (h : s.Undeliverable) (n : Nat) : (dmaPop n s).Undeliverable := by
  have hstay : dmaPop n s = s := if_neg (by rw [h.noDma]; decide)
  rwa [hstay]

theorem dmaPushed (h : s.Undeliverable) (es : List Entry) : (dmaPush es s).Undeliverable := by
  unfold dmaPush
  split
  · exact h.of_same
  · exact h

theorem afterTurn (h : s.Undeliverable) {ev : Event} (hreset : ev ≠ .reset) : (envStep ev s).Undeliverable := by
  cases ev with
  | engine | request r | access r => exact h
  | rxPush e => exact h.pushed e
  | txPop => exact h.taken
  | complete device => exact h.completed device
  | error b code id onAhb => exact h.erred b code id onAhb
  | arb seqIdle arbIdle src => exact h.arbitrated seqIdle arbIdle src
  | lock p slave reference => exact h.locked p slave reference
  | ahbServe i => exact h.ahbServed i
  | ahbByte i => exact h.ahbByteServed i
  | ahbLand i => exact h.ahbLanded i
  | ahbLandByte i => exact h.ahbByteLanded i
  | play k src => exact h.played k src
  | dmaPop n => exact h.dmaPopped n
  | dmaPush es => exact h.dmaPushed es
  | reset => exact absurd rfl hreset

/-! ### Window requests -/

theorem refused (h : s.Undeliverable) (c : Code) : (refuse c s).Undeliverable := h.of_same

theorem queued (h : s.Undeliverable) (a : WinAccess) : (queueAccess a s).Undeliverable := h.of_same

theorem admitted (h : s.Undeliverable) (a : WinAccess) : (admitAccess a s).Undeliverable := by
  unfold admitAccess
  split
  · exact h.queued a
  · exact h.served a

theorem requested (h : s.Undeliverable) (i : Instr) {go : State → State}
    (hgo : ∀ {s : State}, s.Undeliverable → (go s).Undeliverable) : (windowRequest i go s).Undeliverable := by
  unfold windowRequest
  split
  · exact h.sized.refused _
  · exact hgo h.sized

/-- A request on the window port never overlaps (R321). -/
theorem busyRequest (h : s.Undeliverable) {r : Request} (hr : onWindowPort r = true) : (requestWhileBusy r s).Undeliverable := by
  unfold requestWhileBusy
  split
  next e _ =>
    rw [rejectRequest, if_pos hr]
    exact h.refused _
  next i hdecode =>
    have hwindow : (windowAccess i).isSome = true := (windowAccess_of_decode hdecode).trans hr
    split
    next a _ => exact h.requested i fun h => h.admitted a
    next hnone => simp [hnone] at hwindow

theorem waitingRequest (h : s.Undeliverable) (r : Request) : (requestToWait r s).Undeliverable := by
  unfold requestToWait
  split
  next => exact h
  next i _ =>
    split
    next a _ => exact h.requested i fun h => h.queued a
    next => exact h

end State.Undeliverable

/-- Settles O21, turn by turn. -/
theorem longReadNeverCompletes : Obligations.LongReadNeverCompletes := by
  intro s h
  refine ⟨fun hsched => ?alone, fun ev rest hsched hrequest hreset => ?turn⟩
  case alone =>
    have htick : tick s = engStep s := by rw [tick, hsched]
    rw [htick]
    exact h.polled
  case turn =>
    have hnext : ({ s with sched := rest } : State).Undeliverable := h.of_same
    cases ev with
    | engine =>
      have htick : tick s = engStep { s with sched := rest } := by rw [tick, hsched]
      rw [htick]
      exact hnext.polled
    | request r =>
      rw [tick_request hsched]
      exact hnext.busyRequest (hrequest r rfl)
    | access r =>
      rw [tick_access hsched]
      exact hnext.waitingRequest r
    | _ =>
      rw [tick_event hsched (by simp) (by simp)]
      exact hnext.afterTurn hreset

end Sys2Proof.Machine

/-!
PROOF of O27. What AHBCFG's thirteen micro-steps leave (R240 to R244).
-/

namespace Sys2Proof.Machine

/-! ## Words of several fields -/

/-- A field no bit of the update touches. -/
theorem slice_setBits_other (old : Word) {mask bits : Word} {lo len : Nat} (hm : (~~~mask).extractLsb' lo len = BitVec.allOnes len)
    (hb : slice bits lo len = 0) : slice (setBits old mask bits) lo len = slice old lo len := by
  rw [setBits, slice_or, slice_and_keep _ hm, hb, Nat.or_zero]

/-- A field all of whose bits the update replaces. -/
theorem slice_setBits_same (old : Word) {mask bits : Word} {lo len : Nat} (hm : (~~~mask).extractLsb' lo len = 0) :
    slice (setBits old mask bits) lo len = slice bits lo len := by
  rw [setBits, slice_or, slice_and_clear _ hm, Nat.zero_or]

/-! ## The words AHBCFG writes (R30, R243, R244) -/

section Words
variable {r : List Word} (h : AhbRecordWithin r)
include h

/-- The four fields of a read buffer's word, and its reserved bits. -/
theorem bufferWord_fields (i : Fin 8) :
    slice (bufferWord r i.val) 0 8 = recordWord r (4 * i.val + 1) ∧ slice (bufferWord r i.val) 16 4 = recordWord r (4 * i.val) ∧
    slice (bufferWord r i.val) 24 3 = recordWord r (4 * i.val + 2) ∧
    slice (bufferWord r i.val) 31 1 = recordWord r (4 * i.val + 3) ∧ bufferWord r i.val &&& 0x78F0FF00 = 0 := by
  obtain ⟨hmaster, hsize, hpriority, hprefetch⟩ := h.buffers i.val i.isLt
  unfold bufferWord
  generalize recordWord r (4 * i.val) = master at *
  generalize recordWord r (4 * i.val + 1) = size at *
  generalize recordWord r (4 * i.val + 2) = priority at *
  generalize recordWord r (4 * i.val + 3) = prefetch at *
  have hmaster : master < 2 ^ 4 := by omega
  have hsize : size < 2 ^ 8 := by omega
  have hpriority : priority < 2 ^ 3 := by omega
  have hprefetch : prefetch < 2 ^ 1 := by omega
  have masterElse {lo len : Nat} := slice_place_other (lo := 16) (lo' := lo) (len' := len) hmaster
  have sizeElse {lo len : Nat} := slice_place_other (lo := 0) (lo' := lo) (len' := len) hsize
  have priorityElse {lo len : Nat} := slice_place_other (lo := 24) (lo' := lo) (len' := len) hpriority
  have prefetchElse {lo len : Nat} := slice_place_other (lo := 31) (lo' := lo) (len' := len) hprefetch
  refine ⟨?_, ?_, ?_, ?_, ?_⟩
  · rw [slice_or, slice_or, slice_or, prefetchElse (by decide), priorityElse (by decide), masterElse (by decide),
      slice_place_same hsize (by decide)]
    simp
  · rw [slice_or, slice_or, slice_or, prefetchElse (by decide), priorityElse (by decide), sizeElse (by decide),
      slice_place_same hmaster (by decide)]
    simp
  · rw [slice_or, slice_or, slice_or, prefetchElse (by decide), masterElse (by decide), sizeElse (by decide),
      slice_place_same hpriority (by decide)]
    simp
  · rw [slice_or, slice_or, slice_or, priorityElse (by decide), masterElse (by decide), sizeElse (by decide),
      slice_place_same hprefetch (by decide)]
    simp
  · exact and_eq_zero_of_or (and_eq_zero_of_or (and_eq_zero_of_or (place_and hprefetch (by decide))
      (place_and hpriority (by decide))) (place_and hmaster (by decide))) (place_and hsize (by decide))

/-- The MCR2 fields, and the bits of MCR2 that are none. -/
theorem ahbMcr2Bits_fields (old : Word) :
    slice (setBits old 0xFF088800 (ahbMcr2Bits r)) 24 8 = recordWord r 34 ∧
    slice (setBits old 0xFF088800 (ahbMcr2Bits r)) 15 1 = recordWord r 35 ∧
    slice (setBits old 0xFF088800 (ahbMcr2Bits r)) 19 1 = recordWord r 36 ∧
    slice (setBits old 0xFF088800 (ahbMcr2Bits r)) 11 1 = recordWord r 37 ∧
    setBits old 0xFF088800 (ahbMcr2Bits r) &&& 0x00F777FF = old &&& 0x00F777FF := by
  have hresume : recordWord r 34 < 2 ^ 8 := by have := h.resume; omega
  have flag {i : Nat} (hlo : 35 ≤ i := by decide) (hhi : i ≤ 41 := by decide) : recordWord r i < 2 ^ 1 := by
    have := h.flags i hlo hhi
    omega
  have resumeElse {lo len : Nat} := slice_place_other (lo := 24) (lo' := lo) (len' := len) hresume
  have other {i lo lo' len' : Nat} (hp : lo' + len' ≤ lo ∨ lo + 1 ≤ lo') (hlo : 35 ≤ i := by decide) (hhi : i ≤ 41 := by decide) :
      slice (place (recordWord r i) lo) lo' len' = 0 := slice_place_other (flag hlo hhi) hp
  refine ⟨?_, ?_, ?_, ?_, setBits_and (by decide) ?_ old⟩
  · rw [slice_setBits_same _ (by decide), ahbMcr2Bits, slice_or, slice_or, slice_or, other (i := 36) (by decide),
      other (i := 35) (by decide), other (i := 37) (by decide), slice_place_same hresume (by decide)]
    simp
  · rw [slice_setBits_same _ (by decide), ahbMcr2Bits, slice_or, slice_or, slice_or, other (i := 36) (by decide),
      resumeElse (by decide), other (i := 37) (by decide), slice_place_same flag (by decide)]
    simp
  · rw [slice_setBits_same _ (by decide), ahbMcr2Bits, slice_or, slice_or, slice_or, other (i := 35) (by decide),
      resumeElse (by decide), other (i := 37) (by decide), slice_place_same flag (by decide)]
    simp
  · rw [slice_setBits_same _ (by decide), ahbMcr2Bits, slice_or, slice_or, slice_or, other (i := 35) (by decide),
      resumeElse (by decide), other (i := 36) (by decide), slice_place_same flag (by decide)]
    simp
  · exact and_eq_zero_of_or (and_eq_zero_of_or (and_eq_zero_of_or (place_and hresume (by decide))
      (place_and flag (by decide))) (place_and flag (by decide))) (place_and flag (by decide))

/-- The AHBCR fields, and the bits of AHBCR that are none. -/
theorem ahbcrBits_fields (old : Word) :
    slice (setBits old 0x00000078 (ahbcrBits r)) 6 1 = recordWord r 38 ∧
    slice (setBits old 0x00000078 (ahbcrBits r)) 5 1 = recordWord r 39 ∧
    slice (setBits old 0x00000078 (ahbcrBits r)) 4 1 = recordWord r 40 ∧
    slice (setBits old 0x00000078 (ahbcrBits r)) 3 1 = recordWord r 41 ∧
    setBits old 0x00000078 (ahbcrBits r) &&& 0xFFFFFF87 = old &&& 0xFFFFFF87 := by
  have flag {i : Nat} (hlo : 35 ≤ i := by decide) (hhi : i ≤ 41 := by decide) : recordWord r i < 2 ^ 1 := by
    have := h.flags i hlo hhi
    omega
  have other {i lo lo' len' : Nat} (hp : lo' + len' ≤ lo ∨ lo + 1 ≤ lo') (hlo : 35 ≤ i := by decide) (hhi : i ≤ 41 := by decide) :
      slice (place (recordWord r i) lo) lo' len' = 0 := slice_place_other (flag hlo hhi) hp
  refine ⟨?_, ?_, ?_, ?_, setBits_and (by decide) ?_ old⟩
  · rw [slice_setBits_same _ (by decide), ahbcrBits, slice_or, slice_or, slice_or, other (i := 39) (by decide),
      other (i := 40) (by decide), other (i := 41) (by decide), slice_place_same flag (by decide)]
    simp
  · rw [slice_setBits_same _ (by decide), ahbcrBits, slice_or, slice_or, slice_or, other (i := 38) (by decide),
      other (i := 40) (by decide), other (i := 41) (by decide), slice_place_same flag (by decide)]
    simp
  · rw [slice_setBits_same _ (by decide), ahbcrBits, slice_or, slice_or, slice_or, other (i := 38) (by decide),
      other (i := 39) (by decide), other (i := 41) (by decide), slice_place_same flag (by decide)]
    simp
  · rw [slice_setBits_same _ (by decide), ahbcrBits, slice_or, slice_or, slice_or, other (i := 38) (by decide),
      other (i := 39) (by decide), other (i := 40) (by decide), slice_place_same flag (by decide)]
    simp
  · exact and_eq_zero_of_or (and_eq_zero_of_or (and_eq_zero_of_or (place_and flag (by decide))
      (place_and flag (by decide))) (place_and flag (by decide))) (place_and flag (by decide))

end Words

/-! ## The writes -/

/-- AHBCFG's writes, behind its check of MDIS (R240). -/
def ahbWrites (r : List Word) : List Micro :=
  ((List.finRange 8).map fun i => ⟨.configuring, .write (.ahbrxbufcr0 i) (bufferWord r i.val)⟩) ++
  [⟨.configuring, .field .mcr0 (fieldMask 24 8) (place (recordWord r 32) 24)⟩,
   ⟨.configuring, .field .mcr1 (fieldMask 0 16) (place (recordWord r 33) 0)⟩,
   ⟨.configuring, .field .mcr2 0xFF088800 (ahbMcr2Bits r)⟩,
   ⟨.configuring, .field .ahbcr 0x00000078 (ahbcrBits r)⟩]

theorem ahbConfigure_eq (r : List Word) : ahbConfigure r = ⟨.configuring, .readModuleDisable⟩ :: ahbWrites r := rfl

theorem ahbWrites_plain (r : List Word) : (ahbWrites r).all Micro.plain = true := rfl

/-- Some of the buffers one after the other. -/
theorem applyAll_bufferWrites (f : Fin 8 → Word) (l : List (Fin 8)) (s : State) :
    applyAll (l.map fun i => ⟨.configuring, .write (.ahbrxbufcr0 i) (f i)⟩) s =
      { s with regs.ahbrxbufcr0 := l.foldl (fun words (i : Fin 8) => words.set i (f i)) s.regs.ahbrxbufcr0 } := by
  induction l generalizing s with
  | nil => rfl
  | cons i l ih =>
    exact ih { s with regs.ahbrxbufcr0 := s.regs.ahbrxbufcr0.set i (f i) }

/-- The eight buffers one after the other are all of them. -/
theorem applyAll_buffers (f : Fin 8 → Word) (s : State) :
    applyAll ((List.finRange 8).map fun i => ⟨.configuring, .write (.ahbrxbufcr0 i) (f i)⟩) s =
      { s with regs.ahbrxbufcr0 := Vector.ofFn f } := by
  have hall : (List.finRange 8).foldl (fun words (i : Fin 8) => words.set i (f i)) s.regs.ahbrxbufcr0 = Vector.ofFn f := by
    rw [show List.finRange 8 = [0, 1, 2, 3, 4, 5, 6, 7] from by decide]
    ext i hi
    interval_cases i <;> simp
  rw [applyAll_bufferWrites, hall]

/-- MCR0's high byte alone changes, so the module stays as it was, and no lock bit is touched (R22, log entry 24). -/
theorem regField_grant {r : List Word} (h : AhbRecordWithin r) {s : State} (hs : s.Consistent) :
    regField .mcr0 (fieldMask 24 8) (place (recordWord r 32) 24) s =
      { s with regs.mcr0 := setBits s.regs.mcr0 (fieldMask 24 8) (place (recordWord r 32) 24) } :=
  regField_mcr0_keep hs (place_and (len := 8) (by have := h.grant; omega) (by decide)) (.inl (by decide))

/-- What AHBCFG's writes leave with the module disabled: BACKEND's use of MCR2 and AHBCR is settled (R408). -/
theorem applyAll_ahbWrites {r : List Word} (h : AhbRecordWithin r) {s : State} (hs : s.Consistent)
    (hd : moduleDisabled s = true) :
    applyAll (ahbWrites r) s = { s with
      regs.ahbrxbufcr0 := Vector.ofFn fun i : Fin 8 => bufferWord r i.val
      regs.mcr0 := setBits s.regs.mcr0 (fieldMask 24 8) (place (recordWord r 32) 24)
      regs.mcr1 := setBits s.regs.mcr1 (fieldMask 0 16) (place (recordWord r 33) 0)
      regs.mcr2 := setBits s.regs.mcr2 0xFF088800 (ahbMcr2Bits r)
      regs.ahbcr := setBits s.regs.ahbcr 0x00000078 (ahbcrBits r)
      unsettledMcr2 := false, unsettledAhbcr := false } := by
  have hbit : (setBits s.regs.mcr0 (fieldMask 24 8) (place (recordWord r 32) 24)).getLsbD 1 = true := by
    rw [getLsbD_setBits _ _ _ 1 (by decide), show s.regs.mcr0.getLsbD 1 = true from hd]
    rfl
  have hbuffers : ({ s with regs.ahbrxbufcr0 := Vector.ofFn fun i : Fin 8 => bufferWord r i.val } : State).Consistent :=
    hs.of_same
  rw [ahbWrites, applyAll_append, applyAll_buffers]
  simp only [applyAll, List.foldl, Micro.apply]
  rw [regField_grant h hbuffers]
  simp only [regField, regWrite, regStored, regShows, Option.getD_some, moduleDisabled, hbit, Bool.not_true]

/-- Settles O27, by the check of MDIS; the writes are field by field. -/
theorem ahbcfgWritesItsFields : Obligations.AhbcfgWritesItsFields := by
  intro s r hready hs hsched hrecord
  have hwithin := ahbRecordWithin hrecord
  have hgate : gate (.ahbcfg r) s = none := gate_none (modeAllows_of_not_ramOnly rfl rfl _) hrecord rfl rfl
  have hexec : exec (.ahbcfg r) s = .next (run (configureOperation (.ahbcfg r) (ahbConfigure r) .done s)) :=
    accept_run hready hgate
  obtain ⟨n, hrun⟩ := run_eq_drive (s := configureOperation (.ahbcfg r) (ahbConfigure r) .done s) (k := 13)
    (Nat.le_trans (by omega) (le_budget _))
  have hfirst : drive (n + 13) (s.at ((s.eng.opened (.ahbcfg r) none .done).withProgram (ahbConfigure r)) []) =
      drive (n + 12) (if moduleDisabled s then
        proceed (ahbWrites r) (s.at ((s.eng.opened (.ahbcfg r) none .done).withProgram (ahbConfigure r)) [])
        else s.at (Engine.idle (some (resultOf .moduleEnabled 0 []))) []) := by
    rw [ahbConfigure_eq, drive_alone s _ (n + 12) hready.1 (by simp) (waiting_other _ _ _ _ (by simp)),
      engStep_cons _ _ _ _ _ hready.1]
    simp only [actStep, regRead_at, regRead_shows (r := .mcr0) hready.1 rfl]
    rfl
  rw [hexec, hrun, configureOperation, begin_at, hsched, hfirst]
  refine ⟨fun hd => ?enabled, fun hd => ?disabled⟩
  case enabled =>
    rw [hd, if_neg (by decide), drive_idle]
    exact congrArg Host.Outcome.next (at_idle hsched _)
  case disabled =>
    have hwrites := drive_writes_done (ahbWrites_plain r) (by simp [ahbWrites]) s
      (e := s.eng.opened (.ahbcfg r) none .done) rfl rfl [] [] n hready.1 (.alone _)
    rw [applyAll_ahbWrites hwithin hs hd] at hwrites
    refine ⟨Vector.ofFn fun i : Fin 8 => bufferWord r i.val, setBits s.regs.mcr0 (fieldMask 24 8) (place (recordWord r 32) 24),
      setBits s.regs.mcr1 (fieldMask 0 16) (place (recordWord r 33) 0), setBits s.regs.mcr2 0xFF088800 (ahbMcr2Bits r),
      setBits s.regs.ahbcr 0x00000078 (ahbcrBits r), ?state, fun i => ?buffer, ?grant, ?grantKept, ?bus, ?busKept, ?mcr2⟩
    case state =>
      rw [hd, if_pos rfl]
      refine congrArg Host.Outcome.next (hwrites.trans ?_)
      rw [← hsched]
      rfl
    case buffer =>
      simp only [Fin.getElem_fin, Vector.getElem_ofFn]
      exact bufferWord_fields hwithin i
    case grant => exact slice_setBits_field _ (by have := hwithin.grant; omega) (by decide)
    case grantKept => exact setBits_and (by decide) (place_and (len := 8) (by have := hwithin.grant; omega) (by decide)) _
    case bus => exact slice_setBits_field _ (by have := hwithin.bus; omega) (by decide)
    case busKept => exact setBits_and (by decide) (place_and (len := 16) (by have := hwithin.bus; omega) (by decide)) _
    case mcr2 =>
      obtain ⟨hresume, hsame, hdiff, hclear, hkept⟩ := ahbMcr2Bits_fields hwithin s.regs.mcr2
      exact ⟨hresume, hsame, hdiff, hclear, hkept, ahbcrBits_fields hwithin s.regs.ahbcr⟩

end Sys2Proof.Machine

/-!
PROOF of O36. DEVCFG (R268 to R276): its wait for an idle arbiter, its writes, its wait for the lock of its port's DLL.
-/

namespace Sys2Proof.Machine

/-! ## The binding's ranges (R262) -/

/-- The ranges of R262 that the words DEVCFG writes rest on. -/
structure BindingRanges (b : Binding) : Prop where
  size : b.flashSizeKb < 2 ^ 23
  intervalUnit : b.csIntervalUnit < 2 ^ 1
  interval : b.csInterval < 2 ^ 16
  hold : b.csHold < 2 ^ 5
  setup : b.csSetup < 2 ^ 5
  wordAddressing : b.wordAddressing < 2 ^ 1
  writeMask : b.writeMask < 2 ^ 1
  ardId : b.ardSeqId < 2 ^ 5
  ardCount : b.ardSeqCount - 1 < 2 ^ 3
  awrId : b.awrSeqId < 2 ^ 5
  awrCount : b.awrSeqCount - 1 < 2 ^ 3
  cas : b.cas < 2 ^ 4
  waitUnit : b.awrWaitUnit < 2 ^ 3

theorem bindingRanges {b : Binding} (h : bindingWithin b = true) : BindingRanges b := by
  simp only [bindingWithin, Bool.and_eq_true, decide_eq_true_eq] at h
  constructor <;> omega

/-! ## The words DEVCFG writes -/

/-- A field update that DEVCFG makes only for a count above 0 (R273, R274). -/
def updatedIf (n : Nat) (mask bits w : Word) : Word :=
  if n = 0 then w else setBits w mask bits

theorem slice_updatedIf_other (n : Nat) {mask bits : Word} {lo len : Nat} (w : Word)
    (hm : (~~~mask).extractLsb' lo len = BitVec.allOnes len) (hb : slice bits lo len = 0) :
    slice (updatedIf n mask bits w) lo len = slice w lo len := by
  unfold updatedIf
  split
  · rfl
  · exact slice_setBits_other w hm hb

theorem slice_updatedIf_same {n : Nat} (hn : n ≠ 0) {mask bits : Word} {lo len : Nat} (w : Word)
    (hm : (~~~mask).extractLsb' lo len = 0) : slice (updatedIf n mask bits w) lo len = slice bits lo len := by
  rw [updatedIf, if_neg hn, slice_setBits_same w hm]

theorem updatedIf_and (n : Nat) {mask bits m : Word} (w : Word) (hm : mask &&& m = 0) (hb : bits &&& m = 0) :
    updatedIf n mask bits w &&& m = w &&& m := by
  unfold updatedIf
  split
  · rfl
  · exact setBits_and hm hb w

/-- The read sequence's fields of FLSHCR2 (R273). -/
def readBits (b : Binding) : Word :=
  place b.ardSeqId 0 ||| place (b.ardSeqCount - 1) 5

/-- The write sequence's fields of FLSHCR2 (R274). -/
def writeBits (b : Binding) : Word :=
  place b.awrSeqId 8 ||| place (b.awrSeqCount - 1) 13

/-- FLSHCR2 of the bound bank once DEVCFG has written it (R272 to R274). -/
def bankWord (b : Binding) (old : Word) : Word :=
  updatedIf b.awrSeqCount (fieldMask 8 8) (writeBits b) (updatedIf b.ardSeqCount (fieldMask 0 8) (readBits b)
    (setBits old (fieldMask 28 3) (place b.awrWaitUnit 28)))

section Words
variable {b : Binding} (h : BindingRanges b)
include h

theorem readBits_and {m : Word} (hid : m.extractLsb' 0 5 = 0) (hcount : m.extractLsb' 5 3 = 0) : readBits b &&& m = 0 :=
  and_eq_zero_of_or (place_and h.ardId hid) (place_and h.ardCount hcount)

theorem writeBits_and {m : Word} (hid : m.extractLsb' 8 5 = 0) (hcount : m.extractLsb' 13 3 = 0) : writeBits b &&& m = 0 :=
  and_eq_zero_of_or (place_and h.awrId hid) (place_and h.awrCount hcount)

theorem slice_readBits_other {lo len : Nat} (hlo : 8 ≤ lo) : slice (readBits b) lo len = 0 := by
  rw [readBits, slice_or, slice_place_other h.ardId (.inr (by omega)), slice_place_other h.ardCount (.inr (by omega))]
  rfl

theorem slice_writeBits_other {lo len : Nat} (hlo : lo + len ≤ 8 ∨ 16 ≤ lo) : slice (writeBits b) lo len = 0 := by
  rw [writeBits, slice_or, slice_place_other h.awrId (by omega), slice_place_other h.awrCount (by omega)]
  rfl

/-- The three field groups of FLSHCR2, and the bits DEVCFG leaves. -/
theorem bankWord_fields (old : Word) :
    slice (bankWord b old) 28 3 = b.awrWaitUnit ∧ bankWord b old &&& 0x0FFF0000 = old &&& 0x0FFF0000 ∧
    (if b.ardSeqCount = 0 then slice (bankWord b old) 0 8 = slice old 0 8
      else slice (bankWord b old) 0 5 = b.ardSeqId ∧ slice (bankWord b old) 5 3 = b.ardSeqCount - 1) ∧
    (if b.awrSeqCount = 0 then slice (bankWord b old) 8 8 = slice old 8 8
      else slice (bankWord b old) 8 5 = b.awrSeqId ∧ slice (bankWord b old) 13 3 = b.awrSeqCount - 1) := by
  have unitElse {lo len : Nat} (hlo : lo + len ≤ 28) : slice (place b.awrWaitUnit 28) lo len = 0 :=
    slice_place_other h.waitUnit (.inl hlo)
  refine ⟨?unit, ?kept, ?read, ?write⟩
  case unit =>
    rw [bankWord, slice_updatedIf_other _ _ (by decide) (slice_writeBits_other h (.inr (by decide))),
      slice_updatedIf_other _ _ (by decide) (slice_readBits_other h (by decide)), slice_setBits_field old h.waitUnit (by decide)]
  case kept =>
    rw [bankWord, updatedIf_and _ _ (by decide) (writeBits_and h (by decide) (by decide)),
      updatedIf_and _ _ (by decide) (readBits_and h (by decide) (by decide)),
      setBits_and (by decide) (place_and h.waitUnit (by decide))]
  case read =>
    split
    case isTrue hzero =>
      rw [bankWord, slice_updatedIf_other _ _ (by decide) (slice_writeBits_other h (.inl (by decide))), updatedIf, if_pos hzero,
        slice_setBits_other old (by decide) (unitElse (by decide))]
    case isFalse hcount =>
      constructor
      · rw [bankWord, slice_updatedIf_other _ _ (by decide) (slice_writeBits_other h (.inl (by decide))),
          slice_updatedIf_same hcount _ (by decide), readBits, slice_or, slice_place_same h.ardId (by decide),
          slice_place_other h.ardCount (.inl (by decide)), Nat.or_zero]
      · rw [bankWord, slice_updatedIf_other _ _ (by decide) (slice_writeBits_other h (.inl (by decide))),
          slice_updatedIf_same hcount _ (by decide), readBits, slice_or, slice_place_same h.ardCount (by decide),
          slice_place_other h.ardId (.inr (by decide)), Nat.zero_or]
  case write =>
    split
    case isTrue hzero =>
      rw [bankWord, updatedIf, if_pos hzero, slice_updatedIf_other _ _ (by decide) (slice_readBits_other h (by decide)),
        slice_setBits_other old (by decide) (unitElse (by decide))]
    case isFalse hcount =>
      constructor
      · rw [bankWord, slice_updatedIf_same hcount _ (by decide), writeBits, slice_or, slice_place_same h.awrId (by decide),
          slice_place_other h.awrCount (.inl (by decide)), Nat.or_zero]
      · rw [bankWord, slice_updatedIf_same hcount _ (by decide), writeBits, slice_or, slice_place_same h.awrCount (by decide),
          slice_place_other h.awrId (.inr (by decide)), Nat.zero_or]

/-- FLSHCR1 (R32). -/
theorem timingWord_fields :
    slice (timingWord b) 0 5 = b.csSetup ∧ slice (timingWord b) 5 5 = b.csHold ∧
    slice (timingWord b) 10 1 = b.wordAddressing ∧ slice (timingWord b) 11 4 = b.cas ∧
    slice (timingWord b) 15 1 = b.csIntervalUnit ∧ slice (timingWord b) 16 16 = b.csInterval := by
  have setup {lo len : Nat} := slice_place_other (lo := 0) (lo' := lo) (len' := len) h.setup
  have hold {lo len : Nat} := slice_place_other (lo := 5) (lo' := lo) (len' := len) h.hold
  have word {lo len : Nat} := slice_place_other (lo := 10) (lo' := lo) (len' := len) h.wordAddressing
  have cas {lo len : Nat} := slice_place_other (lo := 11) (lo' := lo) (len' := len) h.cas
  have unit {lo len : Nat} := slice_place_other (lo := 15) (lo' := lo) (len' := len) h.intervalUnit
  have interval {lo len : Nat} := slice_place_other (lo := 16) (lo' := lo) (len' := len) h.interval
  simp only [timingWord, slice_or]
  refine ⟨?_, ?_, ?_, ?_, ?_, ?_⟩
  · rw [interval (by decide), unit (by decide), cas (by decide), word (by decide), hold (by decide),
      slice_place_same h.setup (by decide)]
    simp
  · rw [interval (by decide), unit (by decide), cas (by decide), word (by decide), setup (by decide),
      slice_place_same h.hold (by decide)]
    simp
  · rw [interval (by decide), unit (by decide), cas (by decide), hold (by decide), setup (by decide),
      slice_place_same h.wordAddressing (by decide)]
    simp
  · rw [interval (by decide), unit (by decide), word (by decide), hold (by decide), setup (by decide),
      slice_place_same h.cas (by decide)]
    simp
  · rw [interval (by decide), cas (by decide), word (by decide), hold (by decide), setup (by decide),
      slice_place_same h.intervalUnit (by decide)]
    simp
  · rw [unit (by decide), cas (by decide), word (by decide), hold (by decide), setup (by decide),
      slice_place_same h.interval (by decide)]
    simp

end Words

/-! ## The writes -/

/-- DEVCFG's first five writes (R270 to R272). -/
def deviceFirst (b : Binding) (c : ControllerRecord) : List Micro :=
  [⟨.configuring, .write (.dllcr (portIndex b.port)) (dllValue c)⟩,
   ⟨.configuring, .field .flshcr4 (fieldMask (writeMaskBit (portIndex b.port)) 1)
     (place b.writeMask (writeMaskBit (portIndex b.port)))⟩,
   ⟨.configuring, .field (.flshcr0 (bankIndex b)) (fieldMask 0 23) (place b.flashSizeKb 0)⟩,
   ⟨.configuring, .write (.flshcr1 (bankIndex b)) (timingWord b)⟩,
   ⟨.configuring, .field (.flshcr2 (bankIndex b)) (fieldMask 28 3) (place b.awrWaitUnit 28)⟩]

/-- DEVCFG's writes, between its two polls (R270 to R275). -/
def deviceWrites (b : Binding) (c : ControllerRecord) : List Micro :=
  deviceFirst b c ++ readSequence b ++ writeSequence b ++ [⟨.configuring, .field .mcr0 (fieldMask 1 1) 0⟩]

/-- What is left once DEVCFG has written: the wait for the lock, and the settle delay (R276). -/
def lockWait (p : Params) : List Micro :=
  [⟨.configuring, .poll .sts2 (.bits (lockMask (portIndex p.binding.port)))⟩, ⟨.configuring, .delay p.settleCycles⟩]

theorem deviceConfigure_eq (p : Params) (c : ControllerRecord) : deviceConfigure p c =
    ⟨.configuring, .poll .sts0 (.bits idleMask)⟩ :: (deviceWrites p.binding c ++ lockWait p) := by
  simp [deviceConfigure, deviceWrites, deviceFirst, lockWait]

theorem deviceWrites_plain (b : Binding) (c : ControllerRecord) : (deviceWrites b c).all Micro.plain = true := by
  have hread : (readSequence b).all Micro.plain = true := by
    unfold readSequence
    split <;> rfl
  have hwrite : (writeSequence b).all Micro.plain = true := by
    unfold writeSequence
    split <;> rfl
  rw [deviceWrites, List.all_append, List.all_append, List.all_append, hread, hwrite]
  rfl

theorem deviceWrites_length (b : Binding) (c : ControllerRecord) :
    (deviceWrites b c).length = 6 + (if b.ardSeqCount = 0 then 0 else 1) + (if b.awrSeqCount = 0 then 0 else 1) := by
  unfold deviceWrites readSequence writeSequence
  split <;> split <;> rfl

/-- FLSHCR2 stores no bit 31, and no update of another field brings one (R33). -/
theorem setBits_bit31 {w mask bits : Word} (hw : w.getLsbD 31 = false) (hb : bits &&& ~~~mask = 0)
    (hm : mask.getLsbD 31 = false) : (setBits w mask bits).getLsbD 31 = false := by
  rw [getLsbD_setBits _ _ _ 31 (by decide), hw, getLsbD_of_within hb (by decide) hm]
  rfl

theorem updatedIf_bit31 (n : Nat) {w mask bits : Word} (hw : w.getLsbD 31 = false) (hb : bits &&& ~~~mask = 0)
    (hm : mask.getLsbD 31 = false) : (updatedIf n mask bits w).getLsbD 31 = false := by
  unfold updatedIf
  split
  · exact hw
  · exact setBits_bit31 hw hb hm

theorem bankWord_bit31 {b : Binding} (h : BindingRanges b) {old : Word} (hold : old.getLsbD 31 = false) :
    (bankWord b old).getLsbD 31 = false :=
  updatedIf_bit31 _ (updatedIf_bit31 _ (setBits_bit31 hold (place_and h.waitUnit (by decide)) (by decide))
    (readBits_and h (by decide) (by decide)) (by decide)) (writeBits_and h (by decide) (by decide)) (by decide)

/-- The state with a word in FLSHCR2 of a bank. -/
def State.withBankWord (k : Fin 4) (w : Word) (s : State) : State :=
  { s with regs.flshcr2 := s.regs.flshcr2.set k w }

theorem regField_flshcr2 {s : State} {k : Fin 4} {w mask bits : Word} (hw : (setBits w mask bits).getLsbD 31 = false) :
    regField (.flshcr2 k) mask bits (s.withBankWord k w) = s.withBankWord k (setBits w mask bits) := by
  have hstored : regStored (.flshcr2 k) (s.withBankWord k w) = w := by
    simp [regStored, regShows, State.withBankWord]
  rw [regField, hstored, regWrite_flshcr2_keep hw]
  simp [State.withBankWord]

theorem applyAll_readSequence {b : Binding} (h : BindingRanges b) (s : State) {w : Word} (hw : w.getLsbD 31 = false) :
    applyAll (readSequence b) (s.withBankWord (bankIndex b) w) =
      s.withBankWord (bankIndex b) (updatedIf b.ardSeqCount (fieldMask 0 8) (readBits b) w) := by
  unfold readSequence updatedIf
  split
  · rfl
  · exact regField_flshcr2 (setBits_bit31 hw (readBits_and h (by decide) (by decide)) (by decide))

theorem applyAll_writeSequence {b : Binding} (h : BindingRanges b) (s : State) {w : Word} (hw : w.getLsbD 31 = false) :
    applyAll (writeSequence b) (s.withBankWord (bankIndex b) w) =
      s.withBankWord (bankIndex b) (updatedIf b.awrSeqCount (fieldMask 8 8) (writeBits b) w) := by
  unfold writeSequence updatedIf
  split
  · rfl
  · exact regField_flshcr2 (setBits_bit31 hw (writeBits_and h (by decide) (by decide)) (by decide))

/-- The state once DEVCFG has written, before BACKEND locks the DLL. -/
def State.deviceConfigured (b : Binding) (c : ControllerRecord) (s : State) : State :=
  { s with
    regs.dllcr := s.regs.dllcr.set (portIndex b.port) (dllValue c)
    regs.flshcr4 := setBits s.regs.flshcr4 (fieldMask (writeMaskBit (portIndex b.port)) 1)
      (place b.writeMask (writeMaskBit (portIndex b.port)))
    regs.flshcr0 := s.regs.flshcr0.set (bankIndex b)
      (setBits s.regs.flshcr0[bankIndex b] (fieldMask 0 23) (place b.flashSizeKb 0))
    regs.flshcr1 := s.regs.flshcr1.set (bankIndex b) (timingWord b)
    regs.flshcr2 := s.regs.flshcr2.set (bankIndex b) (bankWord b s.regs.flshcr2[bankIndex b])
    regs.mcr0 := s.regs.mcr0 &&& ~~~2
    regs.sts2 := s.regs.sts2 &&& ~~~lockMask (portIndex b.port) }

/-- MCR0 with MDIS replaced by 0 has it at 0: the module is enabled and no lock bit touched (R22, R275). -/
theorem regField_enable (s : State) : regField .mcr0 (fieldMask 1 1) 0 s = { s with regs.mcr0 := s.regs.mcr0 &&& ~~~2 } := by
  have hword : setBits s.regs.mcr0 (fieldMask 1 1) 0 = s.regs.mcr0 &&& ~~~2 := BitVec.or_zero
  have hbit : (s.regs.mcr0 &&& ~~~(2 : Word)).getLsbD 1 = false := by
    rw [BitVec.getLsbD_and]
    exact Bool.and_false _
  rw [regField, show regStored .mcr0 s = s.regs.mcr0 from rfl, hword, regWrite_mcr0_enable hbit]

theorem applyAll_deviceWrites {b : Binding} (h : BindingRanges b) (c : ControllerRecord) {s : State}
    (hbit : s.regs.flshcr2[bankIndex b].getLsbD 31 = false) :
    applyAll (deviceWrites b c) s = s.deviceConfigured b c := by
  have hunit : (setBits s.regs.flshcr2[bankIndex b] (fieldMask 28 3) (place b.awrWaitUnit 28)).getLsbD 31 = false :=
    setBits_bit31 hbit (place_and h.waitUnit (by decide)) (by decide)
  have hread := updatedIf_bit31 b.ardSeqCount hunit (readBits_and h (m := ~~~fieldMask 0 8) (by decide) (by decide)) (by decide)
  have hfirst : applyAll (deviceFirst b c) s = ({ s with
      regs.dllcr := s.regs.dllcr.set (portIndex b.port) (dllValue c)
      regs.flshcr4 := setBits s.regs.flshcr4 (fieldMask (writeMaskBit (portIndex b.port)) 1)
        (place b.writeMask (writeMaskBit (portIndex b.port)))
      regs.flshcr0 := s.regs.flshcr0.set (bankIndex b)
        (setBits s.regs.flshcr0[bankIndex b] (fieldMask 0 23) (place b.flashSizeKb 0))
      regs.flshcr1 := s.regs.flshcr1.set (bankIndex b) (timingWord b)
      regs.sts2 := s.regs.sts2 &&& ~~~lockMask (portIndex b.port) } : State).withBankWord (bankIndex b)
        (setBits s.regs.flshcr2[bankIndex b] (fieldMask 28 3) (place b.awrWaitUnit 28)) := regWrite_flshcr2_keep hunit _ _
  rw [deviceWrites, applyAll_append, applyAll_append, applyAll_append, hfirst, applyAll_readSequence h _ hunit,
    applyAll_writeSequence h _ hread]
  exact regField_enable _

/-! ## The run -/

theorem idle_holds (w : Word) : PollCond.holds (.bits idleMask) w = true ↔ w &&& 3 = 3 := by
  simp [PollCond.holds, idleMask]

/-- A port's lock bits cleared do not read as locked; set, they do. -/
theorem lock_clear (p : Fin 2) (w : Word) : PollCond.holds (.bits (lockMask p)) (w &&& ~~~lockMask p) = false := by
  have hne : lockMask p ≠ 0 := by revert p; decide
  rw [PollCond.holds, BitVec.and_assoc, BitVec.and_comm (~~~lockMask p), BitVec.and_not_self,
    show w &&& 0 = 0 from BitVec.and_zero]
  exact beq_eq_false_iff_ne.mpr hne.symm

theorem lock_set (p : Fin 2) (w : Word) : PollCond.holds (.bits (lockMask p)) (w ||| lockMask p) = true := by
  rw [PollCond.holds, beq_iff_eq]
  ext i hi
  simp only [BitVec.getElem_and, BitVec.getElem_or]
  grind

/-- BACKEND locks a port whose lock bits were cleared (R68). -/
theorem beLock_cleared {s : State} (p : Fin 2) (w : Word) (hm : moduleDisabled s = false)
    (hs : s.regs.sts2 = w &&& ~~~lockMask p) : beLock p true true s = { s with regs.sts2 := w ||| lockMask p } := by
  have hbits : lockBits p true true = lockMask p := by clear hs; revert p; decide
  have hword : setBits (w &&& ~~~lockMask p) (lockMask p) (lockMask p) = w ||| lockMask p := by
    ext i hi
    simp only [setBits, BitVec.getElem_and, BitVec.getElem_or, BitVec.getElem_not]
    grind
  rw [beLock, hm, if_neg (by decide), hbits, hs, hword]

/-- An operation that runs up to a poll whose condition fails, with no other agent moving: it waits, or times out (R362). -/
theorem waits_at_poll {s t : State} {i : Instr} {e : Engine} {ph : Phase} {r : Reg} {c : PollCond} {v : Word} {rest : List Micro}
    (hf : t.fault = none) (hq : t.sched = []) (hp : ph ≠ .idle) (hr : regShows r t = some v) (hc : c.holds v = false)
    (hexec : ∀ j ≤ 256 + t.params.pollLimit.getD 0, ∃ n, exec i s =
      .next (drive (n + j) (t.at (e.withProgram (⟨ph, .poll r c⟩ :: rest)) []))) :
    (t.params.pollLimit = none → exec i s = .next { t with eng := e.withProgram (⟨ph, .poll r c⟩ :: rest) } ∧
      step { t with eng := e.withProgram (⟨ph, .poll r c⟩ :: rest) } =
        .next { t with eng := e.withProgram (⟨ph, .poll r c⟩ :: rest) }) ∧
    ∀ limit, t.params.pollLimit = some limit →
      exec i s = .next (t.answered (resultOf .timeout (BitVec.ofNat 32 (max limit 1)) [])) := by
  have hat : t.at (e.withProgram (⟨ph, .poll r c⟩ :: rest)) [] =
      { t with eng := e.withProgram (⟨ph, .poll r c⟩ :: rest) } := by
    rw [← hq]
    rfl
  constructor
  · intro hlimit
    obtain ⟨n, hrun⟩ := hexec 0 (by omega)
    have hwait := settled_wait t e ph rest hf hlimit hr hc
    rw [drive_settled hwait, hat] at hrun
    exact ⟨hrun, step_settled hf hp hq (hat ▸ hwait)⟩
  · intro limit hlimit
    obtain ⟨n, hrun⟩ := hexec (max limit 1) (by rw [hlimit, Option.getD_some]; omega)
    rw [hrun, drive_timeout t e ph rest n hf hp hlimit hr hc]
    exact congrArg Host.Outcome.next (at_idle hq _)

/-- The engine that DEVCFG starts with. -/
def configuringDevice (s : State) (r : List Word) : Engine :=
  s.eng.opened (.devcfg r) none .done

theorem exec_devcfg {s : State} {r : List Word} (hready : s.Ready) (hr : recordOk controllerBounds r = true)
    (hb : bindingWithin s.params.binding = true) {j : Nat} (hj : j ≤ budget s) :
    ∃ n, exec (.devcfg r) s = .next (drive (n + j) (s.at ((configuringDevice s r).withProgram
      (⟨.configuring, .poll .sts0 (.bits idleMask)⟩ :: (deviceWrites s.params.binding (controllerRecord r) ++
        lockWait s.params))) s.sched)) := by
  have hgate : gate (.devcfg r) s = none :=
    gate_none (modeAllows_of_not_ramOnly rfl rfl _) (by simp only [operandsOk, hr, hb, Bool.and_self]) rfl rfl
  have hexec : exec (.devcfg r) s = .next (run (configureOperation (.devcfg r)
      (deviceConfigure s.params (controllerRecord r)) .done s)) := accept_run hready hgate
  obtain ⟨n, hrun⟩ := run_eq_drive (s := configureOperation (.devcfg r)
    (deviceConfigure s.params (controllerRecord r)) .done s) (k := j) hj
  exact ⟨n, by rw [hexec, hrun, configureOperation, begin_at, deviceConfigure_eq]; rfl⟩

/-- On an idle arbiter DEVCFG comes to its wait for the lock, with everything written. -/
theorem exec_devcfg_writes {s : State} {r : List Word} (hready : s.Ready) (hs : s.Consistent)
    (hr : recordOk controllerBounds r = true) (hb : bindingWithin s.params.binding = true) (hidle : s.regs.sts0 &&& 3 = 3)
    {q : List Event} (ht : EngineTurns (7 + (if s.params.binding.ardSeqCount = 0 then 0 else 1) +
      (if s.params.binding.awrSeqCount = 0 then 0 else 1)) s.sched q) {j : Nat} (hj : j ≤ 256 + s.params.pollLimit.getD 0) :
    ∃ n, exec (.devcfg r) s = .next (drive (n + j)
      ((s.deviceConfigured s.params.binding (controllerRecord r)).at
        ((configuringDevice s r).withProgram (lockWait s.params)) q)) := by
  have hlen := deviceWrites_length s.params.binding (controllerRecord r)
  have hfuel := le_budget s
  obtain ⟨q1, hfirst, hrest⟩ := (show EngineTurns ((deviceWrites s.params.binding (controllerRecord r)).length + 1) s.sched q
    from by rw [hlen]; convert ht using 1; omega).first
  obtain ⟨n, hexec⟩ := exec_devcfg (j := j + (deviceWrites s.params.binding (controllerRecord r)).length + 1) hready hr hb
    (by rw [hlen]; split <;> split <;> omega)
  have hwrites := drive_writes (deviceWrites_plain s.params.binding (controllerRecord r)) s (configuringDevice s r) q1 q
    ⟨.configuring, .poll .sts2 (.bits (lockMask (portIndex s.params.binding.port)))⟩
    [⟨.configuring, .delay s.params.settleCycles⟩] (n + j) hready.1 hrest
  rw [applyAll_deviceWrites (bindingRanges hb) _ (hs.flshcr2 _)] at hwrites
  refine ⟨n, hexec.trans (congrArg Host.Outcome.next ?_)⟩
  rw [← Nat.add_assoc, ← Nat.add_assoc, drive_poll s _ s.sched q1 _ _ _ _ _ _ hready.1 (by decide) hfirst rfl ((idle_holds _).mpr hidle)]
  exact hwrites

/-- BACKEND's lock ends DEVCFG with `Ok` (R68, R276). -/
theorem drive_locked {s : State} (b : Binding) (c : ControllerRecord) (e : Engine) (n cycles : Nat) (hf : s.fault = none)
    (hen : e.ending = .done) (hx : e.session = none) :
    drive (n + 3) ((s.deviceConfigured b c).at (e.withProgram
        [⟨.configuring, .poll .sts2 (.bits (lockMask (portIndex b.port)))⟩, ⟨.configuring, .delay cycles⟩])
      [.lock (portIndex b.port) true true]) =
      ({ s.deviceConfigured b c with regs.sts2 := s.regs.sts2 ||| lockMask (portIndex b.port) } : State).at
        (Engine.idle (some (resultOf .ok 0 []))) [] := by
  have henabled : (s.regs.mcr0 &&& ~~~(2 : Word)).getLsbD 1 = false := by
    rw [BitVec.getLsbD_and]
    exact Bool.and_false _
  have hlock := beLock_cleared (s := (s.deviceConfigured b c).at (e.withProgram
    [⟨.configuring, .poll .sts2 (.bits (lockMask (portIndex b.port)))⟩, ⟨.configuring, .delay cycles⟩]) [])
    (portIndex b.port) s.regs.sts2 henabled rfl
  have hft : ({ s.deviceConfigured b c with regs.sts2 := s.regs.sts2 ||| lockMask (portIndex b.port) } : State).fault = none := hf
  have hpoll := drive_poll { s.deviceConfigured b c with regs.sts2 := s.regs.sts2 ||| lockMask (portIndex b.port) } e [] []
    (n + 1) .configuring .sts2 (.bits (lockMask (portIndex b.port))) _ [⟨.configuring, .delay cycles⟩] hf (by decide) .alone rfl
    (lock_set _ _)
  refine (drive_event (s.deviceConfigured b c) _ [] (.lock (portIndex b.port) true true) (n + 2) hf (by simp) (by simp)
    (by simp)).trans ((congrArg (drive (n + 2)) hlock).trans (hpoll.trans ?_))
  generalize ({ s.deviceConfigured b c with regs.sts2 := s.regs.sts2 ||| lockMask (portIndex b.port) } : State) = t at *
  rw [proceed_cons, withProgram_withProgram, drive_alone t _ n hft (by simp) (waiting_other _ _ _ _ (by simp)),
    engStep_cons _ _ _ _ _ hft, actStep, proceed_nil_done _ _ _ (by exact hen), drive_idle]
  simp [hx]

/-- Settles O36: the poll of STS0, the writes, the poll of STS2, and the turn in which BACKEND locks. -/
theorem devcfgConfiguresTheBank : Obligations.DevcfgConfiguresTheBank := by
  intro s r b p k hready hs hr hbinding hwithin hp hk
  subst hbinding hp hk
  have hranges := bindingRanges hwithin
  have hfuel := le_budget s
  refine ⟨fun hbusy hsched => ?busy, fun hidle => ?idle⟩
  case busy =>
    have hclear : PollCond.holds (.bits idleMask) s.regs.sts0 = false :=
      Bool.eq_false_iff.mpr fun h => hbusy ((idle_holds _).mp h)
    obtain ⟨hwait, htimeout⟩ := waits_at_poll (i := .devcfg r) (r := .sts0) hready.1 hsched (by decide) rfl hclear
      fun j hj => hsched ▸ exec_devcfg hready hr hwithin (by omega)
    exact ⟨fun hlimit => ⟨(configuringDevice s r).withProgram (⟨.configuring, .poll .sts0 (.bits idleMask)⟩ ::
      (deviceWrites s.params.binding (controllerRecord r) ++ lockWait s.params)), rfl, rfl, rfl, hwait hlimit⟩, htimeout⟩
  case idle =>
    refine ⟨setBits s.regs.flshcr4 (fieldMask (writeMaskBit (portIndex s.params.binding.port)) 1)
        (place s.params.binding.writeMask (writeMaskBit (portIndex s.params.binding.port))),
      setBits s.regs.flshcr0[bankIndex s.params.binding] (fieldMask 0 23) (place s.params.binding.flashSizeKb 0),
      timingWord s.params.binding, bankWord s.params.binding s.regs.flshcr2[bankIndex s.params.binding],
      fun hsched => ?lock, fun hsched => ?wait, ?mask, ?maskKept, ?size, ?sizeKept, ?timing⟩
    case lock =>
      obtain ⟨n, hexec⟩ := exec_devcfg_writes hready hs hr hwithin hidle (.inl hsched) (j := 3) (by omega)
      rw [hexec, lockWait, drive_locked _ _ _ _ _ hready.1 rfl rfl]
      rfl
    case wait =>
      have ht : ({ s.deviceConfigured s.params.binding (controllerRecord r) with sched := [] } : State) =
          s.deviceConfigured s.params.binding (controllerRecord r) := by
        rw [← hsched]
        rfl
      obtain ⟨hwait, htimeout⟩ := waits_at_poll (t := s.deviceConfigured s.params.binding (controllerRecord r))
        (i := .devcfg r) (r := .sts2) hready.1 hsched (by decide) rfl (lock_clear _ _)
        fun j hj => exec_devcfg_writes hready hs hr hwithin hidle (.inr ⟨hsched, rfl⟩) hj
      rw [← ht] at hwait htimeout
      exact ⟨fun hlimit => ⟨(configuringDevice s r).withProgram (lockWait s.params), rfl, rfl, rfl, hwait hlimit⟩, htimeout⟩
    case mask =>
      have hport := (portIndex s.params.binding.port).isLt
      exact slice_setBits_field _ hranges.writeMask (by unfold writeMaskBit; omega)
    case maskKept =>
      generalize portIndex s.params.binding.port = p
      exact setBits_and (by revert p; decide) (place_and hranges.writeMask (by clear hidle; revert p; decide)) _
    case size => exact slice_setBits_field _ hranges.size (by decide)
    case sizeKept => exact setBits_and (by decide) (place_and hranges.size (by decide)) _
    case timing =>
      obtain ⟨hsetup, hhold, hword, hcas, hunit, hinterval⟩ := timingWord_fields hranges
      obtain ⟨hwait, hkept, hread, hwrite⟩ := bankWord_fields hranges s.regs.flshcr2[bankIndex s.params.binding]
      exact ⟨hsetup, hhold, hword, hcas, hunit, hinterval, hwait, hkept, bankWord_bit31 hranges (hs.flshcr2 _), hread, hwrite⟩

end Sys2Proof.Machine

/-!
PROOFS of O28, O29 and O30. Where a window address leads, what BACKEND plays of a command and on which bank, and the window
accesses served in their own step.
-/

namespace Sys2Proof.Machine

/-! ## The stack of devices (R95) -/

/-- A byte of bank `k` lies behind the banks before it, and nowhere else. -/
theorem locate_iff {size : Fin 4 → Nat} {off : Nat} {k : Fin 4} {x : Nat} :
    locate size off = some (k, x) ↔ off = ((List.ofFn size).take k.val).sum + x ∧ x < size k := by
  constructor
  · intro h
    obtain ⟨hin, hoff⟩ := locate_some h
    exact ⟨hoff, hin⟩
  · rintro ⟨rfl, hx⟩
    fin_cases k
    all_goals
      simp only [List.ofFn_succ, List.ofFn_zero, locate, Fin.isValue, Fin.mk_one, Fin.zero_eta, Fin.reduceFinMk] at *
      simp
      repeat' split
      all_goals simp <;> omega

/-- An offset lies in a device exactly below the sizes' sum. -/
theorem locate_isSome {size : Fin 4 → Nat} {off : Nat} :
    (∃ k x, locate size off = some (k, x)) ↔ off < size 0 + size 1 + size 2 + size 3 := by
  unfold locate
  constructor
  · rintro ⟨k, x, h⟩
    repeat' split at h
    all_goals first | omega | cases h
  · intro h
    repeat' split
    all_goals exact ⟨_, _, rfl⟩

/-- Admission is byte by byte: the last byte decides (R96). -/
theorem windowAdmits_iff {s : State} {addr : Word} {n : Nat} (hn : 1 ≤ n) :
    windowAdmits addr n s = true ↔
      s.params.winBase ≤ addr.toNat ∧ addr.toNat + n ≤ s.params.winBase + s.params.winSize ∧
      ∀ j < n, ∃ k x, locate (bankSize s) (addr.toNat - s.params.winBase + j) = some (k, x) := by
  simp only [windowAdmits, Bool.and_eq_true, decide_eq_true_eq, and_assoc, locate_isSome]
  refine and_congr_right fun _ => and_congr_right fun _ => ⟨fun h j hj => by omega, fun h => ?_⟩
  have hlast := h (n - 1) (by omega)
  omega

/-- Every byte of an admitted access has a key (R95, R96). -/
theorem windowKey_of_admitted {s : State} {addr : Word} {n j : Nat} (h : windowAdmits addr n s = true) (hj : j < n) :
    ∃ a, windowKey s (addr.toNat + j) = some a := by
  obtain ⟨hbase, -, hin⟩ := (windowAdmits_iff (by omega)).mp h
  obtain ⟨k, x, hk⟩ := hin j hj
  refine ⟨flashKey k x, ?_⟩
  rw [windowKey, if_neg (by omega), show addr.toNat + j - s.params.winBase = addr.toNat - s.params.winBase + j by omega, hk]
  rfl

/-! ## The program of the command in flight (R36, R66) -/

theorem isAddress_iff (h : Half) : isAddress h = true ↔ h.extractLsb' 10 6 = 0x02 ∨ h.extractLsb' 10 6 = 0x22 := by
  simp [isAddress]

/-- An instruction of R112 other than RADDR has another opcode. -/
theorem isAddress_false_iff (h : Half) :
    isAddress h = false ↔ h.extractLsb' 10 6 ≠ 0x02 ∧ h.extractLsb' 10 6 ≠ 0x22 := by
  simp [isAddress]

/-- BACKEND does not surely go on behind a STOP, nor behind an opcode outside R112. -/
theorem goesOn_false {h : Half} (hx : h.extractLsb' 10 6 = 0x00 ∨ decodeLut16 h = none) : goesOn h = false := by
  obtain hx | hx := hx
  · rw [goesOn, hx]
    rfl
  · refine Bool.eq_false_iff.mpr fun hgo => ?_
    obtain ⟨i, hi, -⟩ := (goesOn_iff h).mp hgo
    rw [hx] at hi
    cases hi

/-- Where a command's program is played: without an address phase or with its address in no device on any bank, else on its
own bank alone. -/
theorem playsOn_commandTarget {c : Inflight} {s : State} {k : Fin 4}
    (h : addressPhase (commandProgram c) = false ∨ locate (bankSize s) c.addr.toNat = none ∨
      ∃ x, locate (bankSize s) c.addr.toNat = some (k, x)) : playsOn (commandTarget c s) k = true := by
  unfold commandTarget
  obtain h | h | ⟨x, h⟩ := h
  · rw [h]
    rfl
  all_goals
    rw [h]
    cases addressPhase (commandProgram c)
  all_goals simp [playsOn]

theorem commandTarget_noAddress {c : Inflight} {s : State} (h : addressPhase (commandProgram c) = false) :
    commandTarget c s = .noAddress := by
  rw [commandTarget, h]
  rfl

theorem commandTarget_noDevice {c : Inflight} {s : State} (h : addressPhase (commandProgram c) = true)
    (ha : locate (bankSize s) c.addr.toNat = none) : commandTarget c s = .noDevice := by
  rw [commandTarget, h, ha]
  rfl

theorem commandTarget_device {c : Inflight} {s : State} (h : addressPhase (commandProgram c) = true) {b : Fin 4} {x : Nat}
    (ha : locate (bankSize s) c.addr.toNat = some (b, x)) : commandTarget c s = .device b x := by
  rw [commandTarget, h, ha]
  rfl

/-- A slot of the program is played on the banks its command leads to. -/
theorem fetchHalf_ip {s : State} {c : Inflight} (hi : s.inflight = some c) (hf : s.fault = none)
    (hm : moduleDisabled s = false) {k : Fin 4} (j : Fin 8) (hk : playsOn (commandTarget c s) k = true) :
    fetchHalf k (.ip j) s =
      (commandProgram c)[j.val]?.map fun w => (w.half s.seqptr[k], c.slot + BitVec.ofNat 5 j.val, s) := by
  simp only [fetchHalf, hm, Bool.false_eq_true, if_false, hi, hk, if_true, sizesDrawn_safe hf]
  cases (commandProgram c)[j.val]? <;> rfl

/-- On no other bank a slot of it is played. -/
theorem fetchHalf_ip_none {s : State} {c : Inflight} (hi : s.inflight = some c) {k : Fin 4} (j : Fin 8)
    (hk : playsOn (commandTarget c s) k = false) : fetchHalf k (.ip j) s = none := by
  simp only [fetchHalf, hi, hk, Bool.false_eq_true, if_false]
  split
  · rfl
  · cases (commandProgram c)[j.val]? <;> rfl

/-- What be_complete does to the flash devices: the command's own cells, under its guard and a flash model (R65, R83). -/
theorem flash_beComplete {s : State} {c : Inflight} (hi : s.inflight = some c) (device : List Host.Cell) :
    (beComplete device s).win.flash =
      if completeEnabled s = true ∧ s.params.flashModel = true then
        Memory.writeCells s.win.flash (commandCells (commandTarget c s) device)
      else s.win.flash := by
  unfold beComplete
  rw [hi]
  cases completeEnabled s with
  | false => simp
  | true =>
    obtain ⟨d, hd⟩ := sizesDrawn_frame { s with
      regs.intr := s.regs.intr ||| 1
      regs.sts0 := s.regs.sts0 ||| idleMask
      inflight := none
      win.flash :=
        if s.params.flashModel then Memory.writeCells s.win.flash (commandCells (commandTarget c s) device)
        else s.win.flash }
    simp only [if_true, hd, true_and]

/-- Settles O28, by the translation of R95 and the address phase of the program. -/
theorem windowAddressesAreTranslated : Obligations.WindowAddressesAreTranslated := by
  refine ⟨fun s addr n hn => windowAdmits_iff hn, fun size off k x => locate_iff, fun s k hf => ?size,
    fun s => ⟨sameDevice_settled, sameDevice_open⟩, addressPhase_image, fun prog pre post h hprog => ⟨?reached, ?behind⟩,
    fun prog h => addressPhase_absent fun x hx => (isAddress_false_iff x).mpr (h x hx), fun s c hi => ⟨?plays, ?any, ?own⟩⟩
  case size => simp [bankSize, hf, slice]
  case reached =>
    exact fun hpre hop => addressPhase_reached hprog (fun x hx => (goesOn_iff x).mpr (hpre x hx)) ((isAddress_iff h).mpr hop)
  case behind =>
    intro hop hpre hpost
    obtain ⟨y, hy, hyop⟩ := hpost
    exact addressPhase_behind hprog (goesOn_false hop) (fun x hx => (isAddress_false_iff x).mpr (hpre x hx))
      ⟨y, hy, (isAddress_iff y).mpr hyop⟩
  case plays => exact fun k j hf hm hk => fetchHalf_ip hi hf hm j (playsOn_commandTarget hk)
  case any =>
    intro hphase henabled hmodel device
    refine (flash_beComplete hi device).trans ?_
    rw [if_pos ⟨henabled, hmodel⟩, commandTarget_noAddress hphase]
    rfl
  case own =>
    intro hphase
    refine ⟨fun ha device => ?_, fun b x ha => ⟨fun k j hk => ?_, fun hw device k a hk hlt => ?_⟩⟩
    · refine (flash_beComplete hi device).trans ?_
      rw [commandTarget_noDevice hphase ha]
      exact ite_self _
    · refine fetchHalf_ip_none hi j ?_
      rw [commandTarget_device hphase ha]
      exact beq_eq_false_iff_ne.mpr hk
    · refine (congrArg (Memory.read · (flashKey k a)) (flash_beComplete hi device)).trans ?_
      split
      · rw [commandTarget_device hphase ha]
        exact read_commandCells_other _ _ _ hw
          (.inr ⟨b, x, rfl, by rw [keyBank_flashKey k hlt]; exact fun heq => hk (Fin.ext heq)⟩)
      · rfl

/-! ## Window accesses (R247, R248) -/

/-- A flash model may be read where there is one, with nothing in flight and nothing pending (R98). -/
theorem flashReadable_of {s : State} (hmodel : s.params.flashModel = true) (hi : s.inflight = none)
    (hb : s.win.buffered = []) (hf : s.fault = none) : flashReadable s = true := by
  simp [flashReadable, hmodel, hi, hb, hf]

/-- A WINRD that passes its checks comes to BACKEND. -/
theorem exec_winrd {s : State} {addr n : Word} (hn : n ≠ 0) (hf : s.fault = none)
    (h : windowAdmits addr n.toNat s = true) :
    exec (.winrd addr n) s = .next (admitAccess (.read addr n.toNat []) s) := by
  have hne : n.toNat ≠ 0 := fun h0 => hn (BitVec.eq_of_toNat_eq h0)
  exact congrArg Host.Outcome.next (windowRequest_passed _ hf
    (gate_none (modeAllows_of_not_ramOnly rfl rfl _) (decide_eq_true hne) rfl h))

/-- So does a WINWR, in `RamBlocking`. -/
theorem exec_winwr {s : State} {addr len : Word} {data : List Byte} (hne : len ≠ 0) (hlen : len.toNat = data.length)
    (hf : s.fault = none) (hmode : s.params.modeTag = .ramBlocking) (h : windowAdmits addr len.toNat s = true) :
    exec (.winwr addr len data) s = .next (admitAccess (.write addr data 0) s) := by
  have hne : len.toNat ≠ 0 := fun h0 => hne (BitVec.eq_of_toNat_eq h0)
  have hoperands : operandsOk (.winwr addr len data) s.params = true :=
    Bool.and_eq_true_iff.mpr ⟨decide_eq_true hne, decide_eq_true hlen⟩
  exact congrArg Host.Outcome.next (windowRequest_passed _ hf
    (gate_none (modeAllows_of_ramBlocking rfl hmode) hoperands rfl h))

/-- With the module disabled an access waits (R92). -/
theorem admitAccess_disabled {s : State} (hm : moduleDisabled s = true) (a : WinAccess) :
    admitAccess a s = { s with win.waiting := s.win.waiting ++ [a] } :=
  if_pos hm

/-- With it enabled it is served. -/
theorem admitAccess_enabled {s : State} (hm : moduleDisabled s = false) (a : WinAccess) :
    admitAccess a s = serveAccess a s :=
  if_neg (Bool.not_eq_true _ ▸ hm)

/-- Settles O29, from what serving a read does. -/
theorem winrdReturnsItsBytes : Obligations.WinrdReturnsItsBytes := by
  intro s addr n hn hsafe hadmits
  rw [exec_winrd hn hsafe hadmits]
  refine ⟨fun hm => ?_, fun hm => congrArg Host.Outcome.next (admitAccess_disabled hm _)⟩
  obtain ⟨bytes, sp, seq, d, hlen, heq, hread⟩ := serveAccess_read addr n.toNat [] s
  refine ⟨bytes, sp, seq, d, congrArg Host.Outcome.next ((admitAccess_enabled hm _).trans heq), hlen, ?_⟩
  intro hmodel hi hb j hj
  obtain ⟨a, ha⟩ := windowKey_of_admitted hadmits hj
  exact ⟨a, ha, hread (flashReadable_of hmodel hi hb hsafe) j hj a (by simpa using ha)⟩

/-- Settles O30, from what serving a write does. -/
theorem winwrWritesItsBytes : Obligations.WinwrWritesItsBytes := by
  intro s addr len data hne hlen hsafe hmode hadmits hwf
  rw [exec_winwr hne hlen hsafe hmode hadmits]
  refine ⟨bufferable_settled hsafe, fun h => bufferable_open (.inr h),
    fun hm => congrArg Host.Outcome.next (admitAccess_disabled hm _), fun hm hb => ?pending, fun hm hb => ?lands⟩
  case pending =>
    exact congrArg Host.Outcome.next ((admitAccess_enabled hm _).trans (serveAccess_buffered addr data hb))
  case lands =>
    obtain ⟨sp, seq, d, heq⟩ := serveAccess_write addr data (landed := 0) (.inl hb)
    obtain ⟨hwf', hnone, hother, hown⟩ := landBytes_spec addr data 0 hwf
    refine ⟨landBytes addr data 0 s, sp, seq, d, congrArg Host.Outcome.next ((admitAccess_enabled hm _).trans heq), hwf', hnone,
      fun a ha => hother a fun j _ hj => ha j hj, fun hmodel j b hb => ?_⟩
    obtain ⟨hj, -⟩ := List.getElem?_eq_some_iff.mp hb
    obtain ⟨a, ha⟩ := windowKey_of_admitted hadmits (hlen ▸ hj)
    exact ⟨a, ha, hown hmodel j a b (Nat.zero_le j) hb ha⟩

end Sys2Proof.Machine

/-!
PROOFS of O31 and O50. BACKEND's moves R63 to R69, and be_ahb serving the waiting accesses and landing the buffered writes,
whole or byte by byte.
-/

namespace Sys2Proof.Machine

/-! ## One byte of a window write -/

/-- What landing one byte of a write does: to no other byte, and to its own what is written (R83, R93). -/
theorem landByte_spec (addr : Word) (data : List Byte) {landed : Nat} (hl : landed < data.length) {s : State}
    (hw : Memory.wf s.win.flash = true) :
    (s.params.flashModel = false → landBytes addr (data.take (landed + 1)) landed s = s.win.flash) ∧
    (∀ a, windowKey s (addr.toNat + landed) ≠ some a →
      Memory.read (landBytes addr (data.take (landed + 1)) landed s) a = Memory.read s.win.flash a) ∧
    (s.params.flashModel = true → ∀ (a : Nat) (b : Byte), windowKey s (addr.toNat + landed) = some a →
      data[landed]? = some b → Memory.read (landBytes addr (data.take (landed + 1)) landed s) a = b) := by
  obtain ⟨-, hnone, hother, hown⟩ := landBytes_spec addr (data.take (landed + 1)) landed hw
  refine ⟨hnone, fun a ha => hother a fun j hj hlen => ?_, fun hmodel a b ha hb => hown hmodel landed a b (Nat.le_refl _) ?_ ha⟩
  · obtain rfl : j = landed := by
      rw [List.length_take] at hlen
      omega
    exact ha
  · rw [List.getElem?_take_of_lt (Nat.lt_succ_self _), hb]

/-- The last byte of a write is all that is left of it. -/
theorem landBytes_last (addr : Word) {data : List Byte} {landed : Nat} (h : landed + 1 = data.length) (s : State) :
    landBytes addr (data.take (landed + 1)) landed s = landBytes addr data landed s := by
  rw [h, List.take_length]

/-! ## be_ahb's moves on a waiting access -/

theorem servable_enabled {s : State} {i : Nat} {a : WinAccess} (hm : moduleDisabled s = false)
    (ha : s.win.waiting[i]? = some a) : servable i s = some a := by
  rw [servable, hm, if_neg (by decide), ha]

theorem servable_none {s : State} {i : Nat} (h : moduleDisabled s = true ∨ s.win.waiting.length ≤ i) :
    servable i s = none := by
  unfold servable
  split
  · rfl
  · exact List.getElem?_eq_none (h.resolve_left (by assumption))

/-- A turn of be_ahb with no access to serve moves only what be_ahb may (R69, R92). -/
theorem ahb_unservable {s : State} {i : Nat} (h : moduleDisabled s = true ∨ s.win.waiting.length ≤ i) {ev : Event}
    (hev : ev ∈ [Event.ahbServe i, .ahbByte i]) : ∃ sp seq d,
      envStep ev s = { s with regs.ahbspndsts := sp, seqptr := seq, draws := d } := by
  obtain ⟨sp, seq, d, heq⟩ := ahbMoves_frame s
  have hnone := servable_none h
  simp only [List.mem_cons, List.not_mem_nil, or_false] at hev
  refine ⟨sp, seq, d, Eq.trans ?_ heq⟩
  rcases hev with rfl | rfl
  · simp only [envStep, beAhbServe, hnone]
  · simp only [envStep, beAhbByte, hnone]

/-- A turn of be_ahb with no write to land moves only what be_ahb may (R69, R100). -/
theorem ahb_unbuffered {s : State} {i : Nat} (h : s.win.buffered.length ≤ i) {ev : Event}
    (hev : ev ∈ [Event.ahbLand i, .ahbLandByte i]) : ∃ sp seq d,
      envStep ev s = { s with regs.ahbspndsts := sp, seqptr := seq, draws := d } := by
  obtain ⟨sp, seq, d, heq⟩ := ahbMoves_frame s
  have hnone : s.win.buffered[i]? = none := List.getElem?_eq_none h
  simp only [List.mem_cons, List.not_mem_nil, or_false] at hev
  refine ⟨sp, seq, d, Eq.trans ?_ heq⟩
  rcases hev with rfl | rfl
  · simp only [envStep, beAhbLand, hnone]
  · simp only [envStep, beAhbLandByte, hnone]

section Waiting
variable {s : State} {i : Nat} (hm : moduleDisabled s = false)
include hm

/-- A waiting read served whole (R69, R98). -/
theorem beAhbServe_read {addr : Word} {n : Nat} {got : List Byte} (ha : s.win.waiting[i]? = some (.read addr n got)) :
    ∃ (bytes : List Byte) (sp : Word) (seq : Vector (Fin 8) 4) (d : Nat), bytes.length = n - got.length ∧
      beAhbServe i s = { s with
        win.waiting := s.win.waiting.eraseIdx i, eng.result := some (resultOf .ok 0 (got ++ bytes))
        regs.ahbspndsts := sp, seqptr := seq, draws := d } ∧
      (flashReadable s = true → ∀ j < n - got.length, ∀ a, windowKey s (addr.toNat + (got.length + j)) = some a →
        bytes[j]? = some (Memory.read s.win.flash a)) := by
  obtain ⟨bytes, sp, seq, d, hlen, heq, hread⟩ :=
    serveAccess_read addr n got { s with win.waiting := s.win.waiting.eraseIdx i }
  exact ⟨bytes, sp, seq, d, hlen, (beAhbServe_some hm ha).trans heq, hread⟩

/-- A waiting write served whole, pending (R93, R100). -/
theorem beAhbServe_buffered {addr : Word} {data : List Byte} (ha : s.win.waiting[i]? = some (.write addr data 0))
    (hb : bufferable s = true) : beAhbServe i s = { s with
      win.waiting := s.win.waiting.eraseIdx i, win.buffered := s.win.buffered ++ [⟨addr, data, 0⟩]
      eng.result := some (resultOf .ok 0 []) } :=
  (beAhbServe_some hm ha).trans (serveAccess_buffered (s := { s with win.waiting := s.win.waiting.eraseIdx i }) addr data hb)

/-- What is left of a waiting write lands (R93). -/
theorem beAhbServe_write {addr : Word} {data : List Byte} {landed : Nat}
    (ha : s.win.waiting[i]? = some (.write addr data landed)) (hb : bufferable s = false ∨ landed ≠ 0) :
    ∃ (sp : Word) (seq : Vector (Fin 8) 4) (d : Nat), beAhbServe i s = { s with
      win.waiting := s.win.waiting.eraseIdx i, win.flash := landBytes addr data landed s
      eng.result := some (resultOf .ok 0 []), regs.ahbspndsts := sp, seqptr := seq, draws := d } := by
  obtain ⟨sp, seq, d, heq⟩ :=
    serveAccess_write (s := { s with win.waiting := s.win.waiting.eraseIdx i }) addr data (landed := landed) hb
  exact ⟨sp, seq, d, (beAhbServe_some hm ha).trans heq⟩

/-- A waiting read's next byte, the last one or not (R69, R98). -/
theorem beAhbByte_read {addr : Word} {n : Nat} {got : List Byte} (ha : s.win.waiting[i]? = some (.read addr n got))
    (hgot : got.length < n) : ∃ (b : Byte) (sp : Word) (seq : Vector (Fin 8) 4) (d : Nat),
      (got.length + 1 < n → beAhbByte i s = { s with
        win.waiting := s.win.waiting.set i (.read addr n (got ++ [b])), regs.ahbspndsts := sp, seqptr := seq, draws := d }) ∧
      (got.length + 1 = n → beAhbByte i s = { s with
        win.waiting := s.win.waiting.eraseIdx i, eng.result := some (resultOf .ok 0 (got ++ [b]))
        regs.ahbspndsts := sp, seqptr := seq, draws := d }) ∧
      (flashReadable s = true → ∀ a, windowKey s (addr.toNat + got.length) = some a → b = Memory.read s.win.flash a) := by
  have hservable := servable_enabled hm ha
  obtain hlast | hmore : got.length + 1 = n ∨ got.length + 1 < n := by omega
  · obtain ⟨bytes, sp, seq, d, hlen, heq, hread⟩ := beAhbServe_read hm ha
    obtain ⟨b, rfl⟩ : ∃ b, bytes = [b] := List.length_eq_one_iff.mp (by omega)
    refine ⟨b, sp, seq, d, fun hlt => absurd hlt (by omega), fun _ => ?_, fun hr a hkey => ?_⟩
    · simp only [beAhbByte, hservable, if_pos (Nat.le_of_eq hlast.symm), heq]
    · exact Option.some.inj (hread hr 0 (by omega) a hkey)
  · obtain ⟨sp, seq, d, heq⟩ := ahbMoves_frame { s with
      win.waiting := s.win.waiting.set i (.read addr n (got ++ [windowByte addr s got.length s.draws])), draws := s.draws + 1 }
    refine ⟨windowByte addr s got.length s.draws, sp, seq, d, fun _ => ?_, fun hlast => absurd hlast (by omega), fun hr a hkey => ?_⟩
    · simp only [beAhbByte, hservable, if_neg (Nat.not_le.mpr hmore), heq]
    · simp only [windowByte, hr, if_true, hkey]

/-- A waiting write with BUFFERABLEEN none of whose bytes has landed is kept pending whole (R93, R100). -/
theorem beAhbByte_buffered {addr : Word} {data : List Byte} (ha : s.win.waiting[i]? = some (.write addr data 0))
    (hb : bufferable s = true) : beAhbByte i s = { s with
      win.waiting := s.win.waiting.eraseIdx i, win.buffered := s.win.buffered ++ [⟨addr, data, 0⟩]
      eng.result := some (resultOf .ok 0 []) } := by
  have hwhole : (decide (data.length ≤ 0 + 1) || (bufferable s && (0 : Nat) == 0)) = true := by simp [hb]
  simp only [beAhbByte, servable_enabled hm ha, hwhole, if_true]
  exact beAhbServe_buffered hm ha hb

/-- Another waiting write's next byte lands, the last one or not (R93). -/
theorem beAhbByte_write {addr : Word} {data : List Byte} {landed : Nat}
    (ha : s.win.waiting[i]? = some (.write addr data landed)) (hb : bufferable s = false ∨ landed ≠ 0) :
    ∃ (sp : Word) (seq : Vector (Fin 8) 4) (d : Nat),
      (landed + 1 < data.length → beAhbByte i s = { s with
        win.waiting := s.win.waiting.set i (.write addr data (landed + 1))
        win.flash := landBytes addr (data.take (landed + 1)) landed s, regs.ahbspndsts := sp, seqptr := seq, draws := d }) ∧
      (landed + 1 = data.length → beAhbByte i s = { s with
        win.waiting := s.win.waiting.eraseIdx i, win.flash := landBytes addr (data.take (landed + 1)) landed s
        eng.result := some (resultOf .ok 0 []), regs.ahbspndsts := sp, seqptr := seq, draws := d }) := by
  have hservable := servable_enabled hm ha
  have hpending : (bufferable s && landed == 0) = false := by
    obtain hb | hb := hb <;> simp [hb]
  by_cases hmore : landed + 1 < data.length
  · obtain ⟨sp, seq, d, heq⟩ := ahbMoves_sizesDrawn { s with
      win.waiting := s.win.waiting.set i (.write addr data (landed + 1))
      win.flash := landBytes addr (data.take (landed + 1)) landed s }
    refine ⟨sp, seq, d, fun _ => ?_, fun hlast => absurd hlast (by omega)⟩
    simp only [beAhbByte, hservable, hpending, Bool.or_false, decide_eq_true_eq, if_neg (Nat.not_le.mpr hmore), heq]
  · obtain ⟨sp, seq, d, heq⟩ := beAhbServe_write hm ha hb
    refine ⟨sp, seq, d, fun hlt => absurd hlt hmore, fun hlast => ?_⟩
    rw [landBytes_last addr hlast, ← heq]
    simp only [beAhbByte, hservable, hpending, Bool.or_false, decide_eq_true_eq, if_pos (Nat.le_of_eq hlast.symm)]

end Waiting

/-! ## be_ahb's moves on a buffered write (R100) -/

section Buffered
variable {s : State} {i : Nat} {w : BufferedWrite} (hw : s.win.buffered[i]? = some w)
include hw

theorem beAhbLand_some : ∃ (sp : Word) (seq : Vector (Fin 8) 4) (d : Nat), beAhbLand i s = { s with
    win.buffered := s.win.buffered.eraseIdx i, win.flash := landBytes w.addr w.data w.landed s
    regs.ahbspndsts := sp, seqptr := seq, draws := d } := by
  obtain ⟨sp, seq, d, heq⟩ := ahbMoves_sizesDrawn { s with
    win.buffered := s.win.buffered.eraseIdx i, win.flash := landBytes w.addr w.data w.landed s }
  refine ⟨sp, seq, d, Eq.trans ?_ heq⟩
  simp only [beAhbLand, hw]
  rfl

theorem beAhbLandByte_some : ∃ (sp : Word) (seq : Vector (Fin 8) 4) (d : Nat),
    (w.landed + 1 < w.data.length → beAhbLandByte i s = { s with
      win.buffered := s.win.buffered.set i { w with landed := w.landed + 1 }
      win.flash := landBytes w.addr (w.data.take (w.landed + 1)) w.landed s
      regs.ahbspndsts := sp, seqptr := seq, draws := d }) ∧
    (w.landed + 1 = w.data.length → beAhbLandByte i s = { s with
      win.buffered := s.win.buffered.eraseIdx i, win.flash := landBytes w.addr (w.data.take (w.landed + 1)) w.landed s
      regs.ahbspndsts := sp, seqptr := seq, draws := d }) := by
  by_cases hmore : w.landed + 1 < w.data.length
  · obtain ⟨sp, seq, d, heq⟩ := ahbMoves_sizesDrawn { s with
      win.buffered := s.win.buffered.set i { w with landed := w.landed + 1 }
      win.flash := landBytes w.addr (w.data.take (w.landed + 1)) w.landed s }
    refine ⟨sp, seq, d, fun _ => ?_, fun hlast => absurd hlast (by omega)⟩
    simp only [beAhbLandByte, hw, if_neg (Nat.not_le.mpr hmore), heq]
  · obtain ⟨sp, seq, d, heq⟩ := beAhbLand_some hw
    refine ⟨sp, seq, d, fun hlt => absurd hlt hmore, fun hlast => ?_⟩
    rw [landBytes_last w.addr hlast, ← heq]
    simp only [beAhbLandByte, hw, if_pos (Nat.le_of_eq hlast.symm)]

end Buffered

/-- Settles O31, by the next byte of the access or write. -/
theorem waitingAccessIsServedByBytes : Obligations.WaitingAccessIsServedByBytes := by
  intro s i hwf
  refine ⟨bufferable_settled, bufferable_open, fun addr n got hm ha hgot => ?read, fun addr data landed hm ha hl => ?write,
    fun w hw hl => ⟨?landByte, ?land⟩⟩
  case read =>
    obtain ⟨b, sp, seq, d, hmore, hlast, hread⟩ := beAhbByte_read hm ha hgot
    exact ⟨b, sp, seq, d, hmore, hlast, fun hmodel hsafe hi hb => hread (flashReadable_of hmodel hi hb hsafe)⟩
  case write =>
    refine ⟨fun hb hzero => ?_, fun hb => ?_⟩
    · subst hzero
      exact beAhbByte_buffered hm ha hb
    · obtain ⟨sp, seq, d, hmore, hlast⟩ := beAhbByte_write hm ha hb
      exact ⟨_, sp, seq, d, hmore, hlast, landByte_spec addr data hl hwf⟩
  case landByte =>
    obtain ⟨sp, seq, d, hmore, hlast⟩ := beAhbLandByte_some hw
    exact ⟨_, sp, seq, d, hmore, hlast, landByte_spec w.addr w.data hl hwf⟩
  case land =>
    obtain ⟨sp, seq, d, heq⟩ := beAhbLand_some hw
    obtain ⟨-, hspec⟩ := landBytes_spec w.addr w.data w.landed hwf
    exact ⟨_, sp, seq, d, heq, hspec⟩

/-! ## BACKEND's moves (R63 to R68) -/

/-- be_rx_push with its guard failing (R63). -/
theorem beRxPush_disabled {s : State} (e : Entry) (h : s.inflight = none ∨ 16 ≤ s.rxq.length ∨ moduleDisabled s = true ∨
    ∃ c, s.inflight = some c ∧ (c.dir ≠ some .read ∨ c.datsz.toNat ≤ c.delivered)) : beRxPush e s = s := by
  unfold beRxPush
  split
  · rfl
  · rename_i c hc
    have hguard : rxPushEnabled s = false := by
      simp only [rxPushEnabled, hc]
      obtain h | h | h | ⟨c', hc', h | h⟩ := h
      · rw [h] at hc
        cases hc
      · simp [Nat.not_lt.mpr h]
      · simp [h]
      all_goals
        obtain rfl : c = c' := Option.some.inj (hc.symm.trans hc')
        simp [h]
    rw [hguard, if_neg (by decide)]

/-- be_complete with its guard failing (R65). -/
theorem beComplete_disabled {s : State} (device : List Host.Cell) (h : s.inflight = none ∨ moduleDisabled s = true ∨
    ∃ c, s.inflight = some c ∧ c.dir = some .read ∧ c.delivered < c.datsz.toNat) : beComplete device s = s := by
  unfold beComplete
  split
  · rfl
  · rename_i c hc
    have hguard : completeEnabled s = false := by
      simp only [completeEnabled, hc]
      obtain h | h | ⟨c', hc', hd, h⟩ := h
      · rw [h] at hc
        cases hc
      · simp [h]
      · obtain rfl : c = c' := Option.some.inj (hc.symm.trans hc')
        simp [hd, h]
    rw [hguard, if_neg (by decide)]

/-- be_complete under its guard: the done bit, the arbiter, nothing in flight, and the device's own bytes (R65, R83). -/
theorem beComplete_frame {s : State} {c : Inflight} (device : List Host.Cell) (hc : s.inflight = some c)
    (hm : moduleDisabled s = false) (hd : c.dir = some .read → c.datsz.toNat ≤ c.delivered) :
    ∃ (fl : List Host.Cell) (d : Nat),
      beComplete device s = { s with
        regs.intr := s.regs.intr ||| 1, regs.sts0 := s.regs.sts0 ||| 3, inflight := none, win.flash := fl, draws := d } ∧
      (s.fault = none → d = s.draws) ∧ (device = [] ∨ s.params.flashModel = false → fl = s.win.flash) ∧
      (Memory.wf s.win.flash = true → ∀ a, (∀ x ∈ device, x.1 ≠ a) → Memory.read fl a = Memory.read s.win.flash a) := by
  have hempty : commandCells (commandTarget c s) [] = [] := by
    cases commandTarget c s <;> rfl
  obtain ⟨d, hdraws⟩ := sizesDrawn_frame { s with
    regs.intr := s.regs.intr ||| 1
    regs.sts0 := s.regs.sts0 ||| idleMask
    inflight := none
    win.flash :=
      if s.params.flashModel then Memory.writeCells s.win.flash (commandCells (commandTarget c s) device)
      else s.win.flash }
  refine ⟨_, d, (beComplete_enabled device hc hm hd).trans hdraws,
    fun hf => congrArg State.draws (hdraws.symm.trans (sizesDrawn_safe (by exact hf))), ?_, fun hwf a ha => ?_⟩
  · rintro (rfl | hmodel)
    · rw [hempty]
      exact ite_self _
    · rw [hmodel, if_neg (by decide)]
  · split
    · exact read_commandCells_other _ _ _ hwf (.inl ha)
    · rfl

/-- STS1 after an error (R43, R66). -/
theorem errStatus_spec (b : ErrBit) (code : BitVec 4) (id : BitVec 5) (onAhb : Bool) (sts1 : Word) :
    (b = .ipCmdErr → (errStatus b code id onAhb sts1).extractLsb' 24 4 = code ∧
      (errStatus b code id onAhb sts1).extractLsb' 16 5 = id ∧
      errStatus b code id onAhb sts1 &&& 0xF0E0FFFF = sts1 &&& 0xF0E0FFFF) ∧
    (b = .ahbCmdErr → (errStatus b code id onAhb sts1).extractLsb' 8 4 = code ∧
      (errStatus b code id onAhb sts1).extractLsb' 0 5 = id ∧
      errStatus b code id onAhb sts1 &&& 0xFFFFF0E0 = sts1 &&& 0xFFFFF0E0) ∧
    (b = .seqTimeout → onAhb = true → errStatus b code id onAhb sts1 = (sts1 &&& 0xFFFFF0FF) ||| 0x00000E00) ∧
    (b = .seqTimeout → onAhb = false → errStatus b code id onAhb sts1 = (sts1 &&& 0xF0FFFFFF) ||| 0x0E000000) ∧
    (b ∉ [ErrBit.ipCmdErr, .ahbCmdErr, .seqTimeout] → errStatus b code id onAhb sts1 = sts1) := by
  refine ⟨?_, ?_, ?_, ?_, fun hb => ?_⟩
  · rintro rfl
    exact errStatus_ipCmdErr code id onAhb sts1
  · rintro rfl
    exact errStatus_ahbCmdErr code id onAhb sts1
  · rintro rfl rfl
    rfl
  · rintro rfl rfl
    rfl
  · cases b with
    | ipCmdErr | ahbCmdErr | seqTimeout => exact absurd (by decide) hb
    | ipCmdGe | ahbCmdGe | dataLearnFail | ahbBusTimeout => rfl

theorem arbiterStatus_fields : ∀ (seq arb : Bool) (src : BitVec 2),
    (arbiterStatus seq arb src).getLsbD 0 = seq ∧ (arbiterStatus seq arb src).getLsbD 1 = arb ∧
    (arbiterStatus seq arb src).extractLsb' 2 2 = src ∧ (arbiterStatus seq arb src).extractLsb' 4 28 = 0 := by
  decide

/-- be_lock sets its port's two bits and keeps the others (R68). -/
theorem lockBits_set (p : Fin 2) (slave reference : Bool) (old : Word) :
    (setBits old (lockMask p) (lockBits p slave reference)).getLsbD (16 * p.val) = slave ∧
    (setBits old (lockMask p) (lockBits p slave reference)).getLsbD (16 * p.val + 1) = reference ∧
    setBits old (lockMask p) (lockBits p slave reference) &&& ~~~((3 : Word) <<< (16 * p.val)) =
      old &&& ~~~((3 : Word) <<< (16 * p.val)) := by
  have hp := p.isLt
  have hmask : ∀ p : Fin 2, (lockMask p).getLsbD (16 * p.val) = true ∧ (lockMask p).getLsbD (16 * p.val + 1) = true ∧
      lockMask p &&& ~~~((3 : Word) <<< (16 * p.val)) = 0 := by decide
  have hbits : ∀ (p : Fin 2) (slave reference : Bool),
      (lockBits p slave reference).getLsbD (16 * p.val) = slave ∧
      (lockBits p slave reference).getLsbD (16 * p.val + 1) = reference ∧
      lockBits p slave reference &&& ~~~((3 : Word) <<< (16 * p.val)) = 0 := by decide
  obtain ⟨hslave, hreference, hkept⟩ := hmask p
  obtain ⟨hslave', hreference', hkept'⟩ := hbits p slave reference
  refine ⟨?_, ?_, setBits_and hkept hkept' old⟩
  · rw [getLsbD_setBits _ _ _ _ (by omega), hslave, hslave']
    simp
  · rw [getLsbD_setBits _ _ _ _ (by omega), hreference, hreference']
    simp

/-- Settles O50, move by move. -/
theorem backendMoves : Obligations.BackendMoves := by
  intro s
  refine ⟨fun e c hi hd hl hq hm => beRxPush_some e hi hd hl hq hm, beRxPush_disabled, fun hm => ?pop, fun hm => if_pos hm,
    fun device c hi hm hd => beComplete_frame device hi hm hd, beComplete_disabled,
    fun b code id onAhb => ⟨_, rfl, errStatus_spec b code id onAhb s.regs.sts1⟩,
    fun seq arb src hi => ⟨_, if_pos (by rw [hi]; rfl), arbiterStatus_fields seq arb src⟩,
    fun seq arb src hi => if_neg (by simpa using hi),
    fun p slave reference hm => ⟨_, if_neg (by rw [moduleDisabled, hm]; decide), lockBits_set p slave reference s.regs.sts2⟩,
    fun p slave reference hm => if_pos hm, fun i => ⟨fun addr n got hm ha => ?read, fun addr data landed hm ha => ?write,
    fun h ev hev => ahb_unservable h hev, fun h ev hev => ahb_unbuffered h hev⟩⟩
  case pop =>
    rw [← List.drop_one]
    exact if_neg (by rw [moduleDisabled, hm]; decide)
  case read =>
    obtain ⟨bytes, sp, seq, d, hlen, heq, hread⟩ := beAhbServe_read hm ha
    exact ⟨bytes, sp, seq, d, hlen, heq, fun hmodel hsafe hi hb => hread (flashReadable_of hmodel hi hb hsafe)⟩
  case write =>
    refine ⟨fun hb hzero => ?_, fun hb => ?_⟩
    · subst hzero
      exact beAhbServe_buffered hm ha hb
    · obtain ⟨sp, seq, d, heq⟩ := beAhbServe_write hm ha hb
      refine ⟨landBytes addr data landed s, sp, seq, d, heq, fun hmodel => ?_, fun hwf => ?_⟩
      · rw [landBytes, hmodel, if_neg (by decide)]
      · obtain ⟨-, -, hother, hown⟩ := landBytes_spec addr data landed hwf
        exact ⟨hother, hown⟩

end Sys2Proof.Machine

/-!
PROOFS of O32 and O33. XWRITE's build and store, and the read of what a window write stored.
-/

namespace Sys2Proof.Machine

/-! ## A window write in the engine (R250, R251) -/

/-- A write with BUFFERABLEEN is kept pending (R93, R100). -/
theorem memWrite_buffered {s : State} (addr : Word) (data : List Byte) (h : bufferable s = true) :
    memWrite addr data 0 s = { s with win.buffered := s.win.buffered ++ [⟨addr, data, 0⟩] } := by
  simp [memWrite, h]

/-- Without it, it lands (R93). -/
theorem memWrite_lands {s : State} (addr : Word) (data : List Byte) (h : bufferable s = false) :
    ∃ (sp : Word) (seq : Vector (Fin 8) 4) (d : Nat), memWrite addr data 0 s = { s with
      win.flash := landBytes addr data 0 s, regs.ahbspndsts := sp, seqptr := seq, draws := d } := by
  obtain ⟨sp, seq, d, heq⟩ := ahbMoves_sizesDrawn { s with win.flash := landBytes addr data 0 s }
  refine ⟨sp, seq, d, Eq.trans ?_ heq⟩
  simp [memWrite, h, landWrite]

/-- With the module enabled a store takes its turn. -/
theorem drive_store (s : State) (e : Engine) (addr : Word) (b : Byte) (rest : List Micro) (n : Nat) (hf : s.fault = none)
    (hm : moduleDisabled s = false) :
    drive (n + 1) (s.at (e.withProgram (⟨.configuring, .store addr b⟩ :: rest)) []) =
      drive n (proceed rest (memWrite addr [b] 0 (s.at (e.withProgram (⟨.configuring, .store addr b⟩ :: rest)) []))) := by
  have henabled : moduleDisabled (s.at (e.withProgram (⟨.configuring, .store addr b⟩ :: rest)) []) = false := hm
  rw [drive_alone s _ n hf (by simp) (by simp [waiting, henabled]), engStep_cons _ _ _ _ _ hf, actStep, henabled,
    if_neg (by decide)]

/-- With it disabled the store waits (R92, R251). -/
theorem settled_store (s : State) (e : Engine) (addr : Word) (b : Byte) (rest : List Micro) (hm : moduleDisabled s = true) :
    settled (s.at (e.withProgram (⟨.configuring, .store addr b⟩ :: rest)) []) = true := by
  have hdisabled : moduleDisabled (s.at (e.withProgram (⟨.configuring, .store addr b⟩ :: rest)) []) = true := hm
  simp [settled, waiting, hdisabled]

/-- XWRITE with no other agent moving comes to its store, with the page-program slot built. -/
theorem exec_xwrite {s : State} {c : LogicalCommand} {addr : Word} (b : Byte) (hready : s.Ready) (hsched : s.sched = [])
    (hc : commandOf s.params .pageProgram = some c) (hadmits : windowAdmits addr 1 s = true) :
    ∃ n, exec (.xwrite addr [b]) s = .next (drive (n + 1) ((s.built .pageProgram c).at
      ((s.eng.opened (.xwrite addr [b]) none .done).withProgram [⟨.configuring, .store addr b⟩]) [])) := by
  have hgate : gate (.xwrite addr [b]) s = none :=
    gate_none (modeAllows_of_not_ramOnly rfl rfl _) rfl (kindDefined_of_some hc) hadmits
  have hexec : exec (.xwrite addr [b]) s = .next (run (configureOperation (.xwrite addr [b])
      (build s.params .configuring .pageProgram ++ [⟨.configuring, .store addr b⟩]) .done s)) := accept_run hready hgate
  have hlen := build_length (ph := .configuring) hc
  obtain ⟨n, hrun⟩ := run_eq_drive (s := configureOperation (.xwrite addr [b])
      (build s.params .configuring .pageProgram ++ [⟨.configuring, .store addr b⟩]) .done s)
    (k := 1 + (build s.params .configuring .pageProgram).length)
    (by rw [hlen]; exact Nat.le_trans (by omega) (le_budget _))
  have hwrites := drive_writes (build_plain (by decide)) s (s.eng.opened (.xwrite addr [b]) none .done) [] []
    ⟨.configuring, .store addr b⟩ [] (n + 1) hready.1 (.alone (build s.params .configuring .pageProgram).length)
  rw [applyAll_build hc] at hwrites
  exact ⟨n, by rw [hexec, hrun, configureOperation, begin_at, hsched, ← Nat.add_assoc, hwrites]⟩

/-- Settles O32: the sixteen writes of BUILD, then the store. -/
theorem xwriteBuildsAndStores : Obligations.XwriteBuildsAndStores := by
  intro s c addr b hready hsched hc hadmits hwf
  obtain ⟨n, hexec⟩ := exec_xwrite b hready hsched hc hadmits
  refine ⟨fun hm => ?waits, fun hm hb => ?pending, fun hm hb => ?lands⟩
  case waits =>
    have hwait := settled_store (s.built .pageProgram c) (s.eng.opened (.xwrite addr [b]) none .done) addr b [] hm
    have hat : (s.built .pageProgram c).at ((s.eng.opened (.xwrite addr [b]) none .done).withProgram
        [⟨.configuring, .store addr b⟩]) [] = { s.built .pageProgram c with
          eng := (s.eng.opened (.xwrite addr [b]) none .done).withProgram [⟨.configuring, .store addr b⟩] } := by
      rw [← hsched]
      rfl
    rw [drive_settled hwait, hat] at hexec
    exact ⟨(s.eng.opened (.xwrite addr [b]) none .done).withProgram [⟨.configuring, .store addr b⟩], rfl, rfl, hexec,
      step_settled hready.1 (by simp) hsched (hat ▸ hwait)⟩
  case pending =>
    rw [hexec, drive_store (s.built .pageProgram c) _ addr b [] n hready.1 hm,
      memWrite_buffered (s := (s.built .pageProgram c).at
        ((s.eng.opened (.xwrite addr [b]) none .done).withProgram [⟨.configuring, .store addr b⟩]) []) addr [b] hb]
    refine congrArg Host.Outcome.next ((congrArg (drive n) (proceed_nil_done
      { s.built .pageProgram c with win.buffered := s.win.buffered ++ [⟨addr, [b], 0⟩] } _ [] rfl)).trans ?_)
    rw [drive_idle]
    exact at_idle (by exact hsched) _
  case lands =>
    obtain ⟨sp, seq, d, hland⟩ := memWrite_lands (s := (s.built .pageProgram c).at
      ((s.eng.opened (.xwrite addr [b]) none .done).withProgram [⟨.configuring, .store addr b⟩]) []) addr [b] hb
    obtain ⟨-, hnone, hother, hown⟩ := landBytes_spec addr [b] 0 hwf
    refine ⟨landBytes addr [b] 0 s, sp, seq, d, ?_, hnone, fun a ha => hother a fun j _ hj => ?_, fun hmodel => ?_⟩
    · rw [hexec, drive_store (s.built .pageProgram c) _ addr b [] n hready.1 hm, hland]
      refine congrArg Host.Outcome.next ((congrArg (drive n) (proceed_nil_done
        { s.built .pageProgram c with
          win.flash := landBytes addr [b] 0 s, regs.ahbspndsts := sp, seqptr := seq, draws := d } _ [] rfl)).trans ?_)
      rw [drive_idle]
      exact at_idle (by exact hsched) _
    · obtain rfl : j = 0 := by simpa using hj
      exact ha
    · obtain ⟨a, ha⟩ := windowKey_of_admitted hadmits Nat.zero_lt_one
      exact ⟨a, ha, hown hmodel 0 a b (Nat.le_refl 0) rfl ha⟩

/-! ## Reading back (R98) -/

/-- With SAMEDEVICEEN settled the sizes are those of the stored registers, whatever was drawn (R24, R408). -/
theorem bankSize_same {s t : State} (hs : s.fault = none) (ht : t.fault = none) (hsu : s.unsettledMcr2 = false)
    (htu : t.unsettledMcr2 = false) (hmcr2 : t.regs.mcr2 = s.regs.mcr2) (hsizes : t.regs.flshcr0 = s.regs.flshcr0) :
    bankSize t = bankSize s := by
  have hsame : sameDevice t = sameDevice s := by rw [sameDevice_settled ht htu, sameDevice_settled hs hsu, hmcr2]
  funext k
  simp only [bankSize, hs, ht, hsame, hsizes, Option.isSome_none, Bool.false_eq_true, if_false]

/-- Two states with the same sizes translate alike (R95). -/
theorem windowKey_same {s t : State} (hparams : t.params = s.params) (hsizes : bankSize t = bankSize s) (a : Nat) :
    windowKey t a = windowKey s a := by
  rw [windowKey, windowKey, hparams, hsizes]

theorem windowAdmits_same {s t : State} (hparams : t.params = s.params) (hsizes : bankSize t = bankSize s) (addr : Word)
    (n : Nat) : windowAdmits addr n t = windowAdmits addr n s := by
  rw [windowAdmits, windowAdmits, hparams, hsizes]

/-- A machine in which what decides on a read of the window, but the flash model's bytes, is as in `s`. -/
structure ReadsLike (s t : State) : Prop where
  params : t.params = s.params
  fault : t.fault = s.fault
  mcr0 : t.regs.mcr0 = s.regs.mcr0
  mcr2 : t.regs.mcr2 = s.regs.mcr2
  sizes : t.regs.flshcr0 = s.regs.flshcr0
  unsettled : t.unsettledMcr2 = s.unsettledMcr2
  inflight : t.inflight = s.inflight
  buffered : t.win.buffered = s.win.buffered

/-- A range whose bytes now stand in the flash model is read as them. -/
theorem winrd_reads {s t : State} (h : ReadsLike s t) {addr n : Word} {data : List Byte} (hn : n ≠ 0)
    (hlen : n.toNat = data.length) (hsafe : s.Safe) (hadmits : windowAdmits addr n.toNat s = true)
    (hm : moduleDisabled s = false) (hmodel : s.params.flashModel = true) (hunsettled : s.unsettledMcr2 = false)
    (hi : s.inflight = none) (hb : s.win.buffered = [])
    (hdata : ∀ j b, data[j]? = some b → ∃ a, windowKey s (addr.toNat + j) = some a ∧ Memory.read t.win.flash a = b) :
    ∃ u, exec (.winrd addr n) t = .next u ∧ u.eng.result = some (resultOf .ok 0 data) := by
  have hsizes : bankSize t = bankSize s :=
    bankSize_same hsafe (h.fault.trans hsafe) hunsettled (h.unsettled.trans hunsettled) h.mcr2 h.sizes
  have hm' : moduleDisabled t = false := by rw [moduleDisabled, h.mcr0]; exact hm
  obtain ⟨henabled, -⟩ := winrdReturnsItsBytes t addr n hn (h.fault.trans hsafe)
    ((windowAdmits_same h.params hsizes addr n.toNat).trans hadmits)
  obtain ⟨bytes, sp, seq, d, hexec, hcount, hread⟩ := henabled hm'
  refine ⟨_, hexec, congrArg (fun bytes => some (resultOf .ok 0 bytes)) (List.ext_getElem? fun j => ?_)⟩
  by_cases hj : j < n.toNat
  · obtain ⟨a, ha, hbyte⟩ := hread (h.params ▸ hmodel) (h.inflight.trans hi) (h.buffered.trans hb) j hj
    obtain ⟨b, hdb⟩ : ∃ b, data[j]? = some b := ⟨_, List.getElem?_eq_getElem (hlen ▸ hj)⟩
    obtain ⟨a', ha', hab⟩ := hdata j b hdb
    rw [windowKey_same h.params hsizes] at ha
    obtain rfl : a = a' := Option.some.inj (ha.symm.trans ha')
    rw [hbyte, hdb, hab]
  · rw [List.getElem?_eq_none (by omega), List.getElem?_eq_none (by omega)]

/-- Settles O33, from what O30 and O32 leave in the flash model. -/
theorem windowRoundTrip : Obligations.WindowRoundTrip := by
  intro s addr hmodel hwf hready hm hbuf hunsettled hi hb
  refine ⟨fun len data hne hlen hmode hadmits => ?winwr, fun c b hc hsched hadmits => ?xwrite⟩
  case winwr =>
    obtain ⟨-, -, -, -, hlands⟩ := winwrWritesItsBytes s addr len data hne hlen hready.1 hmode hadmits hwf
    obtain ⟨fl, sp, seq, d, hexec, -, -, -, hown⟩ := hlands hm hbuf
    have hlike : ReadsLike s { s with
        win.flash := fl, eng.result := some (resultOf .ok 0 []), regs.ahbspndsts := sp, seqptr := seq, draws := d } := by
      constructor <;> rfl
    obtain ⟨u, hread, hresult⟩ := winrd_reads hlike hne hlen hready.1 hadmits hm hmodel hunsettled hi hb (hown hmodel)
    exact ⟨_, u, hexec, hread, hresult⟩
  case xwrite =>
    obtain ⟨-, -, hlands⟩ := xwriteBuildsAndStores s c addr b hready hsched hc hadmits hwf
    obtain ⟨fl, sp, seq, d, hexec, -, -, hown⟩ := hlands hm hbuf
    obtain ⟨a, ha, hab⟩ := hown hmodel
    have hlike : ReadsLike s (({ s.built .pageProgram c with
        win.flash := fl, regs.ahbspndsts := sp, seqptr := seq, draws := d } : State).answered (resultOf .ok 0 [])) := by
      constructor <;> rfl
    obtain ⟨u, hread, hresult⟩ := winrd_reads hlike (n := 1) (data := [b]) (by decide) rfl hready.1 hadmits hm hmodel
      hunsettled hi hb fun j b' hdb => by
        obtain ⟨rfl, rfl⟩ : j = 0 ∧ b = b' := by
          cases j with
          | zero => exact ⟨rfl, Option.some.inj hdb⟩
          | succ j => cases hdb
        exact ⟨a, ha, hab⟩
    exact ⟨_, u, hexec, hread, hresult⟩

end Sys2Proof.Machine
